-- ==== Sys2Proof/Word.lean ====
section
/-! DEFINITION. The word types of the Spindrel 3140: bytes of a frame, 48-bit tick values, sets of probes. -/

namespace Sys2Proof

/-- One byte of a frame (spec 10, R172). -/
abbrev Byte := BitVec 8

/-- A 48-bit tick value: a stamp, a deadline, the present time (spec 01, R1). -/
abbrev Tick := BitVec 48

/-- A set of probes as the mask it is sent as: bit n stands for probe n (spec 10, R172). -/
abbrev ProbeSet := BitVec 16

/-- The number of a probe, 0 to 15 (spec 05, R77). -/
abbrev ProbeNo := Fin 16

/-- Whether a set of probes names a probe. -/
def ProbeSet.has (set : ProbeSet) (i : ProbeNo) : Bool := set.getLsbD i

end Sys2Proof
end

