-- ==== Sys2Proof/Syntax.lean ====
section
/-! DEFINITION. What the outside sends: the fields and kinds of observation records (spec 01, Table 1-1), the two
ports, and the one inductive of the block's commands, a constructor for each row of spec/opcode_table.json. -/

namespace Sys2Proof

/-- The two management ports (spec 09). -/
inductive Port
  | a
  | b
deriving DecidableEq, Repr

/-- The other of the two ports. -/
def Port.other : Port → Port
  | .a => .b
  | .b => .a

/-- The five request kinds (Table 1-2). -/
inductive RequestKind
  | read
  | npwrite
  | atomic
  | posted
  | message
deriving DecidableEq, Repr

/-- Completion statuses (Table 1-1). -/
inductive Status
  | ok
  | unsupported
  | aborted
deriving DecidableEq, Repr

/-- Credit types of a STALL record (Table 1-1). -/
inductive CreditType
  | postedHdr
  | postedData
  | nonposted
  | completion
deriving DecidableEq, Repr

/-- Error classes of a LINKERR record (Table 1-1). -/
inductive ErrorClass
  | receiver
  | protocol
  | creditOverflow
deriving DecidableEq, Repr

/-- The six record kinds; also the count events of COUNT probes (Table 1-1, Table 5-1). -/
inductive RecordKind
  | req
  | cpl
  | stall
  | retry
  | linkerr
  | mark
deriving DecidableEq, Repr

/-- A valid observation record, as its named fields (Table 1-1). -/
inductive Record
  | req (requester : Fin 32) (tag : Byte) (kind : RequestKind) (length : Nat)
  | cpl (requester : Fin 32) (tag : Byte) (status : Status) (bytes : Nat) (last : Bool)
  | stall (credit : CreditType)
  | retry
  | linkerr (cls : ErrorClass)
  | mark (label : BitVec 16)
deriving DecidableEq, Repr

/-- The kind of a record. -/
def Record.kind : Record → RecordKind
  | .req _ _ _ _ => .req
  | .cpl _ _ _ _ _ => .cpl
  | .stall _ => .stall
  | .retry => .retry
  | .linkerr _ => .linkerr
  | .mark _ => .mark

/-- What causes a device reset (Table 0-3): RESET_N pulled low, which holds the part in reset until
RESET_N_RELEASE; or power-on with RESET_N high, which resets the part and releases it with the strap pins
BAUD_SEL1 and BAUD_SEL0 at the given levels (R153; log 2). -/
inductive ResetCause
  | resetNLow
  | powerOn (sel1 sel0 : Bool)
deriving DecidableEq, Repr

/-- What discards a partial frame at a character (R156): a character whose stop bit is low, in a low period of
the line that began when the Timebase held `lowSince` (R154); a second length byte that puts the length out of
range; a second CRC byte that does not match. -/
inductive DiscardCause
  | framingError (lowSince : Tick)
  | lengthOutOfRange (high : Byte)
  | badCrc (high : Byte)
deriving DecidableEq, Repr

/-- The commands of the block, one constructor for each row of spec/opcode_table.json. The commands that a
dispatcher executes carry the port; the type, sequence number and body of the command are at the head of that
port's command queue (R160). -/
inductive Instr
  /-- DEVICE_RESET (R153). -/
  | deviceReset (cause : ResetCause)
  /-- RECORD_TRANSFER (R7): the 64 data bits of the tap bus. -/
  | recordTransfer (data : BitVec 64)
  /-- TAKE_RECORD (R11). -/
  | takeRecord
  /-- EXPIRY (R53). -/
  | expiry
  /-- DRAIN_CUT (R98): the probe whose drain is cut. -/
  | drainCut (probe : ProbeNo)
  /-- SWEEP_VISIT (R103). -/
  | sweepVisit
  /-- FRAME_RECEIVED (R157): the second CRC byte of a frame whose CRC matches. -/
  | frameReceived (port : Port) (high : Byte)
  /-- FRAME_DISCARD (R156). -/
  | frameDiscard (port : Port) (cause : DiscardCause)
  /-- FRAME_GAP_TIMEOUT (R156). -/
  | frameGapTimeout (port : Port)
  /-- PORT_RESET (R163). -/
  | portReset (port : Port)
  /-- TRANSMIT_START (R161). -/
  | transmitStart (port : Port)
  /-- TRANSMIT_END (R161). -/
  | transmitEnd (port : Port)
  /-- ALERT_RESEND_TIMEOUT (R148). -/
  | alertResendTimeout (port : Port)
  /-- COMMAND_RETRY (R162). -/
  | commandRetry (port : Port)
  /-- UNKNOWN_COMMAND (R177). -/
  | unknownCommand (port : Port)
  /-- IDENTIFY (R170). -/
  | identify (port : Port)
  /-- PORT_STATUS (R171). -/
  | portStatus (port : Port)
  /-- OPEN_SESSION (R165). -/
  | openSession (port : Port)
  /-- CLOSE_SESSION (R166). -/
  | closeSession (port : Port)
  /-- CLAIM_CONFIG (R168). -/
  | claimConfig (port : Port)
  /-- UNCLAIM_CONFIG (R169). -/
  | unclaimConfig (port : Port)
  /-- INTAKE_ENABLE (R13). -/
  | intakeEnable (port : Port)
  /-- INTAKE_DISABLE (R14). -/
  | intakeDisable (port : Port)
  /-- READ_INTAKE (R15). -/
  | readIntake (port : Port)
  /-- READ_GLOBALS (R39). -/
  | readGlobals (port : Port)
  /-- LIST_PENDING (R41). -/
  | listPending (port : Port)
  /-- CLEAR_TRACKING (R42). -/
  | clearTracking (port : Port)
  /-- SET_TIMEOUTS (R46). -/
  | setTimeouts (port : Port)
  /-- READ_TIMEOUTS (R47). -/
  | readTimeouts (port : Port)
  /-- LIST_EXPIRED (R58). -/
  | listExpired (port : Port)
  /-- SET_GROUP_MAP (R67). -/
  | setGroupMap (port : Port)
  /-- READ_GROUP_MAP (R68). -/
  | readGroupMap (port : Port)
  /-- CLAIM_PROBES (R79). -/
  | claimProbes (port : Port)
  /-- UNCLAIM_PROBES (R80). -/
  | unclaimProbes (port : Port)
  /-- DEFINE_PROBE (R85). -/
  | defineProbe (port : Port)
  /-- START_PROBES (R86). -/
  | startProbes (port : Port)
  /-- STOP_PROBES (R87). -/
  | stopProbes (port : Port)
  /-- CLEAR_PROBES (R89). -/
  | clearProbes (port : Port)
  /-- PROBE_STATUS (R90). -/
  | probeStatus (port : Port)
  /-- POOL_STATUS (R118). -/
  | poolStatus (port : Port)
  /-- HARVEST (R124). -/
  | harvest (port : Port)
  /-- READ_SNAPSHOT (R129). -/
  | readSnapshot (port : Port)
  /-- FREE_SNAPSHOT (R130). -/
  | freeSnapshot (port : Port)
  /-- SNAPSHOT_STATUS (R131). -/
  | snapshotStatus (port : Port)
  /-- SET_TRIGGER (R133). -/
  | setTrigger (port : Port)
  /-- CLEAR_TRIGGER (R134). -/
  | clearTrigger (port : Port)
  /-- TRIGGER_STATUS (R135). -/
  | triggerStatus (port : Port)
  /-- SET_ALERT_MASK (R144). -/
  | setAlertMask (port : Port)
  /-- ACK_ALERT (R149). -/
  | ackAlert (port : Port)
  /-- ALERT_STATUS (R150). -/
  | alertStatus (port : Port)
  /-- TIMEBASE_TICK (R1). -/
  | timebaseTick
  /-- RESET_N_RELEASE (R153): the levels of BAUD_SEL1 and BAUD_SEL0. -/
  | resetNRelease (sel1 sel0 : Bool)
  /-- CHARACTER_RECEIVED (R155): a good character. -/
  | characterReceived (port : Port) (char : Byte)
  /-- BREAK_END (R154). -/
  | breakEnd (port : Port)
deriving DecidableEq, Repr

end Sys2Proof
end

