-- ==== Sys2Proof/Decode.lean ====
section
/-! DEFINITION. Decoding. No row of spec/opcode_table.json gives a command any bits, so `decodeTableWord` spells none.
The block does decode what its own ways in carry as bits: here the 64-bit tap record (R173, with the checks of
R3 to R6) and the codes of its fields (Table 10-2), with the encoder of a record beside it. -/

namespace Sys2Proof

/-- The command that a word spells by the table's bits: the table gives no row bits (log 16). -/
def decodeTableWord (_nbits _w : Nat) : Option Instr := none

/-- Record kind codes; 6 and 7 are undefined (R173). -/
def recordKindOfCode : Nat → Option RecordKind
  | 0 => some .req
  | 1 => some .cpl
  | 2 => some .stall
  | 3 => some .retry
  | 4 => some .linkerr
  | 5 => some .mark
  | _ => none

/-- Code of a record kind (Table 10-2). -/
def RecordKind.code : RecordKind → Nat
  | .req => 0
  | .cpl => 1
  | .stall => 2
  | .retry => 3
  | .linkerr => 4
  | .mark => 5

/-- Request kind codes; 5 to 7 are undefined (R173). -/
def requestKindOfCode : Nat → Option RequestKind
  | 0 => some .read
  | 1 => some .npwrite
  | 2 => some .atomic
  | 3 => some .posted
  | 4 => some .message
  | _ => none

/-- Code of a request kind (Table 10-2). -/
def RequestKind.code : RequestKind → Nat
  | .read => 0
  | .npwrite => 1
  | .atomic => 2
  | .posted => 3
  | .message => 4

/-- Completion status codes; 3 is undefined (R173). -/
def statusOfCode : Nat → Option Status
  | 0 => some .ok
  | 1 => some .unsupported
  | 2 => some .aborted
  | _ => none

/-- Code of a completion status (Table 10-2). -/
def Status.code : Status → Nat
  | .ok => 0
  | .unsupported => 1
  | .aborted => 2

/-- Credit type codes; all four two-bit codes are defined (R6). -/
def creditTypeOfCode : Nat → Option CreditType
  | 0 => some .postedHdr
  | 1 => some .postedData
  | 2 => some .nonposted
  | 3 => some .completion
  | _ => none

/-- Code of a credit type (Table 10-2). -/
def CreditType.code : CreditType → Nat
  | .postedHdr => 0
  | .postedData => 1
  | .nonposted => 2
  | .completion => 3

/-- Error class codes; 3 is undefined (R173). -/
def errorClassOfCode : Nat → Option ErrorClass
  | 0 => some .receiver
  | 1 => some .protocol
  | 2 => some .creditOverflow
  | _ => none

/-- Code of an error class (Table 10-2). -/
def ErrorClass.code : ErrorClass → Nat
  | .receiver => 0
  | .protocol => 1
  | .creditOverflow => 2

/-- The tag that joins the queue: 0 for POSTED and MESSAGE requests, as presented for the others (R4). -/
def keptTag (kind : RequestKind) (tag : Byte) : Byte :=
  match kind with
  | .read | .npwrite | .atomic => tag
  | .posted | .message => 0

/-- The length range of a REQ record by request kind (Table 1-2, R4). -/
def RequestKind.lengthOk (kind : RequestKind) (length : Nat) : Bool :=
  match kind with
  | .read | .npwrite => 1 ≤ length && length ≤ 4096
  | .atomic => length == 4 || length == 8
  | .posted | .message => length ≤ 4096

/-- The record field of `width` bits whose lowest bit is bit `low` of the transfer (Table 10-1). -/
def recordField (data : BitVec 64) (low width : Nat) : Nat := (data.extractLsb' low width).toNat

/-- REQ: requester 8..3, tag 16..9, request kind 19..17, length 32..20 (Table 10-1, R4). -/
def decodeReq (data : BitVec 64) : Option Record :=
  let requester := recordField data 3 6
  let length := recordField data 20 13
  if h : requester < 32 then
    match requestKindOfCode (recordField data 17 3) with
    | some kind =>
      if kind.lengthOk length then
        some (.req ⟨requester, h⟩ (keptTag kind (data.extractLsb' 9 8)) kind length)
      else none
    | none => none
  else none

/-- CPL: requester 8..3, tag 16..9, status 18..17, bytes 31..19, last flag 32 (Table 10-1, R5). -/
def decodeCpl (data : BitVec 64) : Option Record :=
  let requester := recordField data 3 6
  let bytes := recordField data 19 13
  if h : requester < 32 then
    match statusOfCode (recordField data 17 2) with
    | some status =>
      if bytes ≤ 4096 then
        some (.cpl ⟨requester, h⟩ (data.extractLsb' 9 8) status bytes (data.getLsbD 32))
      else none
    | none => none
  else none

/-- The check of an arriving record (R3): the valid record with the fields it carries, or none. -/
def decodeRecord (data : BitVec 64) : Option Record :=
  match recordKindOfCode (recordField data 0 3) with
  | some .req => decodeReq data
  | some .cpl => decodeCpl data
  | some .stall => (creditTypeOfCode (recordField data 3 2)).map .stall
  | some .retry => some .retry
  | some .linkerr => (errorClassOfCode (recordField data 3 2)).map .linkerr
  | some .mark => some (.mark (data.extractLsb' 3 16))
  | none => none

/-- The transfer that carries a record, every bit outside its kind's fields 0 (Table 10-1). -/
def encodeRecord : Record → BitVec 64
  | .req requester tag kind length =>
    BitVec.ofNat 64 (2 ^ 3 * requester.val + 2 ^ 9 * tag.toNat + 2 ^ 17 * kind.code + 2 ^ 20 * length)
  | .cpl requester tag status bytes last =>
    BitVec.ofNat 64
      (1 + 2 ^ 3 * requester.val + 2 ^ 9 * tag.toNat + 2 ^ 17 * status.code + 2 ^ 19 * bytes + 2 ^ 32 * last.toNat)
  | .stall credit => BitVec.ofNat 64 (2 + 2 ^ 3 * credit.code)
  | .retry => BitVec.ofNat 64 3
  | .linkerr cls => BitVec.ofNat 64 (4 + 2 ^ 3 * cls.code)
  | .mark label => BitVec.ofNat 64 (5 + 2 ^ 3 * label.toNat)

end Sys2Proof
end

