-- ==== Sys2Proof/Config.lean ====
section
/-! DEFINITION. The fixed figures of the part: its capacities, reset values and intervals, each with the rule of
spec/ that states it. The spec leaves no value of a command open, so there is no free value here. -/

namespace Sys2Proof.Config

/-- Pending Table entries (R18). -/
def tableEntries : Nat := 256
/-- Probes of the Probe Bank (R77). -/
def probeCount : Nat := 16
/-- Histogram units of the pool (R109). -/
def unitCount : Nat := 8
/-- Snapshot slots (R121). -/
def slotCount : Nat := 4
/-- Triggers (R132). -/
def triggerCount : Nat := 4
/-- Records the intake queue holds (R10). -/
def intakeRecords : Nat := 64
/-- Records the expired-key ring holds (R55). -/
def ringRecords : Nat := 16
/-- Alerts one port's queue holds (R145). -/
def alertRecords : Nat := 16
/-- Commands one port's queue holds (R159). -/
def queuedCommands : Nat := 4

/-- At or below this occupancy a closure sets the table-full armed flag (R25, R36). -/
def rearmOccupancy : Nat := 192

/-- Timeout of each tracked kind after device reset, 50 ms (R45). -/
def resetTimeout : BitVec 32 := 6250000#32
/-- Least timeout SET_TIMEOUTS accepts (R45, R46). -/
def leastTimeout : Nat := 125
/-- Greatest histogram parameter, 2^24 ticks (R110). -/
def greatestParameter : Nat := 16777216

/-- Alert resend interval, 250 ms (R148). -/
def resendTicks : Tick := 31250000#48
/-- Longest gap between two characters of a frame, 5 ms (R156). -/
def gapTicks : Nat := 625000
/-- Low period of a receive line that gives a port reset, 1 ms (R154). -/
def breakTicks : Nat := 125000

/-- Start byte of a frame (R155, Table 10-3). -/
def startByte : Byte := 0xC3#8
/-- Type byte of an alert frame (R174). -/
def alertType : Byte := 0x80#8

/-- Part code that IDENTIFY reports (R170). -/
def partCode : Nat := 3140
/-- Revision that parts of this edition report (R170). -/
def revision : Nat := 1

end Sys2Proof.Config
end

