-- ==== Sys2Proof/Machine/State.lean ====
section
/-! DEFINITION. The state of the part, as plain data, grouped by the blocks of the manual (00_scope §2): the
Observation Port, the Tracking Engine, the Probe Bank, the Histogram Pool, the Harvest Unit, and the management ports
with the Alert Unit's queues. `State.reset` is the machine right after the release of device reset. -/

namespace Sys2Proof.Machine

/-! ### Observation Port (spec 01) -/

/-- A record of the intake queue with its stamp (R2, R7). -/
structure Stamped where
  record : Record
  stamp : Tick
deriving DecidableEq, Repr

/-- The Observation Port (R16): intake state, intake queue (oldest first), the two counts and the loss-alert armed
flag. -/
structure Observation where
  enabled : Bool
  queue : List Stamped
  lossCount : BitVec 32
  rejectedCount : BitVec 32
  lossArmed : Bool
deriving DecidableEq, Repr

/-! ### Tracking Engine (spec 02, 03, 04) -/

/-- The pair that identifies a transaction (Table 0-1). -/
structure Key where
  requester : Fin 32
  tag : Byte
deriving DecidableEq, Repr

/-- The request kinds that are followed in the Pending Table (Table 1-2). -/
inductive TrackedKind
  | read
  | npwrite
  | atomic
deriving DecidableEq, Repr

/-- The two states of a pending entry (R19). -/
inductive EntryState
  | awaiting
  | receiving
deriving DecidableEq, Repr

/-- A pending entry (Table 2-1). `dueAhead` is the model's own: absent until the deadline becomes reached, then how
many records now at the head of the intake queue were queued before that, or by an admission past the deadline, and so
may be taken ahead of the expiry (R11, R52, R54; log 6). -/
structure Entry where
  index : Fin 256
  key : Key
  kind : TrackedKind
  group : Fin 8
  expected : Nat
  received : Nat
  parts : Nat
  issue : Tick
  first : Option Tick
  deadline : Tick
  matchSet : ProbeSet
  state : EntryState
  dueAhead : Option Nat
deriving DecidableEq, Repr

/-- A record of the expired-key ring (R55). -/
structure RingRecord where
  key : Key
  kind : TrackedKind
  expiry : Tick
deriving DecidableEq, Repr

/-- The three timeouts, in ticks (R45). -/
structure Timeouts where
  read : BitVec 32
  npwrite : BitVec 32
  atomic : BitVec 32
deriving DecidableEq, Repr

/-- The ten global transaction counters (Table 2-7). -/
structure Globals where
  admitted : BitVec 64
  untracked : BitVec 64
  completed : BitVec 64
  failed : BitVec 64
  malformed : BitVec 64
  timedOut : BitVec 64
  superseded : BitVec 64
  flushed : BitVec 64
  late : BitVec 64
  orphan : BitVec 64
deriving DecidableEq, Repr

/-- The Tracking Engine. `table` holds every pending entry once, in deadline-list order, head first: the Pending
Table and the deadline list in one home (R18, R49; log 9). The ring is oldest first (R55). -/
structure Tracking where
  table : List Entry
  ring : List RingRecord
  timeouts : Timeouts
  groupMap : Vector (Fin 8) 32
  globals : Globals
  tableFullArmed : Bool
deriving DecidableEq, Repr

/-! ### Probe Bank (spec 05) -/

/-- The six probe states (R78). -/
inductive ProbeState
  | unbound
  | armed
  | running
  | draining
  | purging
  | held
deriving DecidableEq, Repr

/-- What a probe records; a COUNT probe carries its count event, a latency probe has none (Table 5-1, R77). -/
inductive Measure
  | count (event : RecordKind)
  | first
  | full
deriving DecidableEq, Repr

/-- Whether a measure is that of a latency probe (spec 05, §5.1). -/
def Measure.isLatency : Measure → Bool
  | .count _ => false
  | .first => true
  | .full => true

/-- The eight selector fields (Table 4-1); sets are masks by code, ranges hold both ends. -/
structure Selector where
  groupSet : Byte
  kindSet : Byte
  statusSet : Byte
  creditSet : Byte
  errorSet : Byte
  tagLo : Nat
  tagHi : Nat
  lengthLo : Nat
  lengthHi : Nat
  labelLo : Nat
  labelHi : Nat
deriving DecidableEq, Repr

/-- The definition part of a probe record, less the histogram (R77). -/
structure Definition where
  measure : Measure
  selector : Selector
  threshold : BitVec 32
  alertLimit : BitVec 32
  drainLimit : BitVec 32
deriving DecidableEq, Repr

/-- The values of a probe (Table 5-1). -/
structure Values where
  samples : BitVec 64
  sum : BitVec 64
  min : Tick
  max : Tick
  overCount : BitVec 32
  timeouts : BitVec 32
  faults : BitVec 32
deriving DecidableEq, Repr

/-- The values of a probe that has recorded nothing (Table 0-1). -/
def Values.initial : Values :=
  { samples := 0, sum := 0, min := BitVec.allOnes 48, max := 0, overCount := 0, timeouts := 0, faults := 0 }

/-- A probe record (Table 5-1). `cutAhead` is the model's own, as `Entry.dueAhead`, for the drain deadline (log 6). -/
structure Probe where
  state : ProbeState
  owner : Option Port
  definition : Option Definition
  unit : Option (Fin 8)
  inFlight : Nat
  alertArmed : Bool
  drainDeadline : Option Tick
  cutCount : Option Nat
  cutAhead : Option Nat
  values : Values
deriving DecidableEq, Repr

/-- A probe after device reset (R106). -/
def Probe.reset : Probe :=
  { state := .unbound, owner := none, definition := none, unit := none, inFlight := 0, alertArmed := true,
    drainDeadline := none, cutCount := none, cutAhead := none, values := Values.initial }

/-- The purge engine (R101): current sweep set, pending purge set (`waiting`) and sweep position. `visitAhead` is the
model's own: how many queued records may be taken ahead of the due visit (R11; log 6). -/
structure Purge where
  current : ProbeSet
  waiting : ProbeSet
  position : Option (Fin 256)
  visitAhead : Nat
deriving DecidableEq, Repr

/-- The Probe Bank: sixteen probes and the purge engine. -/
structure Bank where
  probes : Vector Probe 16
  purge : Purge
deriving DecidableEq, Repr

/-! ### Histogram Pool (spec 06) -/

/-- The two binning modes. -/
inductive HistMode
  | log
  | linear
deriving DecidableEq, Repr

/-- An attached histogram unit (Table 6-1); a FREE unit is `none`. -/
structure HistUnit where
  probe : ProbeNo
  mode : HistMode
  parameter : BitVec 32
  bins : Vector (BitVec 32) 16
deriving DecidableEq, Repr

/-! ### Harvest Unit (spec 07) -/

/-- What made a harvest (Table 7-1, Table 7-2). -/
inductive Origin
  | command
  | trigger (number : Fin 4) (label : BitVec 16) (stamp : Tick)
deriving DecidableEq, Repr

/-- The device totals of a header page (Table 7-2). -/
structure Header where
  captureTime : Tick
  captured : ProbeSet
  zeroed : ProbeSet
  occupancy : Nat
  globals : Globals
  lossCount : BitVec 32
  rejectedCount : BitVec 32
deriving DecidableEq, Repr

/-- The histogram part of a probe page (Table 7-3). -/
structure PageHist where
  unit : Fin 8
  mode : HistMode
  parameter : BitVec 32
  bins : Vector (BitVec 32) 16
deriving DecidableEq, Repr

/-- A probe page (Table 7-3). -/
structure ProbePage where
  probe : ProbeNo
  state : ProbeState
  owner : Option Port
  measure : Option Measure
  inFlight : Nat
  values : Values
  hist : Option PageHist
deriving DecidableEq, Repr

/-- A FILLED snapshot slot (Table 7-1); a FREE slot is `none`. The page count is 1 plus the number of pages. -/
structure Slot where
  owner : Port
  origin : Origin
  number : BitVec 16
  header : Header
  pages : List ProbePage
deriving DecidableEq, Repr

/-- The two trigger modes, ONCE and REPEAT. -/
inductive TriggerMode
  | once
  | repeating
deriving DecidableEq, Repr

/-- A SET trigger (Table 7-4); an EMPTY trigger is `none`. -/
structure Trigger where
  owner : Port
  label : BitVec 16
  probes : ProbeSet
  zero : Bool
  mode : TriggerMode
  fired : BitVec 32
deriving DecidableEq, Repr

/-- The Harvest Unit (R121, R122, R132). -/
structure Harvester where
  slots : Vector (Option Slot) 4
  triggers : Vector (Option Trigger) 4
  number : BitVec 16
deriving DecidableEq, Repr

/-! ### Alerts and management ports (spec 08, 09) -/

/-- How a drain ended (Table 10-2). -/
inductive DrainOutcome
  | emptied
  | cut
  | flushed
deriving DecidableEq, Repr

/-- The condition an alert reports: its kind with its subject and detail (Table 8-2). -/
inductive Condition
  | probeLimit (probe : ProbeNo) (overCount : BitVec 32)
  | drained (probe : ProbeNo) (outcome : DrainOutcome) (abandoned : Nat)
  | harvested (slot : Fin 4) (trigger : Fin 4) (number : BitVec 16)
  | triggerMissed (trigger : Fin 4) (label : BitVec 16)
  | tableFull (untracked : BitVec 64)
  | intakeLoss (loss : BitVec 32)
deriving DecidableEq, Repr

/-- An alert record (Table 8-1). -/
structure Alert where
  number : BitVec 16
  time : Tick
  condition : Condition
  lost : BitVec 16
deriving DecidableEq, Repr

/-- What the port keeps of its head alert: the sent mark (R147), whether it is due, and the end of its last
transmission while its resend timer runs (R148). All clear when the queue is empty. -/
structure HeadAlert where
  sent : Bool
  due : Bool
  timer : Option Tick
deriving DecidableEq, Repr

/-- The condition of an alert that has just become the head: never sent, due at once (R148). -/
def HeadAlert.fresh : HeadAlert := { sent := false, due := true, timer := none }

/-- No head alert. -/
def HeadAlert.none : HeadAlert := { sent := false, due := false, timer := Option.none }

/-- A port's alert mask, a subset of TABLE_FULL and INTAKE_LOSS (R143). -/
structure AlertMask where
  tableFull : Bool
  intakeLoss : Bool
deriving DecidableEq, Repr

/-- The empty alert mask. -/
def AlertMask.empty : AlertMask := { tableFull := false, intakeLoss := false }

/-- The framer (Table 9-2): its state with the bytes of the partial frame and the Timebase value at the stop bit of
the last character. CONTENT and CHECK hold the type, sequence number and body received so far. -/
inductive Framer
  | hunt
  | length (low : Option Byte) (last : Tick)
  | content (length : Nat) (got : List Byte) (last : Tick)
  | check (content : List Byte) (low : Option Byte) (last : Tick)
deriving DecidableEq, Repr

/-- A low period of the receive line in which a framing error has been found: the Timebase value at its start, and
whether it has given its port reset (R154; log 12). -/
structure LowPeriod where
  since : Tick
  resetTaken : Bool
deriving DecidableEq, Repr

/-- An accepted command (R159). -/
structure Command where
  type : Byte
  seq : Byte
  body : List Byte
deriving DecidableEq, Repr

/-- The reply codes (Table 10-4). -/
inductive ReplyCode
  | ok
  | queueFull
  | notOpen
  | notHolder
  | heldElsewhere
  | notOwner
  | ownedElsewhere
  | badState
  | inProgress
  | noResource
  | badArgument
  | badLength
  | unknownCommand
deriving DecidableEq, Repr

/-- A reply: the type and sequence number it answers, its code and its body (R174). -/
structure Reply where
  type : Byte
  seq : Byte
  code : ReplyCode
  body : List Byte
deriving DecidableEq, Repr

/-- What the frame being sent is (R161); for an alert, whether the record it carries is still the head (R147). -/
inductive Sending
  | notice
  | reply
  | alert (stillHead : Bool)
deriving DecidableEq, Repr

/-- A frame being sent: what it is, and its bytes on the line. -/
structure Transmission where
  what : Sending
  bytes : List Byte
deriving DecidableEq, Repr

/-- One management port with its alert queue (R153, R141, R145). `executing` is the command that the dispatcher has taken
from the queue and not yet answered (R153, R160; log 7). -/
structure PortState where
  framer : Framer
  low : Option LowPeriod
  rejectCount : BitVec 16
  isOpen : Bool
  sessionNumber : BitVec 16
  commands : List Command
  executing : Option Command
  reply : Option Reply
  lastReply : Option Reply
  notice : Option Reply
  sending : Option Transmission
  alerts : List Alert
  head : HeadAlert
  lostCount : BitVec 16
  alertNumber : BitVec 16
  mask : AlertMask
deriving DecidableEq, Repr

/-- A port after device reset (R153, R152). -/
def PortState.reset : PortState :=
  { framer := .hunt, low := none, rejectCount := 0, isOpen := false, sessionNumber := 0, commands := [],
    executing := none, reply := none, lastReply := none, notice := none, sending := none, alerts := [],
    head := HeadAlert.none, lostCount := 0, alertNumber := 0, mask := AlertMask.empty }

/-- The management side: the two ports, the device-wide session number, the holder of the configuration claim and
the undeliverable-alert count (R142, R153, R167). -/
structure Management where
  portA : PortState
  portB : PortState
  sessionCount : BitVec 16
  holder : Option Port
  undeliverable : BitVec 32
deriving DecidableEq, Repr

/-! ### The whole part -/

/-- The baud rates the straps choose (Table 9-1). -/
inductive BaudRate
  | b115200
  | b1000000
  | b3000000
deriving DecidableEq, Repr

/-- The state of the part. `pending` is the queue of commands that wait to be taken, first in first out. -/
structure State where
  pending : List Instr
  /-- The level of RESET_N; low holds the part in device reset (R153). -/
  resetN : Bool
  baud : BaudRate
  timebase : Tick
  obs : Observation
  trk : Tracking
  bank : Bank
  pool : Vector (Option HistUnit) 8
  harv : Harvester
  mgmt : Management
deriving DecidableEq, Repr

/-- The Observation Port after device reset (R16). -/
def Observation.reset : Observation :=
  { enabled := false, queue := [], lossCount := 0, rejectedCount := 0, lossArmed := true }

/-- The global counters after device reset (R37). -/
def Globals.zero : Globals :=
  { admitted := 0, untracked := 0, completed := 0, failed := 0, malformed := 0, timedOut := 0, superseded := 0,
    flushed := 0, late := 0, orphan := 0 }

/-- The Tracking Engine after device reset (R20, R63, R64). -/
def Tracking.reset : Tracking :=
  { table := [], ring := [],
    timeouts := { read := Config.resetTimeout, npwrite := Config.resetTimeout, atomic := Config.resetTimeout },
    groupMap := Vector.replicate 32 0, globals := Globals.zero, tableFullArmed := true }

/-- The purge engine at rest (R101). -/
def Purge.idle : Purge := { current := 0, waiting := 0, position := none, visitAhead := 0 }

/-- The Probe Bank after device reset (R106). -/
def Bank.reset : Bank := { probes := Vector.replicate 16 Probe.reset, purge := Purge.idle }

/-- The Harvest Unit after device reset (R140). -/
def Harvester.reset : Harvester :=
  { slots := Vector.replicate 4 none, triggers := Vector.replicate 4 none, number := 0 }

/-- The management side after device reset (R153, R152). -/
def Management.reset : Management :=
  { portA := PortState.reset, portB := PortState.reset, sessionCount := 0, holder := none, undeliverable := 0 }

/-- The machine right after the release of device reset, with both straps low (R153, Table 9-1; log 1). -/
def State.reset : State :=
  { pending := [], resetN := true, baud := .b115200, timebase := 0, obs := Observation.reset, trk := Tracking.reset,
    bank := Bank.reset, pool := Vector.replicate 8 none, harv := Harvester.reset, mgmt := Management.reset }

/-! ### The ways a step can stop -/

/-- Faults. The spec names no condition that stops the part: there is none, and nothing raises one. -/
inductive Fault
deriving DecidableEq, Repr

/-- Refusals. -/
inductive Refusal
  /-- A command that has no meaning in the model yet; raised by the arms of `exec` alone. Safe: no claim about such a
  command can be proved. No arm raises it now. -/
  | notModelled (mnemonic : String)
deriving DecidableEq, Repr

end Sys2Proof.Machine
end

