-- ==== Sys2Proof/Machine/Flags.lean ====
section
/-! DEFINITION. The arithmetic of counts, times and bins: saturating counts (spec 00 §4.5), the two comparisons of tick
values (R48), and the bin of a latency (R114, R115). -/

namespace Sys2Proof.Machine

/-- A count raised by `n`, stopping at its greatest value (Table 0-1, 'Count'). -/
def satAdd {w : Nat} (x : BitVec w) (n : Nat) : BitVec w :=
  if x.toNat + n < 2 ^ w then BitVec.ofNat w (x.toNat + n) else BitVec.allOnes w

/-- A count raised by one, stopping at its greatest value. -/
def satInc {w : Nat} (x : BitVec w) : BitVec w := satAdd x 1

/-- Ticks from one time to another, modulo 2^48. -/
def elapsed (since now : Tick) : Nat := (now - since).toNat

/-- Time `a` is not later than time `b` (R48). -/
def notLater (a b : Tick) : Bool := elapsed a b < 2 ^ 47

/-- Deadline `d` is reached when the Timebase holds `now` (R48). -/
def reached (now d : Tick) : Bool := elapsed d now < 2 ^ 47

/-- The bin of a latency in LOG mode with base `b` (R114): the first k with L below b × 2^k, else 15. -/
def logBin (b L : Nat) : Fin 16 :=
  match (List.range 15).find? (fun k => L < b * 2 ^ k) with
  | some k => Fin.ofNat 16 k
  | none => 15

/-- The bin of a latency in LINEAR mode with width `w` (R115). -/
def linearBin (w L : Nat) : Fin 16 :=
  if L / w < 15 then Fin.ofNat 16 (L / w) else 15

/-- The bin a unit chooses for a latency (R116). -/
def HistUnit.binOf (u : HistUnit) (L : Tick) : Fin 16 :=
  match u.mode with
  | .log => logBin u.parameter.toNat L.toNat
  | .linear => linearBin u.parameter.toNat L.toNat

/-- The unit after a sample of `L` ticks was recorded for its probe: one bin raised (R116). -/
def HistUnit.count (L : Tick) (u : HistUnit) : HistUnit :=
  { u with bins := u.bins.set (u.binOf L) (satInc u.bins[u.binOf L]) }

/-- The unit with all sixteen bins 0 (R117). -/
def HistUnit.clear (u : HistUnit) : HistUnit := { u with bins := Vector.replicate 16 0 }

end Sys2Proof.Machine
end

