-- ==== Sys2Proof/Machine/Operands.lean ====
section
/-! DEFINITION. The forms in which commands, replies, pages and alerts carry their fields (spec 10): little-endian
fields, enumeration codes, frames with their CRC, the bodies of commands, and the checks and the matching of a
selector (spec 04). -/

namespace Sys2Proof.Machine

/-! ### Fields on the wire (R172) -/

/-- A number as `n` bytes, least significant first (R172). -/
def le : Nat → Nat → List Byte
  | 0, _ => []
  | n + 1, v => BitVec.ofNat 8 v :: le n (v / 256)

/-- The number that bytes carry, least significant first (R172). -/
def leNat : List Byte → Nat
  | [] => 0
  | b :: bs => b.toNat + 256 * leNat bs

/-- The number in the `size` bytes of a body from `offset`. -/
def field (body : List Byte) (offset size : Nat) : Nat := leNat ((body.drop offset).take size)

/-- The byte of a body at `offset`. -/
def byteAt (body : List Byte) (offset : Nat) : Byte := body.getD offset 0

/-- The probe set in the two bytes of a body from `offset`. -/
def probeSetAt (body : List Byte) (offset : Nat) : ProbeSet := BitVec.ofNat 16 (field body offset 2)

/-- A number as one byte. -/
def byte (v : Nat) : Byte := BitVec.ofNat 8 v

/-- A flag as one byte, 0 clear and 1 set (R172). -/
def flagByte (f : Bool) : Byte := if f then 1 else 0

/-- The byte of an absent number (R172). -/
def absentByte : Byte := 0xFF#8

/-- A one-byte number that may be absent (R172). -/
def optByte : Option Nat → Byte
  | some v => byte v
  | none => absentByte

/-- A presence byte and a time, 0 when absent (R172). -/
def optTime : Option Tick → List Byte
  | some t => 1 :: le 6 t.toNat
  | none => 0 :: le 6 0

/-! ### Enumeration codes (Table 10-2) -/

/-- Owner, holder or port code. -/
def ownerByte : Option Port → Byte
  | none => 0
  | some .a => 1
  | some .b => 2

/-- The code of a tracked request kind. -/
def TrackedKind.code : TrackedKind → Nat
  | .read => 0
  | .npwrite => 1
  | .atomic => 2

/-- The tracked kind of a request kind; POSTED and MESSAGE have none (Table 1-2). -/
def trackedOf : RequestKind → Option TrackedKind
  | .read => some .read
  | .npwrite => some .npwrite
  | .atomic => some .atomic
  | .posted => none
  | .message => none

/-- The code of a probe state. -/
def ProbeState.code : ProbeState → Nat
  | .unbound => 0
  | .armed => 1
  | .running => 2
  | .draining => 3
  | .purging => 4
  | .held => 5

/-- The code of a measure. -/
def Measure.code : Measure → Nat
  | .count _ => 0
  | .first => 1
  | .full => 2

/-- The measure that a measure code and a count event code name; for FIRST and FULL the count event is not examined
(R84). -/
def measureOfCodes (measure event : Nat) : Option Measure :=
  match measure with
  | 0 => (recordKindOfCode event).map .count
  | 1 => some .first
  | 2 => some .full
  | _ => none

/-- The code of an entry state. -/
def EntryState.code : EntryState → Nat
  | .awaiting => 0
  | .receiving => 1

/-- The code of a histogram mode. -/
def HistMode.code : HistMode → Nat
  | .log => 0
  | .linear => 1

/-- The histogram mode that a code names (R110). -/
def histModeOfCode : Nat → Option HistMode
  | 0 => some .log
  | 1 => some .linear
  | _ => none

/-- The code of a trigger mode. -/
def TriggerMode.code : TriggerMode → Nat
  | .once => 0
  | .repeating => 1

/-- The trigger mode that a code names (R133). -/
def triggerModeOfCode : Nat → Option TriggerMode
  | 0 => some .once
  | 1 => some .repeating
  | _ => none

/-- The code of a drain outcome. -/
def DrainOutcome.code : DrainOutcome → Nat
  | .emptied => 0
  | .cut => 1
  | .flushed => 2

/-- The code of a reply code (Table 10-4). -/
def ReplyCode.byte : ReplyCode → Byte
  | .ok => 0x00#8
  | .queueFull => 0x01#8
  | .notOpen => 0x02#8
  | .notHolder => 0x03#8
  | .heldElsewhere => 0x04#8
  | .notOwner => 0x05#8
  | .ownedElsewhere => 0x06#8
  | .badState => 0x07#8
  | .inProgress => 0x08#8
  | .noResource => 0x09#8
  | .badArgument => 0x0A#8
  | .badLength => 0x0B#8
  | .unknownCommand => 0x0C#8

/-- The baud rate that the straps BAUD_SEL1 and BAUD_SEL0 choose (Table 9-1). -/
def baudOfStraps (sel1 sel0 : Bool) : BaudRate :=
  match sel1, sel0 with
  | false, false => .b115200
  | false, true => .b1000000
  | true, false => .b3000000
  | true, true => .b115200

/-- The figure of a baud rate (Table 9-1). -/
def BaudRate.figure : BaudRate → Nat
  | .b115200 => 115200
  | .b1000000 => 1000000
  | .b3000000 => 3000000

/-! ### Command types (Table 10-5) -/

/-- The type codes of Table 10-5. -/
def commandTypes : List Byte :=
  [0x01#8, 0x02#8, 0x03#8, 0x04#8, 0x05#8, 0x06#8, 0x10#8, 0x11#8, 0x12#8, 0x18#8, 0x19#8, 0x1A#8, 0x1C#8, 0x1D#8] ++
  [0x1E#8, 0x20#8, 0x21#8, 0x28#8, 0x29#8, 0x2A#8, 0x2B#8, 0x2C#8, 0x2D#8, 0x2E#8, 0x30#8, 0x38#8, 0x39#8, 0x3A#8] ++
  [0x3B#8, 0x3C#8, 0x3D#8, 0x3E#8, 0x40#8, 0x41#8, 0x42#8]

/-- Whether a type code is listed in Table 10-5. -/
def knownType (t : Byte) : Bool := commandTypes.contains t

/-! ### Frames (Table 10-3, R157) -/

/-- One bit step of the CRC register: polynomial x^16 + x^12 + x^5 + 1, most significant bit first (R157). -/
def crcBit (r : BitVec 16) : BitVec 16 := if r.msb then (r <<< 1) ^^^ 0x1021#16 else r <<< 1

/-- One byte taken into the CRC register (R157). -/
def crcByte (r : BitVec 16) (b : Byte) : BitVec 16 :=
  crcBit (crcBit (crcBit (crcBit (crcBit (crcBit (crcBit (crcBit (r ^^^ (b.setWidth 16 <<< 8)))))))))

/-- The CRC over bytes in the order they are sent, the register starting at FFFF (R157). -/
def crc16 (bytes : List Byte) : BitVec 16 := bytes.foldl crcByte 0xFFFF#16

/-- The length field with the content it counts, over which the CRC is computed (R157). -/
def lengthAndContent (content : List Byte) : List Byte := le 2 content.length ++ content

/-- A whole frame around its content: type, sequence number and body (Table 10-3). -/
def frameOf (content : List Byte) : List Byte :=
  Config.startByte :: (lengthAndContent content ++ le 2 (crc16 (lengthAndContent content)).toNat)

/-- The frame of a reply (R174). -/
def Reply.frame (r : Reply) : List Byte := frameOf (r.type :: r.seq :: r.code.byte :: r.body)

/-- The kind code of an alert's condition (Table 10-2). -/
def Condition.kindCode : Condition → Nat
  | .probeLimit _ _ => 0
  | .drained _ _ _ => 1
  | .harvested _ _ _ => 2
  | .triggerMissed _ _ => 3
  | .tableFull _ => 4
  | .intakeLoss _ => 5

/-- The subject byte of an alert (Table 10-9). -/
def Condition.subject : Condition → Byte
  | .probeLimit p _ => byte p
  | .drained p _ _ => byte p
  | .harvested s _ _ => byte s
  | .triggerMissed t _ => byte t
  | .tableFull _ => absentByte
  | .intakeLoss _ => absentByte

/-- The detail bytes of an alert that its kind uses (Table 10-10). -/
def Condition.detail : Condition → List Byte
  | .probeLimit _ n => le 4 n.toNat
  | .drained _ o n => byte o.code :: le 2 n
  | .harvested _ t n => byte t :: le 2 n.toNat
  | .triggerMissed _ l => le 2 l.toNat
  | .tableFull n => le 8 n.toNat
  | .intakeLoss n => le 4 n.toNat

/-- Detail bytes filled up to eight with zeros (R172, Table 10-9). -/
def padDetail (d : List Byte) : List Byte := d ++ List.replicate (8 - d.length) 0

/-- The 20 bytes of an alert record (Table 10-9). -/
def Alert.bytes (al : Alert) : List Byte :=
  le 2 al.number.toNat ++ [byte al.condition.kindCode] ++ le 6 al.time.toNat ++ [al.condition.subject] ++
    le 2 al.lost.toNat ++ padDetail al.condition.detail

/-- The frame of an alert: type 80, sequence number 0, the record (R174). -/
def Alert.frame (al : Alert) : List Byte := frameOf (Config.alertType :: 0 :: al.bytes)

/-! ### Pages and listed records -/

/-- The ten counters in Table 2-7 order, eight bytes each. -/
def Globals.bytes (g : Globals) : List Byte :=
  le 8 g.admitted.toNat ++ le 8 g.untracked.toNat ++ le 8 g.completed.toNat ++ le 8 g.failed.toNat ++
    le 8 g.malformed.toNat ++ le 8 g.timedOut.toNat ++ le 8 g.superseded.toNat ++ le 8 g.flushed.toNat ++
    le 8 g.late.toNat ++ le 8 g.orphan.toNat

/-- A pending entry as LIST_PENDING lists it, 24 bytes (Table 10-7). -/
def Entry.bytes (e : Entry) : List Byte :=
  [byte e.index, byte e.key.requester, e.key.tag, byte e.kind.code, byte e.group, byte e.state.code] ++
    le 6 e.issue.toNat ++ le 2 e.received ++ le 2 e.parts ++ le 6 e.deadline.toNat ++ le 2 e.matchSet.toNat

/-- A ring record as LIST_EXPIRED lists it, 9 bytes (Table 10-5). -/
def RingRecord.bytes (r : RingRecord) : List Byte :=
  [byte r.key.requester, r.key.tag, byte r.kind.code] ++ le 6 r.expiry.toNat

/-- The three timeouts, four bytes each (Table 10-5). -/
def Timeouts.bytes (t : Timeouts) : List Byte :=
  le 4 t.read.toNat ++ le 4 t.npwrite.toNat ++ le 4 t.atomic.toNat

/-- The 32 groups of the requester map, requester 0 first. -/
def groupMapBytes (m : Vector (Fin 8) 32) : List Byte := m.toList.map (fun g => byte g)

/-- Origin, trigger number, MARK label and MARK stamp as a header page carries them (Table 10-8). -/
def Origin.bytes : Origin → List Byte
  | .command => [0, absentByte] ++ le 2 0 ++ le 6 0
  | .trigger n label stamp => [1, byte n] ++ le 2 label.toNat ++ le 6 stamp.toNat

/-- The header page, 112 bytes (Table 10-8). -/
def Slot.headerPage (s : Slot) : List Byte :=
  le 2 s.number.toNat ++ s.origin.bytes ++ le 6 s.header.captureTime.toNat ++ le 2 s.header.captured.toNat ++
    le 2 s.header.zeroed.toNat ++ le 2 s.header.occupancy ++ s.header.globals.bytes ++
    le 4 s.header.lossCount.toNat ++ le 4 s.header.rejectedCount.toNat

/-- The measure byte of a probe: absent when it has no definition (R172). -/
def measureByte : Option Measure → Byte
  | some m => byte m.code
  | none => absentByte

/-- The count event byte: absent for latency probes (Table 10-8). -/
def countEventByte : Option Measure → Byte
  | some (.count e) => byte e.code
  | some .first => absentByte
  | some .full => absentByte
  | none => absentByte

/-- The histogram part of a probe page (Table 10-8). -/
def histBytes : Option PageHist → List Byte
  | none => [absentByte]
  | some h => [byte h.unit, byte h.mode.code] ++ le 4 h.parameter.toNat ++ h.bins.toList.flatMap (fun b => le 4 b.toNat)

/-- A probe page, 48 or 117 bytes (Table 10-8). -/
def ProbePage.bytes (p : ProbePage) : List Byte :=
  [byte p.probe, byte p.state.code, ownerByte p.owner, measureByte p.measure, countEventByte p.measure] ++
    le 2 p.inFlight ++ le 8 p.values.samples.toNat ++ le 8 p.values.sum.toNat ++ le 6 p.values.min.toNat ++
    le 6 p.values.max.toNat ++ le 4 p.values.overCount.toNat ++ le 4 p.values.timeouts.toNat ++
    le 4 p.values.faults.toNat ++ histBytes p.hist

/-- The page count of a filled slot (R124). -/
def Slot.pageCount (s : Slot) : Nat := 1 + s.pages.length

/-- A page of a filled slot: page 0 the header, page k the k-th captured probe (R129). -/
def Slot.page (s : Slot) : Nat → List Byte
  | 0 => s.headerPage
  | k + 1 =>
    match s.pages[k]? with
    | some p => p.bytes
    | none => []

/-! ### Selectors (spec 04) -/

/-- A set mask that is not empty and holds only members with codes below `members` (R70). -/
def maskOk (members : Nat) (mask : Byte) : Bool := mask != 0 && mask.toNat < 2 ^ members

/-- A range with lo not above hi and both within `greatest` (R70). -/
def rangeOk (greatest lo hi : Nat) : Bool := lo ≤ hi && hi ≤ greatest

/-- The checks of R70 over every field of a selector. -/
def Selector.valid (s : Selector) : Bool :=
  maskOk 8 s.groupSet && maskOk 5 s.kindSet && maskOk 3 s.statusSet && maskOk 4 s.creditSet && maskOk 3 s.errorSet &&
    rangeOk 255 s.tagLo s.tagHi && rangeOk 4096 s.lengthLo s.lengthHi && rangeOk 65535 s.labelLo s.labelHi

/-- The check of R71: the kind set of a latency selector holds only tracked kinds. -/
def Selector.fits (s : Selector) (m : Measure) : Bool := !m.isLatency || s.kindSet.toNat < 2 ^ 3

/-- Whether a mask contains the member with a code (R72). -/
def contains (mask : Byte) (code : Nat) : Bool := mask.getLsbD code

/-- Whether a range contains a value (R69). -/
def within (lo hi v : Nat) : Bool := lo ≤ v && v ≤ hi

/-- A REQ record against a selector: group, kind, tag, length (Table 4-2, R73, R74). -/
def Selector.matchesRequest (s : Selector) (group : Fin 8) (kind : RequestKind) (tag : Byte) (length : Nat) : Bool :=
  contains s.groupSet group && contains s.kindSet kind.code && within s.tagLo s.tagHi tag.toNat &&
    within s.lengthLo s.lengthHi length

/-- A record against a selector of a COUNT probe, each field that applies to its kind (Table 4-2, R72, R74, R75). -/
def Selector.matchesRecord (s : Selector) (groupMap : Vector (Fin 8) 32) : Record → Bool
  | .req requester tag kind length => s.matchesRequest groupMap[requester] kind tag length
  | .cpl requester tag status bytes _ =>
    contains s.groupSet groupMap[requester] && within s.tagLo s.tagHi tag.toNat &&
      within s.lengthLo s.lengthHi bytes && contains s.statusSet status.code
  | .stall credit => contains s.creditSet credit.code
  | .retry => true
  | .linkerr cls => contains s.errorSet cls.code
  | .mark label => within s.labelLo s.labelHi label.toNat

/-- What a counted record adds to sum: length of a REQ, bytes of a CPL, else 0 (R95). -/
def recordAmount : Record → Nat
  | .req _ _ _ length => length
  | .cpl _ _ _ bytes _ => bytes
  | .stall _ => 0
  | .retry => 0
  | .linkerr _ => 0
  | .mark _ => 0

/-! ### Command bodies -/

/-- The selector of a DEFINE_PROBE body (Table 10-6). -/
def selectorOfBody (body : List Byte) : Selector :=
  { groupSet := byteAt body 3, kindSet := byteAt body 4, statusSet := byteAt body 5, creditSet := byteAt body 6,
    errorSet := byteAt body 7, tagLo := field body 8 2, tagHi := field body 10 2, lengthLo := field body 12 2,
    lengthHi := field body 14 2, labelLo := field body 16 2, labelHi := field body 18 2 }

/-- The definition of a DEFINE_PROBE body with the given measure (Table 10-6). -/
def definitionOfBody (m : Measure) (body : List Byte) : Definition :=
  { measure := m, selector := selectorOfBody body, threshold := BitVec.ofNat 32 (field body 20 4),
    alertLimit := BitVec.ofNat 32 (field body 24 4), drainLimit := BitVec.ofNat 32 (field body 28 4) }

/-- Whether a DEFINE_PROBE body gives a histogram request (Table 10-6). -/
def requestsUnit (body : List Byte) : Bool := byteAt body 32 != 0

/-- The body lengths DEFINE_PROBE accepts: 33 without a request, 38 with one (R176). -/
def defineLengthOk (body : List Byte) : Bool :=
  (body.length == 33 && !requestsUnit body) || (body.length == 38 && requestsUnit body)

/-- The checks of a histogram request (R110): a mode that is defined, a parameter of 1 to 2^24. -/
def histRequestOfBody (body : List Byte) : Option (HistMode × BitVec 32) :=
  match histModeOfCode (byteAt body 33).toNat with
  | some mode =>
    let parameter := field body 34 4
    if 1 ≤ parameter && parameter ≤ Config.greatestParameter then some (mode, BitVec.ofNat 32 parameter) else none
  | none => none

/-- The settings of a SET_TIMEOUTS body: kind code and timeout (R46). -/
def settingsOfBody : List Byte → List (Byte × Nat)
  | kind :: b0 :: b1 :: b2 :: b3 :: rest => (kind, leNat [b0, b1, b2, b3]) :: settingsOfBody rest
  | _ => []

/-- The argument checks of SET_TIMEOUTS: tracked kinds, each named once, no timeout below 125 (R46). -/
def settingsOk (settings : List (Byte × Nat)) : Bool :=
  settings.all (fun x => x.1.toNat < 3 && Config.leastTimeout ≤ x.2) && decide (settings.map Prod.fst).Nodup

/-- The timeouts after one setting (R46). -/
def Timeouts.put (t : Timeouts) (setting : Byte × Nat) : Timeouts :=
  match setting.1.toNat with
  | 0 => { t with read := BitVec.ofNat 32 setting.2 }
  | 1 => { t with npwrite := BitVec.ofNat 32 setting.2 }
  | 2 => { t with atomic := BitVec.ofNat 32 setting.2 }
  | _ => t

/-- The timeout of a tracked kind (R45). -/
def Timeouts.of (t : Timeouts) : TrackedKind → BitVec 32
  | .read => t.read
  | .npwrite => t.npwrite
  | .atomic => t.atomic

/-- The assignments of a SET_GROUP_MAP body: requester and group (R66). -/
def assignmentsOfBody : List Byte → List (Byte × Byte)
  | requester :: group :: rest => (requester, group) :: assignmentsOfBody rest
  | _ => []

/-- The argument checks of SET_GROUP_MAP: requester at most 31, group at most 7, each requester once (R66). -/
def assignmentsOk (assignments : List (Byte × Byte)) : Bool :=
  assignments.all (fun x => x.1.toNat < 32 && x.2.toNat < 8) && decide (assignments.map Prod.fst).Nodup

/-- The requester map after one assignment (R67). -/
def putGroup (m : Vector (Fin 8) 32) (assignment : Byte × Byte) : Vector (Fin 8) 32 :=
  m.set (Fin.ofNat 32 assignment.1.toNat) (Fin.ofNat 8 assignment.2.toNat)

/-- The alert mask that a set of alert kinds gives: bit 4 TABLE_FULL, bit 5 INTAKE_LOSS (R144). -/
def maskOfByte (b : Byte) : AlertMask := { tableFull := b.getLsbD 4, intakeLoss := b.getLsbD 5 }

/-- Whether a set of alert kinds holds only TABLE_FULL and INTAKE_LOSS (R144). -/
def maskByteOk (b : Byte) : Bool := b &&& 0xCF#8 == 0

/-- An alert mask as a set of alert kinds (Table 10-5). -/
def AlertMask.byte (m : AlertMask) : Byte :=
  (if m.tableFull then 0x10#8 else 0) ||| (if m.intakeLoss then 0x20#8 else 0)

/-- Whether a mask holds the kind of a device-wide condition (R142); the other kinds are not masked. -/
def AlertMask.holds (m : AlertMask) : Condition → Bool
  | .tableFull _ => m.tableFull
  | .intakeLoss _ => m.intakeLoss
  | .probeLimit _ _ => false
  | .drained _ _ _ => false
  | .harvested _ _ _ => false
  | .triggerMissed _ _ => false

end Sys2Proof.Machine
end

