-- ==== Sys2Proof/Machine/Ops.lean ====
section
/-! DEFINITION. The named operations that the meanings share: accessors of ports and probes, raising an alert (spec 08),
notices (spec 02 and 05), closing and admitting an entry (spec 02, 03), the purge engine's additions (R102), a harvest
(spec 07), a session close (R166), and the dispatch of a management command with its reply (R160, R177). -/

namespace Sys2Proof.Machine

/-! ### Vectors, ports and probes -/

/-- A vector with each element replaced by a function of its number and value. -/
def mapFin {α β : Type} {n : Nat} (v : Vector α n) (f : Fin n → α → β) : Vector β n :=
  ⟨(List.ofFn fun i => f i v[i]).toArray, by simp⟩

/-- The lowest number whose place is empty: the lowest FREE unit, slot (R111, R124). -/
def lowestNone {α : Type} {n : Nat} (v : Vector (Option α) n) : Option (Fin n) :=
  (List.finRange n).find? (fun i => v[i].isNone)

/-- The set of probes that pass a test. -/
def probesWhere (f : ProbeNo → Bool) : ProbeSet := BitVec.ofFnLE f

/-- The probes of a set in ascending number. -/
def members (set : ProbeSet) : List ProbeNo := (List.finRange 16).filter set.has

/-- The lowest-numbered probe of a set that passes a test (R178). -/
def lowestIn (set : ProbeSet) (bad : ProbeNo → Bool) : Option ProbeNo :=
  (List.finRange 16).find? (fun i => set.has i && bad i)

/-- The state of one port. -/
def Management.port (m : Management) : Port → PortState
  | .a => m.portA
  | .b => m.portB

/-- The management side with the state of one port replaced. -/
def Management.setPort (m : Management) (p : Port) (x : PortState) : Management :=
  match p with
  | .a => { m with portA := x }
  | .b => { m with portB := x }

/-- The state of one port of the part. -/
def State.port (s : State) (p : Port) : PortState := s.mgmt.port p

/-- The part with the state of one port replaced. -/
def State.setPort (s : State) (p : Port) (x : PortState) : State := { s with mgmt := s.mgmt.setPort p x }

/-- One probe of the bank. -/
def Bank.probe (b : Bank) (i : ProbeNo) : Probe := b.probes[i]

/-- The bank with one probe replaced. -/
def Bank.setProbe (b : Bank) (i : ProbeNo) (x : Probe) : Bank := { b with probes := b.probes.set i x }

/-- The bank with every probe replaced by a function of its number and value. -/
def Bank.mapProbes (b : Bank) (f : ProbeNo → Probe → Probe) : Bank := { b with probes := mapFin b.probes f }

/-- One probe of the part. -/
def State.probe (s : State) (i : ProbeNo) : Probe := s.bank.probe i

/-- Whether a probe is owned by a port. -/
def Probe.ownedBy (p : Port) (x : Probe) : Bool := x.owner == some p

/-- The set of all probes a port owns (R79). -/
def Bank.ownedBy (b : Bank) (p : Port) : ProbeSet := probesWhere (fun i => (b.probe i).ownedBy p)

/-- A meaning while RESET_N is high; while it is low nothing happens (R153; log 3). -/
def whileReleased (s : State) (next : State) : Host.Outcome State Fault Refusal :=
  if s.resetN then .next next else .next s

/-! ### Raising an alert (R142, R145, R146) -/

/-- An alert offered to a port's queue: it enters at the tail with a new number and the lost count, or is discarded at
a full queue and counted lost (R145, R146). An alert that enters an empty queue is a head due at once (R148). -/
def PortState.offer (c : Condition) (t : Tick) (x : PortState) : PortState :=
  if x.alerts.length < Config.alertRecords then
    { x with
      alertNumber := x.alertNumber + 1
      alerts := x.alerts ++ [{ number := x.alertNumber + 1, time := t, condition := c, lost := x.lostCount }]
      lostCount := 0
      head := if x.alerts.isEmpty then HeadAlert.fresh else x.head }
  else { x with lostCount := satInc x.lostCount }

/-- An alert offered to the queue of one port. -/
def Management.offer (m : Management) (p : Port) (c : Condition) (t : Tick) : Management :=
  m.setPort p ((m.port p).offer c t)

/-- An alert with no port to take it: counted undeliverable (R142). -/
def Management.undelivered (m : Management) : Management := { m with undeliverable := satInc m.undeliverable }

/-- An alert raised to the owner of a probe or trigger (R142). -/
def Management.raiseToOwner (m : Management) (owner : Option Port) (c : Condition) (t : Tick) : Management :=
  match owner with
  | some p => m.offer p c t
  | none => m.undelivered

/-- Whether a port takes a copy of a device-wide alert: open, and its mask holds the kind (R142). -/
def Management.wants (m : Management) (p : Port) (c : Condition) : Bool := (m.port p).isOpen && (m.port p).mask.holds c

/-- A device-wide alert: a copy to each port that wants it, Port A's first, else undeliverable (R142). -/
def Management.raiseDeviceWide (m : Management) (c : Condition) (t : Tick) : Management :=
  match m.wants .a c, m.wants .b c with
  | true, true => (m.offer .a c t).offer .b c t
  | true, false => m.offer .a c t
  | false, true => m.offer .b c t
  | false, false => m.undelivered

/-! ### Notices (R29, R91 to R94, R97) -/

/-- What the Tracking Engine tells a probe that leaves a match set (R29). -/
inductive Notice
  | sample (L : Tick)
  | fault
  | timeout
  | removal
deriving DecidableEq, Repr

/-- The threshold of a probe; 0 means none. -/
def Probe.threshold (x : Probe) : BitVec 32 :=
  match x.definition with
  | some d => d.threshold
  | none => 0

/-- The alert limit of a probe; 0 means none. -/
def Probe.alertLimit (x : Probe) : BitVec 32 :=
  match x.definition with
  | some d => d.alertLimit
  | none => 0

/-- The drain limit of a probe; 0 means no drain deadline. -/
def Probe.drainLimit (x : Probe) : BitVec 32 :=
  match x.definition with
  | some d => d.drainLimit
  | none => 0

/-- Whether a probe has the given measure. -/
def Probe.measures (x : Probe) (m : Measure) : Bool :=
  match x.definition with
  | some d => d.measure == m
  | none => false

/-- Whether notices that reach the probe are recorded: RUNNING and DRAINING (Table 5-3). -/
def Probe.recording (x : Probe) : Bool := x.state == .running || x.state == .draining

/-- The values after a latency sample of `L` ticks (R91). -/
def Values.addSample (threshold : BitVec 32) (L : Tick) (v : Values) : Values :=
  { v with
    samples := satInc v.samples
    sum := satAdd v.sum L.toNat
    min := if L.toNat < v.min.toNat then L else v.min
    max := if v.max.toNat < L.toNat then L else v.max
    overCount := if threshold != 0 && threshold.toNat < L.toNat then satInc v.overCount else v.overCount }

/-- The values after a notice that is recorded (R91, R93). -/
def Values.note (threshold : BitVec 32) (n : Notice) (v : Values) : Values :=
  match n with
  | .sample L => v.addSample threshold L
  | .fault => { v with faults := satInc v.faults }
  | .timeout => { v with timeouts := satInc v.timeouts }
  | .removal => v

/-- The values of a probe after a notice: changed only where it records (Table 5-3). -/
def Probe.valuesAfter (n : Notice) (x : Probe) : Values :=
  if x.recording then x.values.note x.threshold n else x.values

/-- Whether a notice raises PROBE_LIMIT: the alert limit is nonzero, over has just risen to it, and the flag is armed
(R92). Only a sample raises over. -/
def Probe.limitHit (n : Notice) (x : Probe) : Bool :=
  x.alertLimit != 0 && x.alertArmed && (x.valuesAfter n).overCount != x.values.overCount &&
    (x.valuesAfter n).overCount == x.alertLimit

/-- Whether the notice that comes now empties a drain: it brings a DRAINING probe's in-flight count to 0 (R97). -/
def Probe.emptiesDrain (x : Probe) : Bool := x.state == .draining && x.inFlight - 1 == 0

/-- The probe after a notice: recorded first, then the in-flight count falls by one, and a drain that empties ends in
HELD with its drain deadline discarded (R29, R92, R94, R97). -/
def Probe.take (n : Notice) (x : Probe) : Probe :=
  { x with
    values := x.valuesAfter n
    alertArmed := x.alertArmed && !x.limitHit n
    inFlight := x.inFlight - 1
    state := if x.emptiesDrain then .held else x.state
    drainDeadline := if x.emptiesDrain then none else x.drainDeadline
    cutAhead := if x.emptiesDrain then none else x.cutAhead }

/-- The pool after a change of one unit, if it is attached. -/
def modifyUnit (pool : Vector (Option HistUnit) 8) (k : Fin 8) (f : HistUnit → HistUnit) : Vector (Option HistUnit) 8 :=
  pool.set k (pool[k].map f)

/-- The pool after a notice to a probe: a recorded sample raises one bin of its unit (R91, R116). -/
def binNotice (n : Notice) (x : Probe) (pool : Vector (Option HistUnit) 8) : Vector (Option HistUnit) 8 :=
  match n, x.unit with
  | .sample L, some k => if x.recording then modifyUnit pool k (HistUnit.count L) else pool
  | .sample _, none => pool
  | .fault, _ => pool
  | .timeout, _ => pool
  | .removal, _ => pool

/-- The alerts of one notice, PROBE_LIMIT before DRAINED (R92, R97; log 8). -/
def alertNotice (t : Tick) (i : ProbeNo) (n : Notice) (x : Probe) (m : Management) : Management :=
  let m1 := if x.limitHit n then m.raiseToOwner x.owner (.probeLimit i (x.valuesAfter n).overCount) t else m
  if x.emptiesDrain then m1.raiseToOwner x.owner (.drained i .emptied 0) t else m1

/-- One notice addressed to one probe; `t` is the time its alerts carry (R29, R92, R97). -/
def notify (t : Tick) (i : ProbeNo) (n : Notice) (s : State) : State :=
  { s with
    bank := s.bank.setProbe i ((s.probe i).take n)
    pool := binNotice n (s.probe i) s.pool
    mgmt := alertNotice t i n (s.probe i) s.mgmt }

/-- The same notice to each probe of a set, in ascending probe number (R29). -/
def sendNotices (t : Tick) (set : ProbeSet) (n : Notice) (s : State) : State :=
  (members set).foldl (fun s i => notify t i n s) s

/-! ### The Pending Table (spec 02, 03) -/

/-- The six closure outcomes (Table 2-4). -/
inductive Closure
  | complete
  | failed
  | malformed
  | timedOut
  | superseded
  | flushed
deriving DecidableEq, Repr

/-- The notice of a closure (Table 2-4). For the closure at a first part it is also the notice R35 gives the FIRST
probes: a sample of the same latency where it closes COMPLETE, a fault where it does not. -/
def Closure.notice (o : Closure) (latency : Tick) : Notice :=
  match o with
  | .complete => .sample latency
  | .failed => .fault
  | .malformed => .fault
  | .timedOut => .timeout
  | .superseded => .removal
  | .flushed => .removal

/-- The global counters after a closure (Table 2-4). -/
def Globals.close (o : Closure) (g : Globals) : Globals :=
  match o with
  | .complete => { g with completed := satInc g.completed }
  | .failed => { g with failed := satInc g.failed }
  | .malformed => { g with malformed := satInc g.malformed }
  | .timedOut => { g with timedOut := satInc g.timedOut }
  | .superseded => { g with superseded := satInc g.superseded }
  | .flushed => { g with flushed := satInc g.flushed }

/-- The pending entry that holds a key (R31). -/
def findKey (table : List Entry) (k : Key) : Option Entry := table.find? (fun e => e.key == k)

/-- The pending entry at an index. -/
def findIndex (table : List Entry) (i : Fin 256) : Option Entry := table.find? (fun e => e.index == i)

/-- The list without the entry at an index; the others keep their order (R51). -/
def removeEntry (i : Fin 256) (table : List Entry) : List Entry := table.eraseP (fun e => e.index == i)

/-- The list with the entry at `e.index` replaced by `e`, in its place (R51). -/
def replaceEntry (e : Entry) (table : List Entry) : List Entry := table.map (fun x => if x.index == e.index then e else x)

/-- Insertion behind every entry whose deadline is not later than its own (R50). -/
def insertEntry (e : Entry) : List Entry → List Entry
  | [] => [e]
  | x :: xs => if notLater x.deadline e.deadline then x :: insertEntry e xs else e :: x :: xs

/-- The free index of lowest number (R26). -/
def lowestFree (table : List Entry) : Option (Fin 256) :=
  (List.finRange 256).find? (fun i => !table.any (fun e => e.index == i))

/-- Closure as the Tracking Engine keeps it: the entry leaves the list, the outcome's counter rises, and, but for
SUPERSEDED, an occupancy of 192 or below sets the table-full armed flag (R36). -/
def Tracking.close (i : Fin 256) (o : Closure) (k : Tracking) : Tracking :=
  { k with
    table := removeEntry i k.table
    globals := k.globals.close o
    tableFullArmed := k.tableFullArmed || (o != .superseded && (removeEntry i k.table).length ≤ Config.rearmOccupancy) }

/-- Closure of an entry: notices to its match set, then the entry leaves (R36). `t` is the time of the alerts,
`latency` that of a COMPLETE closure's samples. -/
def closeEntry (e : Entry) (o : Closure) (t latency : Tick) (s : State) : State :=
  { sendNotices t e.matchSet (o.notice latency) s with trk := s.trk.close e.index o }

/-- The request kind of a tracked kind. -/
def TrackedKind.request : TrackedKind → RequestKind
  | .read => .read
  | .npwrite => .npwrite
  | .atomic => .atomic

/-- The completion bytes a request expects (Table 1-2). -/
def TrackedKind.expects : TrackedKind → Nat → Nat
  | .read, length => length
  | .npwrite, _ => 0
  | .atomic, length => length

/-- The match set of a request admitted now: RUNNING latency probes whose selectors it matches (R27, R73). -/
def matchSetOf (b : Bank) (group : Fin 8) (kind : RequestKind) (tag : Byte) (length : Nat) : ProbeSet :=
  probesWhere (fun i =>
    (b.probe i).state == .running &&
      match (b.probe i).definition with
      | some d => d.measure.isLatency && d.selector.matchesRequest group kind tag length
      | none => false)

/-- The entry of a request admitted now at an index (R26). A request admitted with its deadline already reached (R54)
has its expiry become due by the admission, so every record queued then may be taken ahead of it: the model's choice of
R11's words, which R61 bears out, over R52's (log 6). -/
def newEntry (index : Fin 256) (key : Key) (kind : TrackedKind) (length : Nat) (stamp : Tick) (s : State) : Entry :=
  let deadline := stamp + (s.trk.timeouts.of kind).setWidth 48
  { index := index, key := key, kind := kind, group := s.trk.groupMap[key.requester], expected := kind.expects length,
    received := 0, parts := 0, issue := stamp, first := none, deadline := deadline,
    matchSet := matchSetOf s.bank s.trk.groupMap[key.requester] kind.request key.tag length,
    state := .awaiting,
    dueAhead := if reached s.timebase deadline then some s.obs.queue.length else none }

/-- The bank after probes joined a match set: each in-flight count rises by one (R27, R28). -/
def Bank.join (set : ProbeSet) (b : Bank) : Bank :=
  b.mapProbes (fun i x => if set.has i then { x with inFlight := x.inFlight + 1 } else x)

/-- Admission of an entry: the place its deadline gives, the admitted count, the in-flight counts (R26, R27, R50). -/
def enterTable (e : Entry) (s : State) : State :=
  { s with
    trk := { s.trk with
      table := insertEntry e s.trk.table
      globals := { s.trk.globals with admitted := satInc s.trk.globals.admitted } }
    bank := s.bank.join e.matchSet }

/-- The ring without the record of a key (R23, R57). -/
def dropKey (k : Key) (ring : List RingRecord) : List RingRecord := ring.filter (fun r => r.key != k)

/-- Whether the ring holds a key. -/
def ringHolds (k : Key) (ring : List RingRecord) : Bool := ring.any (fun r => r.key == k)

/-- The ring after an expiry: a full ring pushes out its oldest record (R56). -/
def pushRing (r : RingRecord) (ring : List RingRecord) : List RingRecord :=
  if ring.length < Config.ringRecords then ring ++ [r] else ring.drop 1 ++ [r]

/-- An untracked request: counted, with a TABLE_FULL alert where the flag is armed (R24, R25). -/
def untracked (stamp : Tick) (s : State) : State :=
  let count := satInc s.trk.globals.untracked
  { s with
    trk := { s.trk with
      globals := { s.trk.globals with untracked := count }
      tableFullArmed := false }
    mgmt := if s.trk.tableFullArmed then s.mgmt.raiseDeviceWide (.tableFull count) stamp else s.mgmt }

/-- A tracked request whose key is not pending: the key leaves the ring, then the request is admitted into the lowest
free entry or is untracked (R21 steps 2 and 3, R23). -/
def admitFresh (key : Key) (kind : TrackedKind) (length : Nat) (stamp : Tick) (s : State) : State :=
  let s1 := { s with trk := { s.trk with ring := dropKey key s.trk.ring } }
  if s1.trk.table.length < Config.tableEntries then
    match lowestFree s1.trk.table with
    | some i => enterTable (newEntry i key kind length stamp s1) s1
    | none => untracked stamp s1
  else untracked stamp s1

/-- A tracked request taken by the engine (R21, R22). -/
def handleRequest (key : Key) (kind : TrackedKind) (length : Nat) (stamp : Tick) (s : State) : State :=
  match findKey s.trk.table key with
  | some old =>
    let s1 := closeEntry old .superseded stamp 0 s
    enterTable (newEntry old.index key kind length stamp s1) s1
  | none => admitFresh key kind length stamp s

/-- What a completion part does to its entry (R31). -/
inductive Judgement
  | continues
  | closes (o : Closure)
deriving DecidableEq, Repr

/-- The judgement of a completion part (R32, R33, R34). -/
def judge (e : Entry) (status : Status) (bytes : Nat) (last : Bool) : Judgement :=
  match status with
  | .unsupported | .aborted => .closes .failed
  | .ok =>
    match e.kind with
    | .npwrite | .atomic => if last && bytes == e.expected then .closes .complete else .closes .malformed
    | .read =>
      if bytes == 0 then .closes .malformed
      else if e.received + bytes > e.expected then .closes .malformed
      else if e.received + bytes == e.expected then
        if last then .closes .complete else .closes .malformed
      else if last then .closes .malformed else .continues

/-- The FIRST probes of the bank. -/
def Bank.firstProbes (b : Bank) : ProbeSet := probesWhere (fun i => (b.probe i).measures .first)

/-- The members that leave a match set at a part that continues the entry: its FIRST probes, at the first part (R35). -/
def leavers (e : Entry) (b : Bank) : ProbeSet := if e.parts == 0 then e.matchSet &&& b.firstProbes else 0

/-- The entry after a part that continues it (R34, R35). -/
def Entry.continued (e : Entry) (bytes : Nat) (stamp : Tick) (gone : ProbeSet) : Entry :=
  { e with
    received := e.received + bytes
    parts := e.parts + 1
    state := .receiving
    first := if e.parts == 0 then some stamp else e.first
    matchSet := e.matchSet &&& ~~~gone }

/-- A part that continues its entry: FIRST samples at the first part, then the entry moves on (R34, R35). -/
def continueEntry (e : Entry) (bytes : Nat) (stamp : Tick) (s : State) : State :=
  let gone := leavers e s.bank
  { sendNotices stamp gone (.sample (stamp - e.issue)) s with
    trk := { s.trk with table := replaceEntry (e.continued bytes stamp gone) s.trk.table } }

/-- The Tracking Engine after a part whose key is not pending: late or orphan (R59, R60). -/
def Tracking.strayPart (key : Key) (last : Bool) (k : Tracking) : Tracking :=
  if ringHolds key k.ring then
    { k with
      globals := { k.globals with late := satInc k.globals.late }
      ring := if last then dropKey key k.ring else k.ring }
  else { k with globals := { k.globals with orphan := satInc k.globals.orphan } }

/-- A completion part taken by the engine (R31). -/
def handlePart (key : Key) (status : Status) (bytes : Nat) (last : Bool) (stamp : Tick) (s : State) : State :=
  match findKey s.trk.table key with
  | some e =>
    match judge e status bytes last with
    | .continues => continueEntry e bytes stamp s
    | .closes o => closeEntry e o stamp (stamp - e.issue) s
  | none => { s with trk := s.trk.strayPart key last }

/-- The expiry of an entry: closed TIMED_OUT, its key into the ring with its deadline (R53). -/
def expireEntry (e : Entry) (s : State) : State :=
  let s1 := closeEntry e .timedOut e.deadline 0 s
  { s1 with trk := { s1.trk with ring := pushRing { key := e.key, kind := e.kind, expiry := e.deadline } s1.trk.ring } }

/-! ### COUNT offers (R12, R74, R75, R95) -/

/-- Whether a probe counts a record offered to it. -/
def Probe.counts (groupMap : Vector (Fin 8) 32) (r : Record) (x : Probe) : Bool :=
  x.state == .running &&
    match x.definition with
    | some d => d.measure == .count r.kind && d.selector.matchesRecord groupMap r
    | none => false

/-- The offer of a taken record to the COUNT probes. -/
def offerRecord (r : Record) (s : State) : State :=
  { s with bank := s.bank.mapProbes (fun _ x =>
      if x.counts s.trk.groupMap r then
        { x with values := { x.values with samples := satInc x.values.samples, sum := satAdd x.values.sum (recordAmount r) } }
      else x) }

/-! ### The purge engine (R102, R104) -/

/-- An addition handed to the purge engine: it starts a sweep at index 0 when the engine is idle, else it joins the
pending purge set (R102). `queued` is the intake occupancy, for the first visit's order (log 6). -/
def Purge.add (set : ProbeSet) (queued : Nat) (x : Purge) : Purge :=
  if set == 0 then x
  else if x.current == 0 then { current := set, waiting := x.waiting, position := some 0, visitAhead := queued }
  else { x with waiting := x.waiting ||| set }

/-- The purge engine at the end of a sweep: the pending purge set begins the next one, or the engine is idle (R104). -/
def Purge.endSweep (queued : Nat) (x : Purge) : Purge :=
  if x.waiting == 0 then Purge.idle
  else { current := x.waiting, waiting := 0, position := some 0, visitAhead := queued }

/-- A drain's end told to the owner of each of some probes in ascending number: those with a figure of entries
abandoned (R43, R104). -/
def raiseDrained (o : DrainOutcome) (t : Tick) (abandoned : Probe → Option Nat) (set : ProbeSet) (b : Bank)
    (m : Management) : Management :=
  (members set).foldl (fun m i =>
    match abandoned (b.probe i) with
    | some n => m.raiseToOwner (b.probe i).owner (.drained i o n) t
    | none => m) m

/-- Whether a drain cut of a probe is due: it is DRAINING with its drain deadline reached (R98). -/
def Probe.cutDue (now : Tick) (x : Probe) : Bool :=
  match x.drainDeadline with
  | some d => x.state == .draining && reached now d
  | none => false

/-- A probe brought to HELD, its drain deadline and cut count discarded (R43, R104). -/
def Probe.rest (x : Probe) : Probe :=
  { x with state := .held, drainDeadline := none, cutCount := none, cutAhead := none }

/-! ### Harvests (spec 07) -/

/-- The histogram part of a probe's page (R128). -/
def pageHist (pool : Vector (Option HistUnit) 8) (x : Probe) : Option PageHist :=
  match x.unit with
  | some k => pool[k].map (fun u => { unit := k, mode := u.mode, parameter := u.parameter, bins := u.bins })
  | none => none

/-- The page of a probe as it stands now (R128). -/
def pageOf (s : State) (i : ProbeNo) : ProbePage :=
  { probe := i, state := (s.probe i).state, owner := (s.probe i).owner,
    measure := (s.probe i).definition.map (fun d => d.measure), inFlight := (s.probe i).inFlight,
    values := (s.probe i).values, hist := pageHist s.pool (s.probe i) }

/-- A slot filled now: header and pages (R124, R127, R128, R136). -/
def captureSlot (owner : Port) (origin : Origin) (captured zeroed : ProbeSet) (s : State) : Slot :=
  { owner := owner
    origin := origin
    number := s.harv.number + 1
    header :=
      { captureTime := s.timebase, captured := captured, zeroed := zeroed, occupancy := s.trk.table.length,
        globals := s.trk.globals, lossCount := s.obs.lossCount, rejectedCount := s.obs.rejectedCount }
    pages := (members captured).map (pageOf s) }

/-- A probe with initial values and its alert armed flag set (R125). -/
def Probe.zeroed (x : Probe) : Probe := { x with values := Values.initial, alertArmed := true }

/-- The units held by the probes of a set, with their bins cleared (R117, R125). -/
def clearBins (set : ProbeSet) (b : Bank) (pool : Vector (Option HistUnit) 8) : Vector (Option HistUnit) 8 :=
  mapFin pool (fun k u => if (members set).any (fun i => (b.probe i).unit == some k) then u.map HistUnit.clear else u)

/-- Zeroing of a set of probes (R125). -/
def zeroProbes (set : ProbeSet) (s : State) : State :=
  { s with
    bank := s.bank.mapProbes (fun i x => if set.has i then x.zeroed else x)
    pool := clearBins set s.bank s.pool }

/-- A harvest into a slot: capture, then zeroing, at one instant (R124, R136 steps 1 to 4). -/
def makeHarvest (k : Fin 4) (owner : Port) (origin : Origin) (captured zeroed : ProbeSet) (s : State) : State :=
  zeroProbes zeroed
    { s with harv := { s.harv with
        slots := s.harv.slots.set k (some (captureSlot owner origin captured zeroed s))
        number := s.harv.number + 1 } }

/-- The probes of a set that are not UNBOUND (R136 step 3). -/
def boundProbes (set : ProbeSet) (b : Bank) : ProbeSet :=
  set &&& probesWhere (fun i => (b.probe i).state != .unbound)

/-- A trigger after it was served: EMPTY when its mode is ONCE (R136 step 6, R137). -/
def Trigger.served (x : Trigger) : Option Trigger :=
  match x.mode with
  | .once => none
  | .repeating => some x

/-- The part with one trigger replaced. -/
def State.setTrigger (s : State) (n : Fin 4) (x : Option Trigger) : State :=
  { s with harv := { s.harv with triggers := s.harv.triggers.set n x } }

/-- One trigger served by a MARK with its label: a harvest into the lowest FREE slot, or a miss (R136, R137). -/
def fireTrigger (n : Fin 4) (x : Trigger) (label : BitVec 16) (stamp : Tick) (s : State) : State :=
  match lowestNone s.harv.slots with
  | some k =>
    let captured := boundProbes x.probes s.bank
    let zeroed := if x.zero then captured &&& s.bank.ownedBy x.owner else 0
    let s1 := makeHarvest k x.owner (.trigger n label stamp) captured zeroed s
    let s2 := { s1 with mgmt := s1.mgmt.raiseToOwner (some x.owner) (.harvested k n s1.harv.number) stamp }
    s2.setTrigger n { x with fired := satInc x.fired }.served
  | none =>
    let s1 := { s with mgmt := s.mgmt.raiseToOwner (some x.owner) (.triggerMissed n label) stamp }
    s1.setTrigger n x.served

/-- One trigger's turn at a MARK record (R136). -/
def serveTrigger (label : BitVec 16) (stamp : Tick) (s : State) (n : Fin 4) : State :=
  match s.harv.triggers[n] with
  | some x => if x.label == label then fireTrigger n x label stamp s else s
  | none => s

/-- The triggers served by a MARK record, in ascending number (R136). -/
def serveTriggers (label : BitVec 16) (stamp : Tick) (s : State) : State :=
  (List.finRange 4).foldl (serveTrigger label stamp) s

/-! ### Sessions (R166) -/

/-- A frame being sent, after the record it may carry left the alert queue (R147, R151). -/
def Transmission.orphaned (x : Transmission) : Transmission :=
  match x.what with
  | .alert _ => { x with what := .alert false }
  | .notice => x
  | .reply => x

/-- A port after its session was closed: alert queue, lost count and mask emptied (R151, R166). -/
def PortState.closed (x : PortState) : PortState :=
  { x with
    isOpen := false
    alerts := []
    head := HeadAlert.none
    sending := x.sending.map Transmission.orphaned
    lostCount := 0
    mask := AlertMask.empty }

/-- A probe after a session close of a port: unowned if that port owned it (R82). -/
def Probe.released (p : Port) (x : Probe) : Probe := if x.ownedBy p then { x with owner := none } else x

/-- The Harvest Unit after a session close of a port: its slots FREE, its triggers EMPTY (R139). -/
def Harvester.released (p : Port) (h : Harvester) : Harvester :=
  { h with
    slots := mapFin h.slots (fun _ x => x.filter (fun k => k.owner != p))
    triggers := mapFin h.triggers (fun _ x => x.filter (fun k => k.owner != p)) }

/-- A session close of a port, at one instant (R166). -/
def sessionClose (p : Port) (s : State) : State :=
  { s with
    bank := s.bank.mapProbes (fun _ x => x.released p)
    harv := s.harv.released p
    mgmt := { s.mgmt.setPort p (s.mgmt.port p).closed with
      holder := if s.mgmt.holder == some p then none else s.mgmt.holder } }

/-! ### The dispatcher (R160, R162, R177) -/

/-- What the checks and the block that owns the state make of a command: a refusal with its code and body, or
acceptance with the OK body and the state after it (R175, R177). -/
inductive Verdict
  | refusal (code : ReplyCode) (body : List Byte)
  | accept (body : List Byte) (s : State)

/-- The dispatcher takes the head of the command queue as soon as no command is executing and the reply buffer is empty
(R160; log 7). -/
def PortState.takeNext (x : PortState) : PortState :=
  match x.executing, x.reply, x.commands with
  | none, none, c :: rest => { x with executing := some c, commands := rest }
  | none, none, [] => x
  | none, some _, _ => x
  | some _, _, _ => x

/-- Whether a command is a retry: its sequence number and type equal those of the stored last reply (R162). -/
def isRetry (x : PortState) (c : Command) : Bool :=
  match x.lastReply with
  | some r => r.seq == c.seq && r.type == c.type
  | none => false

/-- The executing command ends with its reply formed: in the reply buffer and stored as the last reply (R160 step 3,
R162). -/
def giveReply (p : Port) (r : Reply) (s : State) : State :=
  s.setPort p { s.port p with executing := none, reply := some r, lastReply := some r }

/-- The state after the verdict on a command: its reply given, its effect only when accepted (R175, R177). -/
def conclude (p : Port) (c : Command) (s : State) : Verdict → State
  | .refusal code body => giveReply p { type := c.type, seq := c.seq, code := code, body := body } s
  | .accept body s' => giveReply p { type := c.type, seq := c.seq, code := .ok, body := body } s'

/-- The command that the dispatcher of a port has taken is executed and answered, when it is of the given type and no
retry (R160). When it is another command, or there is none, this step is not the one that happens and the state stands
(log 4). -/
def dispatch (p : Port) (type : Byte) (run : List Byte → State → Verdict) (s : State) :
    Host.Outcome State Fault Refusal :=
  match (s.port p).executing with
  | some c =>
    whileReleased s
      (if c.type == type && !isRetry (s.port p) c then conclude p c s (run c.body s) else s)
  | none => .next s

/-! Checks, level by level (Table 10-11): each passes on to the rest or refuses. -/

/-- Refuse with a code and an empty body when a test fails the command. -/
def refuseIf (fails : Bool) (code : ReplyCode) (rest : Verdict) : Verdict :=
  if fails then .refusal code [] else rest

/-- Refuse naming the probe that fails a level, if one does (R175, R178). -/
def refuseProbe (failing : Option ProbeNo) (code : ProbeNo → ReplyCode) (rest : Verdict) : Verdict :=
  match failing with
  | some i => .refusal (code i) [byte i]
  | none => rest

/-- Levels 2 and 3: BAD_LENGTH, then NOT_OPEN (R164, R176). -/
def whenOpen (p : Port) (s : State) (lengthOk : Bool) (rest : Verdict) : Verdict :=
  refuseIf (!lengthOk) .badLength (refuseIf (!(s.port p).isOpen) .notOpen rest)

/-- Level 4 for the five commands that require the configuration claim (R167). -/
def whenHolder (p : Port) (s : State) (rest : Verdict) : Verdict :=
  refuseIf (s.mgmt.holder != some p) .notHolder rest

/-- Level 4 for the probe commands: NOT_OWNER naming the lowest probe not owned by the port (R81, R178). -/
def whenOwner (p : Port) (s : State) (set : ProbeSet) (rest : Verdict) : Verdict :=
  refuseProbe (lowestIn set (fun i => !(s.probe i).ownedBy p)) (fun _ => .notOwner) rest

end Sys2Proof.Machine
end

