-- ==== Sys2Proof/Machine/Alerts.lean ====
section
/-! DEFINITION. The meanings of the Alert Unit's commands, of the resend timer and of the transmitters (spec 08 and 09). -/

namespace Sys2Proof.Machine

/-- The checks and effect of SET_ALERT_MASK (R144). -/
def cmdSetAlertMask (p : Port) (body : List Byte) (s : State) : Verdict :=
  let mask := byteAt body 0
  whenOpen p s (body.length == 1)
    (refuseIf (!maskByteOk mask) .badArgument
      (.accept [(maskOfByte mask).byte] (s.setPort p { s.port p with mask := maskOfByte mask })))

/-- SET_ALERT_MASK (R144). -/
def execSetAlertMask (p : Port) (s : State) : Host.Outcome State Fault Refusal :=
  dispatch p 0x40#8 (cmdSetAlertMask p) s

/-- The condition of the head of a queue from which the head was just removed (R148). -/
def headAfter (rest : List Alert) : HeadAlert := if rest.isEmpty then HeadAlert.none else HeadAlert.fresh

/-- A port whose head alert left its queue; a frame that carries it goes on to its end (R147, R149). -/
def PortState.dropAlert (x : PortState) : PortState :=
  { x with
    alerts := x.alerts.drop 1
    head := headAfter (x.alerts.drop 1)
    sending := x.sending.map Transmission.orphaned }

/-- Whether an alert is an INTAKE_LOSS alert. -/
def Alert.isIntakeLoss (al : Alert) : Bool :=
  match al.condition with
  | .intakeLoss _ => true
  | .probeLimit _ _ => false
  | .drained _ _ _ => false
  | .harvested _ _ _ => false
  | .triggerMissed _ _ => false
  | .tableFull _ => false

/-- The state after the head alert `al` of a port was acknowledged; an INTAKE_LOSS alert arms the loss alert again
(R9, R149). -/
def acknowledge (p : Port) (al : Alert) (s : State) : State :=
  { s.setPort p (s.port p).dropAlert with
    obs := { s.obs with lossArmed := s.obs.lossArmed || al.isIntakeLoss } }

/-- The checks and effect of ACK_ALERT (R149). -/
def cmdAckAlert (p : Port) (body : List Byte) (s : State) : Verdict :=
  let number := field body 0 2
  whenOpen p s (body.length == 2)
    (match (s.port p).alerts with
      | [] => .refusal .badArgument []
      | al :: rest =>
        refuseIf (al.number.toNat != number || !(s.port p).head.sent) .badArgument
          (.accept (le 2 number ++ [byte rest.length]) (acknowledge p al s)))

/-- ACK_ALERT (R149). -/
def execAckAlert (p : Port) (s : State) : Host.Outcome State Fault Refusal :=
  dispatch p 0x41#8 (cmdAckAlert p) s

/-- Head number, head kind and head sent flag as ALERT_STATUS reports them (R150, Table 10-5). -/
def headReport (x : PortState) : List Byte :=
  match x.alerts with
  | [] => le 2 0 ++ [absentByte, 0]
  | al :: _ => le 2 al.number.toNat ++ [byte al.condition.kindCode, flagByte x.head.sent]

/-- The body of an ALERT_STATUS reply (R150, Table 10-5). -/
def alertReport (x : PortState) (undeliverable : BitVec 32) : List Byte :=
  [x.mask.byte, byte x.alerts.length] ++ le 2 x.lostCount.toNat ++ le 2 x.alertNumber.toNat ++ headReport x ++
    le 4 undeliverable.toNat

/-- The checks and reply of ALERT_STATUS (R150). -/
def cmdAlertStatus (p : Port) (body : List Byte) (s : State) : Verdict :=
  whenOpen p s body.isEmpty (.accept (alertReport (s.port p) s.mgmt.undeliverable) s)

/-- ALERT_STATUS (R150). -/
def execAlertStatus (p : Port) (s : State) : Host.Outcome State Fault Refusal :=
  dispatch p 0x42#8 (cmdAlertStatus p) s

/-! ### The resend timer (R148) -/

/-- Whether the resend timer of a port's head alert has run out (R148). -/
def PortState.resendDue (now : Tick) (x : PortState) : Bool :=
  match x.head.timer with
  | some t => reached now (t + Config.resendTicks)
  | none => false

/-- ALERT_RESEND_TIMEOUT (R148): the head becomes due again when its timer has run out (log 4). -/
def execAlertResendTimeout (p : Port) (s : State) : Host.Outcome State Fault Refusal :=
  whileReleased s
    (if (s.port p).resendDue s.timebase then
      s.setPort p { s.port p with head := { (s.port p).head with due := true, timer := none } }
    else s)

/-! ### The transmitter (R147, R161) -/

/-- An idle transmitter with the due head alert of its port, if there is one (R147, R148). -/
def PortState.beginAlert (x : PortState) : PortState :=
  match x.alerts with
  | [] => x
  | al :: _ =>
    if x.head.due then
      { x with head := { x.head with due := false }, sending := some { what := .alert true, bytes := al.frame } }
    else x

/-- An idle transmitter begins its next frame: a waiting notice, then the buffered reply, then the due head alert
(R161). A notice being sent no longer waits; a reply stays in the buffer until its transmission ends (R159, R160). -/
def PortState.beginFrame (x : PortState) : PortState :=
  match x.notice with
  | some r => { x with notice := none, sending := some { what := .notice, bytes := r.frame } }
  | none =>
    match x.reply with
    | some r => { x with sending := some { what := .reply, bytes := r.frame } }
    | none => x.beginAlert

/-- TRANSMIT_START (R161), when the transmitter is idle (log 4). -/
def execTransmitStart (p : Port) (s : State) : Host.Outcome State Fault Refusal :=
  whileReleased s (if (s.port p).sending.isNone then s.setPort p (s.port p).beginFrame else s)

/-- The head after a transmission of it ended at `now`: marked sent, its resend timer started (R147, R148). -/
def HeadAlert.afterSending (now : Tick) (h : HeadAlert) : HeadAlert := { h with sent := true, timer := some now }

/-- A port at the end of the frame being sent; the end of a reply lets the dispatcher take the next command (R147, R160,
R161). -/
def PortState.endFrame (now : Tick) (what : Sending) (x : PortState) : PortState :=
  match what with
  | .notice => { x with sending := none }
  | .reply => ({ x with sending := none, reply := none }).takeNext
  | .alert true => { x with sending := none, head := x.head.afterSending now }
  | .alert false => { x with sending := none }

/-- TRANSMIT_END (R161), when a frame is being sent (log 4). -/
def execTransmitEnd (p : Port) (s : State) : Host.Outcome State Fault Refusal :=
  match (s.port p).sending with
  | some f => whileReleased s (s.setPort p ((s.port p).endFrame s.timebase f.what))
  | none => .next s

end Sys2Proof.Machine
end

