-- ==== Sys2Proof/Machine/Device.lean ====
section
/-! DEFINITION. The meanings of the device's own events: device reset and its release (R153), and the tick of the
Timebase (R1). -/

namespace Sys2Proof.Machine

/-- The part in device reset: every block at its reset value; the waiting commands stand, and the baud rate stays as
it was until the straps are sampled at the release (R153; log 3). -/
def heldInReset (s : State) : State :=
  { State.reset with pending := s.pending, resetN := false, baud := s.baud }

/-- The part right after the release of device reset with the given strap levels (R153, Table 9-1). -/
def releasedFromReset (sel1 sel0 : Bool) (s : State) : State :=
  { State.reset with pending := s.pending, baud := baudOfStraps sel1 sel0 }

/-- DEVICE_RESET (R153): RESET_N pulled low holds the part in device reset; power-on resets it and releases it
(log 2). -/
def execDeviceReset (cause : ResetCause) (s : State) : Host.Outcome State Fault Refusal :=
  match cause with
  | .resetNLow => .next (heldInReset s)
  | .powerOn sel1 sel0 => .next (releasedFromReset sel1 sel0 s)

/-- RESET_N_RELEASE (R153): when RESET_N rises the straps are sampled and the Timebase starts from 0. -/
def execResetNRelease (sel1 sel0 : Bool) (s : State) : Host.Outcome State Fault Refusal :=
  if s.resetN then .next s
  else .next { s with resetN := true, baud := baudOfStraps sel1 sel0, timebase := 0 }

/-- An entry at the tick that brings the Timebase to `now`: when its deadline becomes reached, the records already
queued, `queued` of them, are those that may be taken ahead of its expiry (R11, R52; log 6). -/
def Entry.tick (now : Tick) (queued : Nat) (e : Entry) : Entry :=
  if e.dueAhead.isNone && reached now e.deadline then { e with dueAhead := some queued } else e

/-- A probe at that tick, for its drain deadline (R11, R98; log 6). -/
def Probe.tick (now : Tick) (queued : Nat) (x : Probe) : Probe :=
  if x.cutAhead.isNone && x.cutDue now then { x with cutAhead := some queued } else x

/-- TIMEBASE_TICK (R1): the Timebase advances by one, wrapping from 2^48 − 1 to 0; while RESET_N is low it stays. -/
def execTimebaseTick (s : State) : Host.Outcome State Fault Refusal :=
  whileReleased s
    { s with
      timebase := s.timebase + 1
      trk := { s.trk with table := s.trk.table.map (Entry.tick (s.timebase + 1) s.obs.queue.length) }
      bank := s.bank.mapProbes (fun _ x => x.tick (s.timebase + 1) s.obs.queue.length) }

end Sys2Proof.Machine
end

