-- ==== Sys2Proof/Machine/Engine.lean ====
section
/-! DEFINITION. The meanings of the Tracking Engine's own steps: taking a record (R11, R12) and an expiry (R53). -/

namespace Sys2Proof.Machine

/-- Whether an expiry is due that no record may be taken ahead of any more: of any entry, since the entries before it in
the list expire first (R11, R52; log 6). -/
def Tracking.expiryFirst (now : Tick) (k : Tracking) : Bool :=
  match k.table with
  | e :: rest => reached now e.deadline && (e :: rest).any (fun x => reached now x.deadline && x.dueAhead == some 0)
  | [] => false

/-- Whether a drain cut of a probe is due that no record may be taken ahead of any more (R11, R98; log 6). -/
def Probe.cutFirst (now : Tick) (x : Probe) : Bool := x.cutDue now && x.cutAhead == some 0

/-- Whether a sweep's next visit is due that no record may be taken ahead of any more (R11, R103; log 6). -/
def Purge.visitFirst (x : Purge) : Bool := x.position.isSome && x.visitAhead == 0

/-- Whether other work must be taken before the next record (R11). -/
def engineWorkFirst (s : State) : Bool :=
  s.trk.expiryFirst s.timebase || (List.finRange 16).any (fun i => (s.probe i).cutFirst s.timebase) ||
    s.bank.purge.visitFirst

/-- A mark of due work once a record was taken ahead of it (log 6). -/
def countDown (mark : Option Nat) : Option Nat := mark.map (fun n => n - 1)

/-- An entry once a record was taken (log 6). -/
def Entry.countDown (e : Entry) : Entry := { e with dueAhead := Machine.countDown e.dueAhead }

/-- A probe once a record was taken (log 6). -/
def Probe.countDown (x : Probe) : Probe := { x with cutAhead := Machine.countDown x.cutAhead }

/-- A taken record leaves the intake queue, and one record fewer stands ahead of each due work (R10, R11; log 6). -/
def popRecord (s : State) : State :=
  { s with
    obs := { s.obs with queue := s.obs.queue.drop 1 }
    trk := { s.trk with table := s.trk.table.map Entry.countDown }
    bank :=
      { probes := mapFin s.bank.probes (fun _ x => x.countDown)
        purge := { s.bank.purge with visitAhead := s.bank.purge.visitAhead - 1 } } }

/-- What the engine does with a record beyond the offer to COUNT probes: admission or matching (R12, R21, R31). -/
def engineHandle (r : Record) (stamp : Tick) (s : State) : State :=
  match r with
  | .req requester tag kind length =>
    match trackedOf kind with
    | some tracked => handleRequest { requester := requester, tag := tag } tracked length stamp s
    | none => s
  | .cpl requester tag status bytes last => handlePart { requester := requester, tag := tag } status bytes last stamp s
  | .stall _ => s
  | .retry => s
  | .linkerr _ => s
  | .mark _ => s

/-- The triggers a record serves, once it was offered to the COUNT probes: those of a MARK's label (R12, R136). -/
def fireMark (r : Record) (stamp : Tick) (s : State) : State :=
  match r with
  | .mark label => serveTriggers label stamp s
  | .req _ _ _ _ => s
  | .cpl _ _ _ _ _ => s
  | .stall _ => s
  | .retry => s
  | .linkerr _ => s

/-- The whole handling of a taken record (R11, R12). -/
def handleRecord (x : Stamped) (s : State) : State :=
  fireMark x.record x.stamp (offerRecord x.record (engineHandle x.record x.stamp s))

/-- TAKE_RECORD (R11): the head of the intake queue, unless the queue is empty or due work comes first (log 4). -/
def execTakeRecord (s : State) : Host.Outcome State Fault Refusal :=
  match s.obs.queue with
  | [] => .next s
  | x :: _ => whileReleased s (if engineWorkFirst s then s else handleRecord x (popRecord s))

/-- EXPIRY (R52, R53): of the entry at the head of the deadline list, when its deadline is reached (log 4). -/
def execExpiry (s : State) : Host.Outcome State Fault Refusal :=
  match s.trk.table with
  | [] => .next s
  | e :: _ => whileReleased s (if reached s.timebase e.deadline then expireEntry e s else s)

end Sys2Proof.Machine
end

