-- ==== Sys2Proof/Machine/Harvest.lean ====
section
/-! DEFINITION. The meanings of the Harvest Unit's commands (spec 07). -/

namespace Sys2Proof.Machine

/-- A flag byte with a code other than 0 and 1 (R172). -/
def flagUndefined (b : Byte) : Bool := 1 < b.toNat

/-- The slot a number names, if it is 0..3 (R129, R178). -/
def slotNo (b : Byte) : Option (Fin 4) := if h : b.toNat < 4 then some ⟨b.toNat, h⟩ else none

/-! ### Slots (R123 to R131) -/

/-- The harvest of an accepted HARVEST into slot `k`, with its reply: slot, harvest number, page count (R124). -/
def harvestVerdict (p : Port) (k : Fin 4) (set : ProbeSet) (zero : Bool) (s : State) : Verdict :=
  .accept ([byte k] ++ le 2 (s.harv.number + 1).toNat ++ [byte (1 + (members set).length)])
    (makeHarvest k p .command set (if zero then set else 0) s)

/-- The checks and effect of HARVEST (R123, R124). -/
def cmdHarvest (p : Port) (body : List Byte) (s : State) : Verdict :=
  let set := probeSetAt body 0
  let flag := byteAt body 2
  whenOpen p s (body.length == 3)
    (whenOwner p s (if flag == 1 then set else 0)
      (refuseIf (set == 0 || flagUndefined flag) .badArgument
        (refuseProbe (lowestIn set (fun i => (s.probe i).state == .unbound)) (fun _ => .badState)
          (match lowestNone s.harv.slots with
            | some k => harvestVerdict p k set (flag == 1) s
            | none => .refusal .noResource []))))

/-- HARVEST (R124). -/
def execHarvest (p : Port) (s : State) : Host.Outcome State Fault Refusal :=
  dispatch p 0x38#8 (cmdHarvest p) s

/-- The body of a READ_SNAPSHOT reply (R129, Table 10-5). -/
def snapshotReply (k : Fin 4) (page : Nat) (x : Slot) : List Byte :=
  [byte k, byte page, byte x.pageCount] ++ le 2 x.number.toNat ++ x.page page

/-- The checks and reply of READ_SNAPSHOT (R129). -/
def cmdReadSnapshot (p : Port) (body : List Byte) (s : State) : Verdict :=
  let page := (byteAt body 1).toNat
  whenOpen p s (body.length == 2)
    (match slotNo (byteAt body 0) with
      | none => .refusal .badArgument []
      | some k =>
        match s.harv.slots[k] with
        | some x =>
          refuseIf (x.owner != p) .notOwner
            (refuseIf (16 < page || x.pageCount ≤ page) .badArgument (.accept (snapshotReply k page x) s))
        | none => refuseIf (16 < page) .badArgument (.refusal .badState []))

/-- READ_SNAPSHOT (R129). -/
def execReadSnapshot (p : Port) (s : State) : Host.Outcome State Fault Refusal :=
  dispatch p 0x39#8 (cmdReadSnapshot p) s

/-- The number of FREE slots. -/
def freeSlots (slots : Vector (Option Slot) 4) : Nat := slots.toList.countP (fun x => x.isNone)

/-- The part with a slot returned to FREE (R130). -/
def freeSlot (k : Fin 4) (s : State) : State := { s with harv := { s.harv with slots := s.harv.slots.set k none } }

/-- The checks and effect of FREE_SNAPSHOT (R130). -/
def cmdFreeSnapshot (p : Port) (body : List Byte) (s : State) : Verdict :=
  whenOpen p s (body.length == 1)
    (match slotNo (byteAt body 0) with
      | none => .refusal .badArgument []
      | some k =>
        match s.harv.slots[k] with
        | some x =>
          refuseIf (x.owner != p) .notOwner
            (.accept [byte k, byte (freeSlots (freeSlot k s).harv.slots)] (freeSlot k s))
        | none => .refusal .badState [])

/-- FREE_SNAPSHOT (R130). -/
def execFreeSnapshot (p : Port) (s : State) : Host.Outcome State Fault Refusal :=
  dispatch p 0x3A#8 (cmdFreeSnapshot p) s

/-- The origin and trigger bytes of a filled slot (R131, R172). -/
def originBytes : Origin → List Byte
  | .command => [0, absentByte]
  | .trigger n _ _ => [1, byte n]

/-- The reply part of one slot; the fields of a FREE slot are 0 (R131, R172). -/
def slotReport : Option Slot → List Byte
  | none => [0, 0, 0, 0] ++ le 2 0 ++ [0]
  | some x => [1, ownerByte (some x.owner)] ++ originBytes x.origin ++ le 2 x.number.toNat ++ [byte x.pageCount]

/-- The checks and reply of SNAPSHOT_STATUS (R131). -/
def cmdSnapshotStatus (p : Port) (body : List Byte) (s : State) : Verdict :=
  whenOpen p s body.isEmpty (.accept (le 2 s.harv.number.toNat ++ s.harv.slots.toList.flatMap slotReport) s)

/-- SNAPSHOT_STATUS (R131). -/
def execSnapshotStatus (p : Port) (s : State) : Host.Outcome State Fault Refusal :=
  dispatch p 0x3B#8 (cmdSnapshotStatus p) s

/-! ### Triggers (R132 to R135) -/

/-- The trigger that SET_TRIGGER sets from its body (R133). -/
def triggerOfBody (p : Port) (mode : TriggerMode) (body : List Byte) : Trigger :=
  { owner := p, label := BitVec.ofNat 16 (field body 1 2), probes := probeSetAt body 3, zero := byteAt body 5 == 1,
    mode := mode, fired := 0 }

/-- Whether the trigger that a number names, if it names one, is SET and owned by the other port (R133, R178). -/
def namedElsewhere (p : Port) (b : Byte) (s : State) : Bool :=
  match slotNo b with
  | some n =>
    match s.harv.triggers[n] with
    | some x => x.owner != p
    | none => false
  | none => false

/-- The level 5 checks of SET_TRIGGER and its effect (R133). -/
def setTriggerVerdict (p : Port) (body : List Byte) (s : State) : Verdict :=
  match slotNo (byteAt body 0), triggerModeOfCode (byteAt body 6).toNat with
  | some n, some mode =>
    refuseIf (probeSetAt body 3 == 0 || flagUndefined (byteAt body 5)) .badArgument
      (.accept (body ++ le 4 0) (s.setTrigger n (some (triggerOfBody p mode body))))
  | some _, none => .refusal .badArgument []
  | none, some _ => .refusal .badArgument []
  | none, none => .refusal .badArgument []

/-- The checks and effect of SET_TRIGGER; OWNED_ELSEWHERE is given before NOT_OWNER (R133, R178; log 19). -/
def cmdSetTrigger (p : Port) (body : List Byte) (s : State) : Verdict :=
  whenOpen p s (body.length == 7)
    (refuseIf (namedElsewhere p (byteAt body 0) s) .ownedElsewhere
      (whenOwner p s (probeSetAt body 3) (setTriggerVerdict p body s)))

/-- SET_TRIGGER (R133). -/
def execSetTrigger (p : Port) (s : State) : Host.Outcome State Fault Refusal :=
  dispatch p 0x3C#8 (cmdSetTrigger p) s

/-- The checks and effect of CLEAR_TRIGGER (R134). -/
def cmdClearTrigger (p : Port) (body : List Byte) (s : State) : Verdict :=
  whenOpen p s (body.length == 1)
    (match slotNo (byteAt body 0) with
      | none => .refusal .badArgument []
      | some n =>
        match s.harv.triggers[n] with
        | some x => refuseIf (x.owner != p) .notOwner (.accept (byte n :: le 4 x.fired.toNat) (s.setTrigger n none))
        | none => .refusal .badState [])

/-- CLEAR_TRIGGER (R134). -/
def execClearTrigger (p : Port) (s : State) : Host.Outcome State Fault Refusal :=
  dispatch p 0x3D#8 (cmdClearTrigger p) s

/-- The reply part of one trigger; the fields of an EMPTY trigger are 0 (R135, R172). -/
def triggerReport : Option Trigger → List Byte
  | none => [0, 0] ++ le 2 0 ++ le 2 0 ++ [0, 0] ++ le 4 0
  | some x =>
    [1, ownerByte (some x.owner)] ++ le 2 x.label.toNat ++ le 2 x.probes.toNat ++
      [flagByte x.zero, byte x.mode.code] ++ le 4 x.fired.toNat

/-- The checks and reply of TRIGGER_STATUS (R135). -/
def cmdTriggerStatus (p : Port) (body : List Byte) (s : State) : Verdict :=
  whenOpen p s body.isEmpty (.accept (s.harv.triggers.toList.flatMap triggerReport) s)

/-- TRIGGER_STATUS (R135). -/
def execTriggerStatus (p : Port) (s : State) : Host.Outcome State Fault Refusal :=
  dispatch p 0x3E#8 (cmdTriggerStatus p) s

end Sys2Proof.Machine
end

