-- ==== Sys2Proof/Machine/Intake.lean ====
section
/-! DEFINITION. The meanings of the Observation Port's commands (spec 01): an arriving record, and the three commands
on the intake state. -/

namespace Sys2Proof.Machine

/-- A valid record that finds room joins the tail of the intake queue with its stamp (R7). -/
def queueRecord (r : Record) (s : State) : State :=
  { s with obs := { s.obs with queue := s.obs.queue ++ [{ record := r, stamp := s.timebase }] } }

/-- A valid record that finds a full queue is dropped: counted as loss, with an INTAKE_LOSS alert if the flag is
armed, which it clears (R8). -/
def dropRecord (s : State) : State :=
  let count := satInc s.obs.lossCount
  { s with
    obs := { s.obs with lossCount := count, lossArmed := false }
    mgmt := if s.obs.lossArmed then s.mgmt.raiseDeviceWide (.intakeLoss count) s.timebase else s.mgmt }

/-- An invalid record is rejected and counted (R7). -/
def rejectRecord (s : State) : State :=
  { s with obs := { s.obs with rejectedCount := satInc s.obs.rejectedCount } }

/-- An arriving record by the intake state (R3, R7, R8). -/
def arrive (data : BitVec 64) (s : State) : State :=
  if s.obs.enabled then
    match decodeRecord data with
    | some r => if s.obs.queue.length < Config.intakeRecords then queueRecord r s else dropRecord s
    | none => rejectRecord s
  else s

/-- RECORD_TRANSFER (R7). -/
def execRecordTransfer (data : BitVec 64) (s : State) : Host.Outcome State Fault Refusal :=
  whileReleased s (arrive data s)

/-- The checks and effect of INTAKE_ENABLE (R13). -/
def cmdIntakeEnable (p : Port) (body : List Byte) (s : State) : Verdict :=
  whenOpen p s body.isEmpty (whenHolder p s
    (.accept [1] { s with obs := { s.obs with enabled := true } }))

/-- INTAKE_ENABLE (R13). -/
def execIntakeEnable (p : Port) (s : State) : Host.Outcome State Fault Refusal :=
  dispatch p 0x10#8 (cmdIntakeEnable p) s

/-- The checks and effect of INTAKE_DISABLE (R14). -/
def cmdIntakeDisable (p : Port) (body : List Byte) (s : State) : Verdict :=
  whenOpen p s body.isEmpty (whenHolder p s
    (.accept [0, byte s.obs.queue.length] { s with obs := { s.obs with enabled := false } }))

/-- INTAKE_DISABLE (R14). -/
def execIntakeDisable (p : Port) (s : State) : Host.Outcome State Fault Refusal :=
  dispatch p 0x11#8 (cmdIntakeDisable p) s

/-- The body of a READ_INTAKE reply (R15). -/
def Observation.bytes (o : Observation) : List Byte :=
  [flagByte o.enabled, byte o.queue.length] ++ le 4 o.lossCount.toNat ++ le 4 o.rejectedCount.toNat ++
    [flagByte o.lossArmed]

/-- The checks and reply of READ_INTAKE (R15). -/
def cmdReadIntake (p : Port) (body : List Byte) (s : State) : Verdict :=
  whenOpen p s body.isEmpty (.accept s.obs.bytes s)

/-- READ_INTAKE (R15). -/
def execReadIntake (p : Port) (s : State) : Host.Outcome State Fault Refusal :=
  dispatch p 0x12#8 (cmdReadIntake p) s

end Sys2Proof.Machine
end

