-- ==== Sys2Proof/Machine/Lines.lean ====
section
/-! DEFINITION. The meanings of what the receive lines bring (spec 09): characters and frames, framing errors, gaps, and
the port reset of a break. -/

namespace Sys2Proof.Machine

/-- The Timebase value at the last character of a partial frame; none in HUNT (R156). -/
def Framer.last : Framer → Option Tick
  | .hunt => none
  | .length _ t => some t
  | .content _ _ t => some t
  | .check _ _ t => some t

/-- Ticks since the last character of the partial frame pass a test; never in HUNT. -/
def Framer.idleFor (now : Tick) (test : Nat → Bool) (f : Framer) : Bool :=
  match f.last with
  | some t => test (elapsed t now)
  | none => false

/-- Whether a partial frame is discarded before a character that comes now: more than 625,000 ticks have passed (R156;
log 11). -/
def Framer.late (now : Tick) (f : Framer) : Bool := f.idleFor now (fun n => Config.gapTicks < n)

/-- Whether the gap timer of a partial frame has run out: 625,000 ticks have passed (R156; log 10). -/
def Framer.gapOver (now : Tick) (f : Framer) : Bool := f.idleFor now (fun n => Config.gapTicks ≤ n)

/-- A partial frame discarded and counted, the framer back in HUNT (R156, R158). -/
def PortState.discard (x : PortState) : PortState := { x with framer := .hunt, rejectCount := satInc x.rejectCount }

/-- A received frame offered to the command queue: it joins the tail, from where the dispatcher may take it at once, or is
refused with a QUEUE_FULL notice that takes the place of one already waiting (R159, R160). -/
def PortState.offerCommand (c : Command) (x : PortState) : PortState :=
  if x.commands.length < Config.queuedCommands then ({ x with commands := x.commands ++ [c] }).takeNext
  else { x with notice := some { type := c.type, seq := c.seq, code := .queueFull, body := [] } }

/-- The command that the content of a frame is; a content has its type and sequence number (R155). -/
def commandOf : List Byte → Option Command
  | type :: seq :: body => some { type := type, seq := seq, body := body }
  | [_] => none
  | [] => none

/-- A frame whose CRC matches: handed to the command queue, the framer back in HUNT (R157). -/
def PortState.receive (content : List Byte) (x : PortState) : PortState :=
  match commandOf content with
  | some c => ({ x with framer := .hunt }).offerCommand c
  | none => { x with framer := .hunt }

/-- A length out of the range 2..1026 (R155). -/
def lengthOutOfRange (n : Nat) : Bool := n < 2 || 1026 < n

/-- Whether the CRC that two bytes carry is that of a content with its length (R157). -/
def crcMatches (content : List Byte) (low high : Byte) : Bool :=
  leNat [low, high] == (crc16 (lengthAndContent content)).toNat

/-- CONTENT with one more character; after the last of them the framer enters CHECK (R155). -/
def Framer.grow (length : Nat) (got : List Byte) (now : Tick) : Framer :=
  if got.length == length then .check got none now else .content length got now

/-- A good character taken by the framer (R155, R157). -/
def PortState.takeChar (now : Tick) (b : Byte) (x : PortState) : PortState :=
  match x.framer with
  | .hunt => if b == Config.startByte then { x with framer := .length none now } else x
  | .length none _ => { x with framer := .length (some b) now }
  | .length (some low) _ =>
    if lengthOutOfRange (leNat [low, b]) then x.discard else { x with framer := .content (leNat [low, b]) [] now }
  | .content length got _ => { x with framer := Framer.grow length (got ++ [b]) now }
  | .check content none _ => { x with framer := .check content (some b) now }
  | .check content (some low) _ => if crcMatches content low b then x.receive content else x.discard

/-- A character that comes after the gap of its partial frame is examined in HUNT, the partial frame discarded (R156;
log 11). -/
def PortState.expireGap (now : Tick) (x : PortState) : PortState := if x.framer.late now then x.discard else x

/-- What the receiver of a port does when it looks for characters: not while RESET_N is low, and not between a framing
error and the return of the line to high (R153, R154; log 21). -/
def whenListening (p : Port) (s : State) (f : PortState → PortState) : Host.Outcome State Fault Refusal :=
  whileReleased s (if (s.port p).low.isNone then s.setPort p (f (s.port p)) else s)

/-- CHARACTER_RECEIVED (R155): any good character (log 13). -/
def execCharacterReceived (p : Port) (char : Byte) (s : State) : Host.Outcome State Fault Refusal :=
  whenListening p s (fun x => (x.expireGap s.timebase).takeChar s.timebase char)

/-- The content of the frame that a character completes with a matching CRC, if it does (R157). -/
def PortState.completes (now : Tick) (b : Byte) (x : PortState) : Option (List Byte) :=
  match x.framer with
  | .check content (some low) _ => if crcMatches content low b && !x.framer.late now then some content else none
  | .check _ none _ => none
  | .hunt => none
  | .length _ _ => none
  | .content _ _ _ => none

/-- FRAME_RECEIVED (R157), when the character is the second CRC byte of a frame whose CRC matches (log 4, log 13). -/
def execFrameReceived (p : Port) (high : Byte) (s : State) : Host.Outcome State Fault Refusal :=
  whenListening p s (fun x =>
    match x.completes s.timebase high with
    | some content => x.receive content
    | none => x)

/-- Whether a character is a second length byte that puts the length out of range (R156). -/
def PortState.failsLength (now : Tick) (b : Byte) (x : PortState) : Bool :=
  match x.framer with
  | .length (some low) _ => lengthOutOfRange (leNat [low, b]) && !x.framer.late now
  | .length none _ => false
  | .hunt => false
  | .content _ _ _ => false
  | .check _ _ _ => false

/-- Whether a character is a second CRC byte that does not match (R156). -/
def PortState.failsCrc (now : Tick) (b : Byte) (x : PortState) : Bool :=
  match x.framer with
  | .check content (some low) _ => !crcMatches content low b && !x.framer.late now
  | .check _ none _ => false
  | .hunt => false
  | .length _ _ => false
  | .content _ _ _ => false

/-- A framing error: inside a frame it discards the frame, in HUNT it is not counted; the receiver then waits for the
line to return high (R154, R156). -/
def PortState.framingError (since : Tick) (x : PortState) : PortState :=
  { (if x.framer == .hunt then x else x.discard) with low := some { since := since, resetTaken := false } }

/-- FRAME_DISCARD (R156), when what the cause names is what happens (log 4). -/
def execFrameDiscard (p : Port) (cause : DiscardCause) (s : State) : Host.Outcome State Fault Refusal :=
  whenListening p s (fun x =>
    match cause with
    | .framingError since => x.framingError since
    | .lengthOutOfRange high => if x.failsLength s.timebase high then x.discard else x
    | .badCrc high => if x.failsCrc s.timebase high then x.discard else x)

/-- FRAME_GAP_TIMEOUT (R156), when 625,000 ticks have passed since the last character of a partial frame (log 4,
log 10). -/
def execFrameGapTimeout (p : Port) (s : State) : Host.Outcome State Fault Refusal :=
  whileReleased s
    (if (s.port p).framer.gapOver s.timebase then s.setPort p (s.port p).discard else s)

/-! ### Breaks (R154, R163) -/

/-- Whether a break has lasted 125,000 ticks and has not yet given its port reset (R154). -/
def LowPeriod.resetDue (now : Tick) (l : LowPeriod) : Bool := !l.resetTaken && Config.breakTicks ≤ elapsed l.since now

/-- The port's own part of a port reset, after the session close: framer, queue, notice, stored reply, session number,
reject count and alert number; a command that was taken and not yet executed is withdrawn, and a reply whose transmission
has begun is completed (R163). -/
def PortState.portReset (l : LowPeriod) (x : PortState) : PortState :=
  { x with
    framer := .hunt
    low := some { l with resetTaken := true }
    commands := []
    executing := none
    notice := none
    reply := if x.sending.any (fun f => f.what == .reply) then x.reply else none
    lastReply := none
    sessionNumber := 0
    rejectCount := 0
    alertNumber := 0 }

/-- The session close that a port reset takes if the session is OPEN (R163 step 4, R166). -/
def closeIfOpen (p : Port) (s : State) : State := if (s.port p).isOpen then sessionClose p s else s

/-- A port reset of a port in low period `l` (R163). -/
def resetPort (p : Port) (l : LowPeriod) (s : State) : State :=
  (closeIfOpen p s).setPort p (((closeIfOpen p s).port p).portReset l)

/-- PORT_RESET (R163), when a break has lasted 125,000 ticks (log 4, log 12). -/
def execPortReset (p : Port) (s : State) : Host.Outcome State Fault Refusal :=
  match (s.port p).low with
  | some l => whileReleased s (if l.resetDue s.timebase then resetPort p l s else s)
  | none => .next s

/-- The port reset that a low period has earned and not yet given, taken before the low period ends (R154; log 25). -/
def resetIfDue (p : Port) (l : LowPeriod) (s : State) : State := if l.resetDue s.timebase then resetPort p l s else s

/-- The end of a low period: the line is high, and the framer hunts (R154). -/
def PortState.lineHigh (x : PortState) : PortState := { x with low := none, framer := .hunt }

/-- The receive line of a port high again. -/
def returnHigh (p : Port) (s : State) : State := s.setPort p (s.port p).lineHigh

/-- BREAK_END (R154): the line returns high, after the port reset if that is due (log 25), and the framer hunts. -/
def execBreakEnd (p : Port) (s : State) : Host.Outcome State Fault Refusal :=
  match (s.port p).low with
  | some l => whileReleased s (returnHigh p (resetIfDue p l s))
  | none => .next s

end Sys2Proof.Machine
end

