-- ==== Sys2Proof/Machine/Probes.lean ====
section
/-! DEFINITION. The meanings of the Probe Bank's commands (spec 05) and of POOL_STATUS (spec 06). -/

namespace Sys2Proof.Machine

/-- The state a probe command refuses by: IN_PROGRESS for DRAINING and PURGING, BAD_STATE for the others
(R84, R86, R89). -/
def ProbeState.refusal : ProbeState → ReplyCode
  | .draining => .inProgress
  | .purging => .inProgress
  | .unbound => .badState
  | .armed => .badState
  | .running => .badState
  | .held => .badState

/-- The states from which a probe is defined or cleared (R84, R89). -/
def ProbeState.atRest : ProbeState → Bool
  | .unbound => true
  | .armed => true
  | .held => true
  | .running => false
  | .draining => false
  | .purging => false

/-- The states from which a probe is started (R86). -/
def ProbeState.startable : ProbeState → Bool
  | .armed => true
  | .held => true
  | .unbound => false
  | .running => false
  | .draining => false
  | .purging => false

/-- A body that is one set of probes (R176). -/
def setLengthOk (body : List Byte) : Bool := body.length == 2

/-- Refuse naming the lowest probe of a set whose state is not among those a command is accepted in (R83, R178). -/
def whenStates (set : ProbeSet) (ok : ProbeState → Bool) (s : State) (rest : Verdict) : Verdict :=
  refuseProbe (lowestIn set (fun i => !ok (s.probe i).state)) (fun i => (s.probe i).state.refusal) rest

/-! ### Ownership (R79, R80) -/

/-- The bank after a set of probes took an owner. -/
def Bank.own (set : ProbeSet) (owner : Option Port) (b : Bank) : Bank :=
  b.mapProbes (fun i x => if set.has i then { x with owner := owner } else x)

/-- The checks and effect of CLAIM_PROBES (R79). -/
def cmdClaimProbes (p : Port) (body : List Byte) (s : State) : Verdict :=
  let set := probeSetAt body 0
  let after := s.bank.own set (some p)
  whenOpen p s (setLengthOk body)
    (refuseProbe (lowestIn set (fun i => (s.probe i).ownedBy p.other)) (fun _ => .ownedElsewhere)
      (refuseIf (set == 0) .badArgument
        (.accept (le 2 (after.ownedBy p).toNat) { s with bank := after })))

/-- CLAIM_PROBES (R79). -/
def execClaimProbes (p : Port) (s : State) : Host.Outcome State Fault Refusal :=
  dispatch p 0x28#8 (cmdClaimProbes p) s

/-- The checks and effect of UNCLAIM_PROBES (R80). -/
def cmdUnclaimProbes (p : Port) (body : List Byte) (s : State) : Verdict :=
  let set := probeSetAt body 0
  let after := s.bank.own set none
  whenOpen p s (setLengthOk body) (whenOwner p s set
    (refuseIf (set == 0) .badArgument
      (.accept (le 2 (after.ownedBy p).toNat) { s with bank := after })))

/-- UNCLAIM_PROBES (R80). -/
def execUnclaimProbes (p : Port) (s : State) : Host.Outcome State Fault Refusal :=
  dispatch p 0x29#8 (cmdUnclaimProbes p) s

/-! ### Definition (R84, R85) -/

/-- The definition of a DEFINE_PROBE body that passes the argument checks, with its histogram request, if any:
measure and count event, selector, request (R70, R71, R84, R110). -/
def checkedDefinition (body : List Byte) : Option (Definition × Option (HistMode × BitVec 32)) :=
  match measureOfCodes (byteAt body 1).toNat (byteAt body 2).toNat with
  | none => none
  | some m =>
    let d := definitionOfBody m body
    if d.selector.valid && d.selector.fits m then
      if requestsUnit body then
        if m.isLatency then (histRequestOfBody body).map (fun h => (d, some h)) else none
      else some (d, none)
    else none

/-- The pool with the unit a probe holds, if any, returned (R85 step 1, R112). -/
def returnUnit (x : Probe) (pool : Vector (Option HistUnit) 8) : Vector (Option HistUnit) 8 :=
  match x.unit with
  | some k => pool.set k none
  | none => pool

/-- A unit newly attached to a probe, its bins zeroed (R111). -/
def attachedUnit (i : ProbeNo) (h : HistMode × BitVec 32) : HistUnit :=
  { probe := i, mode := h.1, parameter := h.2, bins := Vector.replicate 16 0 }

/-- A probe after an accepted DEFINE_PROBE (R85 steps 3 and 4). -/
def Probe.defined (d : Definition) (unit : Option (Fin 8)) (x : Probe) : Probe :=
  { x with definition := some d, unit := unit, values := Values.initial, alertArmed := true, state := .armed }

/-- The state after an accepted DEFINE_PROBE, with the unit it attached, if any (R85). -/
def defineProbe (i : ProbeNo) (d : Definition) (unit : Option (Fin 8)) (pool : Vector (Option HistUnit) 8)
    (s : State) : State :=
  { s with bank := s.bank.setProbe i ((s.probe i).defined d unit), pool := pool }

/-- The unit DEFINE_PROBE takes: the lowest FREE one once the probe's own was returned; a request that finds none is
refused NO_RESOURCE (R84, R85, R111). -/
def allocate (i : ProbeNo) (d : Definition) (request : Option (HistMode × BitVec 32)) (s : State) : Verdict :=
  let pool := returnUnit (s.probe i) s.pool
  match request with
  | none => .accept [byte i, byte ProbeState.armed.code, absentByte] (defineProbe i d none pool s)
  | some h =>
    match lowestNone pool with
    | some k =>
      .accept [byte i, byte ProbeState.armed.code, byte k]
        (defineProbe i d (some k) (pool.set k (some (attachedUnit i h))) s)
    | none => .refusal .noResource [byte i]

/-- The checks and effect of DEFINE_PROBE; a probe number above 15 passes level 4 and fails level 5, and a refusal at
levels 4 to 7 names the number of the body (R84, R175, R178). -/
def cmdDefineProbe (p : Port) (body : List Byte) (s : State) : Verdict :=
  whenOpen p s (defineLengthOk body)
    (if h : (byteAt body 0).toNat < 16 then
      let i : ProbeNo := ⟨(byteAt body 0).toNat, h⟩
      if (s.probe i).ownedBy p then
        match checkedDefinition body with
        | none => .refusal .badArgument [byteAt body 0]
        | some (d, request) =>
          if (s.probe i).state.atRest then allocate i d request s
          else .refusal (s.probe i).state.refusal [byteAt body 0]
      else .refusal .notOwner [byteAt body 0]
    else .refusal .badArgument [byteAt body 0])

/-- DEFINE_PROBE (R85). -/
def execDefineProbe (p : Port) (s : State) : Host.Outcome State Fault Refusal :=
  dispatch p 0x2A#8 (cmdDefineProbe p) s

/-! ### Start, stop, clear (R86 to R89) -/

/-- Number and state of each probe of a set. -/
def numbersAndStates (set : ProbeSet) (b : Bank) : List Byte :=
  (members set).flatMap (fun i : ProbeNo => [byte i, byte (b.probe i).state.code])

/-- The bank with a set of probes brought to RUNNING (R86). -/
def Bank.start (set : ProbeSet) (b : Bank) : Bank :=
  b.mapProbes (fun i x => if set.has i then { x with state := .running } else x)

/-- The checks and effect of START_PROBES (R86). -/
def cmdStartProbes (p : Port) (body : List Byte) (s : State) : Verdict :=
  let set := probeSetAt body 0
  let after := s.bank.start set
  whenOpen p s (setLengthOk body) (whenOwner p s set
    (refuseIf (set == 0) .badArgument
      (whenStates set ProbeState.startable s
        (.accept (numbersAndStates set after) { s with bank := after }))))

/-- START_PROBES (R86). -/
def execStartProbes (p : Port) (s : State) : Host.Outcome State Fault Refusal :=
  dispatch p 0x2B#8 (cmdStartProbes p) s

/-- A RUNNING probe after an immediate stop (R87). -/
def Probe.stopNow (x : Probe) : Probe :=
  if x.inFlight == 0 then { x with state := .held } else { x with state := .purging, cutCount := none }

/-- A RUNNING probe after a stop that drains, at Timebase value `now` (R88). -/
def Probe.stopDraining (now : Tick) (x : Probe) : Probe :=
  if x.inFlight == 0 then { x with state := .held }
  else { x with
    state := .draining
    drainDeadline := if x.drainLimit == 0 then none else some (now + x.drainLimit.setWidth 48)
    cutAhead := none }

/-- The probes of a set with transactions in flight: what an immediate stop hands to the purge engine (R87). -/
def Bank.busy (set : ProbeSet) (b : Bank) : ProbeSet := probesWhere (fun i => set.has i && (b.probe i).inFlight != 0)

/-- The bank after an accepted STOP_PROBES; mode 0 is IMMEDIATE, mode 1 DRAIN (R87, R88). `queued` is the intake
occupancy (log 6). -/
def Bank.stop (mode : Nat) (set : ProbeSet) (now : Tick) (queued : Nat) (b : Bank) : Bank :=
  match mode with
  | 0 =>
    { probes := mapFin b.probes (fun i x => if set.has i then x.stopNow else x)
      purge := b.purge.add (b.busy set) queued }
  | _ => b.mapProbes (fun i x => if set.has i then x.stopDraining now else x)

/-- The reply part of one stopped probe: number, state, in-flight count, drain deadline (Table 10-5). -/
def stopReport (b : Bank) (i : ProbeNo) : List Byte :=
  [byte i, byte (b.probe i).state.code] ++ le 2 (b.probe i).inFlight ++ optTime (b.probe i).drainDeadline

/-- The checks and effect of STOP_PROBES (R87, R88). -/
def cmdStopProbes (p : Port) (body : List Byte) (s : State) : Verdict :=
  let set := probeSetAt body 0
  let mode := (byteAt body 2).toNat
  let after := s.bank.stop mode set s.timebase s.obs.queue.length
  whenOpen p s (body.length == 3) (whenOwner p s set
    (refuseIf (set == 0 || 1 < mode) .badArgument
      (refuseProbe (lowestIn set (fun i => (s.probe i).state != .running)) (fun _ => .badState)
        (.accept ((members set).flatMap (stopReport after)) { s with bank := after }))))

/-- STOP_PROBES (R87). -/
def execStopProbes (p : Port) (s : State) : Host.Outcome State Fault Refusal :=
  dispatch p 0x2C#8 (cmdStopProbes p) s

/-- A probe after an accepted CLEAR_PROBES (R89). -/
def Probe.cleared (x : Probe) : Probe :=
  { x with state := .unbound, owner := none, definition := none, unit := none, values := Values.initial,
           alertArmed := true }

/-- The pool with the units of a set of probes returned (R89, R112). -/
def returnUnits (set : ProbeSet) (b : Bank) (pool : Vector (Option HistUnit) 8) : Vector (Option HistUnit) 8 :=
  mapFin pool (fun k u => if (members set).any (fun i => (b.probe i).unit == some k) then none else u)

/-- The state after an accepted CLEAR_PROBES (R89). -/
def clearProbes (set : ProbeSet) (s : State) : State :=
  { s with
    bank := s.bank.mapProbes (fun i x => if set.has i then x.cleared else x)
    pool := returnUnits set s.bank s.pool }

/-- The checks and effect of CLEAR_PROBES (R89). -/
def cmdClearProbes (p : Port) (body : List Byte) (s : State) : Verdict :=
  let set := probeSetAt body 0
  whenOpen p s (setLengthOk body) (whenOwner p s set
    (refuseIf (set == 0) .badArgument
      (whenStates set ProbeState.atRest s
        (.accept (numbersAndStates set (clearProbes set s).bank) (clearProbes set s)))))

/-- CLEAR_PROBES (R89). -/
def execClearProbes (p : Port) (s : State) : Host.Outcome State Fault Refusal :=
  dispatch p 0x2D#8 (cmdClearProbes p) s

/-! ### Status (R90, R118) -/

/-- The reply part of one probe: number, state, owner, measure, in-flight count, drain deadline, unit (Table 10-5). -/
def statusReport (b : Bank) (i : ProbeNo) : List Byte :=
  let x := b.probe i
  [byte i, byte x.state.code, ownerByte x.owner, measureByte (x.definition.map (fun d => d.measure))] ++
    le 2 x.inFlight ++ optTime x.drainDeadline ++ [optByte (x.unit.map Fin.val)]

/-- The checks and reply of PROBE_STATUS (R90). -/
def cmdProbeStatus (p : Port) (body : List Byte) (s : State) : Verdict :=
  let set := probeSetAt body 0
  whenOpen p s (setLengthOk body)
    (refuseIf (set == 0) .badArgument (.accept ((members set).flatMap (statusReport s.bank)) s))

/-- PROBE_STATUS (R90). -/
def execProbeStatus (p : Port) (s : State) : Host.Outcome State Fault Refusal :=
  dispatch p 0x2E#8 (cmdProbeStatus p) s

/-- The reply part of one unit: status, probe, mode, parameter; the fields of a FREE unit are 0 (R118, R172). -/
def unitReport : Option HistUnit → List Byte
  | none => [0, 0, 0] ++ le 4 0
  | some u => [1, byte u.probe, byte u.mode.code] ++ le 4 u.parameter.toNat

/-- The number of FREE units (R118). -/
def freeUnits (pool : Vector (Option HistUnit) 8) : Nat := pool.toList.countP (fun u => u.isNone)

/-- The checks and reply of POOL_STATUS (R118). -/
def cmdPoolStatus (p : Port) (body : List Byte) (s : State) : Verdict :=
  whenOpen p s body.isEmpty (.accept (byte (freeUnits s.pool) :: s.pool.toList.flatMap unitReport) s)

/-- POOL_STATUS (R118). -/
def execPoolStatus (p : Port) (s : State) : Host.Outcome State Fault Refusal :=
  dispatch p 0x30#8 (cmdPoolStatus p) s

end Sys2Proof.Machine
end

