-- ==== Sys2Proof/Machine/Sessions.lean ====
section
/-! DEFINITION. The meanings of the dispatcher's own answers and of the session and identification commands (spec 09). -/

namespace Sys2Proof.Machine

/-- A retry ends with the stored last reply, itself unchanged, back in the reply buffer (R162). -/
def resendReply (p : Port) (s : State) : State :=
  s.setPort p { s.port p with executing := none, reply := (s.port p).lastReply }

/-- COMMAND_RETRY (R162), when the command that the dispatcher has taken is a retry (log 4). -/
def execCommandRetry (p : Port) (s : State) : Host.Outcome State Fault Refusal :=
  match (s.port p).executing with
  | some c => whileReleased s (if isRetry (s.port p) c then resendReply p s else s)
  | none => .next s

/-- UNKNOWN_COMMAND (R177), when the command that the dispatcher has taken is no retry and has a type absent from Table
10-5 (log 4). -/
def execUnknownCommand (p : Port) (s : State) : Host.Outcome State Fault Refusal :=
  match (s.port p).executing with
  | some c =>
    whileReleased s
      (if !isRetry (s.port p) c && !knownType c.type then conclude p c s (.refusal .unknownCommand []) else s)
  | none => .next s

/-! ### Identification and status (R170, R171) -/

/-- The seven capacities in the order of R170, two bytes each. -/
def capacityBytes : List Byte :=
  le 2 Config.tableEntries ++ le 2 Config.probeCount ++ le 2 Config.unitCount ++ le 2 Config.slotCount ++
    le 2 Config.triggerCount ++ le 2 Config.intakeRecords ++ le 2 Config.ringRecords

/-- The body of an IDENTIFY reply (R170, Table 10-5). -/
def identity (p : Port) (baud : BaudRate) : List Byte :=
  le 2 Config.partCode ++ [byte Config.revision, ownerByte (some p)] ++ le 4 baud.figure ++ capacityBytes

/-- The checks and reply of IDENTIFY (R170). -/
def cmdIdentify (p : Port) (body : List Byte) (s : State) : Verdict :=
  refuseIf (!body.isEmpty) .badLength (.accept (identity p s.baud) s)

/-- IDENTIFY (R170). -/
def execIdentify (p : Port) (s : State) : Host.Outcome State Fault Refusal :=
  dispatch p 0x01#8 (cmdIdentify p) s

/-- The body of a PORT_STATUS reply (R171, Table 10-5). -/
def portReport (x : PortState) (holder : Option Port) : List Byte :=
  [flagByte x.isOpen] ++ le 2 x.sessionNumber.toNat ++ [byte x.commands.length] ++ le 2 x.rejectCount.toNat ++
    [byte x.alerts.length] ++ le 2 x.lostCount.toNat ++ [ownerByte holder]

/-- The checks and reply of PORT_STATUS (R171). -/
def cmdPortStatus (p : Port) (body : List Byte) (s : State) : Verdict :=
  refuseIf (!body.isEmpty) .badLength (.accept (portReport (s.port p) s.mgmt.holder) s)

/-- PORT_STATUS (R171). -/
def execPortStatus (p : Port) (s : State) : Host.Outcome State Fault Refusal :=
  dispatch p 0x02#8 (cmdPortStatus p) s

/-! ### Sessions (R165, R166) -/

/-- The state after a session of a port was opened: the next number of the device-wide count becomes its own (R165). -/
def sessionOpen (p : Port) (s : State) : State :=
  { s with mgmt :=
    { s.mgmt.setPort p { s.port p with isOpen := true, sessionNumber := s.mgmt.sessionCount + 1 } with
      sessionCount := s.mgmt.sessionCount + 1 } }

/-- The checks and effect of OPEN_SESSION (R165). -/
def cmdOpenSession (p : Port) (body : List Byte) (s : State) : Verdict :=
  refuseIf (!body.isEmpty) .badLength
    (if (s.port p).isOpen then .accept (le 2 (s.port p).sessionNumber.toNat ++ [0]) s
    else .accept (le 2 (s.mgmt.sessionCount + 1).toNat ++ [1]) (sessionOpen p s))

/-- OPEN_SESSION (R165). -/
def execOpenSession (p : Port) (s : State) : Host.Outcome State Fault Refusal :=
  dispatch p 0x03#8 (cmdOpenSession p) s

/-- The checks and effect of CLOSE_SESSION (R166). -/
def cmdCloseSession (p : Port) (body : List Byte) (s : State) : Verdict :=
  whenOpen p s body.isEmpty (.accept (le 2 (s.port p).sessionNumber.toNat) (sessionClose p s))

/-- CLOSE_SESSION (R166). -/
def execCloseSession (p : Port) (s : State) : Host.Outcome State Fault Refusal :=
  dispatch p 0x04#8 (cmdCloseSession p) s

/-! ### The configuration claim (R168, R169) -/

/-- The part with the configuration claim at a holder. -/
def State.setHolder (s : State) (holder : Option Port) : State := { s with mgmt := { s.mgmt with holder := holder } }

/-- The checks and effect of CLAIM_CONFIG (R168). -/
def cmdClaimConfig (p : Port) (body : List Byte) (s : State) : Verdict :=
  whenOpen p s body.isEmpty
    (if s.mgmt.holder == some p.other then .refusal .heldElsewhere [ownerByte (some p.other)]
    else .accept [ownerByte (some p)] (s.setHolder (some p)))

/-- CLAIM_CONFIG (R168). -/
def execClaimConfig (p : Port) (s : State) : Host.Outcome State Fault Refusal :=
  dispatch p 0x05#8 (cmdClaimConfig p) s

/-- The checks and effect of UNCLAIM_CONFIG (R169). -/
def cmdUnclaimConfig (p : Port) (body : List Byte) (s : State) : Verdict :=
  whenOpen p s body.isEmpty (whenHolder p s (.accept [ownerByte none] (s.setHolder none)))

/-- UNCLAIM_CONFIG (R169). -/
def execUnclaimConfig (p : Port) (s : State) : Host.Outcome State Fault Refusal :=
  dispatch p 0x06#8 (cmdUnclaimConfig p) s

end Sys2Proof.Machine
end

