-- ==== Sys2Proof/Machine/Sweep.lean ====
section
/-! DEFINITION. The meanings of the Probe Bank's own steps: a drain cut (R98) and a purge sweep visit (R103, R104). -/

namespace Sys2Proof.Machine

/-- A probe at its drain cut (R98). -/
def Probe.cut (x : Probe) : Probe :=
  { x with state := .purging, cutCount := some x.inFlight, drainDeadline := none, cutAhead := none }

/-- The state after the drain cut of a probe (R98, R102). -/
def cutDrain (i : ProbeNo) (s : State) : State :=
  { s with bank := { s.bank.setProbe i (s.probe i).cut with
      purge := s.bank.purge.add (1#16 <<< i.val) s.obs.queue.length } }

/-- DRAIN_CUT (R98), of the probe named (log 20), when its drain deadline is reached (log 4). -/
def execDrainCut (probe : ProbeNo) (s : State) : Host.Outcome State Fault Refusal :=
  whileReleased s (if (s.probe probe).cutDue s.timebase then cutDrain probe s else s)

/-- The visit of an index: each probe of the current set leaves the match set of the entry there, if it is pending,
with a removal notice (R30, R103). -/
def visitEntry (i : Fin 256) (s : State) : State :=
  match findIndex s.trk.table i with
  | some e =>
    let gone := e.matchSet &&& s.bank.purge.current
    { sendNotices s.timebase gone .removal s with
      trk := { s.trk with table := replaceEntry { e with matchSet := e.matchSet &&& ~~~gone } s.trk.table } }
  | none => s

/-- The end of a sweep: the probes of the current set come to HELD, those with a cut count raise CUT alerts, and the
next sweep begins or the engine is idle (R104). -/
def finishSweep (s : State) : State :=
  { s with
    bank :=
      { probes := mapFin s.bank.probes (fun i x => if s.bank.purge.current.has i then x.rest else x)
        purge := s.bank.purge.endSweep s.obs.queue.length }
    mgmt := raiseDrained .cut s.timebase Probe.cutCount s.bank.purge.current s.bank s.mgmt }

/-- The sweep moves on to the next index, whose visit is due at once (R11, R103). -/
def advanceSweep (i : Fin 256) (s : State) : State :=
  { s with bank := { s.bank with
      purge := { s.bank.purge with position := some (i + 1), visitAhead := s.obs.queue.length } } }

/-- SWEEP_VISIT (R103): of the index at the sweep position, when a sweep runs (log 4); the visit of index 255 ends the
sweep (R104). -/
def execSweepVisit (s : State) : Host.Outcome State Fault Refusal :=
  match s.bank.purge.position with
  | some i => whileReleased s (if i == 255 then finishSweep (visitEntry i s) else advanceSweep i (visitEntry i s))
  | none => .next s

end Sys2Proof.Machine
end

