-- ==== Sys2Proof/Machine/Tracking.lean ====
section
/-! DEFINITION. The meanings of the commands on the Tracking Engine: the Pending Table (spec 02), the timeouts and the
expired-key ring (spec 03) and the requester map (spec 04). -/

namespace Sys2Proof.Machine

/-- The checks and reply of READ_GLOBALS (R39). -/
def cmdReadGlobals (p : Port) (body : List Byte) (s : State) : Verdict :=
  whenOpen p s body.isEmpty
    (.accept (s.trk.globals.bytes ++ le 2 s.trk.table.length ++ [flagByte s.trk.tableFullArmed]) s)

/-- READ_GLOBALS (R39). -/
def execReadGlobals (p : Port) (s : State) : Host.Outcome State Fault Refusal :=
  dispatch p 0x18#8 (cmdReadGlobals p) s

/-- The entries LIST_PENDING lists: up to `count` from `position` in the deadline list (R41). -/
def listedEntries (position count : Nat) (table : List Entry) : List Entry := (table.drop position).take count

/-- The checks and reply of LIST_PENDING (R40, R41). -/
def cmdListPending (p : Port) (body : List Byte) (s : State) : Verdict :=
  let position := field body 0 2
  let count := (byteAt body 2).toNat
  let listed := listedEntries position count s.trk.table
  whenOpen p s (body.length == 3)
    (refuseIf (count == 0 || 16 < count || 255 < position) .badArgument
      (.accept (le 2 s.trk.table.length ++ [byte listed.length] ++ listed.flatMap Entry.bytes) s))

/-- LIST_PENDING (R41). -/
def execListPending (p : Port) (s : State) : Host.Outcome State Fault Refusal :=
  dispatch p 0x19#8 (cmdListPending p) s

/-- Whether a probe drains or purges. -/
def Probe.ending (x : Probe) : Bool := x.state == .draining || x.state == .purging

/-- A probe after the tracking clear: in flight 0, and a drain or purge brought to HELD (R42, R43, R108). -/
def Probe.flushed (x : Probe) : Probe := if x.ending then { x.rest with inFlight := 0 } else { x with inFlight := 0 }

/-- The entries a FLUSHED alert counts as abandoned: the in-flight count just before the clear of a DRAINING probe, the
cut count of a PURGING probe that had passed its drain deadline; a probe with neither raises no alert (R43). -/
def Probe.abandoned (x : Probe) : Option Nat :=
  match x.state with
  | .draining => some x.inFlight
  | .purging => x.cutCount
  | .unbound => none
  | .armed => none
  | .running => none
  | .held => none

/-- The Tracking Engine after the tracking clear (R42). -/
def Tracking.cleared (k : Tracking) : Tracking :=
  { k with
    table := []
    ring := []
    globals := { k.globals with flushed := satAdd k.globals.flushed k.table.length }
    tableFullArmed := true }

/-- The tracking clear (R17, R42, R43); its alerts come after its other effects (R152). -/
def trackingClear (s : State) : State :=
  { s with
    obs := { s.obs with queue := [] }
    trk := s.trk.cleared
    bank := { probes := mapFin s.bank.probes (fun _ x => x.flushed), purge := Purge.idle }
    mgmt := raiseDrained .flushed s.timebase Probe.abandoned (BitVec.allOnes 16) s.bank s.mgmt }

/-- The checks and effect of CLEAR_TRACKING (R42). -/
def cmdClearTracking (p : Port) (body : List Byte) (s : State) : Verdict :=
  whenOpen p s body.isEmpty (whenHolder p s
    (.accept (le 2 s.trk.table.length ++ [byte s.obs.queue.length]) (trackingClear s)))

/-- CLEAR_TRACKING (R42). -/
def execClearTracking (p : Port) (s : State) : Host.Outcome State Fault Refusal :=
  dispatch p 0x1A#8 (cmdClearTracking p) s

/-- The body lengths SET_TIMEOUTS accepts (R46, R176). -/
def settingsLengthOk (body : List Byte) : Bool := body.length == 5 || body.length == 10 || body.length == 15

/-- The timeouts after the settings of a body (R46). -/
def timeoutsAfter (body : List Byte) (t : Timeouts) : Timeouts := (settingsOfBody body).foldl Timeouts.put t

/-- The checks and effect of SET_TIMEOUTS (R46). -/
def cmdSetTimeouts (p : Port) (body : List Byte) (s : State) : Verdict :=
  whenOpen p s (settingsLengthOk body) (whenHolder p s
    (refuseIf (!settingsOk (settingsOfBody body)) .badArgument
      (.accept (timeoutsAfter body s.trk.timeouts).bytes
        { s with trk := { s.trk with timeouts := timeoutsAfter body s.trk.timeouts } })))

/-- SET_TIMEOUTS (R46). -/
def execSetTimeouts (p : Port) (s : State) : Host.Outcome State Fault Refusal :=
  dispatch p 0x1C#8 (cmdSetTimeouts p) s

/-- The checks and reply of READ_TIMEOUTS (R47). -/
def cmdReadTimeouts (p : Port) (body : List Byte) (s : State) : Verdict :=
  whenOpen p s body.isEmpty (.accept s.trk.timeouts.bytes s)

/-- READ_TIMEOUTS (R47). -/
def execReadTimeouts (p : Port) (s : State) : Host.Outcome State Fault Refusal :=
  dispatch p 0x1D#8 (cmdReadTimeouts p) s

/-- The checks and reply of LIST_EXPIRED (R58). -/
def cmdListExpired (p : Port) (body : List Byte) (s : State) : Verdict :=
  whenOpen p s body.isEmpty (.accept (byte s.trk.ring.length :: s.trk.ring.flatMap RingRecord.bytes) s)

/-- LIST_EXPIRED (R58). -/
def execListExpired (p : Port) (s : State) : Host.Outcome State Fault Refusal :=
  dispatch p 0x1E#8 (cmdListExpired p) s

/-- The body lengths SET_GROUP_MAP accepts (R66, R176). -/
def assignmentsLengthOk (body : List Byte) : Bool :=
  body.length % 2 == 0 && 2 ≤ body.length && body.length ≤ 64

/-- The requester map after the assignments of a body (R67). -/
def groupMapAfter (body : List Byte) (m : Vector (Fin 8) 32) : Vector (Fin 8) 32 :=
  (assignmentsOfBody body).foldl putGroup m

/-- The checks and effect of SET_GROUP_MAP (R66, R67). -/
def cmdSetGroupMap (p : Port) (body : List Byte) (s : State) : Verdict :=
  whenOpen p s (assignmentsLengthOk body) (whenHolder p s
    (refuseIf (!assignmentsOk (assignmentsOfBody body)) .badArgument
      (.accept (groupMapBytes (groupMapAfter body s.trk.groupMap))
        { s with trk := { s.trk with groupMap := groupMapAfter body s.trk.groupMap } })))

/-- SET_GROUP_MAP (R67). -/
def execSetGroupMap (p : Port) (s : State) : Host.Outcome State Fault Refusal :=
  dispatch p 0x20#8 (cmdSetGroupMap p) s

/-- The checks and reply of READ_GROUP_MAP (R68). -/
def cmdReadGroupMap (p : Port) (body : List Byte) (s : State) : Verdict :=
  whenOpen p s body.isEmpty (.accept (groupMapBytes s.trk.groupMap) s)

/-- READ_GROUP_MAP (R68). -/
def execReadGroupMap (p : Port) (s : State) : Host.Outcome State Fault Refusal :=
  dispatch p 0x21#8 (cmdReadGroupMap p) s

end Sys2Proof.Machine
end

