-- ==== Sys2Proof/Machine/Dispatch.lean ====
section
/-! DEFINITION. The command's effect on everything but the queue: one arm per constructor of `Instr`, each one call of
its meaning. -/

namespace Sys2Proof.Machine

def exec (i : Instr) (s : State) : Host.Outcome State Fault Refusal :=
  match i with
  | .deviceReset cause => Sys2Proof.Machine.execDeviceReset cause s
  | .recordTransfer data => Sys2Proof.Machine.execRecordTransfer data s
  | .takeRecord => Sys2Proof.Machine.execTakeRecord s
  | .expiry => Sys2Proof.Machine.execExpiry s
  | .drainCut probe => Sys2Proof.Machine.execDrainCut probe s
  | .sweepVisit => Sys2Proof.Machine.execSweepVisit s
  | .frameReceived port high => Sys2Proof.Machine.execFrameReceived port high s
  | .frameDiscard port cause => Sys2Proof.Machine.execFrameDiscard port cause s
  | .frameGapTimeout port => Sys2Proof.Machine.execFrameGapTimeout port s
  | .portReset port => Sys2Proof.Machine.execPortReset port s
  | .transmitStart port => Sys2Proof.Machine.execTransmitStart port s
  | .transmitEnd port => Sys2Proof.Machine.execTransmitEnd port s
  | .alertResendTimeout port => Sys2Proof.Machine.execAlertResendTimeout port s
  | .commandRetry port => Sys2Proof.Machine.execCommandRetry port s
  | .unknownCommand port => Sys2Proof.Machine.execUnknownCommand port s
  | .identify port => Sys2Proof.Machine.execIdentify port s
  | .portStatus port => Sys2Proof.Machine.execPortStatus port s
  | .openSession port => Sys2Proof.Machine.execOpenSession port s
  | .closeSession port => Sys2Proof.Machine.execCloseSession port s
  | .claimConfig port => Sys2Proof.Machine.execClaimConfig port s
  | .unclaimConfig port => Sys2Proof.Machine.execUnclaimConfig port s
  | .intakeEnable port => Sys2Proof.Machine.execIntakeEnable port s
  | .intakeDisable port => Sys2Proof.Machine.execIntakeDisable port s
  | .readIntake port => Sys2Proof.Machine.execReadIntake port s
  | .readGlobals port => Sys2Proof.Machine.execReadGlobals port s
  | .listPending port => Sys2Proof.Machine.execListPending port s
  | .clearTracking port => Sys2Proof.Machine.execClearTracking port s
  | .setTimeouts port => Sys2Proof.Machine.execSetTimeouts port s
  | .readTimeouts port => Sys2Proof.Machine.execReadTimeouts port s
  | .listExpired port => Sys2Proof.Machine.execListExpired port s
  | .setGroupMap port => Sys2Proof.Machine.execSetGroupMap port s
  | .readGroupMap port => Sys2Proof.Machine.execReadGroupMap port s
  | .claimProbes port => Sys2Proof.Machine.execClaimProbes port s
  | .unclaimProbes port => Sys2Proof.Machine.execUnclaimProbes port s
  | .defineProbe port => Sys2Proof.Machine.execDefineProbe port s
  | .startProbes port => Sys2Proof.Machine.execStartProbes port s
  | .stopProbes port => Sys2Proof.Machine.execStopProbes port s
  | .clearProbes port => Sys2Proof.Machine.execClearProbes port s
  | .probeStatus port => Sys2Proof.Machine.execProbeStatus port s
  | .poolStatus port => Sys2Proof.Machine.execPoolStatus port s
  | .harvest port => Sys2Proof.Machine.execHarvest port s
  | .readSnapshot port => Sys2Proof.Machine.execReadSnapshot port s
  | .freeSnapshot port => Sys2Proof.Machine.execFreeSnapshot port s
  | .snapshotStatus port => Sys2Proof.Machine.execSnapshotStatus port s
  | .setTrigger port => Sys2Proof.Machine.execSetTrigger port s
  | .clearTrigger port => Sys2Proof.Machine.execClearTrigger port s
  | .triggerStatus port => Sys2Proof.Machine.execTriggerStatus port s
  | .setAlertMask port => Sys2Proof.Machine.execSetAlertMask port s
  | .ackAlert port => Sys2Proof.Machine.execAckAlert port s
  | .alertStatus port => Sys2Proof.Machine.execAlertStatus port s
  | .timebaseTick => Sys2Proof.Machine.execTimebaseTick s
  | .resetNRelease sel1 sel0 => Sys2Proof.Machine.execResetNRelease sel1 sel0 s
  | .characterReceived port char => Sys2Proof.Machine.execCharacterReceived port char s
  | .breakEnd port => Sys2Proof.Machine.execBreakEnd port s

end Sys2Proof.Machine
end

