-- ==== Sys2Proof/Safety.lean ====
section
/-! DEFINITION. What safe means here: the laws of the manual that every step keeps, as properties of one state, and
the words in which the statements about management commands are put. The block has no fault; its one refusal is
raised by no arm. -/

namespace Sys2Proof

/-- The port and the type code of a command that a dispatcher executes by its type (Table 10-5); none for the other
rows of the table. -/
def Instr.dispatched : Instr → Option (Port × Byte)
  | .deviceReset _ => none
  | .recordTransfer _ => none
  | .takeRecord => none
  | .expiry => none
  | .drainCut _ => none
  | .sweepVisit => none
  | .frameReceived _ _ => none
  | .frameDiscard _ _ => none
  | .frameGapTimeout _ => none
  | .portReset _ => none
  | .transmitStart _ => none
  | .transmitEnd _ => none
  | .alertResendTimeout _ => none
  | .commandRetry _ => none
  | .unknownCommand _ => none
  | .identify p => some (p, 0x01#8)
  | .portStatus p => some (p, 0x02#8)
  | .openSession p => some (p, 0x03#8)
  | .closeSession p => some (p, 0x04#8)
  | .claimConfig p => some (p, 0x05#8)
  | .unclaimConfig p => some (p, 0x06#8)
  | .intakeEnable p => some (p, 0x10#8)
  | .intakeDisable p => some (p, 0x11#8)
  | .readIntake p => some (p, 0x12#8)
  | .readGlobals p => some (p, 0x18#8)
  | .listPending p => some (p, 0x19#8)
  | .clearTracking p => some (p, 0x1A#8)
  | .setTimeouts p => some (p, 0x1C#8)
  | .readTimeouts p => some (p, 0x1D#8)
  | .listExpired p => some (p, 0x1E#8)
  | .setGroupMap p => some (p, 0x20#8)
  | .readGroupMap p => some (p, 0x21#8)
  | .claimProbes p => some (p, 0x28#8)
  | .unclaimProbes p => some (p, 0x29#8)
  | .defineProbe p => some (p, 0x2A#8)
  | .startProbes p => some (p, 0x2B#8)
  | .stopProbes p => some (p, 0x2C#8)
  | .clearProbes p => some (p, 0x2D#8)
  | .probeStatus p => some (p, 0x2E#8)
  | .poolStatus p => some (p, 0x30#8)
  | .harvest p => some (p, 0x38#8)
  | .readSnapshot p => some (p, 0x39#8)
  | .freeSnapshot p => some (p, 0x3A#8)
  | .snapshotStatus p => some (p, 0x3B#8)
  | .setTrigger p => some (p, 0x3C#8)
  | .clearTrigger p => some (p, 0x3D#8)
  | .triggerStatus p => some (p, 0x3E#8)
  | .setAlertMask p => some (p, 0x40#8)
  | .ackAlert p => some (p, 0x41#8)
  | .alertStatus p => some (p, 0x42#8)
  | .timebaseTick => none
  | .resetNRelease _ _ => none
  | .characterReceived _ _ => none
  | .breakEnd _ => none

/-- The body lengths that Table 10-5 gives for a type code (R176). -/
def lengthAccepted (type : Byte) (body : List Byte) : Bool :=
  if [0x19#8, 0x2C#8, 0x38#8].contains type then body.length == 3
  else if [0x28#8, 0x29#8, 0x2B#8, 0x2D#8, 0x2E#8, 0x39#8, 0x41#8].contains type then body.length == 2
  else if [0x3A#8, 0x3D#8, 0x40#8].contains type then body.length == 1
  else if type == 0x3C#8 then body.length == 7
  else if type == 0x1C#8 then [5, 10, 15].contains body.length
  else if type == 0x20#8 then body.length % 2 == 0 && 2 ≤ body.length && body.length ≤ 64
  else if type == 0x2A#8 then
    if body.length == 33 then body[32]? == some 0 else body.length == 38 && body[32]? != some 0
  else body.isEmpty

namespace Machine

/-- The queues within their capacities: intake queue 64 (R10), Pending Table 256 (R18), expired-key ring 16 (R55),
command queues 4 (R160), alert queues 16 (R145). -/
structure WithinCapacities (s : State) : Prop where
  intake : s.obs.queue.length ≤ Config.intakeRecords
  table : s.trk.table.length ≤ Config.tableEntries
  ring : s.trk.ring.length ≤ Config.ringRecords
  commands : ∀ p, (s.port p).commands.length ≤ Config.queuedCommands
  alerts : ∀ p, (s.port p).alerts.length ≤ Config.alertRecords

/-- The fields of an entry agree with its state (R19). -/
def Entry.shaped (e : Entry) : Prop :=
  match e.state with
  | .awaiting => e.parts = 0 ∧ e.received = 0 ∧ e.first = none
  | .receiving =>
    e.kind = .read ∧ 1 ≤ e.parts ∧ e.parts ≤ e.received ∧ e.received < e.expected ∧ e.first.isSome

/-- The Pending Table and the expired-key ring: no two pending entries share an index or a key (R18), no two ring records
share a key and no key of the ring is pending (R55), every entry agrees with its state (R19). -/
structure TableLaw (k : Tracking) : Prop where
  indices : (k.table.map Entry.index).Nodup
  keys : (k.table.map Entry.key).Nodup
  ringKeys : (k.ring.map RingRecord.key).Nodup
  apart : ∀ r ∈ k.ring, ∀ e ∈ k.table, r.key ≠ e.key
  shapes : ∀ e ∈ k.table, e.shaped

/-- The number of pending entries whose match set names a probe (R78). -/
def naming (i : ProbeNo) (table : List Entry) : Nat := table.countP (fun e => e.matchSet.has i)

/-- A probe has measure FIRST or FULL. -/
def Probe.isLatency (x : Probe) : Prop := ∃ d, x.definition = some d ∧ d.measure.isLatency = true

/-- The law of in-flight counts and of a probe's condition (R77, R78). -/
structure FlightLaw (table : List Entry) (b : Bank) : Prop where
  counts : ∀ i, (b.probe i).inFlight = naming i table
  named : ∀ e ∈ table, ∀ i, e.matchSet.has i = true →
    (b.probe i).isLatency ∧
      ((b.probe i).state = .running ∨ (b.probe i).state = .draining ∨ (b.probe i).state = .purging)
  draining : ∀ i, (b.probe i).state = .draining → 1 ≤ (b.probe i).inFlight
  deadline : ∀ i, (b.probe i).drainDeadline.isSome → (b.probe i).state = .draining
  cutCount : ∀ i, (b.probe i).cutCount.isSome → (b.probe i).state = .purging

/-- The law of the purge engine (R101), with what a sweep has done so far (R103, R104): no entry at an index it has
visited names a probe of its current set. -/
structure PurgeLaw (table : List Entry) (b : Bank) : Prop where
  purging : ∀ i, (b.probe i).state = .purging ↔ (b.purge.current.has i = true ∨ b.purge.waiting.has i = true)
  apart : b.purge.current &&& b.purge.waiting = 0
  idle : b.purge.position = none ↔ b.purge.current = 0
  rest : b.purge.current = 0 → b.purge.waiting = 0
  visited : ∀ k, b.purge.position = some k → ∀ e ∈ table, e.index < k → e.matchSet &&& b.purge.current = 0

/-- The laws of the Tracking Engine, the probes and the purge engine together: each rests on the others. -/
structure EngineLaw (s : State) : Prop where
  table : TableLaw s.trk
  flight : FlightLaw s.trk.table s.bank
  purge : PurgeLaw s.trk.table s.bank

/-- The balance of the global counters, as long as none of its seven has saturated (R38). -/
def Balanced (s : State) : Prop :=
  let g := s.trk.globals
  (∀ c ∈ [g.admitted, g.completed, g.failed, g.malformed, g.timedOut, g.superseded, g.flushed], c ≠ BitVec.allOnes 64) →
    g.admitted.toNat = g.completed.toNat + g.failed.toNat + g.malformed.toNat + g.timedOut.toNat +
      g.superseded.toNat + g.flushed.toNat + s.trk.table.length

/-- A port holds nothing: no probe, slot, trigger or claim; alert queue and mask empty (R164), lost count 0 (R171). -/
structure HoldsNothing (p : Port) (s : State) : Prop where
  probes : ∀ i, (s.probe i).owner ≠ some p
  slots : ∀ (k : Fin 4) (x : Slot), s.harv.slots[k] = some x → x.owner ≠ p
  triggers : ∀ (k : Fin 4) (x : Trigger), s.harv.triggers[k] = some x → x.owner ≠ p
  claim : s.mgmt.holder ≠ some p
  alerts : (s.port p).alerts = []
  lost : (s.port p).lostCount = 0
  mask : (s.port p).mask = AlertMask.empty

/-- A port's alert queue: its numbers run up to the port's alert number with no gap (R145); with an empty queue there is
no head, and no frame being sent carries one (R147). -/
structure AlertLaw (x : PortState) : Prop where
  numbers : ∀ k al, x.alerts[k]? = some al → al.number = x.alertNumber - BitVec.ofNat 16 (x.alerts.length - 1 - k)
  noHead : x.alerts = [] → x.head = HeadAlert.none
  noFrame : x.alerts = [] → ∀ f, x.sending = some f → f.what ≠ .alert true

/-- A port's dispatcher: while a command executes the reply buffer is empty, and while commands wait in the queue a
command executes or the buffer holds a reply (R160). -/
structure DispatchLaw (x : PortState) : Prop where
  buffer : x.executing.isSome → x.reply = none
  prompt : x.commands ≠ [] → x.executing.isSome ∨ x.reply.isSome

/-- A port whose session is CLOSED holds nothing (R164), and each alert queue and each dispatcher keeps its law. -/
structure SessionLaw (s : State) : Prop where
  closed : ∀ p, (s.port p).isOpen = false → HoldsNothing p s
  alerts : ∀ p, AlertLaw (s.port p)
  dispatch : ∀ p, DispatchLaw (s.port p)

/-- The law of the Histogram Pool: a unit and its probe name each other, and a probe with a unit is a latency probe and
not UNBOUND (R109). -/
structure PoolLaw (s : State) : Prop where
  unitToProbe : ∀ (k : Fin 8) (u : HistUnit), s.pool[k] = some u → (s.probe u.probe).unit = some k
  probeToUnit : ∀ (i : ProbeNo) (k : Fin 8), (s.probe i).unit = some k → ∃ u, s.pool[k] = some u ∧ u.probe = i
  latency : ∀ i k, (s.probe i).unit = some k → (s.probe i).isLatency ∧ (s.probe i).state ≠ .unbound

/-! ### The words of the statements about management commands -/

/-- The dispatcher of a port has taken a command, which is no retry, and not yet executed it (R160, R162). -/
structure CommandWaits (p : Port) (c : Command) (s : State) : Prop where
  released : s.resetN = true
  taken : (s.port p).executing = some c
  fresh : ∀ r, (s.port p).lastReply = some r → r.seq = c.seq → r.type ≠ c.type

/-- The state `u` with the executing command of a port answered: its reply in the reply buffer and stored as the last
reply (R160, R162). -/
def answered (p : Port) (c : Command) (code : ReplyCode) (body : List Byte) (u : State) : State :=
  u.setPort p { u.port p with
    executing := none
    reply := some { type := c.type, seq := c.seq, code := code, body := body }
    lastReply := some { type := c.type, seq := c.seq, code := code, body := body } }

/-- A command of type `type` waits, as `CommandWaits` says, and passes levels 1 to 3 of Table 10-11: its body has a
length of Table 10-5 and the port's session is OPEN (R164, R176). -/
structure CommandPasses (p : Port) (type : Byte) (c : Command) (s : State) : Prop where
  waits : CommandWaits p c s
  typed : c.type = type
  length : lengthAccepted type c.body = true
  session : (s.port p).isOpen = true

/-- A frame being sent, completed as what it is once the head alert has left the queue: only the frame of that alert
changes, and no longer carries the head (R147, R149, R151, R163). -/
def completing (f : Transmission) : Transmission :=
  { f with what := if f.what = .alert true then .alert false else f.what }

/-- A probe of a set is the lowest-numbered one that fails a level (R178). -/
def LowestFailing (set : ProbeSet) (bad : ProbeNo → Prop) (i : ProbeNo) : Prop :=
  set.has i = true ∧ bad i ∧ ∀ j, j < i → set.has j = true → ¬ bad j

/-- No probe of a set fails a level. -/
def NoneFails (set : ProbeSet) (bad : ProbeNo → Prop) : Prop := ∀ i, set.has i = true → ¬ bad i

end Machine

end Sys2Proof
end

