-- ==== Sys2Proof/WellFormed.lean ====
section
/-! DEFINITION. The checks on what is sent. A command's operands carry their ranges in their types (a port, a probe
0..15, a byte, 64 data bits), so every command is well formed; an observation record as data is well formed when
its fields lie in the ranges of Tables 1-1 and 1-2. -/

namespace Sys2Proof

/-- Whether the tag of a queued REQ is one the Observation Port leaves: 0 for POSTED and MESSAGE (R4). -/
def RequestKind.tagOk (kind : RequestKind) (tag : Byte) : Bool :=
  match kind with
  | .read | .npwrite | .atomic => true
  | .posted | .message => tag == 0

/-- A record whose fields lie in the ranges of Tables 1-1 and 1-2, as the Observation Port queues it. -/
def Record.wellFormed : Record → Bool
  | .req _ tag kind length => kind.lengthOk length && kind.tagOk tag
  | .cpl _ _ _ bytes _ => bytes ≤ 4096
  | .stall _ => true
  | .retry => true
  | .linkerr _ => true
  | .mark _ => true

/-- Every command is well formed: its operands' types hold nothing else. -/
def Instr.wellFormed (_ : Instr) : Bool := true

end Sys2Proof
end

