-- ==== Sys2Proof/Certificates/Slice0/Obligations.lean ====
section
/-! DEFINITION. The statements for the provers, chapter by chapter. `exec c s = .next t` says that the command runs to
its end and what the part then is; an equation of whole states is also its frame: what it does not name is
unchanged. -/

open Sys2Proof Sys2Proof.Machine

/-! ### The machine -/

/-- The queue of waiting commands is taken first in, first out; on an empty queue the block idles (log 5). -/
def Obligations.StepTakesFrontCommand : Prop :=
  ∀ s : State,
    (∀ c rest, s.pending = c :: rest → step s = exec c { s with pending := rest }) ∧
      (s.pending = [] → step s = .next s)

/-- No command faults or is refused by the model (DEDUCED: log 23), and none touches the queue of waiting commands; while
RESET_N is low only a device reset and the release change anything (R1, R2, R16, R153; DEDUCED: log 3). -/
def Obligations.EveryCommandAnswersNext : Prop :=
  ∀ (c : Instr) (s : State), (∃ t, exec c s = .next t ∧ t.pending = s.pending) ∧
    (s.resetN = false → (∀ cause, c ≠ .deviceReset cause) → (∀ sel1 sel0, c ≠ .resetNRelease sel1 sel0) →
      exec c s = .next s)

/-- Device reset puts every block at its reset value; RESET_N low holds the part there, power-on releases it with the
straps sampled; the release of RESET_N samples the straps and starts the Timebase from 0, and the straps are not
sampled while RESET_N stays high (R153, Table 9-1; logs 2 and 3). -/
def Obligations.DeviceResetAndRelease : Prop :=
  ∀ (s : State) (sel1 sel0 : Bool),
    exec (.deviceReset .resetNLow) s =
      .next { State.reset with pending := s.pending, resetN := false, baud := s.baud } ∧
    exec (.deviceReset (.powerOn sel1 sel0)) s =
      .next { State.reset with pending := s.pending, baud := baudOfStraps sel1 sel0 } ∧
    (s.resetN = false →
      exec (.resetNRelease sel1 sel0) s =
        .next { s with resetN := true, baud := baudOfStraps sel1 sel0, timebase := 0 }) ∧
    (s.resetN = true → exec (.resetNRelease sel1 sel0) s = .next s) ∧
    (baudOfStraps false false).figure = 115200 ∧ (baudOfStraps false true).figure = 1000000 ∧
    (baudOfStraps true false).figure = 3000000 ∧ (baudOfStraps true true).figure = 115200

/-- The reset values that the chapters give (R1, R16, R20, R37, R45, R55, R64, R106, R119, R140, R152, R153). Two values
are the model's own: both receive lines high, so no low period (log 1), and a clear cutAhead, the model's field
(log 6). -/
def Obligations.ResetValues : Prop :=
  State.reset.timebase = 0 ∧
  State.reset.obs = { enabled := false, queue := [], lossCount := 0, rejectedCount := 0, lossArmed := true } ∧
  State.reset.trk.table = [] ∧ State.reset.trk.ring = [] ∧ State.reset.trk.tableFullArmed = true ∧
  State.reset.trk.timeouts = { read := 6250000#32, npwrite := 6250000#32, atomic := 6250000#32 } ∧
  State.reset.trk.globals.bytes = List.replicate 80 0 ∧
  (∀ r : Fin 32, State.reset.trk.groupMap[r] = 0) ∧
  (∀ i, State.reset.probe i =
    { state := .unbound, owner := none, definition := none, unit := none, inFlight := 0, alertArmed := true,
      drainDeadline := none, cutCount := none, cutAhead := none,
      values := { samples := 0, sum := 0, min := BitVec.allOnes 48, max := 0, overCount := 0, timeouts := 0, faults := 0 } }) ∧
  State.reset.bank.purge.current = 0 ∧ State.reset.bank.purge.waiting = 0 ∧ State.reset.bank.purge.position = none ∧
  (∀ k : Fin 8, State.reset.pool[k] = none) ∧
  (∀ k : Fin 4, State.reset.harv.slots[k] = none ∧ State.reset.harv.triggers[k] = none) ∧
  State.reset.harv.number = 0 ∧ State.reset.mgmt.sessionCount = 0 ∧ State.reset.mgmt.holder = none ∧
  State.reset.mgmt.undeliverable = 0 ∧
  ∀ p, State.reset.port p =
    { framer := .hunt, low := none, rejectCount := 0, isOpen := false, sessionNumber := 0, commands := [],
      executing := none, reply := none, lastReply := none, notice := none, sending := none, alerts := [],
      head := { sent := false, due := false, timer := none }, lostCount := 0, alertNumber := 0,
      mask := { tableFull := false, intakeLoss := false } }

/-- The Timebase advances by one at each tick, wrapping at 2^48, and is 0 at device reset and until the release; nothing
else changes it (R1). A tick changes nothing else, but for the model's own marks: an entry whose deadline, and a DRAINING
probe whose drain deadline, it brings to be reached is marked with the occupancy of the intake queue, the records that may
be taken ahead of the due work (R11, R52, R98; log 6). -/
def Obligations.TimebaseCountsTicks : Prop :=
  ∀ s : State,
    (s.resetN = true → ∃ time probes,
      exec .timebaseTick s = .next { s with
        timebase := time
        trk := { s.trk with table := s.trk.table.map (fun e =>
          if e.dueAhead = none ∧ reached time e.deadline = true then { e with dueAhead := some s.obs.queue.length }
          else e) }
        bank := { s.bank with probes := probes } } ∧
      time.toNat = (s.timebase.toNat + 1) % 2 ^ 48 ∧
      ∀ i : ProbeNo, probes[i] =
        if (s.probe i).cutAhead = none ∧ (s.probe i).state = .draining ∧
            (s.probe i).drainDeadline.any (reached time) = true then
          { s.probe i with cutAhead := some s.obs.queue.length }
        else s.probe i) ∧
    (∀ cause, ∃ t, exec (.deviceReset cause) s = .next t ∧ t.timebase = 0) ∧
    (s.resetN = false → s.timebase = 0 → ∀ c t, exec c s = .next t → t.timebase = 0) ∧
    (∀ c t, exec c s = .next t → c ≠ .timebaseTick → (∀ cause, c ≠ .deviceReset cause) →
      (∀ sel1 sel0, c ≠ .resetNRelease sel1 sel0) → t.timebase = s.timebase)

/-! ### Observation Port (spec 01) -/

/-- An arriving record is ignored, rejected, queued or dropped (R7, R8). -/
def Obligations.RecordTransferResult : Prop :=
  ∀ (s : State) (data : BitVec 64), s.resetN = true →
    (s.obs.enabled = false → exec (.recordTransfer data) s = .next s) ∧
    (s.obs.enabled = true → decodeRecord data = none →
      exec (.recordTransfer data) s =
        .next { s with obs := { s.obs with rejectedCount := satInc s.obs.rejectedCount } }) ∧
    (∀ r, s.obs.enabled = true → decodeRecord data = some r → s.obs.queue.length < 64 →
      exec (.recordTransfer data) s =
        .next { s with obs := { s.obs with queue := s.obs.queue ++ [{ record := r, stamp := s.timebase }] } }) ∧
    (∀ r, s.obs.enabled = true → decodeRecord data = some r → 64 ≤ s.obs.queue.length → s.obs.lossArmed = false →
      exec (.recordTransfer data) s =
        .next { s with obs := { s.obs with lossCount := satInc s.obs.lossCount } }) ∧
    (∀ r, s.obs.enabled = true → decodeRecord data = some r → 64 ≤ s.obs.queue.length → s.obs.lossArmed = true →
      exec (.recordTransfer data) s =
        .next { s with
          obs := { s.obs with lossCount := satInc s.obs.lossCount, lossArmed := false }
          mgmt := s.mgmt.raiseDeviceWide (.intakeLoss (satInc s.obs.lossCount)) s.timebase })

/-- Every well-formed record survives its encoding on the tap bus (R173, Table 10-1). -/
def Obligations.TapRecordRoundTrip : Prop :=
  ∀ r : Record, r.wellFormed = true → decodeRecord (encodeRecord r) = some r

/-- Which transfers are valid records, by the numbers in their fields (R3 to R6, R173); a record the port queues is
within its ranges, a POSTED or MESSAGE tag 0 (R4). -/
def Obligations.RecordValidity : Prop :=
  ∀ data : BitVec 64,
    ((decodeRecord data).isSome = true ↔
      (data.toNat % 8 = 0 ∧ data.toNat / 2 ^ 3 % 64 ≤ 31 ∧
        (data.toNat / 2 ^ 17 % 8 ≤ 1 ∧ 1 ≤ data.toNat / 2 ^ 20 % 8192 ∧ data.toNat / 2 ^ 20 % 8192 ≤ 4096 ∨
         data.toNat / 2 ^ 17 % 8 = 2 ∧ (data.toNat / 2 ^ 20 % 8192 = 4 ∨ data.toNat / 2 ^ 20 % 8192 = 8) ∨
         (data.toNat / 2 ^ 17 % 8 = 3 ∨ data.toNat / 2 ^ 17 % 8 = 4) ∧ data.toNat / 2 ^ 20 % 8192 ≤ 4096)) ∨
      (data.toNat % 8 = 1 ∧ data.toNat / 2 ^ 3 % 64 ≤ 31 ∧ data.toNat / 2 ^ 17 % 4 ≤ 2 ∧
        data.toNat / 2 ^ 19 % 8192 ≤ 4096) ∨
      data.toNat % 8 = 2 ∨ data.toNat % 8 = 3 ∨ (data.toNat % 8 = 4 ∧ data.toNat / 2 ^ 3 % 4 ≤ 2) ∨
      data.toNat % 8 = 5) ∧
    ∀ r, decodeRecord data = some r → r.wellFormed = true

/-- INTAKE_ENABLE and INTAKE_DISABLE by the holder of the claim set the intake state and nothing else (R13, R14). -/
def Obligations.IntakeCommands : Prop :=
  ∀ p c s, s.mgmt.holder = some p →
    (CommandPasses p 0x10#8 c s →
      exec (.intakeEnable p) s =
        .next (answered p c .ok [1] { s with obs := { s.obs with enabled := true } })) ∧
    (CommandPasses p 0x11#8 c s →
      exec (.intakeDisable p) s =
        .next (answered p c .ok [0, byte s.obs.queue.length]
          { s with obs := { s.obs with enabled := false } }))

/-! ### Tracking Engine: records (spec 01 to 03) -/

/-- TAKE_RECORD takes the head of the intake queue and handles it whole: admission of a tracked REQ or matching of a CPL,
the offer to the COUNT probes, then the triggers of a MARK (R11, R12, R21, R31); what no record reaches is unchanged. It
takes none from an empty queue (log 4), and none ahead of an expiry, a drain cut or a sweep visit due before the record
joined the queue; a record taken is one fewer ahead of each such work (R11; the marks are the model's, log 6). -/
def Obligations.TakeRecordResult : Prop :=
  ∀ s : State,
   (s.obs.queue = [] → exec .takeRecord s = .next s) ∧
   (engineWorkFirst s = true ↔
    (∃ first others e, s.trk.table = first :: others ∧ reached s.timebase first.deadline = true ∧ e ∈ s.trk.table ∧
      reached s.timebase e.deadline = true ∧ e.dueAhead = some 0) ∨
    (∃ i d, (s.probe i).state = .draining ∧ (s.probe i).drainDeadline = some d ∧ reached s.timebase d = true ∧
      (s.probe i).cutAhead = some 0) ∨
    (∃ k, s.bank.purge.position = some k ∧ s.bank.purge.visitAhead = 0)) ∧
   (engineWorkFirst s = true → exec .takeRecord s = .next s) ∧
   (∀ (requester : Fin 32) (tag : Byte) (length : Nat) (stamp : Tick),
    engineHandle (.req requester tag .read length) stamp s = handleRequest ⟨requester, tag⟩ .read length stamp s ∧
    engineHandle (.req requester tag .npwrite length) stamp s = handleRequest ⟨requester, tag⟩ .npwrite length stamp s ∧
    engineHandle (.req requester tag .atomic length) stamp s = handleRequest ⟨requester, tag⟩ .atomic length stamp s ∧
    engineHandle (.req requester tag .posted length) stamp s = s ∧
    engineHandle (.req requester tag .message length) stamp s = s ∧
    ∀ status last, engineHandle (.cpl requester tag status length last) stamp s =
      handlePart ⟨requester, tag⟩ status length last stamp s) ∧
   (∀ (r : Record) (stamp : Tick), (r.kind ≠ .req → r.kind ≠ .cpl → engineHandle r stamp s = s) ∧
    (r.kind ≠ .mark → fireMark r stamp s = s)) ∧
   ∀ (x : Stamped) (rest : List Stamped),
    s.resetN = true → s.obs.queue = x :: rest → engineWorkFirst s = false →
    ∃ t, exec .takeRecord s = .next t ∧
      t = fireMark x.record x.stamp (offerRecord x.record (engineHandle x.record x.stamp (popRecord s))) ∧
      (popRecord s).trk = { s.trk with
        table := s.trk.table.map (fun e => { e with dueAhead := e.dueAhead.map (fun n => n - 1) }) } ∧
      (∀ i, (popRecord s).probe i =
        { s.probe i with cutAhead := (s.probe i).cutAhead.map (fun n => n - 1) }) ∧
      (popRecord s).bank.purge = { s.bank.purge with visitAhead := s.bank.purge.visitAhead - 1 } ∧
      popRecord s = { s with
        obs := { s.obs with queue := rest }, trk := (popRecord s).trk, bank := (popRecord s).bank } ∧
      t.obs = { s.obs with queue := rest } ∧ t.timebase = s.timebase ∧ t.resetN = s.resetN ∧ t.baud = s.baud ∧
      t.trk.timeouts = s.trk.timeouts ∧ t.trk.groupMap = s.trk.groupMap ∧ t.mgmt.holder = s.mgmt.holder ∧
      t.mgmt.sessionCount = s.mgmt.sessionCount ∧ t.bank.purge.current = s.bank.purge.current ∧
      t.bank.purge.waiting = s.bank.purge.waiting ∧ t.bank.purge.position = s.bank.purge.position ∧
      ∀ i, (t.probe i).owner = (s.probe i).owner ∧ (t.probe i).definition = (s.probe i).definition ∧
        (t.probe i).unit = (s.probe i).unit ∧ (t.probe i).cutCount = (s.probe i).cutCount

/-- A tracked request with a new key and room is admitted into the lowest free index, filled as R26 gives, its key
leaving the ring; its match set is exactly the RUNNING latency probes whose selectors it matches (R21, R23, R26, R27,
R73). That the records queued at an admission past the deadline (R54) may be taken ahead of its expiry is the model's
choice (log 6). -/
def Obligations.FreshAdmission : Prop :=
  (∀ (b : Bank) (group : Fin 8) (kind : RequestKind) (tag : Byte) (length : Nat) (i : ProbeNo),
    (matchSetOf b group kind tag length).has i = true ↔
      (b.probe i).state = .running ∧ ∃ d, (b.probe i).definition = some d ∧
        (d.measure = .first ∨ d.measure = .full) ∧
        d.selector.groupSet.getLsbD group = true ∧ d.selector.kindSet.getLsbD kind.code = true ∧
        d.selector.tagLo ≤ tag.toNat ∧ tag.toNat ≤ d.selector.tagHi ∧
        d.selector.lengthLo ≤ length ∧ length ≤ d.selector.lengthHi) ∧
  ∀ (s : State) (key : Key) (kind : TrackedKind) (length : Nat) (stamp : Tick),
    (∀ e ∈ s.trk.table, e.key ≠ key) → s.trk.table.length < 256 →
    ∃ e : Entry,
      (∀ x ∈ s.trk.table, x.index ≠ e.index) ∧ (∀ j, j < e.index → ∃ x ∈ s.trk.table, x.index = j) ∧
      e.key = key ∧ e.kind = kind ∧ e.group = s.trk.groupMap[key.requester] ∧
      e.expected = (if kind = .npwrite then 0 else length) ∧
      e.received = 0 ∧ e.parts = 0 ∧ e.first = none ∧ e.issue = stamp ∧
      e.deadline = stamp + (s.trk.timeouts.of kind).setWidth 48 ∧
      e.matchSet = matchSetOf s.bank s.trk.groupMap[key.requester] kind.request key.tag length ∧
      e.state = .awaiting ∧
      e.dueAhead = (if reached s.timebase e.deadline then some s.obs.queue.length else none) ∧
      handleRequest key kind length stamp s = { s with
        trk := { s.trk with
          table := insertEntry e s.trk.table
          ring := s.trk.ring.filter (fun r => r.key != key)
          globals := { s.trk.globals with admitted := satInc s.trk.globals.admitted } }
        bank := s.bank.mapProbes (fun i x => if e.matchSet.has i then { x with inFlight := x.inFlight + 1 } else x) }

/-- A tracked request whose key is pending supersedes the old transaction in its entry: removal notices, superseded and
admitted each rise, index and occupancy stay, the ring is not touched; the entry is filled afresh from the new request
and the present requester map and timeouts, its mark as that of any admission (R22, R26, R54; log 6). -/
def Obligations.Supersession : Prop :=
  ∀ (s : State) (old : Entry) (kind : TrackedKind) (length : Nat) (stamp : Tick),
    TableLaw s.trk → old ∈ s.trk.table →
    ∃ e : Entry, e.index = old.index ∧ e.key = old.key ∧ e.kind = kind ∧ e.issue = stamp ∧
      e.group = s.trk.groupMap[old.key.requester] ∧ e.expected = (if kind = .npwrite then 0 else length) ∧
      e.received = 0 ∧ e.parts = 0 ∧ e.first = none ∧ e.state = .awaiting ∧
      e.deadline = stamp + (s.trk.timeouts.of kind).setWidth 48 ∧
      e.dueAhead = (if reached s.timebase e.deadline then some s.obs.queue.length else none) ∧
      e.matchSet =
        matchSetOf (sendNotices stamp old.matchSet .removal s).bank s.trk.groupMap[old.key.requester] kind.request
          old.key.tag length ∧
      (handleRequest old.key kind length stamp s).trk = { s.trk with
        table := insertEntry e (s.trk.table.filter (fun x => x.index != old.index))
        globals := { s.trk.globals with
          superseded := satInc s.trk.globals.superseded, admitted := satInc s.trk.globals.admitted } } ∧
      (handleRequest old.key kind length stamp s).trk.table.length = s.trk.table.length ∧
      (handleRequest old.key kind length stamp s).mgmt = (sendNotices stamp old.matchSet .removal s).mgmt ∧
      (handleRequest old.key kind length stamp s).bank =
        (sendNotices stamp old.matchSet .removal s).bank.mapProbes
          (fun i x => if e.matchSet.has i then { x with inFlight := x.inFlight + 1 } else x) ∧
      (handleRequest old.key kind length stamp s).obs = s.obs ∧
      (handleRequest old.key kind length stamp s).pool = s.pool ∧
      (handleRequest old.key kind length stamp s).harv = s.harv ∧
      (handleRequest old.key kind length stamp s).timebase = s.timebase

/-- A tracked request that finds the table full is untracked: counted, its key out of the ring, a TABLE_FULL alert when
the flag is armed, which it clears (R23, R24, R25). -/
def Obligations.UntrackedRequest : Prop :=
  ∀ (s : State) (key : Key) (kind : TrackedKind) (length : Nat) (stamp : Tick),
    (∀ e ∈ s.trk.table, e.key ≠ key) → s.trk.table.length = 256 →
    handleRequest key kind length stamp s = { s with
      trk := { s.trk with
        ring := s.trk.ring.filter (fun r => r.key != key)
        globals := { s.trk.globals with untracked := satInc s.trk.globals.untracked }
        tableFullArmed := false }
      mgmt :=
        if s.trk.tableFullArmed then
          s.mgmt.raiseDeviceWide (.tableFull (satInc s.trk.globals.untracked)) stamp
        else s.mgmt }

/-- How a completion part is judged (R32, R33, R34). -/
def Obligations.PartJudgement : Prop :=
  ∀ (e : Entry) (bytes : Nat) (last : Bool),
    judge e .unsupported bytes last = .closes .failed ∧ judge e .aborted bytes last = .closes .failed ∧
    (e.kind ≠ .read → last = true → bytes = e.expected → judge e .ok bytes last = .closes .complete) ∧
    (e.kind ≠ .read → (last = false ∨ bytes ≠ e.expected) → judge e .ok bytes last = .closes .malformed) ∧
    (e.kind = .read → bytes = 0 → judge e .ok bytes last = .closes .malformed) ∧
    (e.kind = .read → e.expected < e.received + bytes → judge e .ok bytes last = .closes .malformed) ∧
    (e.kind = .read → 0 < bytes → e.received + bytes = e.expected → last = true →
      judge e .ok bytes last = .closes .complete) ∧
    (e.kind = .read → 0 < bytes → e.received + bytes = e.expected → last = false →
      judge e .ok bytes last = .closes .malformed) ∧
    (e.kind = .read → 0 < bytes → e.received + bytes < e.expected → last = true →
      judge e .ok bytes last = .closes .malformed) ∧
    (e.kind = .read → 0 < bytes → e.received + bytes < e.expected → last = false →
      judge e .ok bytes last = .continues)

/-- A closure: each probe of the match set gets the outcome's notice once, in ascending probe number, and no other probe
changes; the entry leaves the list, the outcome's counter rises, and an occupancy of 192 or below arms the TABLE_FULL
flag, but for a supersession (R29, R36, Table 2-4). A part judged to close its entry closes it so, its latency the
part's stamp less the issue time (R31). That the FIRST and the FULL probes of an entry closed at its first part get
their notices in one ascending pass, where R35 speaks of the FIRST probes first, is DEDUCED (log 22). -/
def Obligations.ClosureEffects : Prop :=
  ∀ (s : State) (e : Entry) (o : Closure) (t latency : Tick), TableLaw s.trk → e ∈ s.trk.table →
    (closeEntry e o t latency s).trk = { s.trk with
      table := s.trk.table.filter (fun x => x.index != e.index)
      globals := { s.trk.globals with
        completed := if o = .complete then satInc s.trk.globals.completed else s.trk.globals.completed
        failed := if o = .failed then satInc s.trk.globals.failed else s.trk.globals.failed
        malformed := if o = .malformed then satInc s.trk.globals.malformed else s.trk.globals.malformed
        timedOut := if o = .timedOut then satInc s.trk.globals.timedOut else s.trk.globals.timedOut
        superseded := if o = .superseded then satInc s.trk.globals.superseded else s.trk.globals.superseded
        flushed := if o = .flushed then satInc s.trk.globals.flushed else s.trk.globals.flushed }
      tableFullArmed := s.trk.tableFullArmed ||
        (o != .superseded && decide ((s.trk.table.filter (fun x => x.index != e.index)).length ≤ 192)) } ∧
    (∀ i, (closeEntry e o t latency s).probe i =
      if e.matchSet.has i then (s.probe i).take (o.notice latency) else s.probe i) ∧
    (closeEntry e o t latency s).mgmt = (sendNotices t e.matchSet (o.notice latency) s).mgmt ∧
    (closeEntry e o t latency s).pool = (sendNotices t e.matchSet (o.notice latency) s).pool ∧
    (∀ (set : ProbeSet) (n : Notice), (members set).Pairwise (fun i j => i < j) ∧
      (∀ i, i ∈ members set ↔ set.has i = true) ∧
      sendNotices t set n s = (members set).foldl (fun u i => notify t i n u) s) ∧
    (closeEntry e o t latency s).obs = s.obs ∧ (closeEntry e o t latency s).bank.purge = s.bank.purge ∧
    (closeEntry e o t latency s).harv = s.harv ∧ (closeEntry e o t latency s).timebase = s.timebase ∧
    Closure.notice .complete latency = .sample latency ∧ Closure.notice .failed latency = .fault ∧
    Closure.notice .malformed latency = .fault ∧ Closure.notice .timedOut latency = .timeout ∧
    Closure.notice .superseded latency = .removal ∧ Closure.notice .flushed latency = .removal ∧
    (∀ status bytes last, judge e status bytes last = .closes o →
      handlePart e.key status bytes last t s = closeEntry e o t (t - e.issue) s)

/-- A completion part that continues its entry: received and parts advance, the entry is RECEIVING in its place, and at
the first part the FIRST probes leave with a sample, in ascending number, the alerts at the part's stamp (R29, R34,
R35). -/
def Obligations.PartContinues : Prop :=
  ∀ (s : State) (e : Entry) (status : Status) (bytes : Nat) (last : Bool) (stamp : Tick),
    TableLaw s.trk → e ∈ s.trk.table → judge e status bytes last = .continues →
    ∃ gone : ProbeSet,
      (∀ i, gone.has i = true ↔ e.parts = 0 ∧ e.matchSet.has i = true ∧ (s.probe i).measures .first = true) ∧
      (handlePart e.key status bytes last stamp s).trk = { s.trk with
        table := s.trk.table.map (fun x => if x.index = e.index then { e with
          received := e.received + bytes
          parts := e.parts + 1
          state := .receiving
          first := if e.parts = 0 then some stamp else e.first
          matchSet := e.matchSet &&& ~~~gone } else x) } ∧
      (∀ i, (handlePart e.key status bytes last stamp s).probe i =
        if gone.has i then (s.probe i).take (.sample (stamp - e.issue)) else s.probe i) ∧
      (handlePart e.key status bytes last stamp s).mgmt =
        ((members gone).foldl (fun u i => notify stamp i (.sample (stamp - e.issue)) u) s).mgmt ∧
      (handlePart e.key status bytes last stamp s).pool =
        ((members gone).foldl (fun u i => notify stamp i (.sample (stamp - e.issue)) u) s).pool ∧
      (handlePart e.key status bytes last stamp s).bank.purge = s.bank.purge ∧
      (handlePart e.key status bytes last stamp s).obs = s.obs ∧
      (handlePart e.key status bytes last stamp s).harv = s.harv ∧
      (handlePart e.key status bytes last stamp s).timebase = s.timebase

/-- A completion part whose key is not pending counts as late if the ring holds the key, leaving the ring with its last
flag, and as an orphan if not; nothing else changes (R59, R60). -/
def Obligations.LateAndOrphanParts : Prop :=
  ∀ (s : State) (key : Key) (status : Status) (bytes : Nat) (last : Bool) (stamp : Tick),
    (∀ e ∈ s.trk.table, e.key ≠ key) →
    ((∃ r ∈ s.trk.ring, r.key = key) →
      handlePart key status bytes last stamp s = { s with trk := { s.trk with
        globals := { s.trk.globals with late := satInc s.trk.globals.late }
        ring := if last then s.trk.ring.filter (fun r => r.key != key) else s.trk.ring } }) ∧
    ((∀ r ∈ s.trk.ring, r.key ≠ key) →
      handlePart key status bytes last stamp s = { s with trk := { s.trk with
        globals := { s.trk.globals with orphan := satInc s.trk.globals.orphan } } })

/-- EXPIRY closes the head of the deadline list TIMED_OUT once its deadline is reached: timeout notices in ascending probe
number, whose alerts carry the deadline as their time, the counter, the flag, and its key into the ring, whose oldest
record leaves a full ring (R29, R52, R53, R56, R97). One whose deadline is not reached leaves the state as it is, the
model's choice (log 4). -/
def Obligations.ExpiryResult : Prop :=
  ∀ (s : State) (e : Entry) (rest : List Entry), s.resetN = true → s.trk.table = e :: rest →
    (reached s.timebase e.deadline = false → exec .expiry s = .next s) ∧
    (reached s.timebase e.deadline = true → ∃ t, exec .expiry s = .next t ∧
      t.trk = { s.trk with
        table := rest
        globals := { s.trk.globals with timedOut := satInc s.trk.globals.timedOut }
        tableFullArmed := s.trk.tableFullArmed || decide (rest.length ≤ 192)
        ring := (if s.trk.ring.length < 16 then s.trk.ring else s.trk.ring.drop 1) ++
          [{ key := e.key, kind := e.kind, expiry := e.deadline }] } ∧
      (∀ i, t.probe i = if e.matchSet.has i then (s.probe i).take .timeout else s.probe i) ∧
      t.mgmt = ((members e.matchSet).foldl (fun u i => notify e.deadline i .timeout u) s).mgmt ∧
      t.bank.purge = s.bank.purge ∧ t.obs = s.obs ∧ t.pool = s.pool ∧ t.harv = s.harv ∧ t.timebase = s.timebase ∧
      t.resetN = s.resetN ∧ t.baud = s.baud ∧ t.pending = s.pending)

/-- An insertion keeps the deadline list in order, behind every entry whose deadline is not later, and so does every step,
as long as the deadlines of the list it leaves lie within a window of 2^46 ticks (R48, R49, R50, R51). -/
def Obligations.DeadlineOrderKept : Prop :=
  (∀ (base : Tick) (e : Entry) (table : List Entry),
    (∀ x ∈ e :: table, elapsed base x.deadline < 2 ^ 46) →
    table.Pairwise (fun a b => notLater a.deadline b.deadline = true) →
    (insertEntry e table).Pairwise (fun a b => notLater a.deadline b.deadline = true) ∧
      ∃ front back, table = front ++ back ∧ insertEntry e table = front ++ e :: back ∧
        (∀ x ∈ front, notLater x.deadline e.deadline = true) ∧
        (∀ x ∈ back, notLater x.deadline e.deadline = false)) ∧
  ∀ (base : Tick) (s t : State), EngineLaw s →
    s.trk.table.Pairwise (fun a b => notLater a.deadline b.deadline = true) → step s = .next t →
    (∀ x ∈ t.trk.table, elapsed base x.deadline < 2 ^ 46) →
    t.trk.table.Pairwise (fun a b => notLater a.deadline b.deadline = true)

/-! ### Notices and values (spec 05, 06) -/

/-- What a notice does to a probe, but for its drain: a RUNNING or DRAINING probe records a sample, fault or timeout, any
other records nothing; the in-flight count falls by one (R91, R93, R94). -/
def Obligations.NoticeRecording : Prop :=
  ∀ (x : Probe) (n : Notice),
    (x.take n).inFlight = x.inFlight - 1 ∧ (x.take n).owner = x.owner ∧ (x.take n).definition = x.definition ∧
    (x.take n).unit = x.unit ∧ (x.take n).cutCount = x.cutCount ∧
    (x.state ≠ .running → x.state ≠ .draining → (x.take n).values = x.values ∧ (x.take n).state = x.state) ∧
    (x.take .removal).values = x.values ∧
    ((x.state = .running ∨ x.state = .draining) →
      (x.take .fault).values = { x.values with faults := satInc x.values.faults } ∧
      (x.take .timeout).values = { x.values with timeouts := satInc x.values.timeouts } ∧
      ∀ L : Tick, (x.take (.sample L)).values = { x.values with
        samples := satInc x.values.samples
        sum := satAdd x.values.sum L.toNat
        min := if L.toNat < x.values.min.toNat then L else x.values.min
        max := if x.values.max.toNat < L.toNat then L else x.values.max
        overCount :=
          if x.threshold ≠ 0 ∧ x.threshold.toNat < L.toNat then satInc x.values.overCount else x.values.overCount })

/-- The alerts of one notice: PROBE_LIMIT when a sample brings over to the alert limit with the flag armed, which it
clears; then DRAINED with outcome EMPTIED when the notice empties a drain, which ends in HELD (R92, R97). -/
def Obligations.NoticeAlerts : Prop :=
  ∀ (s : State) (t : Tick) (i : ProbeNo) (n : Notice),
    (notify t i n s).mgmt =
      (let m :=
        if (s.probe i).alertLimit ≠ 0 ∧ (s.probe i).alertArmed = true ∧
            ((s.probe i).take n).values.overCount ≠ (s.probe i).values.overCount ∧
            ((s.probe i).take n).values.overCount = (s.probe i).alertLimit then
          s.mgmt.raiseToOwner (s.probe i).owner (.probeLimit i ((s.probe i).take n).values.overCount) t
        else s.mgmt
      if (s.probe i).state = .draining ∧ (s.probe i).inFlight ≤ 1 then
        m.raiseToOwner (s.probe i).owner (.drained i .emptied 0) t
      else m) ∧
    ((s.probe i).state = .draining → (s.probe i).inFlight ≤ 1 →
      ((notify t i n s).probe i).state = .held ∧ ((notify t i n s).probe i).drainDeadline = none) ∧
    (¬ ((s.probe i).state = .draining ∧ (s.probe i).inFlight ≤ 1) →
      ((notify t i n s).probe i).state = (s.probe i).state ∧
        ((notify t i n s).probe i).drainDeadline = (s.probe i).drainDeadline) ∧
    (((notify t i n s).probe i).alertArmed = true ↔ (s.probe i).alertArmed = true ∧
      ¬ ((s.probe i).alertLimit ≠ 0 ∧ ((s.probe i).take n).values.overCount ≠ (s.probe i).values.overCount ∧
        ((s.probe i).take n).values.overCount = (s.probe i).alertLimit)) ∧
    (∀ j, j ≠ i → (notify t i n s).probe j = s.probe j) ∧ (notify t i n s).trk = s.trk ∧
    (notify t i n s).obs = s.obs ∧ (notify t i n s).harv = s.harv

/-- The bin of a latency in LOG and in LINEAR mode (R114, R115); a recorded sample raises that bin of the probe's unit,
saturating, and no other bin of the pool (R116). -/
def Obligations.BinOfLatency : Prop :=
  ∀ (u : HistUnit) (L : Tick),
    (u.mode = .log →
      (L.toNat < u.parameter.toNat → u.binOf L = 0) ∧
      (∀ k : Nat, 1 ≤ k → k ≤ 14 → u.parameter.toNat * 2 ^ (k - 1) ≤ L.toNat →
        L.toNat < u.parameter.toNat * 2 ^ k → (u.binOf L).val = k) ∧
      (u.parameter.toNat * 2 ^ 14 ≤ L.toNat → u.binOf L = 15)) ∧
    (u.mode = .linear →
      (L.toNat / u.parameter.toNat < 15 → (u.binOf L).val = L.toNat / u.parameter.toNat) ∧
      (15 ≤ L.toNat / u.parameter.toNat → u.binOf L = 15)) ∧
    (∀ (s : State) (t : Tick) (i : ProbeNo) (k : Fin 8),
      ((s.probe i).state = .running ∨ (s.probe i).state = .draining) → (s.probe i).unit = some k →
      s.pool[k] = some u →
      (notify t i (.sample L) s).pool =
        s.pool.set k (some { u with bins := u.bins.set (u.binOf L) (satInc u.bins[u.binOf L]) }))

/-- The offer of a record to the COUNT probes: each RUNNING COUNT probe of its kind whose selector it matches adds one
sample and the record's length or bytes; nothing else changes (R12, R95). Which records a selector matches, by the
fields that apply to their kind (R72, R74, R75). -/
def Obligations.CountOffer : Prop :=
  ∀ (s : State) (r : Record) (i : ProbeNo),
    (∀ d, (s.probe i).state = .running → (s.probe i).definition = some d → d.measure = .count r.kind →
      d.selector.matchesRecord s.trk.groupMap r = true →
      (offerRecord r s).probe i = { s.probe i with values := { (s.probe i).values with
        samples := satInc (s.probe i).values.samples
        sum := satAdd (s.probe i).values.sum (recordAmount r) } }) ∧
    ((¬ ∃ d, (s.probe i).state = .running ∧ (s.probe i).definition = some d ∧ d.measure = .count r.kind ∧
        d.selector.matchesRecord s.trk.groupMap r = true) →
      (offerRecord r s).probe i = s.probe i) ∧
    offerRecord r s = { s with bank := { s.bank with probes := (offerRecord r s).bank.probes } } ∧
    ∀ (x : Selector) (groupMap : Vector (Fin 8) 32) (requester : Fin 32) (tag : Byte) (n : Nat),
      (∀ kind, recordAmount (.req requester tag kind n) = n ∧
        (x.matchesRecord groupMap (.req requester tag kind n) = true ↔
          x.groupSet.getLsbD groupMap[requester] = true ∧ x.kindSet.getLsbD kind.code = true ∧
          x.tagLo ≤ tag.toNat ∧ tag.toNat ≤ x.tagHi ∧ x.lengthLo ≤ n ∧ n ≤ x.lengthHi)) ∧
      (∀ status last, recordAmount (.cpl requester tag status n last) = n ∧
        (x.matchesRecord groupMap (.cpl requester tag status n last) = true ↔
          x.groupSet.getLsbD groupMap[requester] = true ∧ x.tagLo ≤ tag.toNat ∧ tag.toNat ≤ x.tagHi ∧
          x.lengthLo ≤ n ∧ n ≤ x.lengthHi ∧ x.statusSet.getLsbD status.code = true)) ∧
      (∀ credit, recordAmount (.stall credit) = 0 ∧
        x.matchesRecord groupMap (.stall credit) = x.creditSet.getLsbD credit.code) ∧
      recordAmount .retry = 0 ∧ x.matchesRecord groupMap .retry = true ∧
      (∀ cls, recordAmount (.linkerr cls) = 0 ∧
        x.matchesRecord groupMap (.linkerr cls) = x.errorSet.getLsbD cls.code) ∧
      ∀ label, recordAmount (.mark label) = 0 ∧
        (x.matchesRecord groupMap (.mark label) = true ↔ x.labelLo ≤ label.toNat ∧ label.toNat ≤ x.labelHi)

/-! ### Drain cuts and sweeps (spec 05) -/

/-- DRAIN_CUT of a DRAINING probe whose drain deadline is reached: its in-flight count kept as cut count, the deadline
gone, PURGING, and handed to the purge engine, which starts a sweep at index 0 if it is idle, its first visit due at once
(R11, R98, R102; its mark: log 6). The probe is the command's operand (log 20), and a cut that is not due leaves the state
as it is (log 4): the model's choices. -/
def Obligations.DrainCutResult : Prop :=
  ∀ (s : State) (i : ProbeNo), s.resetN = true →
    (∀ d, (s.probe i).state = .draining → (s.probe i).drainDeadline = some d → reached s.timebase d = true →
      ∃ t, exec (.drainCut i) s = .next t ∧
        t.probe i = { s.probe i with
          state := .purging, cutCount := some (s.probe i).inFlight, drainDeadline := none, cutAhead := none } ∧
        (∀ j, j ≠ i → t.probe j = s.probe j) ∧
        (s.bank.purge.current = 0 →
          t.bank.purge.current = 1#16 <<< i.val ∧ t.bank.purge.waiting = s.bank.purge.waiting ∧
            t.bank.purge.position = some 0 ∧ t.bank.purge.visitAhead = s.obs.queue.length) ∧
        (s.bank.purge.current ≠ 0 →
          t.bank.purge = { s.bank.purge with waiting := s.bank.purge.waiting ||| (1#16 <<< i.val) }) ∧
        t = { s with bank := t.bank }) ∧
    ((∀ d, (s.probe i).state = .draining → (s.probe i).drainDeadline = some d → reached s.timebase d = false) →
      exec (.drainCut i) s = .next s)

/-- SWEEP_VISIT of an index below 255: the probes of the current set leave the match set of the entry there with removal
notices, its other fields and place unchanged, and the position advances (R30, R103). The next visit, be it of this sweep
or of one that begins at the end of this, is due at once (R11; its mark, the occupancy of the intake queue: log 6).
Without a sweep the row leaves the state as it is, the model's choice (log 4). -/
def Obligations.SweepVisitResult : Prop :=
  ∀ s : State, EngineLaw s → s.resetN = true →
    (s.bank.purge.position = none → exec .sweepVisit s = .next s) ∧
    (∀ k : Fin 256, s.bank.purge.position = some k → k ≠ 255 → ∃ t, exec .sweepVisit s = .next t ∧
      t.trk = { s.trk with table := s.trk.table.map (fun e =>
        if e.index = k then { e with matchSet := e.matchSet &&& ~~~s.bank.purge.current } else e) } ∧
      t.bank.purge.current = s.bank.purge.current ∧ t.bank.purge.waiting = s.bank.purge.waiting ∧
      t.bank.purge.position = some (k + 1) ∧ t.bank.purge.visitAhead = s.obs.queue.length ∧
      (∀ i, t.probe i =
        if s.bank.purge.current.has i = true ∧ ∃ e ∈ s.trk.table, e.index = k ∧ e.matchSet.has i = true then
          { s.probe i with inFlight := (s.probe i).inFlight - 1 }
        else s.probe i) ∧
      t = { s with trk := t.trk, bank := t.bank }) ∧
    (s.bank.purge.position = some 255 → s.bank.purge.waiting ≠ 0 →
      ∃ t, exec .sweepVisit s = .next t ∧ t.bank.purge.visitAhead = s.obs.queue.length)

/-- The visit of index 255, where the entry loses the current set as in every visit, ends the sweep: the probes of the
current set are HELD with nothing in flight, those with a cut count raise CUT alerts in ascending number at the present
time, and the pending purge set begins the next sweep or the engine is idle (R30, R103, R104). -/
def Obligations.SweepEndResult : Prop :=
  ∀ s : State, EngineLaw s → s.resetN = true → s.bank.purge.position = some 255 →
    ∃ t, exec .sweepVisit s = .next t ∧
      t.trk = { s.trk with table := s.trk.table.map (fun e =>
        if e.index = 255 then { e with matchSet := e.matchSet &&& ~~~s.bank.purge.current } else e) } ∧
      (∀ i, s.bank.purge.current.has i = true →
        (t.probe i).state = .held ∧ (t.probe i).inFlight = 0 ∧ (t.probe i).cutCount = none ∧
          (t.probe i).values = (s.probe i).values) ∧
      (∀ i, s.bank.purge.current.has i = false → t.probe i = s.probe i) ∧
      t.mgmt = (members s.bank.purge.current).foldl (fun m i =>
        match (s.probe i).cutCount with
        | some n => m.raiseToOwner (s.probe i).owner (.drained i .cut n) s.timebase
        | none => m) s.mgmt ∧
      (s.bank.purge.waiting = 0 → t.bank.purge = Purge.idle) ∧
      (s.bank.purge.waiting ≠ 0 →
        t.bank.purge.current = s.bank.purge.waiting ∧ t.bank.purge.waiting = 0 ∧ t.bank.purge.position = some 0) ∧
      t.obs = s.obs ∧ t.pool = s.pool ∧ t.harv = s.harv ∧ t.timebase = s.timebase

/-! ### Every management command (spec 09, 10) -/

/-- The checks that many commands share. Level 2: a body length that Table 10-5 does not give is BAD_LENGTH (R176). Level
3: a CLOSED session refuses all but IDENTIFY, PORT_STATUS and OPEN_SESSION with NOT_OPEN (R164). Level 4: the five
commands that require the claim are NOT_HOLDER without it (R167), and DEFINE aside the commands that change probes are
NOT_OWNER, naming the lowest probe the port does not own (R81, R178). Level 5: their empty set is BAD_ARGUMENT (R83). -/
def Obligations.SharedChecks : Prop :=
  ∀ (i : Instr) (p : Port) (type : Byte) (c : Command) (s : State),
    i.dispatched = some (p, type) → CommandWaits p c s → c.type = type →
    (lengthAccepted type c.body = false → exec i s = .next (answered p c .badLength [] s)) ∧
    (lengthAccepted type c.body = true → (s.port p).isOpen = false → type ∉ [0x01#8, 0x02#8, 0x03#8] →
      exec i s = .next (answered p c .notOpen [] s)) ∧
    (CommandPasses p type c s → type ∈ [0x10#8, 0x11#8, 0x1A#8, 0x1C#8, 0x20#8] → s.mgmt.holder ≠ some p →
      exec i s = .next (answered p c .notHolder [] s)) ∧
    (CommandPasses p type c s → type ∈ [0x2B#8, 0x2C#8, 0x2D#8] →
      (∀ j, LowestFailing (probeSetAt c.body 0) (fun j => (s.probe j).owner ≠ some p) j →
        exec i s = .next (answered p c .notOwner [byte j] s)) ∧
      (probeSetAt c.body 0 = 0 → exec i s = .next (answered p c .badArgument [] s)))

/-- A refused command changes nothing but the replies (R160, R177). -/
def Obligations.RefusalChangesNothing : Prop :=
  ∀ (i : Instr) (p : Port) (type : Byte) (c : Command) (s t : State) (r : Reply),
    i.dispatched = some (p, type) → CommandWaits p c s → c.type = type → exec i s = .next t →
    (t.port p).reply = some r → r.code ≠ .ok → t = answered p c r.code r.body s

/-- COMMAND_RETRY and UNKNOWN_COMMAND: a retry is answered by the stored reply, itself unchanged, without execution
(R162); a type absent from Table 10-5 is refused UNKNOWN_COMMAND with an empty body (R177). A row whose command is not
the one the dispatcher has taken has no effect (R160; log 4). -/
def Obligations.RetryAndUnknown : Prop :=
  ∀ (p : Port) (c : Command) (s : State),
    (∀ r, s.resetN = true → (s.port p).executing = some c → (s.port p).lastReply = some r → r.seq = c.seq →
      r.type = c.type → exec (.commandRetry p) s =
        .next (s.setPort p { s.port p with executing := none, reply := some r })) ∧
    (CommandWaits p c s → c.type ∉ commandTypes →
      exec (.unknownCommand p) s = .next (answered p c .unknownCommand [] s)) ∧
    (CommandWaits p c s → exec (.commandRetry p) s = .next s) ∧
    (CommandWaits p c s → c.type ∈ commandTypes → exec (.unknownCommand p) s = .next s) ∧
    (∀ i type, i.dispatched = some (p, type) → (∀ c, CommandWaits p c s → c.type ≠ type) →
      exec i s = .next s)

/-- The three commands executed in either session state. IDENTIFY and PORT_STATUS report and change nothing (R170, R171);
OPEN_SESSION in CLOSED takes the next device-wide number, and in OPEN changes nothing but the reply (R165). -/
def Obligations.CommandsOfAClosedSession : Prop :=
  ∀ (p : Port) (c : Command) (s : State), CommandWaits p c s → c.body = [] →
    (c.type = 0x01#8 → exec (.identify p) s = .next (answered p c .ok
      (le 2 3140 ++ [1, ownerByte (some p)] ++ le 4 s.baud.figure ++ le 2 256 ++ le 2 16 ++ le 2 8 ++ le 2 4 ++
        le 2 4 ++ le 2 64 ++ le 2 16) s)) ∧
    (c.type = 0x02#8 → exec (.portStatus p) s = .next (answered p c .ok
      ([flagByte (s.port p).isOpen] ++ le 2 (s.port p).sessionNumber.toNat ++ [byte (s.port p).commands.length] ++
        le 2 (s.port p).rejectCount.toNat ++ [byte (s.port p).alerts.length] ++ le 2 (s.port p).lostCount.toNat ++
        [ownerByte s.mgmt.holder]) s)) ∧
    (c.type = 0x03#8 → (s.port p).isOpen = false →
      exec (.openSession p) s = .next (answered p c .ok (le 2 (s.mgmt.sessionCount + 1).toNat ++ [1])
        { s with mgmt := { s.mgmt.setPort p { s.port p with
            isOpen := true, sessionNumber := s.mgmt.sessionCount + 1 } with
          sessionCount := s.mgmt.sessionCount + 1 } })) ∧
    (c.type = 0x03#8 → (s.port p).isOpen = true →
      exec (.openSession p) s = .next (answered p c .ok (le 2 (s.port p).sessionNumber.toNat ++ [0])
        s))

/-- CLOSE_SESSION releases all the port holds and closes it: of the port itself the session state, the alert queue, the
lost count and the mask change, and an alert frame being sent is completed with its alert gone; the other port and all
else is untouched (R82, R139, R151, R164, R166, Table 9-3). -/
def Obligations.CloseSessionResult : Prop :=
  ∀ (p : Port) (c : Command) (s : State), CommandPasses p 0x04#8 c s →
    ∃ u, exec (.closeSession p) s = .next (answered p c .ok (le 2 (s.port p).sessionNumber.toNat) u) ∧
      HoldsNothing p u ∧
      u.port p = { s.port p with
        isOpen := false
        alerts := []
        head := { sent := false, due := false, timer := none }
        lostCount := 0
        mask := { tableFull := false, intakeLoss := false }
        sending := (s.port p).sending.map completing } ∧
      u.port p.other = s.port p.other ∧
      (∀ i, u.probe i =
        { s.probe i with owner := if (s.probe i).owner = some p then none else (s.probe i).owner }) ∧
      (∀ k : Fin 4, u.harv.slots[k] = s.harv.slots[k].filter (fun x => x.owner != p) ∧
        u.harv.triggers[k] = s.harv.triggers[k].filter (fun x => x.owner != p)) ∧
      u.harv.number = s.harv.number ∧
      u.mgmt.holder = (if s.mgmt.holder = some p then none else s.mgmt.holder) ∧
      u.mgmt.sessionCount = s.mgmt.sessionCount ∧ u.mgmt.undeliverable = s.mgmt.undeliverable ∧
      u.bank.purge = s.bank.purge ∧ u.trk = s.trk ∧ u.obs = s.obs ∧ u.pool = s.pool ∧ u.timebase = s.timebase ∧
      u.baud = s.baud ∧ u.resetN = s.resetN ∧ u.pending = s.pending

/-- CLAIM_CONFIG and UNCLAIM_CONFIG (R168, R169). -/
def Obligations.ConfigClaim : Prop :=
  ∀ (p : Port) (c : Command) (s : State),
    (CommandPasses p 0x05#8 c s → s.mgmt.holder ≠ some p.other →
      exec (.claimConfig p) s = .next (answered p c .ok [ownerByte (some p)]
        { s with mgmt := { s.mgmt with holder := some p } })) ∧
    (CommandPasses p 0x05#8 c s → s.mgmt.holder = some p.other →
      exec (.claimConfig p) s = .next (answered p c .heldElsewhere [ownerByte (some p.other)] s)) ∧
    (CommandPasses p 0x06#8 c s → s.mgmt.holder = some p →
      exec (.unclaimConfig p) s = .next (answered p c .ok [0]
        { s with mgmt := { s.mgmt with holder := none } })) ∧
    (CommandPasses p 0x06#8 c s → s.mgmt.holder ≠ some p →
      exec (.unclaimConfig p) s = .next (answered p c .notHolder [] s))

/-- The reports of the Observation Port and the Tracking Engine; each changes nothing but the replies
(R15, R39, R47, R58, R68), the ten counters in the order of Table 2-7. LIST_PENDING lists from a position, up to a count and the tail; a count of 0 or above 16 or a
position above 255 is refused (R40, R41). -/
def Obligations.EngineReports : Prop :=
  (TrackedKind.read.code = 0 ∧ TrackedKind.npwrite.code = 1 ∧ TrackedKind.atomic.code = 2 ∧
    EntryState.awaiting.code = 0 ∧ EntryState.receiving.code = 1) ∧
  ∀ (p : Port) (c : Command) (s : State),
    (CommandPasses p 0x12#8 c s → exec (.readIntake p) s = .next (answered p c .ok
      ([flagByte s.obs.enabled, byte s.obs.queue.length] ++ le 4 s.obs.lossCount.toNat ++
        le 4 s.obs.rejectedCount.toNat ++ [flagByte s.obs.lossArmed]) s)) ∧
    (CommandPasses p 0x18#8 c s → exec (.readGlobals p) s = .next (answered p c .ok
      ([s.trk.globals.admitted, s.trk.globals.untracked, s.trk.globals.completed, s.trk.globals.failed,
          s.trk.globals.malformed, s.trk.globals.timedOut, s.trk.globals.superseded, s.trk.globals.flushed,
          s.trk.globals.late, s.trk.globals.orphan].flatMap (fun n => le 8 n.toNat) ++
        le 2 s.trk.table.length ++ [flagByte s.trk.tableFullArmed]) s)) ∧
    (CommandPasses p 0x1D#8 c s → exec (.readTimeouts p) s = .next (answered p c .ok
      (le 4 s.trk.timeouts.read.toNat ++ le 4 s.trk.timeouts.npwrite.toNat ++ le 4 s.trk.timeouts.atomic.toNat)
        s)) ∧
    (CommandPasses p 0x1E#8 c s → exec (.listExpired p) s = .next (answered p c .ok
      (byte s.trk.ring.length :: s.trk.ring.flatMap (fun r =>
        [byte r.key.requester, r.key.tag, byte r.kind.code] ++ le 6 r.expiry.toNat)) s)) ∧
    (CommandPasses p 0x21#8 c s → exec (.readGroupMap p) s = .next (answered p c .ok
      (s.trk.groupMap.toList.map (fun g => byte g)) s)) ∧
    (∀ lo hi n : Byte, CommandPasses p 0x19#8 c s → c.body = [lo, hi, n] →
      (1 ≤ n.toNat → n.toNat ≤ 16 → hi = 0 →
        exec (.listPending p) s = .next (answered p c .ok
          (le 2 s.trk.table.length ++ [byte ((s.trk.table.drop lo.toNat).take n.toNat).length] ++
            ((s.trk.table.drop lo.toNat).take n.toNat).flatMap (fun e =>
              [byte e.index, byte e.key.requester, e.key.tag, byte e.kind.code, byte e.group, byte e.state.code] ++
                le 6 e.issue.toNat ++ le 2 e.received ++ le 2 e.parts ++ le 6 e.deadline.toNat ++
                le 2 e.matchSet.toNat)) s)) ∧
      ((n.toNat = 0 ∨ 16 < n.toNat ∨ hi ≠ 0) →
        exec (.listPending p) s = .next (answered p c .badArgument [] s)))

/-- CLEAR_TRACKING by the holder: the table, the ring and the intake queue emptied, every entry counted flushed, every
probe with nothing in flight, drains and purges HELD and FLUSHED alerts for the drains, in ascending probe number
(R17, R42, R43, R108). -/
def Obligations.ClearTrackingResult : Prop :=
  ∀ (p : Port) (c : Command) (s : State), CommandPasses p 0x1A#8 c s →
    s.mgmt.holder = some p →
    ∃ u, exec (.clearTracking p) s = .next (answered p c .ok
        (le 2 s.trk.table.length ++ [byte s.obs.queue.length]) u) ∧
      u.obs = { s.obs with queue := [] } ∧
      u.trk = { s.trk with
        table := [], ring := [], tableFullArmed := true,
        globals := { s.trk.globals with flushed := satAdd s.trk.globals.flushed s.trk.table.length } } ∧
      u.bank.purge = Purge.idle ∧
      (∀ i, u.probe i =
        if (s.probe i).state = .draining ∨ (s.probe i).state = .purging then
          { s.probe i with
            state := .held, inFlight := 0, drainDeadline := none, cutCount := none, cutAhead := none }
        else { s.probe i with inFlight := 0 }) ∧
      u.mgmt = (List.finRange 16).foldl (fun m i =>
        match (s.probe i).state, (s.probe i).cutCount with
        | .draining, _ => m.raiseToOwner (s.probe i).owner (.drained i .flushed (s.probe i).inFlight) s.timebase
        | .purging, some n => m.raiseToOwner (s.probe i).owner (.drained i .flushed n) s.timebase
        | _, _ => m) s.mgmt ∧
      u.harv = s.harv ∧ u.pool = s.pool ∧ u.timebase = s.timebase

/-- SET_TIMEOUTS and SET_GROUP_MAP by the holder: each kind or requester named takes its new value, the others keep
theirs; a body that fails a check is refused and changes nothing (R46, R66, R67). -/
def Obligations.SettingCommands : Prop :=
  ∀ (p : Port) (c : Command) (s : State), s.mgmt.holder = some p →
    (CommandPasses p 0x1C#8 c s →
      (((∃ x ∈ settingsOfBody c.body, 2 < x.1.toNat ∨ x.2 < 125) ∨ ¬ ((settingsOfBody c.body).map Prod.fst).Nodup) →
        exec (.setTimeouts p) s = .next (answered p c .badArgument [] s)) ∧
      ((∀ x ∈ settingsOfBody c.body, x.1.toNat ≤ 2 ∧ 125 ≤ x.2) → ((settingsOfBody c.body).map Prod.fst).Nodup →
        ∃ new : Timeouts,
          (∀ kind : TrackedKind,
            (∀ v, (byte kind.code, v) ∈ settingsOfBody c.body → (new.of kind).toNat = v) ∧
            ((∀ v, (byte kind.code, v) ∉ settingsOfBody c.body) → new.of kind = s.trk.timeouts.of kind)) ∧
          exec (.setTimeouts p) s = .next (answered p c .ok
            (le 4 new.read.toNat ++ le 4 new.npwrite.toNat ++ le 4 new.atomic.toNat)
            { s with trk := { s.trk with timeouts := new } }))) ∧
    (CommandPasses p 0x20#8 c s →
      (((∃ x ∈ assignmentsOfBody c.body, 31 < x.1.toNat ∨ 7 < x.2.toNat) ∨
          ¬ ((assignmentsOfBody c.body).map Prod.fst).Nodup) →
        exec (.setGroupMap p) s = .next (answered p c .badArgument [] s)) ∧
      ((∀ x ∈ assignmentsOfBody c.body, x.1.toNat ≤ 31 ∧ x.2.toNat ≤ 7) →
        ((assignmentsOfBody c.body).map Prod.fst).Nodup →
        ∃ new : Vector (Fin 8) 32,
          (∀ r : Fin 32,
            (∀ g, (byte r, g) ∈ assignmentsOfBody c.body → (new[r]).val = g.toNat) ∧
            ((∀ g, (byte r, g) ∉ assignmentsOfBody c.body) → new[r] = s.trk.groupMap[r])) ∧
          exec (.setGroupMap p) s = .next (answered p c .ok (new.toList.map (fun g => byte g))
            { s with trk := { s.trk with groupMap := new } })))

/-! ### Probe commands (spec 05, 06) -/

/-- CLAIM_PROBES and UNCLAIM_PROBES (R79, R80). -/
def Obligations.ProbeOwnership : Prop :=
  ∀ (p : Port) (c : Command) (s : State) (set : ProbeSet), set = probeSetAt c.body 0 →
    (CommandPasses p 0x28#8 c s →
      (∀ i, LowestFailing set (fun j => (s.probe j).owner = some p.other) i →
        exec (.claimProbes p) s = .next (answered p c .ownedElsewhere [byte i] s)) ∧
      (set = 0 → exec (.claimProbes p) s = .next (answered p c .badArgument [] s)) ∧
      (set ≠ 0 → NoneFails set (fun j => (s.probe j).owner = some p.other) →
        ∃ bank owned, exec (.claimProbes p) s =
            .next (answered p c .ok (le 2 (owned : ProbeSet).toNat) { s with bank := bank }) ∧
          (∀ i, owned.has i = true ↔ set.has i = true ∨ (s.probe i).owner = some p) ∧
          (∀ i, bank.probe i = if set.has i then { s.probe i with owner := some p } else s.probe i) ∧
          bank.purge = s.bank.purge)) ∧
    (CommandPasses p 0x29#8 c s →
      (∀ i, LowestFailing set (fun j => (s.probe j).owner ≠ some p) i →
        exec (.unclaimProbes p) s = .next (answered p c .notOwner [byte i] s)) ∧
      (set = 0 → exec (.unclaimProbes p) s = .next (answered p c .badArgument [] s)) ∧
      (set ≠ 0 → NoneFails set (fun j => (s.probe j).owner ≠ some p) →
        ∃ bank owned, exec (.unclaimProbes p) s =
            .next (answered p c .ok (le 2 (owned : ProbeSet).toNat) { s with bank := bank }) ∧
          (∀ i, owned.has i = true ↔ set.has i = false ∧ (s.probe i).owner = some p) ∧
          (∀ i, bank.probe i = if set.has i then { s.probe i with owner := none } else s.probe i) ∧
          bank.purge = s.bank.purge))

/-- DEFINE_PROBE: which bodies pass the argument checks of level 5 (R70, R71, R84, R110), and that each refusal of levels
4 to 7 names the probe number of the body (R175, R178). -/
def Obligations.DefineProbeRefusals : Prop :=
  (∀ body : List Byte, (checkedDefinition body).isSome = true ↔
    (byteAt body 1).toNat ≤ 2 ∧ (byteAt body 1 = 0 → (byteAt body 2).toNat ≤ 5) ∧
    byteAt body 3 ≠ 0 ∧
    byteAt body 4 ≠ 0 ∧ (byteAt body 4).toNat < 32 ∧ (byteAt body 1 ≠ 0 → (byteAt body 4).toNat < 8) ∧
    byteAt body 5 ≠ 0 ∧ (byteAt body 5).toNat < 8 ∧ byteAt body 6 ≠ 0 ∧ (byteAt body 6).toNat < 16 ∧
    byteAt body 7 ≠ 0 ∧ (byteAt body 7).toNat < 8 ∧
    field body 8 2 ≤ field body 10 2 ∧ field body 10 2 ≤ 255 ∧
    field body 12 2 ≤ field body 14 2 ∧ field body 14 2 ≤ 4096 ∧ field body 16 2 ≤ field body 18 2 ∧
    (byteAt body 32 ≠ 0 → byteAt body 1 ≠ 0 ∧ (byteAt body 33).toNat ≤ 1 ∧ 1 ≤ field body 34 4 ∧
      field body 34 4 ≤ 2 ^ 24)) ∧
  ∀ (p : Port) (c : Command) (s : State), CommandPasses p 0x2A#8 c s →
    (15 < (byteAt c.body 0).toNat →
      exec (.defineProbe p) s = .next (answered p c .badArgument [byteAt c.body 0] s)) ∧
    ∀ i : ProbeNo, (byteAt c.body 0).toNat = i.val →
      ((s.probe i).owner ≠ some p →
        exec (.defineProbe p) s = .next (answered p c .notOwner [byte i] s)) ∧
      ((s.probe i).owner = some p → checkedDefinition c.body = none →
        exec (.defineProbe p) s = .next (answered p c .badArgument [byte i] s)) ∧
      ((s.probe i).owner = some p → (checkedDefinition c.body).isSome →
        ((s.probe i).state = .running →
          exec (.defineProbe p) s = .next (answered p c .badState [byte i] s)) ∧
        ((s.probe i).state = .draining ∨ (s.probe i).state = .purging →
          exec (.defineProbe p) s = .next (answered p c .inProgress [byte i] s))) ∧
      (∀ d h, (s.probe i).owner = some p → checkedDefinition c.body = some (d, some h) →
        ((s.probe i).state = .unbound ∨ (s.probe i).state = .armed ∨ (s.probe i).state = .held) →
        (s.probe i).unit = none → (∀ k : Fin 8, s.pool[k] ≠ none) →
        exec (.defineProbe p) s = .next (answered p c .noResource [byte i] s))

/-- An accepted DEFINE_PROBE: the probe's own unit returned, the lowest free unit attached with zeroed bins if one is
requested, the new definition with initial values, the flag set, the state ARMED (R85, R111, R112). The definition and
the histogram request are the fields of Table 10-6 (R84, R172). -/
def Obligations.DefineProbeResult : Prop :=
  (∀ (body : List Byte) (d : Definition) (request : Option (HistMode × BitVec 32)),
    checkedDefinition body = some (d, request) →
    (byteAt body 1 = 0 ∧ (∃ event, d.measure = .count event ∧
        [RecordKind.req, .cpl, .stall, .retry, .linkerr, .mark][(byteAt body 2).toNat]? = some event) ∨
      byteAt body 1 = 1 ∧ d.measure = .first ∨ byteAt body 1 = 2 ∧ d.measure = .full) ∧
    d.selector =
      { groupSet := byteAt body 3, kindSet := byteAt body 4, statusSet := byteAt body 5, creditSet := byteAt body 6
        errorSet := byteAt body 7
        tagLo := field body 8 2, tagHi := field body 10 2
        lengthLo := field body 12 2, lengthHi := field body 14 2
        labelLo := field body 16 2, labelHi := field body 18 2 } ∧
    d.threshold.toNat = field body 20 4 ∧ d.alertLimit.toNat = field body 24 4 ∧
    d.drainLimit.toNat = field body 28 4 ∧
    (byteAt body 32 = 0 → request = none) ∧
    (byteAt body 32 ≠ 0 → ∃ h, request = some h ∧ h.2.toNat = field body 34 4 ∧
      (byteAt body 33 = 0 ∧ h.1 = .log ∨ byteAt body 33 = 1 ∧ h.1 = .linear))) ∧
  ∀ (p : Port) (c : Command) (s : State) (i : ProbeNo) (d : Definition)
    (request : Option (HistMode × BitVec 32)),
    CommandPasses p 0x2A#8 c s → (byteAt c.body 0).toNat = i.val → (s.probe i).owner = some p →
    checkedDefinition c.body = some (d, request) →
    ((s.probe i).state = .unbound ∨ (s.probe i).state = .armed ∨ (s.probe i).state = .held) →
    (request = none → ∃ bank pool, exec (.defineProbe p) s =
        .next (answered p c .ok [byte i, 1, 0xFF#8] { s with bank := bank, pool := pool }) ∧
      bank.probe i = { s.probe i with
        definition := some d, unit := none, values := Values.initial, alertArmed := true, state := .armed } ∧
      (∀ j, j ≠ i → bank.probe j = s.probe j) ∧ bank.purge = s.bank.purge ∧
      ∀ k : Fin 8, pool[k] = if (s.probe i).unit = some k then none else s.pool[k]) ∧
    (∀ h k, request = some h → (s.pool[(k : Fin 8)] = none ∨ (s.probe i).unit = some k) →
      (∀ j : Fin 8, j < k → s.pool[j] ≠ none ∧ (s.probe i).unit ≠ some j) →
      ∃ bank pool, exec (.defineProbe p) s =
          .next (answered p c .ok [byte i, 1, byte k] { s with bank := bank, pool := pool }) ∧
        bank.probe i = { s.probe i with
          definition := some d, unit := some k, values := Values.initial, alertArmed := true, state := .armed } ∧
        (∀ j, j ≠ i → bank.probe j = s.probe j) ∧ bank.purge = s.bank.purge ∧
        pool[k] = some { probe := i, mode := h.1, parameter := h.2, bins := Vector.replicate 16 0 } ∧
        ∀ j : Fin 8, j ≠ k → pool[j] = if (s.probe i).unit = some j then none else s.pool[j])

/-- START_PROBES brings a set of ARMED and HELD probes to RUNNING at one instant; the lowest probe in another state is
named, IN_PROGRESS if it drains or purges, else BAD_STATE (R86). -/
def Obligations.StartProbesResult : Prop :=
  ∀ (p : Port) (c : Command) (s : State) (set : ProbeSet), set = probeSetAt c.body 0 →
    CommandPasses p 0x2B#8 c s → set ≠ 0 → NoneFails set (fun j => (s.probe j).owner ≠ some p) →
    (∀ i, LowestFailing set (fun j => (s.probe j).state ≠ .armed ∧ (s.probe j).state ≠ .held) i →
      exec (.startProbes p) s = .next (answered p c
        (if (s.probe i).state = .draining ∨ (s.probe i).state = .purging then .inProgress else .badState)
        [byte i] s)) ∧
    (NoneFails set (fun j => (s.probe j).state ≠ .armed ∧ (s.probe j).state ≠ .held) →
      ∃ bank, exec (.startProbes p) s = .next (answered p c .ok
          ((members set).flatMap (fun i : ProbeNo => [byte i, 2])) { s with bank := bank }) ∧
        (∀ i, bank.probe i = if set.has i then { s.probe i with state := .running } else s.probe i) ∧
        bank.purge = s.bank.purge)

/-- STOP_PROBES of RUNNING probes: with nothing in flight to HELD; else IMMEDIATE to PURGING, handed to the purge engine
as one addition, or DRAIN to DRAINING with the drain deadline a nonzero limit gives (R87, R88, R102; the mark of a new
sweep's first visit: log 6). -/
def Obligations.StopProbesResult : Prop :=
  ∀ (p : Port) (c : Command) (s : State) (set : ProbeSet), set = probeSetAt c.body 0 →
    CommandPasses p 0x2C#8 c s → set ≠ 0 → NoneFails set (fun j => (s.probe j).owner ≠ some p) →
    (1 < (byteAt c.body 2).toNat → exec (.stopProbes p) s = .next (answered p c .badArgument [] s)) ∧
    ((byteAt c.body 2).toNat ≤ 1 → ∀ i, LowestFailing set (fun j => (s.probe j).state ≠ .running) i →
      exec (.stopProbes p) s = .next (answered p c .badState [byte i] s)) ∧
    (NoneFails set (fun j => (s.probe j).state ≠ .running) →
      (byteAt c.body 2 = 0 → ∃ bank busy, exec (.stopProbes p) s = .next (answered p c .ok
          ((members set).flatMap (fun i : ProbeNo =>
            [byte i, if (s.probe i).inFlight = 0 then 5 else 4] ++ le 2 (s.probe i).inFlight ++
              optTime (s.probe i).drainDeadline))
          { s with bank := bank }) ∧
        (∀ i, (busy : ProbeSet).has i = true ↔ set.has i = true ∧ (s.probe i).inFlight ≠ 0) ∧
        (∀ i, bank.probe i =
          if set.has i then
            if (s.probe i).inFlight = 0 then { s.probe i with state := .held }
            else { s.probe i with state := .purging, cutCount := none }
          else s.probe i) ∧
        (busy = 0 → bank.purge = s.bank.purge) ∧
        (busy ≠ 0 → s.bank.purge.current = 0 → bank.purge.current = busy ∧
          bank.purge.waiting = s.bank.purge.waiting ∧ bank.purge.position = some 0 ∧
          bank.purge.visitAhead = s.obs.queue.length) ∧
        (busy ≠ 0 → s.bank.purge.current ≠ 0 →
          bank.purge = { s.bank.purge with waiting := s.bank.purge.waiting ||| busy })) ∧
      (byteAt c.body 2 = 1 → ∃ bank, exec (.stopProbes p) s = .next (answered p c .ok
          ((members set).flatMap (fun i : ProbeNo =>
            [byte i, if (s.probe i).inFlight = 0 then 5 else 3] ++ le 2 (s.probe i).inFlight ++
              optTime (bank.probe i).drainDeadline))
          { s with bank := bank }) ∧
        (∀ i, bank.probe i =
          if set.has i then
            if (s.probe i).inFlight = 0 then { s.probe i with state := .held }
            else { s.probe i with
              state := .draining
              drainDeadline :=
                if (s.probe i).drainLimit = 0 then none else some (s.timebase + (s.probe i).drainLimit.setWidth 48)
              cutAhead := none }
          else s.probe i) ∧
        bank.purge = s.bank.purge))

/-- CLEAR_PROBES returns a set of probes at rest to UNBOUND, unowned, undefined and with initial values, and their units
to the pool (R89, R112). -/
def Obligations.ClearProbesResult : Prop :=
  ∀ (p : Port) (c : Command) (s : State) (set : ProbeSet), set = probeSetAt c.body 0 →
    CommandPasses p 0x2D#8 c s → set ≠ 0 → NoneFails set (fun j => (s.probe j).owner ≠ some p) →
    (∀ i, LowestFailing set (fun j => (s.probe j).state = .running ∨ (s.probe j).state = .draining ∨
        (s.probe j).state = .purging) i →
      exec (.clearProbes p) s = .next (answered p c
        (if (s.probe i).state = .running then .badState else .inProgress) [byte i] s)) ∧
    (NoneFails set (fun j => (s.probe j).state = .running ∨ (s.probe j).state = .draining ∨
        (s.probe j).state = .purging) →
      ∃ bank pool, exec (.clearProbes p) s = .next (answered p c .ok
          ((members set).flatMap (fun i : ProbeNo => [byte i, 0]))
          { s with bank := bank, pool := pool }) ∧
        (∀ i, bank.probe i =
          if set.has i then { s.probe i with
            state := .unbound, owner := none, definition := none, unit := none, values := Values.initial,
            alertArmed := true }
          else s.probe i) ∧
        bank.purge = s.bank.purge ∧
        ∀ k : Fin 8, ((∃ i, set.has i = true ∧ (s.probe i).unit = some k) → pool[k] = none) ∧
          ((∀ i, set.has i = true → (s.probe i).unit ≠ some k) → pool[k] = s.pool[k]))

/-- PROBE_STATUS and POOL_STATUS report and change nothing but the replies (R90, R118). -/
def Obligations.ProbeReports : Prop :=
  ∀ (p : Port) (c : Command) (s : State),
    (CommandPasses p 0x2E#8 c s →
      (probeSetAt c.body 0 = 0 → exec (.probeStatus p) s = .next (answered p c .badArgument [] s)) ∧
      (probeSetAt c.body 0 ≠ 0 → exec (.probeStatus p) s = .next (answered p c .ok
        ((members (probeSetAt c.body 0)).flatMap (fun i : ProbeNo =>
          [byte i, byte (s.probe i).state.code, ownerByte (s.probe i).owner,
            measureByte ((s.probe i).definition.map (fun d => d.measure))] ++
          le 2 (s.probe i).inFlight ++ optTime (s.probe i).drainDeadline ++
          [optByte ((s.probe i).unit.map Fin.val)])) s))) ∧
    (CommandPasses p 0x30#8 c s → exec (.poolStatus p) s = .next (answered p c .ok
      (byte ((List.finRange 8).countP (fun k => s.pool[k].isNone)) :: (List.finRange 8).flatMap (fun k =>
        match s.pool[k] with
        | none => [0, 0, 0, 0, 0, 0, 0]
        | some u => [1, byte u.probe, byte u.mode.code] ++ le 4 u.parameter.toNat)) s))

/-! ### Harvest Unit (spec 07) -/

/-- HARVEST: its refusals in order, and the harvest into the lowest FREE slot: the next harvest number, header and pages
as the part stands, then, with the zero flag, the probes of the set zeroed (R122 to R125, R127, R128). -/
def Obligations.HarvestResult : Prop :=
  ∀ (p : Port) (c : Command) (s : State) (set : ProbeSet) (flag : Byte),
    set = probeSetAt c.body 0 → flag = byteAt c.body 2 → CommandPasses p 0x38#8 c s →
    (∀ i, flag = 1 → LowestFailing set (fun j => (s.probe j).owner ≠ some p) i →
      exec (.harvest p) s = .next (answered p c .notOwner [byte i] s)) ∧
    ((flag = 1 → NoneFails set (fun j => (s.probe j).owner ≠ some p)) → (set = 0 ∨ 1 < flag.toNat) →
      exec (.harvest p) s = .next (answered p c .badArgument [] s)) ∧
    ((flag = 1 → NoneFails set (fun j => (s.probe j).owner ≠ some p)) → set ≠ 0 → flag.toNat ≤ 1 →
      (∀ i, LowestFailing set (fun j => (s.probe j).state = .unbound) i →
        exec (.harvest p) s = .next (answered p c .badState [byte i] s)) ∧
      (NoneFails set (fun j => (s.probe j).state = .unbound) → (∀ k : Fin 4, s.harv.slots[k] ≠ none) →
        exec (.harvest p) s = .next (answered p c .noResource [] s)) ∧
      (NoneFails set (fun j => (s.probe j).state = .unbound) → ∀ k : Fin 4, s.harv.slots[k] = none →
        (∀ j : Fin 4, j < k → s.harv.slots[j] ≠ none) →
        ∃ u, exec (.harvest p) s = .next (answered p c .ok
            ([byte k] ++ le 2 (s.harv.number + 1).toNat ++ [byte (1 + (members set).length)]) u) ∧
          u.harv = { s.harv with
            number := s.harv.number + 1
            slots := s.harv.slots.set k (some
              { owner := p
                origin := .command
                number := s.harv.number + 1
                header :=
                  { captureTime := s.timebase, captured := set, zeroed := if flag = 1 then set else 0,
                    occupancy := s.trk.table.length, globals := s.trk.globals, lossCount := s.obs.lossCount,
                    rejectedCount := s.obs.rejectedCount }
                pages := (members set).map (fun i =>
                  { probe := i, state := (s.probe i).state, owner := (s.probe i).owner,
                    measure := (s.probe i).definition.map (fun d => d.measure), inFlight := (s.probe i).inFlight,
                    values := (s.probe i).values, hist := pageHist s.pool (s.probe i) }) }) } ∧
          (∀ i, u.probe i =
            if flag = 1 ∧ set.has i = true then { s.probe i with values := Values.initial, alertArmed := true }
            else s.probe i) ∧
          (∀ n : Fin 8, u.pool[n] =
            if flag = 1 ∧ ∃ i, set.has i = true ∧ (s.probe i).unit = some n then
              s.pool[n].map (fun x => { x with bins := Vector.replicate 16 0 })
            else s.pool[n]) ∧
          u.bank.purge = s.bank.purge ∧ u.trk = s.trk ∧ u.obs = s.obs ∧ u.timebase = s.timebase ∧
          u.mgmt = s.mgmt))

/-- READ_SNAPSHOT, its pages written out as Table 10-8 lays them out, FREE_SNAPSHOT and SNAPSHOT_STATUS (R129, R130, R131,
Table 10-2, Table 10-8). -/
def Obligations.SnapshotCommands : Prop :=
  ([ProbeState.unbound, .armed, .running, .draining, .purging, .held].map ProbeState.code = [0, 1, 2, 3, 4, 5] ∧
    [RecordKind.req, .cpl, .stall, .retry, .linkerr, .mark].map RecordKind.code = [0, 1, 2, 3, 4, 5] ∧
    [none, some Port.a, some Port.b].map ownerByte = [0, 1, 2]) ∧
  ∀ (p : Port) (c : Command) (s : State),
    (CommandPasses p 0x39#8 c s → ∀ a b : Byte, c.body = [a, b] →
      (3 < a.toNat → exec (.readSnapshot p) s = .next (answered p c .badArgument [] s)) ∧
      ∀ k : Fin 4, a.toNat = k.val →
        (s.harv.slots[k] = none →
          exec (.readSnapshot p) s =
            .next (answered p c (if 16 < b.toNat then .badArgument else .badState) [] s)) ∧
        (∀ x, s.harv.slots[k] = some x → x.owner ≠ p →
          exec (.readSnapshot p) s = .next (answered p c .notOwner [] s)) ∧
        (∀ x, s.harv.slots[k] = some x → x.owner = p → (16 < b.toNat ∨ 1 + x.pages.length ≤ b.toNat) →
          exec (.readSnapshot p) s = .next (answered p c .badArgument [] s)) ∧
        (∀ x, s.harv.slots[k] = some x → x.owner = p → b = 0 →
          exec (.readSnapshot p) s = .next (answered p c .ok
            ([a, 0, byte (1 + x.pages.length)] ++ le 2 x.number.toNat ++
              (le 2 x.number.toNat ++
                (match x.origin with
                  | .command => [0, 0xFF#8] ++ le 2 0 ++ le 6 0
                  | .trigger n label stamp => [1, byte n] ++ le 2 label.toNat ++ le 6 stamp.toNat) ++
                le 6 x.header.captureTime.toNat ++ le 2 x.header.captured.toNat ++ le 2 x.header.zeroed.toNat ++
                le 2 x.header.occupancy ++
                [x.header.globals.admitted, x.header.globals.untracked, x.header.globals.completed,
                  x.header.globals.failed, x.header.globals.malformed, x.header.globals.timedOut,
                  x.header.globals.superseded, x.header.globals.flushed, x.header.globals.late,
                  x.header.globals.orphan].flatMap (fun n => le 8 n.toNat) ++
                le 4 x.header.lossCount.toNat ++ le 4 x.header.rejectedCount.toNat)) s)) ∧
        (∀ x page, s.harv.slots[k] = some x → x.owner = p → 1 ≤ b.toNat → b.toNat ≤ 16 →
          x.pages[b.toNat - 1]? = some page →
          exec (.readSnapshot p) s = .next (answered p c .ok
            ([a, b, byte (1 + x.pages.length)] ++ le 2 x.number.toNat ++
              ([byte page.probe, byte page.state.code, ownerByte page.owner] ++
                (match page.measure with
                  | none => [0xFF#8, 0xFF#8]
                  | some (.count event) => [0, byte event.code]
                  | some .first => [1, 0xFF#8]
                  | some .full => [2, 0xFF#8]) ++
                le 2 page.inFlight ++ le 8 page.values.samples.toNat ++ le 8 page.values.sum.toNat ++
                le 6 page.values.min.toNat ++ le 6 page.values.max.toNat ++ le 4 page.values.overCount.toNat ++
                le 4 page.values.timeouts.toNat ++ le 4 page.values.faults.toNat ++
                (match page.hist with
                  | none => [0xFF#8]
                  | some h => [byte h.unit, if h.mode = .log then 0 else 1] ++ le 4 h.parameter.toNat ++
                    h.bins.toList.flatMap (fun n => le 4 n.toNat)))) s))) ∧
    (CommandPasses p 0x3A#8 c s → ∀ a : Byte, c.body = [a] →
      (3 < a.toNat → exec (.freeSnapshot p) s = .next (answered p c .badArgument [] s)) ∧
      ∀ k : Fin 4, a.toNat = k.val →
        (s.harv.slots[k] = none → exec (.freeSnapshot p) s = .next (answered p c .badState [] s)) ∧
        (∀ x, s.harv.slots[k] = some x → x.owner ≠ p →
          exec (.freeSnapshot p) s = .next (answered p c .notOwner [] s)) ∧
        (∀ x, s.harv.slots[k] = some x → x.owner = p →
          exec (.freeSnapshot p) s = .next (answered p c .ok
            [a, byte ((List.finRange 4).countP (fun j => (s.harv.slots.set k none)[j].isNone))]
            { s with harv := { s.harv with slots := s.harv.slots.set k none } }))) ∧
    (CommandPasses p 0x3B#8 c s → exec (.snapshotStatus p) s = .next (answered p c .ok
      (le 2 s.harv.number.toNat ++ (List.finRange 4).flatMap (fun k =>
        match s.harv.slots[k] with
        | none => [0, 0, 0, 0, 0, 0, 0]
        | some x =>
          [1, ownerByte (some x.owner)] ++
            (match x.origin with
              | .command => [0, 0xFF#8]
              | .trigger n _ _ => [1, byte n]) ++
            le 2 x.number.toNat ++ [byte (1 + x.pages.length)])) s))

/-- SET_TRIGGER, CLEAR_TRIGGER and TRIGGER_STATUS (R133, R134, R135); an OWNED_ELSEWHERE refusal has an empty body
(R175; log 19). -/
def Obligations.TriggerCommands : Prop :=
  ∀ (p : Port) (c : Command) (s : State),
    (CommandPasses p 0x3C#8 c s → ∀ (a l0 l1 p0 p1 z m : Byte) (set : ProbeSet),
      c.body = [a, l0, l1, p0, p1, z, m] → set = p1 ++ p0 →
      (∀ (n : Fin 4) x, a.toNat = n.val → s.harv.triggers[n] = some x → x.owner ≠ p →
        exec (.setTrigger p) s = .next (answered p c .ownedElsewhere [] s)) ∧
      ((∀ (n : Fin 4) x, a.toNat = n.val → s.harv.triggers[n] = some x → x.owner = p) →
        (∀ i, LowestFailing set (fun j => (s.probe j).owner ≠ some p) i →
          exec (.setTrigger p) s = .next (answered p c .notOwner [byte i] s)) ∧
        (NoneFails set (fun j => (s.probe j).owner ≠ some p) →
          ((3 < a.toNat ∨ set = 0 ∨ 1 < z.toNat ∨ 1 < m.toNat) →
            exec (.setTrigger p) s = .next (answered p c .badArgument [] s)) ∧
          (∀ n : Fin 4, a.toNat = n.val → set ≠ 0 → z.toNat ≤ 1 → m.toNat ≤ 1 →
            exec (.setTrigger p) s = .next (answered p c .ok ([a, l0, l1, p0, p1, z, m] ++ [0, 0, 0, 0])
              { s with harv := { s.harv with triggers := s.harv.triggers.set n (some
                { owner := p, label := l1 ++ l0, probes := set, zero := z == 1,
                  mode := if m = 1 then .repeating else .once, fired := 0 }) } }))))) ∧
    (CommandPasses p 0x3D#8 c s → ∀ a : Byte, c.body = [a] →
      (3 < a.toNat → exec (.clearTrigger p) s = .next (answered p c .badArgument [] s)) ∧
      ∀ n : Fin 4, a.toNat = n.val →
        (s.harv.triggers[n] = none → exec (.clearTrigger p) s = .next (answered p c .badState [] s)) ∧
        (∀ x, s.harv.triggers[n] = some x → x.owner ≠ p →
          exec (.clearTrigger p) s = .next (answered p c .notOwner [] s)) ∧
        (∀ x, s.harv.triggers[n] = some x → x.owner = p →
          exec (.clearTrigger p) s = .next (answered p c .ok (a :: le 4 x.fired.toNat)
            { s with harv := { s.harv with triggers := s.harv.triggers.set n none } }))) ∧
    (CommandPasses p 0x3E#8 c s → exec (.triggerStatus p) s = .next (answered p c .ok
      ((List.finRange 4).flatMap (fun n =>
        match s.harv.triggers[n] with
        | none => List.replicate 12 0
        | some x =>
          [1, ownerByte (some x.owner)] ++ le 2 x.label.toNat ++ le 2 x.probes.toNat ++
            [flagByte x.zero, if x.mode = .once then 0 else 1] ++ le 4 x.fired.toNat)) s))

/-- A MARK serves the SET triggers with its label in ascending number: each finds a FREE slot and harvests its probes that
are not UNBOUND, zeroing those its port owns, and raises HARVESTED, or finds none and raises TRIGGER_MISSED; a ONCE
trigger is then EMPTY (R136, R137). -/
def Obligations.TriggerService : Prop :=
  ∀ (label : BitVec 16) (stamp : Tick) (s : State),
    fireMark (.mark label) stamp s =
      serveTrigger label stamp (serveTrigger label stamp (serveTrigger label stamp (serveTrigger label stamp s 0) 1) 2) 3 ∧
    ∀ n : Fin 4,
      (s.harv.triggers[n] = none → serveTrigger label stamp s n = s) ∧
      ∀ x, s.harv.triggers[n] = some x →
        (x.label ≠ label → serveTrigger label stamp s n = s) ∧
        (x.label = label → (∀ k : Fin 4, s.harv.slots[k] ≠ none) →
          serveTrigger label stamp s n = { s with
            mgmt := s.mgmt.raiseToOwner (some x.owner) (.triggerMissed n label) stamp
            harv := { s.harv with
              triggers := s.harv.triggers.set n (if x.mode = .once then none else some x) } }) ∧
        (x.label = label → ∀ k : Fin 4, s.harv.slots[k] = none → (∀ j : Fin 4, j < k → s.harv.slots[j] ≠ none) →
          ∃ captured zeroed slot,
            (∀ i, (captured : ProbeSet).has i = true ↔ x.probes.has i = true ∧ (s.probe i).state ≠ .unbound) ∧
            (∀ i, (zeroed : ProbeSet).has i = true ↔
              x.zero = true ∧ captured.has i = true ∧ (s.probe i).owner = some x.owner) ∧
            (slot : Slot).owner = x.owner ∧ slot.origin = .trigger n label stamp ∧
            slot.number = s.harv.number + 1 ∧ slot.header.captureTime = s.timebase ∧
            slot.header.captured = captured ∧ slot.header.zeroed = zeroed ∧
            slot.header.occupancy = s.trk.table.length ∧ slot.header.globals = s.trk.globals ∧
            slot.header.lossCount = s.obs.lossCount ∧ slot.header.rejectedCount = s.obs.rejectedCount ∧
            slot.pages = (members captured).map (pageOf s) ∧
            (serveTrigger label stamp s n).harv =
              { slots := s.harv.slots.set k (some slot)
                triggers := s.harv.triggers.set n
                  (if x.mode = .once then none else some { x with fired := satInc x.fired })
                number := s.harv.number + 1 } ∧
            (serveTrigger label stamp s n).mgmt =
              s.mgmt.raiseToOwner (some x.owner) (.harvested k n (s.harv.number + 1)) stamp ∧
            (∀ i, (serveTrigger label stamp s n).probe i =
              if zeroed.has i then { s.probe i with values := Values.initial, alertArmed := true } else s.probe i) ∧
            (∀ k : Fin 8, (serveTrigger label stamp s n).pool[k] =
              if ∃ i, zeroed.has i = true ∧ (s.probe i).unit = some k then
                s.pool[k].map (fun u => { u with bins := Vector.replicate 16 0 })
              else s.pool[k]) ∧
            (serveTrigger label stamp s n).trk = s.trk ∧ (serveTrigger label stamp s n).obs = s.obs ∧
            (serveTrigger label stamp s n).bank.purge = s.bank.purge)

/-! ### Alerts (spec 08) -/

/-- An alert goes to the owner's queue or is counted undeliverable; a device-wide one goes to each open port whose mask
holds its kind (R142). It enters a queue of fewer than 16 with the next number and the lost count, or is lost
(R145, R146); the first in a queue is due at once (R148). -/
def Obligations.AlertDelivery : Prop :=
  ∀ (m : Management) (p : Port) (cond : Condition) (t : Tick),
    m.raiseToOwner none cond t = { m with undeliverable := satInc m.undeliverable } ∧
    (m.raiseToOwner (some p) cond t).port p.other = m.port p.other ∧
    (m.raiseToOwner (some p) cond t).undeliverable = m.undeliverable ∧
    ((m.port p).alerts.length < 16 →
      (m.raiseToOwner (some p) cond t).port p = { m.port p with
        alertNumber := (m.port p).alertNumber + 1
        alerts := (m.port p).alerts ++ [{ number := (m.port p).alertNumber + 1, time := t, condition := cond,
                                          lost := (m.port p).lostCount }]
        lostCount := 0
        head := if (m.port p).alerts = [] then { sent := false, due := true, timer := none } else (m.port p).head }) ∧
    (16 ≤ (m.port p).alerts.length →
      (m.raiseToOwner (some p) cond t).port p = { m.port p with lostCount := satInc (m.port p).lostCount }) ∧
    (∀ wantsA wantsB : Bool,
      wantsA = ((m.port .a).isOpen && (m.port .a).mask.holds cond) →
      wantsB = ((m.port .b).isOpen && (m.port .b).mask.holds cond) →
      m.raiseDeviceWide cond t =
        if wantsA = false ∧ wantsB = false then { m with undeliverable := satInc m.undeliverable }
        else
          let mA := if wantsA then m.raiseToOwner (some .a) cond t else m
          if wantsB then mA.raiseToOwner (some .b) cond t else mA)

/-- SET_ALERT_MASK (R144), ALERT_STATUS (R150), and ACK_ALERT, which removes the sent head alert with the given number,
the next alert becoming due at once, and arms the loss alert after an INTAKE_LOSS, the frame being sent completed
unmarked; anything else is refused (R9, R147, R148, R149). -/
def Obligations.AlertCommands : Prop :=
  ∀ (p : Port) (c : Command) (s : State),
    (CommandPasses p 0x40#8 c s → ∀ b : Byte, c.body = [b] →
      (b.toNat % 16 = 0 → b.toNat < 64 →
        exec (.setAlertMask p) s = .next (answered p c .ok [b]
          (s.setPort p { s.port p with
            mask := { tableFull := b.getLsbD 4, intakeLoss := b.getLsbD 5 } }))) ∧
      ((b.toNat % 16 ≠ 0 ∨ 64 ≤ b.toNat) →
        exec (.setAlertMask p) s = .next (answered p c .badArgument [] s))) ∧
    (CommandPasses p 0x42#8 c s → exec (.alertStatus p) s = .next (answered p c .ok
      ([byte ((if (s.port p).mask.tableFull then 16 else 0) + (if (s.port p).mask.intakeLoss then 32 else 0)),
        byte (s.port p).alerts.length] ++ le 2 (s.port p).lostCount.toNat ++ le 2 (s.port p).alertNumber.toNat ++
        (match (s.port p).alerts with
          | [] => [0, 0, 0xFF#8, 0]
          | al :: _ => le 2 al.number.toNat ++ [byte al.condition.kindCode, flagByte (s.port p).head.sent]) ++
        le 4 s.mgmt.undeliverable.toNat) s)) ∧
    (CommandPasses p 0x41#8 c s →
    ((s.port p).alerts = [] → exec (.ackAlert p) s = .next (answered p c .badArgument [] s)) ∧
    ∀ al others, (s.port p).alerts = al :: others →
      ((al.number.toNat ≠ field c.body 0 2 ∨ (s.port p).head.sent = false) →
        exec (.ackAlert p) s = .next (answered p c .badArgument [] s)) ∧
      (al.number.toNat = field c.body 0 2 → (s.port p).head.sent = true →
        ∃ armed, exec (.ackAlert p) s = .next (answered p c .ok
            (le 2 al.number.toNat ++ [byte others.length])
            { s.setPort p { s.port p with
                alerts := others
                head := if others = [] then { sent := false, due := false, timer := none }
                  else { sent := false, due := true, timer := none }
                sending := (s.port p).sending.map completing } with
              obs := { s.obs with lossArmed := armed } }) ∧
          (armed = true ↔ s.obs.lossArmed = true ∨ ∃ n, al.condition = .intakeLoss n)))

/-- An idle transmitter begins a waiting notice, else the buffered reply, else the due head alert, each as its frame, the alert's as Tables
10-9 and 10-10 lay it out; at the end of a frame the notice is gone, the reply buffer empty, or the alert marked sent with its resend timer started
if it is still the head (R147, R161); the end of a reply lets an idle dispatcher take the head of its queue (R160; at once:
log 7); the timer makes the head due again 31,250,000 ticks later (R148). A start while a frame is sent, an end while
none is, and a timer that has not run out leave the state as it is, the model's choice (log 4). -/
def Obligations.TransmitterSteps : Prop :=
  ∀ (p : Port) (s : State), s.resetN = true →
    (∀ r, (s.port p).sending = none → (s.port p).notice = some r →
      exec (.transmitStart p) s = .next (s.setPort p { s.port p with
        notice := none
        sending := some { what := .notice, bytes := frameOf ([r.type, r.seq, r.code.byte] ++ r.body) } })) ∧
    (∀ r, (s.port p).sending = none → (s.port p).notice = none → (s.port p).reply = some r →
      exec (.transmitStart p) s = .next (s.setPort p { s.port p with
        sending := some { what := .reply, bytes := frameOf ([r.type, r.seq, r.code.byte] ++ r.body) } })) ∧
    (∀ al others, (s.port p).sending = none → (s.port p).notice = none → (s.port p).reply = none →
      (s.port p).alerts = al :: others → (s.port p).head.due = true →
      exec (.transmitStart p) s = .next (s.setPort p { s.port p with
        head := { (s.port p).head with due := false }
        sending := some { what := .alert true, bytes := frameOf ([0x80#8, 0] ++
          (let record := fun (kind subject : Byte) (detail : List Byte) =>
            le 2 al.number.toNat ++ [kind] ++ le 6 al.time.toNat ++ [subject] ++ le 2 al.lost.toNat ++ detail
          match al.condition with
          | .probeLimit i n => record 0 (byte i) (le 4 n.toNat ++ [0, 0, 0, 0])
          | .drained i .emptied n => record 1 (byte i) ([0] ++ le 2 n ++ [0, 0, 0, 0, 0])
          | .drained i .cut n => record 1 (byte i) ([1] ++ le 2 n ++ [0, 0, 0, 0, 0])
          | .drained i .flushed n => record 1 (byte i) ([2] ++ le 2 n ++ [0, 0, 0, 0, 0])
          | .harvested k n number => record 2 (byte k) ([byte n] ++ le 2 number.toNat ++ [0, 0, 0, 0, 0])
          | .triggerMissed n label => record 3 (byte n) (le 2 label.toNat ++ [0, 0, 0, 0, 0, 0])
          | .tableFull n => record 4 0xFF#8 (le 8 n.toNat)
          | .intakeLoss n => record 5 0xFF#8 (le 4 n.toNat ++ [0, 0, 0, 0]))) } })) ∧
    ((s.port p).sending.isSome → exec (.transmitStart p) s = .next s) ∧
    ((s.port p).sending = none → exec (.transmitEnd p) s = .next s) ∧
    (∀ f, (s.port p).sending = some f →
      (f.what = .notice ∨ f.what = .alert false →
        exec (.transmitEnd p) s = .next (s.setPort p { s.port p with sending := none })) ∧
      (f.what = .reply →
        (∀ c rest, (s.port p).executing = none → (s.port p).commands = c :: rest →
          exec (.transmitEnd p) s = .next (s.setPort p { s.port p with
            sending := none, reply := none, executing := some c, commands := rest })) ∧
        (((s.port p).executing ≠ none ∨ (s.port p).commands = []) →
          exec (.transmitEnd p) s = .next (s.setPort p { s.port p with sending := none, reply := none }))) ∧
      (f.what = .alert true →
        exec (.transmitEnd p) s = .next (s.setPort p { s.port p with
          sending := none
          head := { (s.port p).head with sent := true, timer := some s.timebase } }))) ∧
    (∀ from_, (s.port p).head.timer = some from_ →
      (reached s.timebase (from_ + 31250000#48) = true →
        exec (.alertResendTimeout p) s = .next (s.setPort p { s.port p with
          head := { (s.port p).head with due := true, timer := none } })) ∧
      (reached s.timebase (from_ + 31250000#48) = false → exec (.alertResendTimeout p) s = .next s))

/-! ### Receive lines (spec 09) -/

/-- A good character while the receiver listens, by the framer's state (R155, R156, R157): HUNT skips all but the start
byte; LENGTH, CONTENT and CHECK take the bytes of the frame; a length out of range and a CRC that does not match discard
the frame and count a reject; one that comes more than 625,000 ticks after the last finds the partial frame discarded
and is examined in HUNT (logs 10 and 11). The second CRC byte that matches is that of FRAME_RECEIVED. -/
def Obligations.CharacterResult : Prop :=
  ∀ (p : Port) (b : Byte) (s : State), s.resetN = true → (s.port p).low = none →
    ((s.port p).framer = .hunt →
      exec (.characterReceived p b) s = .next
        (if b = 0xC3#8 then s.setPort p { s.port p with framer := .length none s.timebase } else s)) ∧
    (∀ last, (s.port p).framer.last = some last → 625000 < elapsed last s.timebase →
      exec (.characterReceived p b) s = .next (s.setPort p { s.port p with
        framer := if b = 0xC3#8 then .length none s.timebase else .hunt
        rejectCount := satInc (s.port p).rejectCount })) ∧
    (∀ last, elapsed last s.timebase ≤ 625000 →
      ((s.port p).framer = .length none last →
        exec (.characterReceived p b) s =
          .next (s.setPort p { s.port p with framer := .length (some b) s.timebase })) ∧
      (∀ low, (s.port p).framer = .length (some low) last →
        exec (.characterReceived p b) s = .next (s.setPort p
          (if low.toNat + 256 * b.toNat < 2 ∨ 1026 < low.toNat + 256 * b.toNat then
            { s.port p with framer := .hunt, rejectCount := satInc (s.port p).rejectCount }
          else { s.port p with framer := .content (low.toNat + 256 * b.toNat) [] s.timebase }))) ∧
      (∀ length got, (s.port p).framer = .content length got last →
        exec (.characterReceived p b) s = .next (s.setPort p { s.port p with
          framer := if got.length + 1 = length then .check (got ++ [b]) none s.timebase
            else .content length (got ++ [b]) s.timebase })) ∧
      (∀ content, (s.port p).framer = .check content none last →
        exec (.characterReceived p b) s =
          .next (s.setPort p { s.port p with framer := .check content (some b) s.timebase })) ∧
      (∀ content low, (s.port p).framer = .check content (some low) last →
        low.toNat + 256 * b.toNat ≠ (crc16 (le 2 content.length ++ content)).toNat →
        exec (.characterReceived p b) s =
          .next (s.setPort p { s.port p with framer := .hunt, rejectCount := satInc (s.port p).rejectCount })))

/-- FRAME_RECEIVED: the second CRC byte of a frame that matches hands the command to the queue, whose head an idle
dispatcher takes (R160; at once: log 7), or at a full queue forms the QUEUE_FULL notice, which takes the place of one
waiting; either way the framer hunts (R157, R159). That it is the same as CHARACTER_RECEIVED of that byte is the model's
choice (log 13), and that a gap of 625,000 ticks is not too long is DEDUCED (log 10). -/
def Obligations.FrameReceivedResult : Prop :=
  ∀ (p : Port) (high low type seq : Byte) (body : List Byte) (last : Tick) (s : State),
    s.resetN = true → (s.port p).low = none →
    (s.port p).framer = .check (type :: seq :: body) (some low) last → elapsed last s.timebase ≤ 625000 →
    low.toNat + 256 * high.toNat = (crc16 (le 2 (body.length + 2) ++ [type, seq] ++ body)).toNat →
    exec (.frameReceived p high) s = exec (.characterReceived p high) s ∧
    ((s.port p).commands.length < 4 → ((s.port p).executing ≠ none ∨ (s.port p).reply ≠ none) →
      exec (.frameReceived p high) s = .next (s.setPort p { s.port p with
        framer := .hunt
        commands := (s.port p).commands ++ [{ type := type, seq := seq, body := body }] })) ∧
    (∀ head rest, (s.port p).commands.length < 4 → (s.port p).executing = none → (s.port p).reply = none →
      (s.port p).commands ++ [{ type := type, seq := seq, body := body }] = head :: rest →
      exec (.frameReceived p high) s = .next (s.setPort p { s.port p with
        framer := .hunt, executing := some head, commands := rest })) ∧
    (4 ≤ (s.port p).commands.length →
      exec (.frameReceived p high) s = .next (s.setPort p { s.port p with
        framer := .hunt
        notice := some { type := type, seq := seq, code := .queueFull, body := [] } }))

/-- FRAME_DISCARD and FRAME_GAP_TIMEOUT: each event discards the partial frame, counts one reject and leaves the framer
hunting; a framing error in HUNT is not counted, and after either the receiver waits for the line to return high
(R154, R156, R158). Exactly 625,000 ticks are a gap that has run out and no late character (log 10); the low period
starts at the command's operand (log 12); a FRAME_GAP_TIMEOUT before then or in HUNT leaves the state as it is (log 4):
the model's. -/
def Obligations.FrameDiscards : Prop :=
  ∀ (p : Port) (high low : Byte) (since last : Tick) (s : State), s.resetN = true →
    ((s.port p).low = none → (s.port p).framer ≠ .hunt →
      exec (.frameDiscard p (.framingError since)) s = .next (s.setPort p { s.port p with
        framer := .hunt
        rejectCount := satInc (s.port p).rejectCount
        low := some { since := since, resetTaken := false } })) ∧
    ((s.port p).low = none → (s.port p).framer = .hunt →
      exec (.frameDiscard p (.framingError since)) s =
        .next (s.setPort p { s.port p with low := some { since := since, resetTaken := false } })) ∧
    ((s.port p).low = none → elapsed last s.timebase ≤ 625000 → (s.port p).framer = .length (some low) last →
      (low.toNat + 256 * high.toNat < 2 ∨ 1026 < low.toNat + 256 * high.toNat) →
      exec (.frameDiscard p (.lengthOutOfRange high)) s =
        .next (s.setPort p { s.port p with framer := .hunt, rejectCount := satInc (s.port p).rejectCount })) ∧
    (∀ content, (s.port p).low = none → elapsed last s.timebase ≤ 625000 →
      (s.port p).framer = .check content (some low) last →
      low.toNat + 256 * high.toNat ≠ (crc16 (le 2 content.length ++ content)).toNat →
      exec (.frameDiscard p (.badCrc high)) s =
        .next (s.setPort p { s.port p with framer := .hunt, rejectCount := satInc (s.port p).rejectCount })) ∧
    ((s.port p).framer.last = some last → 625000 ≤ elapsed last s.timebase →
      exec (.frameGapTimeout p) s =
        .next (s.setPort p { s.port p with framer := .hunt, rejectCount := satInc (s.port p).rejectCount })) ∧
    ((s.port p).framer.last = some last → elapsed last s.timebase < 625000 → exec (.frameGapTimeout p) s = .next s) ∧
    ((s.port p).framer = .hunt → exec (.frameGapTimeout p) s = .next s)

/-- Every frame the format allows survives its transmission: its characters, taken one by one by a hunting framer with
no more than 625,000 ticks between two of them, leave the framer hunting and its command at the tail of the queue, whose
head an idle dispatcher takes (R155, R156, R157, R160, Table 10-3; logs 7 and 10); CHARACTER_RECEIVED takes one character
so. The CRC of the nine characters "123456789" is 29B1 (R157). -/
def Obligations.FrameRoundTrip : Prop :=
  crc16 [0x31#8, 0x32#8, 0x33#8, 0x34#8, 0x35#8, 0x36#8, 0x37#8, 0x38#8, 0x39#8] = 0x29B1#16 ∧
  (∀ (p : Port) (b : Byte) (s : State), s.resetN = true → (s.port p).low = none →
    exec (.characterReceived p b) s =
      .next (s.setPort p (((s.port p).expireGap s.timebase).takeChar s.timebase b))) ∧
  ∀ (x : PortState) (arrivals : List (Byte × Tick)) (c : Command),
    x.framer = .hunt → x.commands.length < 4 → c.body.length ≤ 1024 →
    arrivals.map Prod.fst = frameOf (c.type :: c.seq :: c.body) →
    arrivals.IsChain (fun a b => elapsed a.2 b.2 ≤ 625000) →
    ((x.executing ≠ none ∨ x.reply ≠ none) →
      arrivals.foldl (fun y a => (y.expireGap a.2).takeChar a.2 a.1) x = { x with commands := x.commands ++ [c] }) ∧
    ∀ head rest, x.executing = none → x.reply = none → x.commands ++ [c] = head :: rest →
      arrivals.foldl (fun y a => (y.expireGap a.2).takeChar a.2 a.1) x =
        { x with executing := some head, commands := rest }

/-- A port reset is taken when the low period has lasted 125,000 ticks and has given none: queue, executing command,
notice, stored reply and partial frame discarded, session closed, session number, reject count and alert number 0; a
frame being sent is completed; the other port and what it holds are untouched (R82, R139, R154, R163). BREAK_END lets
the receiver look again, the framer hunting (R154); it takes a port reset that is due and not yet taken first (DEDUCED:
log 25). Until then no character is taken (log 21). The low period runs from the operand of the framing error (log 12),
and a PORT_RESET that is not due, or either row with no low period, leaves the state as it is (log 4): the model's
choices. -/
def Obligations.PortResetAndBreakEnd : Prop :=
  (∀ (p : Port) (s : State), (s.port p).low = none →
    exec (.portReset p) s = .next s ∧ exec (.breakEnd p) s = .next s) ∧
  ∀ (p : Port) (l : LowPeriod) (s : State), s.resetN = true → (s.port p).low = some l →
    (∀ b, exec (.characterReceived p b) s = .next s) ∧
    ((l.resetTaken = true ∨ elapsed l.since s.timebase < 125000) →
      exec (.portReset p) s = .next s ∧
      exec (.breakEnd p) s = .next (s.setPort p { s.port p with low := none, framer := .hunt })) ∧
    (SessionLaw s → l.resetTaken = false → 125000 ≤ elapsed l.since s.timebase → ∃ t, exec (.portReset p) s = .next t ∧
      exec (.breakEnd p) s = .next (t.setPort p { t.port p with low := none, framer := .hunt }) ∧
      HoldsNothing p t ∧ t.port p.other = s.port p.other ∧
      t.port p =
        { PortState.reset with
          low := some { l with resetTaken := true }
          sending := (s.port p).sending.map completing
          reply := if (∃ f, (s.port p).sending = some f ∧ f.what = .reply) then (s.port p).reply else none } ∧
      (∀ i, t.probe i =
        { s.probe i with owner := if (s.probe i).owner = some p then none else (s.probe i).owner }) ∧
      (∀ k : Fin 4, t.harv.slots[k] = s.harv.slots[k].filter (fun x => x.owner != p) ∧
        t.harv.triggers[k] = s.harv.triggers[k].filter (fun x => x.owner != p)) ∧
      t.mgmt.holder = (if s.mgmt.holder = some p then none else s.mgmt.holder) ∧
      t.harv.number = s.harv.number ∧ t.mgmt.sessionCount = s.mgmt.sessionCount ∧
      t.mgmt.undeliverable = s.mgmt.undeliverable ∧ t.bank.purge = s.bank.purge ∧ t.trk = s.trk ∧ t.obs = s.obs ∧
      t.pool = s.pool ∧ t.timebase = s.timebase ∧ t.baud = s.baud)

/-! ### The laws that every step keeps -/

/-- Every step keeps the queues within their capacities (R10, R18, R55, R145, R160). -/
def Obligations.CapacitiesKept : Prop :=
  ∀ s t : State, WithinCapacities s → step s = .next t → WithinCapacities t

/-- Every step keeps the laws of the Pending Table, the in-flight counts and the purge engine
(R18, R19, R55, R78, R101, R104). -/
def Obligations.EngineLawKept : Prop :=
  ∀ s t : State, EngineLaw s → step s = .next t → EngineLaw t

/-- Every step keeps the balance of the global counters (R38). -/
def Obligations.BalanceKept : Prop :=
  ∀ s t : State, Balanced s → step s = .next t → Balanced t

/-- Every step keeps a CLOSED port without possessions (R164), the numbering of each alert queue (R145), and the law of
each dispatcher: nothing in the reply buffer while a command executes, and no command left waiting while neither a
command executes nor the buffer holds a reply (R160; that it takes a command at once: log 7). -/
def Obligations.SessionLawKept : Prop :=
  ∀ s t : State, SessionLaw s → step s = .next t → SessionLaw t

/-- Every step keeps the agreement of units and probes (R109). -/
def Obligations.PoolLawKept : Prop :=
  ∀ s t : State, PoolLaw s → step s = .next t → PoolLaw t

/-- The laws hold at reset. -/
def Obligations.LawsHoldAtReset : Prop :=
  WithinCapacities State.reset ∧ EngineLaw State.reset ∧ Balanced State.reset ∧ SessionLaw State.reset ∧
    PoolLaw State.reset
end

