-- ==== Sys2Proof/Laws/State.lean ====
section
/-! SUPPORT. One lemma per field per named update of the state: what each writes, and what it leaves. -/

namespace Sys2Proof.Machine

/-! ### Ports -/

@[simp] theorem Port.other_ne (p : Port) : p.other ≠ p := by cases p <;> decide
@[simp] theorem Port.ne_other (p : Port) : p ≠ p.other := by cases p <;> decide
@[simp] theorem Port.other_other (p : Port) : p.other.other = p := by cases p <;> rfl

theorem Port.eq_or_other (p q : Port) : q = p ∨ q = p.other := by cases p <;> cases q <;> decide

@[simp] theorem port_a (m : Management) : m.port .a = m.portA := rfl
@[simp] theorem port_b (m : Management) : m.port .b = m.portB := rfl

@[simp] theorem port_setPort_same (m : Management) (p : Port) (x : PortState) : (m.setPort p x).port p = x := by
  cases p <;> rfl

@[simp] theorem port_setPort_other (m : Management) (p : Port) (x : PortState) :
    (m.setPort p x).port p.other = m.port p.other := by
  cases p <;> rfl

theorem port_setPort_ne (m : Management) {p q : Port} (x : PortState) (h : q ≠ p) :
    (m.setPort p x).port q = m.port q := by
  cases p <;> cases q <;> first | rfl | exact absurd rfl h

@[simp] theorem setPort_port (m : Management) (p : Port) : m.setPort p (m.port p) = m := by cases p <;> rfl
@[simp] theorem setPort_setPort (m : Management) (p : Port) (x y : PortState) :
    (m.setPort p x).setPort p y = m.setPort p y := by
  cases p <;> rfl
@[simp] theorem setPort_sessionCount (m : Management) (p : Port) (x : PortState) :
    (m.setPort p x).sessionCount = m.sessionCount := by cases p <;> rfl
@[simp] theorem setPort_holder (m : Management) (p : Port) (x : PortState) : (m.setPort p x).holder = m.holder := by
  cases p <;> rfl
@[simp] theorem setPort_undeliverable (m : Management) (p : Port) (x : PortState) :
    (m.setPort p x).undeliverable = m.undeliverable := by cases p <;> rfl

@[simp] theorem State.setPort_pending (s : State) (p : Port) (x : PortState) : (s.setPort p x).pending = s.pending := rfl
@[simp] theorem State.setPort_resetN (s : State) (p : Port) (x : PortState) : (s.setPort p x).resetN = s.resetN := rfl
@[simp] theorem State.setPort_baud (s : State) (p : Port) (x : PortState) : (s.setPort p x).baud = s.baud := rfl
@[simp] theorem State.setPort_timebase (s : State) (p : Port) (x : PortState) :
    (s.setPort p x).timebase = s.timebase := rfl
@[simp] theorem State.setPort_obs (s : State) (p : Port) (x : PortState) : (s.setPort p x).obs = s.obs := rfl
@[simp] theorem State.setPort_trk (s : State) (p : Port) (x : PortState) : (s.setPort p x).trk = s.trk := rfl
@[simp] theorem State.setPort_bank (s : State) (p : Port) (x : PortState) : (s.setPort p x).bank = s.bank := rfl
@[simp] theorem State.setPort_pool (s : State) (p : Port) (x : PortState) : (s.setPort p x).pool = s.pool := rfl
@[simp] theorem State.setPort_harv (s : State) (p : Port) (x : PortState) : (s.setPort p x).harv = s.harv := rfl
@[simp] theorem State.setPort_mgmt (s : State) (p : Port) (x : PortState) :
    (s.setPort p x).mgmt = s.mgmt.setPort p x := rfl
@[simp] theorem State.setPort_probe (s : State) (p : Port) (x : PortState) (i : ProbeNo) :
    (s.setPort p x).probe i = s.probe i := rfl

@[simp] theorem State.port_setPort (s : State) (p : Port) (x : PortState) : (s.setPort p x).port p = x :=
  port_setPort_same s.mgmt p x
@[simp] theorem State.port_setPort_other (s : State) (p : Port) (x : PortState) :
    (s.setPort p x).port p.other = s.port p.other := Machine.port_setPort_other s.mgmt p x
@[simp] theorem State.setPort_port (s : State) (p : Port) : s.setPort p (s.port p) = s := by
  cases s; simp [State.setPort, State.port]
@[simp] theorem State.setPort_setPort (s : State) (p : Port) (x y : PortState) :
    (s.setPort p x).setPort p y = s.setPort p y := by
  simp [State.setPort]
theorem State.port_eq_mgmt (s : State) (p : Port) : s.port p = s.mgmt.port p := rfl

/-! ### Vectors and probes -/

@[simp] theorem mapFin_get {α β : Type} {n : Nat} (v : Vector α n) (f : Fin n → α → β) (i : Fin n) :
    (mapFin v f)[i] = f i v[i] := by
  simp [mapFin, Fin.getElem_fin]

@[simp] theorem mapFin_getElem {α β : Type} {n : Nat} (v : Vector α n) (f : Fin n → α → β) (k : Nat) (h : k < n) :
    (mapFin v f)[k] = f ⟨k, h⟩ v[k] := by
  simp [mapFin, Fin.getElem_fin]

theorem vector_set_get {α : Type} {n : Nat} (v : Vector α n) (i j : Fin n) (x : α) :
    (v.set i x)[j] = if i = j then x else v[j] := by
  simp [Fin.getElem_fin, Vector.getElem_set, Fin.ext_iff]

theorem vector_ext {α : Type} {n : Nat} {v w : Vector α n} (h : ∀ i : Fin n, v[i] = w[i]) : v = w :=
  Vector.ext fun i hi => h ⟨i, hi⟩

@[simp] theorem Bank.probe_setProbe_same (b : Bank) (i : ProbeNo) (x : Probe) : (b.setProbe i x).probe i = x := by
  simp [Bank.setProbe, Bank.probe]

theorem Bank.probe_setProbe (b : Bank) (i j : ProbeNo) (x : Probe) :
    (b.setProbe i x).probe j = if i = j then x else b.probe j := vector_set_get b.probes i j x

theorem Bank.probe_setProbe_ne (b : Bank) {i j : ProbeNo} (x : Probe) (h : j ≠ i) :
    (b.setProbe i x).probe j = b.probe j := by
  rw [Bank.probe_setProbe, if_neg (fun e => h e.symm)]

@[simp] theorem Bank.setProbe_purge (b : Bank) (i : ProbeNo) (x : Probe) : (b.setProbe i x).purge = b.purge := rfl

@[simp] theorem Bank.probe_mapProbes (b : Bank) (f : ProbeNo → Probe → Probe) (i : ProbeNo) :
    (b.mapProbes f).probe i = f i (b.probe i) := mapFin_get b.probes f i

@[simp] theorem Bank.mapProbes_purge (b : Bank) (f : ProbeNo → Probe → Probe) : (b.mapProbes f).purge = b.purge := rfl

theorem Bank.ext_probe {b c : Bank} (h : ∀ i, b.probe i = c.probe i) (hp : b.purge = c.purge) : b = c := by
  cases b; cases c
  simp only [Bank.mk.injEq]
  exact ⟨vector_ext h, hp⟩

theorem State.probe_eq_bank (s : State) (i : ProbeNo) : s.probe i = s.bank.probe i := rfl

/-! ### Triggers and the configuration claim -/

@[simp] theorem State.setTrigger_trk (s : State) (n : Fin 4) (x : Option Trigger) : (s.setTrigger n x).trk = s.trk := rfl
@[simp] theorem State.setTrigger_obs (s : State) (n : Fin 4) (x : Option Trigger) : (s.setTrigger n x).obs = s.obs := rfl
@[simp] theorem State.setTrigger_bank (s : State) (n : Fin 4) (x : Option Trigger) :
    (s.setTrigger n x).bank = s.bank := rfl
@[simp] theorem State.setTrigger_pool (s : State) (n : Fin 4) (x : Option Trigger) :
    (s.setTrigger n x).pool = s.pool := rfl
@[simp] theorem State.setTrigger_mgmt (s : State) (n : Fin 4) (x : Option Trigger) :
    (s.setTrigger n x).mgmt = s.mgmt := rfl
@[simp] theorem State.setTrigger_timebase (s : State) (n : Fin 4) (x : Option Trigger) :
    (s.setTrigger n x).timebase = s.timebase := rfl
@[simp] theorem State.setTrigger_slots (s : State) (n : Fin 4) (x : Option Trigger) :
    (s.setTrigger n x).harv.slots = s.harv.slots := rfl
@[simp] theorem State.setTrigger_number (s : State) (n : Fin 4) (x : Option Trigger) :
    (s.setTrigger n x).harv.number = s.harv.number := rfl
@[simp] theorem State.setTrigger_triggers (s : State) (n : Fin 4) (x : Option Trigger) :
    (s.setTrigger n x).harv.triggers = s.harv.triggers.set n x := rfl

@[simp] theorem State.setHolder_mgmt (s : State) (h : Option Port) :
    (s.setHolder h).mgmt = { s.mgmt with holder := h } := rfl
@[simp] theorem State.setHolder_bank (s : State) (h : Option Port) : (s.setHolder h).bank = s.bank := rfl
@[simp] theorem State.setHolder_trk (s : State) (h : Option Port) : (s.setHolder h).trk = s.trk := rfl
@[simp] theorem State.setHolder_harv (s : State) (h : Option Port) : (s.setHolder h).harv = s.harv := rfl

end Sys2Proof.Machine
end

