-- ==== Sys2Proof/Laws/Sets.lean ====
section
/-! SUPPORT. Sets of probes: membership in the sets the model builds, the list of a set's members, and the searches for
the lowest number that passes a test. -/

namespace Sys2Proof

@[simp] theorem ProbeSet.has_and (a b : ProbeSet) (i : ProbeNo) : ProbeSet.has (a &&& b) i = (a.has i && b.has i) := by
  simp [ProbeSet.has]

@[simp] theorem ProbeSet.has_or (a b : ProbeSet) (i : ProbeNo) : ProbeSet.has (a ||| b) i = (a.has i || b.has i) := by
  simp [ProbeSet.has]

@[simp] theorem ProbeSet.has_not (a : ProbeSet) (i : ProbeNo) : ProbeSet.has (~~~a) i = !a.has i := by
  simp [ProbeSet.has]

@[simp] theorem ProbeSet.has_zero (i : ProbeNo) : ProbeSet.has 0#16 i = false := by simp [ProbeSet.has]

theorem ProbeSet.has_allOnes (i : ProbeNo) : ProbeSet.has (BitVec.allOnes 16) i = true := by
  revert i; decide

theorem ProbeSet.has_single (i j : ProbeNo) : ProbeSet.has (1#16 <<< i.val) j = decide (j = i) := by
  revert i j; decide

theorem ProbeSet.ext {a b : ProbeSet} (h : ∀ i, a.has i = b.has i) : a = b := by
  apply BitVec.eq_of_getLsbD_eq
  intro i hi
  exact h ⟨i, hi⟩

theorem ProbeSet.eq_zero_iff (a : ProbeSet) : a = 0#16 ↔ ∀ i, a.has i = false := by
  constructor
  · rintro rfl i; simp
  · intro h; exact ProbeSet.ext (fun i => by simp [h i])

theorem ProbeSet.ne_zero_iff (a : ProbeSet) : a ≠ 0#16 ↔ ∃ i, a.has i = true := by
  rw [Ne, ProbeSet.eq_zero_iff]; simp

theorem ProbeSet.has_eq_false_of_and_eq_zero {a b : ProbeSet} (h : a &&& b = 0#16) {i : ProbeNo} (hi : a.has i = true) :
    b.has i = false := by
  have := (ProbeSet.eq_zero_iff _).mp h i
  simpa [hi] using this

namespace Machine

@[simp] theorem probesWhere_has (f : ProbeNo → Bool) (i : ProbeNo) : (probesWhere f).has i = f i := by
  simp [probesWhere, ProbeSet.has]

theorem mem_members {set : ProbeSet} {i : ProbeNo} : i ∈ members set ↔ set.has i = true := by
  simp [members, List.mem_finRange]

theorem members_ascending (set : ProbeSet) : (members set).Pairwise (fun i j => i < j) :=
  (List.pairwise_lt_finRange 16).filter _

theorem members_nodup (set : ProbeSet) : (members set).Nodup := (List.nodup_finRange 16).filter _

theorem members_sorted (set : ProbeSet) : (members set).Pairwise (· < ·) :=
  (List.pairwise_lt_finRange 16).filter _

theorem members_zero : members 0#16 = [] := by
  apply List.eq_nil_iff_forall_not_mem.mpr
  intro i hi; simp [mem_members] at hi

theorem members_allOnes : members (BitVec.allOnes 16) = List.finRange 16 := by
  apply List.filter_eq_self.mpr
  intro i _; exact ProbeSet.has_allOnes i

/-- A search through all the numbers in ascending order finds the lowest that passes. -/
theorem find_finRange_eq_some {n : Nat} {f : Fin n → Bool} {i : Fin n} :
    (List.finRange n).find? f = some i ↔ f i = true ∧ ∀ j, j < i → f j = false := by
  constructor
  · intro h
    refine ⟨List.find?_some h, ?_⟩
    intro j hj
    obtain ⟨_, as, bs, hab, hall⟩ := List.find?_eq_some_iff_append.mp h
    have hs : (as ++ i :: bs).Pairwise (· < ·) := hab ▸ List.pairwise_lt_finRange n
    have hm : j ∈ as ++ i :: bs := hab ▸ List.mem_finRange j
    rcases List.mem_append.mp hm with hj' | hj'
    · simpa using hall j hj'
    · rcases List.mem_cons.mp hj' with rfl | hj''
      · exact absurd hj (lt_irrefl _)
      · have := (List.pairwise_cons.mp (List.pairwise_append.mp hs).2.1).1 j hj''
        exact absurd hj (not_lt.mpr this.le)
  · rintro ⟨hi, hlt⟩
    cases hf : (List.finRange n).find? f with
    | none =>
      have := List.find?_eq_none.mp hf i (List.mem_finRange i)
      simp [hi] at this
    | some k =>
      obtain ⟨_, as, bs, hab, hall⟩ := List.find?_eq_some_iff_append.mp hf
      have hk : f k = true := List.find?_some hf
      rcases lt_trichotomy k i with h | h | h
      · simp [hlt k h] at hk
      · rw [h]
      · have hs : (as ++ k :: bs).Pairwise (· < ·) := hab ▸ List.pairwise_lt_finRange n
        have hm : i ∈ as ++ k :: bs := hab ▸ List.mem_finRange i
        rcases List.mem_append.mp hm with hi' | hi'
        · simpa [hi] using hall i hi'
        · rcases List.mem_cons.mp hi' with rfl | hi''
          · rfl
          · have := (List.pairwise_cons.mp (List.pairwise_append.mp hs).2.1).1 i hi''
            exact absurd h (not_lt.mpr this.le)

theorem find_finRange_eq_none {n : Nat} {f : Fin n → Bool} :
    (List.finRange n).find? f = none ↔ ∀ i, f i = false := by
  simp [List.find?_eq_none, List.mem_finRange]

theorem lowestIn_eq_some {set : ProbeSet} {bad : ProbeNo → Bool} {i : ProbeNo} :
    lowestIn set bad = some i ↔ LowestFailing set (fun j => bad j = true) i := by
  unfold lowestIn LowestFailing
  rw [find_finRange_eq_some]
  simp only [Bool.and_eq_true, Bool.and_eq_false_iff, and_assoc]
  refine and_congr_right fun _ => and_congr_right fun _ => forall_congr' fun j => forall_congr' fun _ => ?_
  cases set.has j <;> simp

theorem lowestIn_eq_none {set : ProbeSet} {bad : ProbeNo → Bool} :
    lowestIn set bad = none ↔ NoneFails set (fun j => bad j = true) := by
  unfold lowestIn NoneFails
  rw [find_finRange_eq_none]
  refine forall_congr' fun j => ?_
  cases set.has j <;> simp

/-- The search for a failing probe finds the lowest that fails. -/
theorem lowestIn_of_lowestFailing {set : ProbeSet} {bad : ProbeNo → Bool} {P : ProbeNo → Prop}
    (hP : ∀ j, bad j = true ↔ P j) {i : ProbeNo} (h : LowestFailing set P i) : lowestIn set bad = some i := by
  rw [lowestIn_eq_some]
  unfold LowestFailing at *
  simpa [hP] using h

/-- The search for a failing probe finds none when none fails. -/
theorem lowestIn_of_noneFails {set : ProbeSet} {bad : ProbeNo → Bool} {P : ProbeNo → Prop}
    (hP : ∀ j, bad j = true ↔ P j) (h : NoneFails set P) : lowestIn set bad = none := by
  rw [lowestIn_eq_none]
  unfold NoneFails at *
  simpa [hP] using h

theorem lowestIn_zero (bad : ProbeNo → Bool) : lowestIn 0#16 bad = none := by
  rw [lowestIn_eq_none]
  intro i hi
  exact absurd hi (by simp)

theorem lowestNone_eq_some {α : Type} {n : Nat} {v : Vector (Option α) n} {k : Fin n} :
    lowestNone v = some k ↔ v[k] = none ∧ ∀ j : Fin n, j < k → v[j] ≠ none := by
  unfold lowestNone
  rw [find_finRange_eq_some]
  simp [Option.isNone_iff_eq_none, Option.isNone_eq_false_iff, Option.isSome_iff_ne_none]

theorem lowestNone_eq_none {α : Type} {n : Nat} {v : Vector (Option α) n} :
    lowestNone v = none ↔ ∀ k : Fin n, v[k] ≠ none := by
  unfold lowestNone
  rw [find_finRange_eq_none]
  simp [Option.isNone_eq_false_iff, Option.isSome_iff_ne_none]

end Machine

end Sys2Proof
end

