-- ==== Sys2Proof/Laws/Alerts.lean ====
section
/-! SUPPORT. Raising an alert reaches the alert state of a port and the undeliverable count, nothing else. -/

namespace Sys2Proof.Machine

/-- What an alert that is raised may change of the management side: each port's alerts, head, lost count and alert number,
and the undeliverable count. -/
structure SameButAlerts (m n : Management) : Prop where
  sessionCount : n.sessionCount = m.sessionCount
  holder : n.holder = m.holder
  port : ∀ p, n.port p = { m.port p with
    alerts := (n.port p).alerts
    head := (n.port p).head
    lostCount := (n.port p).lostCount
    alertNumber := (n.port p).alertNumber }

theorem SameButAlerts.refl (m : Management) : SameButAlerts m m := ⟨rfl, rfl, fun _ => rfl⟩

theorem SameButAlerts.trans {a b c : Management} (h : SameButAlerts a b) (k : SameButAlerts b c) : SameButAlerts a c :=
  ⟨k.sessionCount.trans h.sessionCount, k.holder.trans h.holder, fun p => by rw [k.port p, h.port p]⟩

theorem SameButAlerts.isOpen {a b : Management} (h : SameButAlerts a b) (p : Port) :
    (b.port p).isOpen = (a.port p).isOpen := by rw [h.port p]

theorem SameButAlerts.commands {a b : Management} (h : SameButAlerts a b) (p : Port) :
    (b.port p).commands = (a.port p).commands := by rw [h.port p]

theorem SameButAlerts.mask {a b : Management} (h : SameButAlerts a b) (p : Port) :
    (b.port p).mask = (a.port p).mask := by rw [h.port p]

theorem SameButAlerts.sending {a b : Management} (h : SameButAlerts a b) (p : Port) :
    (b.port p).sending = (a.port p).sending := by rw [h.port p]

/-- An offered alert changes only the alert fields of its port. -/
theorem offer_eq (c : Condition) (t : Tick) (x : PortState) :
    x.offer c t = { x with
      alerts := (x.offer c t).alerts
      head := (x.offer c t).head
      lostCount := (x.offer c t).lostCount
      alertNumber := (x.offer c t).alertNumber } := by
  unfold PortState.offer; split <;> rfl

theorem offer_of_room (c : Condition) (t : Tick) (x : PortState) (h : x.alerts.length < 16) :
    x.offer c t = { x with
      alertNumber := x.alertNumber + 1
      alerts := x.alerts ++ [{ number := x.alertNumber + 1, time := t, condition := c, lost := x.lostCount }]
      lostCount := 0
      head := if x.alerts.isEmpty then HeadAlert.fresh else x.head } := if_pos h

theorem offer_of_full (c : Condition) (t : Tick) (x : PortState) (h : ¬ x.alerts.length < 16) :
    x.offer c t = { x with lostCount := satInc x.lostCount } := if_neg h

theorem sameButAlerts_offer (m : Management) (p : Port) (c : Condition) (t : Tick) :
    SameButAlerts m (m.offer p c t) := by
  refine ⟨by simp [Management.offer], by simp [Management.offer], fun q => ?_⟩
  rcases Port.eq_or_other p q with rfl | rfl
  · simp only [Management.offer, port_setPort_same]; exact offer_eq c t _
  · simp [Management.offer]

theorem sameButAlerts_undelivered (m : Management) : SameButAlerts m m.undelivered :=
  ⟨rfl, rfl, fun p => by cases p <;> rfl⟩

theorem sameButAlerts_raiseToOwner (m : Management) (o : Option Port) (c : Condition) (t : Tick) :
    SameButAlerts m (m.raiseToOwner o c t) := by
  cases o with
  | none => exact sameButAlerts_undelivered m
  | some p => exact sameButAlerts_offer m p c t

theorem sameButAlerts_raiseDeviceWide (m : Management) (c : Condition) (t : Tick) :
    SameButAlerts m (m.raiseDeviceWide c t) := by
  unfold Management.raiseDeviceWide
  split
  · exact (sameButAlerts_offer m .a c t).trans (sameButAlerts_offer _ .b c t)
  · exact sameButAlerts_offer m .a c t
  · exact sameButAlerts_offer m .b c t
  · exact sameButAlerts_undelivered m

theorem sameButAlerts_alertNotice (t : Tick) (i : ProbeNo) (n : Notice) (x : Probe) (m : Management) :
    SameButAlerts m (alertNotice t i n x m) := by
  unfold alertNotice
  have h1 : SameButAlerts m
      (if x.limitHit n then m.raiseToOwner x.owner (.probeLimit i (x.valuesAfter n).overCount) t else m) := by
    split
    · exact sameButAlerts_raiseToOwner ..
    · exact SameButAlerts.refl m
  dsimp only
  split
  · exact h1.trans (sameButAlerts_raiseToOwner ..)
  · exact h1

theorem sameButAlerts_raiseDrained (o : DrainOutcome) (t : Tick) (f : Probe → Option Nat) (set : ProbeSet) (b : Bank)
    (m : Management) : SameButAlerts m (raiseDrained o t f set b m) := by
  unfold raiseDrained
  generalize members set = l
  induction l generalizing m with
  | nil => exact SameButAlerts.refl m
  | cons i l ih =>
    rw [List.foldl_cons]
    refine SameButAlerts.trans ?_ (ih _)
    split
    · exact sameButAlerts_raiseToOwner ..
    · exact SameButAlerts.refl m

end Sys2Proof.Machine
end

