-- ==== Sys2Proof/Laws/Notices.lean ====
section
/-! SUPPORT. What notices can do: the probe addressed takes the notice, bins may rise, alerts may be raised; nothing else
of the part changes. -/

namespace Sys2Proof.Machine

theorem notify_eq (t : Tick) (i : ProbeNo) (n : Notice) (s : State) :
    notify t i n s = { s with
      bank := s.bank.setProbe i ((s.probe i).take n)
      pool := binNotice n (s.probe i) s.pool
      mgmt := alertNotice t i n (s.probe i) s.mgmt } := rfl

@[simp] theorem notify_probe_same (t : Tick) (i : ProbeNo) (n : Notice) (s : State) :
    (notify t i n s).probe i = (s.probe i).take n := Bank.probe_setProbe_same ..

theorem notify_probe_ne (t : Tick) {i j : ProbeNo} (n : Notice) (s : State) (h : j ≠ i) :
    (notify t i n s).probe j = s.probe j := Bank.probe_setProbe_ne _ _ h

/-- A bin that rises leaves its unit with its probe, mode and parameter. -/
theorem binNotice_probe (n : Notice) (x : Probe) (pool : Vector (Option HistUnit) 8) (k : Fin 8) :
    (binNotice n x pool)[k].map HistUnit.probe = pool[k].map HistUnit.probe := by
  have hm : ∀ (j : Fin 8) (L : Tick),
      (modifyUnit pool j (HistUnit.count L))[k].map HistUnit.probe = pool[k].map HistUnit.probe := by
    intro j L
    unfold modifyUnit
    rw [vector_set_get]
    by_cases h : j = k
    · subst h; rw [if_pos rfl, Option.map_map]; rfl
    · rw [if_neg h]
  unfold binNotice
  split
  · split
    · exact hm ..
    · rfl
  all_goals rfl

/-- The state after notices, as what they leave unchanged. -/
structure SameButNotices (s t : State) : Prop where
  frame : t = { s with bank := t.bank, pool := t.pool, mgmt := t.mgmt }
  purge : t.bank.purge = s.bank.purge
  units : ∀ k : Fin 8, t.pool[k].map HistUnit.probe = s.pool[k].map HistUnit.probe
  mgmt : SameButAlerts s.mgmt t.mgmt

theorem SameButNotices.refl (s : State) : SameButNotices s s :=
  ⟨rfl, rfl, fun _ => rfl, SameButAlerts.refl _⟩

theorem SameButNotices.trans {a b c : State} (h : SameButNotices a b) (k : SameButNotices b c) : SameButNotices a c := by
  refine ⟨?_, k.purge.trans h.purge, fun j => (k.units j).trans (h.units j), h.mgmt.trans k.mgmt⟩
  rw [k.frame, h.frame]

theorem SameButNotices.trk {s t : State} (h : SameButNotices s t) : t.trk = s.trk := by rw [h.frame]
theorem SameButNotices.obs {s t : State} (h : SameButNotices s t) : t.obs = s.obs := by rw [h.frame]
theorem SameButNotices.harv {s t : State} (h : SameButNotices s t) : t.harv = s.harv := by rw [h.frame]
theorem SameButNotices.timebase {s t : State} (h : SameButNotices s t) : t.timebase = s.timebase := by rw [h.frame]
theorem SameButNotices.resetN {s t : State} (h : SameButNotices s t) : t.resetN = s.resetN := by rw [h.frame]
theorem SameButNotices.baud {s t : State} (h : SameButNotices s t) : t.baud = s.baud := by rw [h.frame]
theorem SameButNotices.pending {s t : State} (h : SameButNotices s t) : t.pending = s.pending := by rw [h.frame]

theorem sameButNotices_notify (t : Tick) (i : ProbeNo) (n : Notice) (s : State) :
    SameButNotices s (notify t i n s) :=
  ⟨rfl, rfl, fun k => binNotice_probe n (s.probe i) s.pool k, sameButAlerts_alertNotice ..⟩

theorem foldl_notify (t : Tick) (n : Notice) (l : List ProbeNo) (hl : l.Nodup) (s : State) :
    SameButNotices s (l.foldl (fun s i => notify t i n s) s) ∧
      ∀ j, (l.foldl (fun s i => notify t i n s) s).probe j = if j ∈ l then (s.probe j).take n else s.probe j := by
  induction l generalizing s with
  | nil => exact ⟨SameButNotices.refl s, fun j => by simp⟩
  | cons i l ih =>
    obtain ⟨hi, hl⟩ := List.nodup_cons.mp hl
    obtain ⟨h1, h2⟩ := ih hl (notify t i n s)
    refine ⟨(sameButNotices_notify t i n s).trans h1, fun j => ?_⟩
    rw [List.foldl_cons, h2]
    by_cases hj : j = i
    · subst hj; simp [hi]
    · simp [hj, notify_probe_ne t n s hj]

/-- Notices to a set change nothing but the bank's probes, bins and alerts. -/
theorem sameButNotices_sendNotices (t : Tick) (set : ProbeSet) (n : Notice) (s : State) :
    SameButNotices s (sendNotices t set n s) :=
  (foldl_notify t n (members set) (members_nodup set) s).1

/-- Each probe of the set takes the notice once; no other probe changes. -/
theorem sendNotices_probe (t : Tick) (set : ProbeSet) (n : Notice) (s : State) (j : ProbeNo) :
    (sendNotices t set n s).probe j = if set.has j then (s.probe j).take n else s.probe j := by
  have := (foldl_notify t n (members set) (members_nodup set) s).2 j
  simpa [mem_members, sendNotices] using this

@[simp] theorem sendNotices_trk (t : Tick) (set : ProbeSet) (n : Notice) (s : State) :
    (sendNotices t set n s).trk = s.trk := (sameButNotices_sendNotices t set n s).trk
@[simp] theorem sendNotices_obs (t : Tick) (set : ProbeSet) (n : Notice) (s : State) :
    (sendNotices t set n s).obs = s.obs := (sameButNotices_sendNotices t set n s).obs
@[simp] theorem sendNotices_harv (t : Tick) (set : ProbeSet) (n : Notice) (s : State) :
    (sendNotices t set n s).harv = s.harv := (sameButNotices_sendNotices t set n s).harv
@[simp] theorem sendNotices_timebase (t : Tick) (set : ProbeSet) (n : Notice) (s : State) :
    (sendNotices t set n s).timebase = s.timebase := (sameButNotices_sendNotices t set n s).timebase
@[simp] theorem sendNotices_resetN (t : Tick) (set : ProbeSet) (n : Notice) (s : State) :
    (sendNotices t set n s).resetN = s.resetN := (sameButNotices_sendNotices t set n s).resetN
@[simp] theorem sendNotices_baud (t : Tick) (set : ProbeSet) (n : Notice) (s : State) :
    (sendNotices t set n s).baud = s.baud := (sameButNotices_sendNotices t set n s).baud
@[simp] theorem sendNotices_pending (t : Tick) (set : ProbeSet) (n : Notice) (s : State) :
    (sendNotices t set n s).pending = s.pending := (sameButNotices_sendNotices t set n s).pending
@[simp] theorem sendNotices_purge (t : Tick) (set : ProbeSet) (n : Notice) (s : State) :
    (sendNotices t set n s).bank.purge = s.bank.purge := (sameButNotices_sendNotices t set n s).purge

/-- Only a sample reaches a bin. -/
theorem sendNotices_pool {n : Notice} (hn : ∀ L, n ≠ .sample L) (t : Tick) (set : ProbeSet) :
    ∀ s : State, (sendNotices t set n s).pool = s.pool := by
  unfold sendNotices
  induction members set with
  | nil => exact fun _ => rfl
  | cons i is ih =>
    intro s
    refine (ih _).trans ?_
    cases n with
    | sample L => exact absurd rfl (hn L)
    | fault => rfl
    | timeout => rfl
    | removal => rfl

/-! ### One probe and one notice -/

@[simp] theorem take_inFlight (n : Notice) (x : Probe) : (x.take n).inFlight = x.inFlight - 1 := rfl
@[simp] theorem take_owner (n : Notice) (x : Probe) : (x.take n).owner = x.owner := rfl
@[simp] theorem take_definition (n : Notice) (x : Probe) : (x.take n).definition = x.definition := rfl
@[simp] theorem take_unit (n : Notice) (x : Probe) : (x.take n).unit = x.unit := rfl
@[simp] theorem take_cutCount (n : Notice) (x : Probe) : (x.take n).cutCount = x.cutCount := rfl
theorem take_state (n : Notice) (x : Probe) : (x.take n).state = if x.emptiesDrain then .held else x.state := rfl
theorem take_drainDeadline (n : Notice) (x : Probe) :
    (x.take n).drainDeadline = if x.emptiesDrain then none else x.drainDeadline := rfl
theorem take_values (n : Notice) (x : Probe) : (x.take n).values = x.valuesAfter n := rfl

theorem emptiesDrain_iff (x : Probe) : x.emptiesDrain = true ↔ x.state = .draining ∧ x.inFlight ≤ 1 := by
  simp [Probe.emptiesDrain, Nat.sub_eq_zero_iff_le]

/-- Only a sample that is recorded can change over, so no other notice raises PROBE_LIMIT. -/
theorem limitHit_removal (x : Probe) : x.limitHit .removal = false := by
  simp [Probe.limitHit, Probe.valuesAfter, Values.note]

theorem valuesAfter_of_not_recording {x : Probe} (n : Notice) (h : x.recording = false) : x.valuesAfter n = x.values := by
  simp [Probe.valuesAfter, h]

/-- A removal notice to a probe that does not drain only lowers its in-flight count. -/
theorem take_removal {x : Probe} (h : x.state ≠ .draining) : x.take .removal = { x with inFlight := x.inFlight - 1 } := by
  have he : x.emptiesDrain = false := by
    cases hx : x.emptiesDrain
    · rfl
    · exact absurd ((emptiesDrain_iff x).mp hx).1 h
  have hv : x.valuesAfter .removal = x.values := by unfold Probe.valuesAfter; split <;> rfl
  simp [Probe.take, he, hv, limitHit_removal]

theorem alertNotice_removal {x : Probe} (t : Tick) (i : ProbeNo) (m : Management) (h : x.state ≠ .draining) :
    alertNotice t i .removal x m = m := by
  have he : x.emptiesDrain = false := by
    cases hx : x.emptiesDrain
    · rfl
    · exact absurd ((emptiesDrain_iff x).mp hx).1 h
  simp [alertNotice, he, limitHit_removal]

end Sys2Proof.Machine
end

