-- ==== Sys2Proof/Laws/Table.lean ====
section
/-! SUPPORT. The deadline list as a list: finding, removing, inserting and replacing an entry. -/

namespace Sys2Proof.Machine

theorem findKey_eq_none {table : List Entry} {k : Key} : findKey table k = none ↔ ∀ e ∈ table, e.key ≠ k := by
  simp [findKey]

theorem mem_of_findKey {table : List Entry} {k : Key} {e : Entry} (h : findKey table k = some e) :
    e ∈ table ∧ e.key = k := by
  refine ⟨List.mem_of_find?_eq_some h, ?_⟩
  simpa using List.find?_some h

theorem mem_of_findIndex {table : List Entry} {i : Fin 256} {e : Entry} (h : findIndex table i = some e) :
    e ∈ table ∧ e.index = i := by
  refine ⟨List.mem_of_find?_eq_some h, ?_⟩
  simpa using List.find?_some h

theorem findIndex_eq_none {table : List Entry} {i : Fin 256} :
    findIndex table i = none ↔ ∀ e ∈ table, e.index ≠ i := by
  simp [findIndex]

/-- Two members with one image are one, when the images have no duplicate. -/
theorem eq_of_nodup_map {α β : Type} {f : α → β} {l : List α} (h : (l.map f).Nodup) {a b : α} (ha : a ∈ l) (hb : b ∈ l)
    (e : f a = f b) : a = b :=
  List.inj_on_of_nodup_map h ha hb e

theorem findKey_of_mem {table : List Entry} (h : (table.map Entry.key).Nodup) {e : Entry} (he : e ∈ table) :
    findKey table e.key = some e := by
  cases hf : findKey table e.key with
  | none => exact absurd rfl (findKey_eq_none.mp hf e he)
  | some x =>
    obtain ⟨hx, hk⟩ := mem_of_findKey hf
    rw [eq_of_nodup_map h hx he hk]

theorem findIndex_of_mem {table : List Entry} (h : (table.map Entry.index).Nodup) {e : Entry} (he : e ∈ table) :
    findIndex table e.index = some e := by
  cases hf : findIndex table e.index with
  | none => exact absurd rfl (findIndex_eq_none.mp hf e he)
  | some x =>
    obtain ⟨hx, hk⟩ := mem_of_findIndex hf
    rw [eq_of_nodup_map h hx he hk]

/-! ### Removal -/

/-- With each index held once, removal leaves exactly the entries of other indices, in their order (R51). -/
theorem removeEntry_eq_filter {table : List Entry} (h : (table.map Entry.index).Nodup) (i : Fin 256) :
    removeEntry i table = table.filter (fun x => x.index != i) := by
  unfold removeEntry
  induction table with
  | nil => rfl
  | cons a l ih =>
    simp only [List.map_cons, List.nodup_cons] at h
    by_cases ha : a.index = i
    · rw [List.eraseP_cons_of_pos (by simpa using ha), List.filter_cons_of_neg (by simpa using ha)]
      refine (List.filter_eq_self.mpr ?_).symm
      intro x hx
      simp only [bne_iff_ne, ne_eq]
      intro hxi
      exact h.1 (List.mem_map.mpr ⟨x, hx, hxi.trans ha.symm⟩)
    · rw [List.eraseP_cons_of_neg (by simpa using ha), List.filter_cons_of_pos (by simpa using ha), ih h.2]

theorem removeEntry_sublist (i : Fin 256) (table : List Entry) : (removeEntry i table).Sublist table :=
  List.eraseP_sublist

theorem mem_of_mem_removeEntry {i : Fin 256} {table : List Entry} {x : Entry} (h : x ∈ removeEntry i table) :
    x ∈ table := (removeEntry_sublist i table).mem h

/-- With each index held once, the list is the removed entry and the rest. -/
theorem perm_removeEntry {table : List Entry} (h : (table.map Entry.index).Nodup) {e : Entry} (he : e ∈ table) :
    table.Perm (e :: removeEntry e.index table) := by
  obtain ⟨a, l₁, l₂, h₁, ha, rfl, h₂⟩ := List.exists_of_eraseP (p := fun x : Entry => x.index == e.index) he (by simp)
  have hae : a = e := eq_of_nodup_map h (by simp) he (by simpa using ha)
  subst hae
  unfold removeEntry
  rw [h₂]
  exact List.perm_middle

theorem length_removeEntry {table : List Entry} {e : Entry} (he : e ∈ table) :
    (removeEntry e.index table).length + 1 = table.length := by
  have := List.length_eraseP_of_mem (p := fun x : Entry => x.index == e.index) he (by simp)
  have hp : 0 < table.length := List.length_pos_of_mem he
  unfold removeEntry
  omega

theorem index_ne_of_mem_removeEntry {table : List Entry} (h : (table.map Entry.index).Nodup) {i : Fin 256} {x : Entry}
    (hx : x ∈ removeEntry i table) : x.index ≠ i := by
  rw [removeEntry_eq_filter h] at hx
  simpa using (List.mem_filter.mp hx).2

theorem removeEntry_head (e : Entry) (rest : List Entry) : removeEntry e.index (e :: rest) = rest := by
  simp [removeEntry]

/-! ### Insertion -/

theorem perm_insertEntry (e : Entry) (table : List Entry) : (insertEntry e table).Perm (e :: table) := by
  induction table with
  | nil => exact List.Perm.refl _
  | cons a l ih =>
    unfold insertEntry
    split
    · exact (ih.cons a).trans (List.Perm.swap e a l)
    · exact List.Perm.refl _

theorem mem_insertEntry {e x : Entry} {table : List Entry} : x ∈ insertEntry e table ↔ x = e ∨ x ∈ table := by
  rw [(perm_insertEntry e table).mem_iff, List.mem_cons]

theorem length_insertEntry (e : Entry) (table : List Entry) : (insertEntry e table).length = table.length + 1 := by
  rw [(perm_insertEntry e table).length_eq, List.length_cons]

/-- An insertion splits the list: those in front not later than the new entry, and the rest (R50). -/
theorem insertEntry_split (e : Entry) (table : List Entry) : ∃ front back, table = front ++ back ∧
    insertEntry e table = front ++ e :: back ∧ (∀ x ∈ front, notLater x.deadline e.deadline = true) ∧
    (∀ x, back.head? = some x → notLater x.deadline e.deadline = false) := by
  induction table with
  | nil => exact ⟨[], [], rfl, rfl, by simp, by simp⟩
  | cons a l ih =>
    by_cases h : notLater a.deadline e.deadline = true
    · obtain ⟨f, b, h1, h2, h3, h4⟩ := ih
      refine ⟨a :: f, b, by simp [h1], by simp [insertEntry, h, h2], ?_, h4⟩
      intro x hx
      rcases List.mem_cons.mp hx with rfl | hx
      · exact h
      · exact h3 x hx
    · exact ⟨[], a :: l, rfl, by simp [insertEntry, h], by simp, by simpa using h⟩

/-! ### Replacement -/

theorem map_replaceEntry {β : Type} (f : Entry → β) (e : Entry) (table : List Entry)
    (h : ∀ x ∈ table, x.index = e.index → f x = f e) : (replaceEntry e table).map f = table.map f := by
  unfold replaceEntry
  rw [List.map_map]
  apply List.map_congr_left
  intro x hx
  by_cases hi : x.index = e.index
  · simp [hi, (h x hx hi).symm]
  · simp [hi]

theorem replaceEntry_indices (e : Entry) (table : List Entry) :
    (replaceEntry e table).map Entry.index = table.map Entry.index :=
  map_replaceEntry _ e table (fun _ _ h => h)

theorem mem_replaceEntry {e x : Entry} {table : List Entry} (h : x ∈ replaceEntry e table) :
    (x = e ∧ ∃ y ∈ table, y.index = e.index) ∨ (x ∈ table ∧ x.index ≠ e.index) := by
  obtain ⟨y, hy, hyx⟩ := List.mem_map.mp h
  by_cases hi : y.index = e.index
  · simp only [hi, beq_self_eq_true, ↓reduceIte] at hyx
    exact .inl ⟨hyx.symm, y, hy, hi⟩
  · rw [if_neg (by simpa using hi)] at hyx
    subst hyx
    exact .inr ⟨hy, hi⟩

@[simp] theorem length_replaceEntry (e : Entry) (table : List Entry) : (replaceEntry e table).length = table.length := by
  simp [replaceEntry]

/-- With each index held once, a replacement exchanges one entry for another. -/
theorem perm_replaceEntry {table : List Entry} (h : (table.map Entry.index).Nodup) {old new : Entry} (ho : old ∈ table)
    (hi : new.index = old.index) : (replaceEntry new table).Perm (new :: removeEntry old.index table) := by
  have hp : (replaceEntry new table).Perm (replaceEntry new (old :: removeEntry old.index table)) :=
    (perm_removeEntry h ho).map _
  refine hp.trans ?_
  have hr : replaceEntry new (removeEntry old.index table) = removeEntry old.index table := by
    unfold replaceEntry
    refine (List.map_congr_left (g := id) fun x hx => ?_).trans (List.map_id _)
    have := index_ne_of_mem_removeEntry h hx
    simp [hi, this]
  have hc : replaceEntry new (old :: removeEntry old.index table) =
      new :: replaceEntry new (removeEntry old.index table) := by
    simp [replaceEntry, hi]
  rw [hc, hr]

/-! ### Free indices -/

theorem lowestFree_eq_some {table : List Entry} {i : Fin 256} : lowestFree table = some i ↔
    (∀ x ∈ table, x.index ≠ i) ∧ ∀ j, j < i → ∃ x ∈ table, x.index = j := by
  unfold lowestFree
  rw [find_finRange_eq_some]
  simp

/-- A table with fewer than 256 entries has a free index (R18, R26). -/
theorem exists_lowestFree {table : List Entry} (h : table.length < 256) : ∃ i, lowestFree table = some i := by
  cases hf : lowestFree table with
  | some i => exact ⟨i, rfl⟩
  | none =>
    unfold lowestFree at hf
    rw [find_finRange_eq_none] at hf
    have hsub : List.finRange 256 ⊆ table.map Entry.index := by
      intro i _
      have := hf i
      simp only [Bool.not_eq_eq_eq_not, Bool.not_false, List.any_eq_true, beq_iff_eq] at this
      exact List.mem_map.mpr this
    have := (List.nodup_finRange 256).length_le_of_subset hsub
    simp at this
    omega

/-! ### Counting the entries that name a probe -/

theorem naming_perm {i : ProbeNo} {a b : List Entry} (h : a.Perm b) : naming i a = naming i b := h.countP_eq _

theorem naming_cons (i : ProbeNo) (e : Entry) (l : List Entry) :
    naming i (e :: l) = naming i l + if e.matchSet.has i then 1 else 0 := by
  simp [naming, List.countP_cons]

theorem naming_insertEntry (i : ProbeNo) (e : Entry) (l : List Entry) :
    naming i (insertEntry e l) = naming i l + if e.matchSet.has i then 1 else 0 := by
  rw [naming_perm (perm_insertEntry e l), naming_cons]

theorem naming_removeEntry {table : List Entry} (h : (table.map Entry.index).Nodup) {e : Entry} (he : e ∈ table)
    (i : ProbeNo) : naming i table = naming i (removeEntry e.index table) + if e.matchSet.has i then 1 else 0 := by
  rw [naming_perm (perm_removeEntry h he), naming_cons]

theorem naming_eq_zero {i : ProbeNo} {l : List Entry} : naming i l = 0 ↔ ∀ e ∈ l, e.matchSet.has i = false := by
  simp [naming, List.countP_eq_zero]

theorem naming_pos_of_mem {i : ProbeNo} {l : List Entry} {e : Entry} (he : e ∈ l) (h : e.matchSet.has i = true) :
    0 < naming i l := List.countP_pos_iff.mpr ⟨e, he, h⟩

theorem naming_map (i : ProbeNo) (f : Entry → Entry) (l : List Entry) (h : ∀ x ∈ l, (f x).matchSet = x.matchSet) :
    naming i (l.map f) = naming i l := by
  unfold naming
  rw [List.countP_map]
  apply List.countP_congr
  intro x hx
  simp [h x hx]

end Sys2Proof.Machine
end

