-- ==== Sys2Proof/Laws/Engine.lean ====
section
/-! SUPPORT. The shared operations keep the laws of the Pending Table, of the in-flight counts and of the purge engine. -/

namespace Sys2Proof.Machine

/-! ### The table and the ring -/

theorem TableLaw.remove {k : Tracking} (h : TableLaw k) (i : Fin 256) : TableLaw { k with table := removeEntry i k.table } where
  indices := h.indices.sublist ((removeEntry_sublist i k.table).map _)
  keys := h.keys.sublist ((removeEntry_sublist i k.table).map _)
  ringKeys := h.ringKeys
  apart := fun r hr e he => h.apart r hr e (mem_of_mem_removeEntry he)
  shapes := fun e he => h.shapes e (mem_of_mem_removeEntry he)

/-- An entry whose index and key no other holds joins the table. -/
theorem TableLaw.insert {k : Tracking} (h : TableLaw k) {e : Entry} (hi : ∀ x ∈ k.table, x.index ≠ e.index)
    (hk : ∀ x ∈ k.table, x.key ≠ e.key) (hr : ∀ r ∈ k.ring, r.key ≠ e.key) (hs : e.shaped) :
    TableLaw { k with table := insertEntry e k.table } where
  indices := by
    rw [((perm_insertEntry e k.table).map Entry.index).nodup_iff, List.map_cons, List.nodup_cons]
    refine ⟨?_, h.indices⟩
    simpa [eq_comm] using hi
  keys := by
    rw [((perm_insertEntry e k.table).map Entry.key).nodup_iff, List.map_cons, List.nodup_cons]
    refine ⟨?_, h.keys⟩
    simpa [eq_comm] using hk
  ringKeys := h.ringKeys
  apart := fun r hr' x hx => by
    rcases mem_insertEntry.mp hx with rfl | hx
    · exact hr r hr'
    · exact h.apart r hr' x hx
  shapes := fun x hx => by
    rcases mem_insertEntry.mp hx with rfl | hx
    · exact hs
    · exact h.shapes x hx

/-- An entry is replaced by one of its own index and key. -/
theorem TableLaw.replace {k : Tracking} (h : TableLaw k) {old new : Entry} (ho : old ∈ k.table)
    (hi : new.index = old.index) (hk : new.key = old.key) (hs : new.shaped) :
    TableLaw { k with table := replaceEntry new k.table } where
  indices := by rw [show (replaceEntry new k.table).map Entry.index = k.table.map Entry.index from
    replaceEntry_indices new k.table]; exact h.indices
  keys := by
    have : (replaceEntry new k.table).map Entry.key = k.table.map Entry.key := by
      apply map_replaceEntry
      intro x hx hxi
      rw [eq_of_nodup_map h.indices hx ho (hxi.trans hi), hk]
    rw [this]; exact h.keys
  ringKeys := h.ringKeys
  apart := fun r hr x hx => by
    rcases mem_replaceEntry hx with ⟨rfl, _⟩ | ⟨hx, _⟩
    · rw [hk]; exact h.apart r hr old ho
    · exact h.apart r hr x hx
  shapes := fun x hx => by
    rcases mem_replaceEntry hx with ⟨rfl, _⟩ | ⟨hx, _⟩
    · exact hs
    · exact h.shapes x hx

/-- The ring loses records. -/
theorem TableLaw.ringSublist {k : Tracking} (h : TableLaw k) {ring : List RingRecord} (hs : ring.Sublist k.ring) :
    TableLaw { k with ring := ring } where
  indices := h.indices
  keys := h.keys
  ringKeys := h.ringKeys.sublist (hs.map _)
  apart := fun r hr => h.apart r (hs.mem hr)
  shapes := h.shapes

/-- A key neither pending nor in the ring enters the ring (R56). -/
theorem TableLaw.push {k : Tracking} (h : TableLaw k) {r : RingRecord} (hr : ∀ x ∈ k.ring, x.key ≠ r.key)
    (ht : ∀ e ∈ k.table, e.key ≠ r.key) : TableLaw { k with ring := pushRing r k.ring } := by
  have hsub : ∀ l : List RingRecord, l.Sublist k.ring → TableLaw { k with ring := l ++ [r] } := by
    intro l hl
    have hl' := h.ringSublist hl
    refine ⟨h.indices, h.keys, ?_, ?_, h.shapes⟩
    · rw [List.map_append, List.nodup_append]
      refine ⟨hl'.ringKeys, by simp, ?_⟩
      intro a ha b hb
      simp only [List.map_cons, List.map_nil, List.mem_singleton] at hb
      obtain ⟨x, hx, rfl⟩ := List.mem_map.mp ha
      rw [hb]; exact hr x (hl.mem hx)
    · intro x hx e he
      rcases List.mem_append.mp hx with hx | hx
      · exact hl'.apart x hx e he
      · rw [List.mem_singleton.mp hx]; exact fun e' => ht e he e'.symm
  unfold pushRing
  split
  · exact hsub k.ring (List.Sublist.refl _)
  · exact hsub (k.ring.drop 1) (List.drop_sublist 1 _)

theorem dropKey_sublist (k : Key) (ring : List RingRecord) : (dropKey k ring).Sublist ring := List.filter_sublist

theorem key_ne_of_mem_dropKey {k : Key} {ring : List RingRecord} {r : RingRecord} (h : r ∈ dropKey k ring) :
    r.key ≠ k := by simpa using (List.mem_filter.mp h).2

/-- The laws look at the table, the ring and the bank alone. -/
theorem TableLaw.congr {k k' : Tracking} (h : TableLaw k) (ht : k'.table = k.table) (hr : k'.ring = k.ring) :
    TableLaw k' := by
  obtain ⟨a, b, c, d, e⟩ := h
  constructor <;> simp only [ht, hr] <;> assumption

/-! ### Notices and the laws -/

/-- Probes that keep state, in-flight count, definition, drain deadline and cut count keep the flight law. -/
theorem FlightLaw.congr {table : List Entry} {b c : Bank} (h : FlightLaw table b)
    (hp : ∀ i, (c.probe i).state = (b.probe i).state ∧ (c.probe i).inFlight = (b.probe i).inFlight ∧
      (c.probe i).definition = (b.probe i).definition ∧ (c.probe i).drainDeadline = (b.probe i).drainDeadline ∧
      (c.probe i).cutCount = (b.probe i).cutCount) : FlightLaw table c where
  counts := fun i => by rw [(hp i).2.1]; exact h.counts i
  named := fun e he i hi => by
    have := h.named e he i hi
    unfold Probe.isLatency at *
    rw [(hp i).1, (hp i).2.2.1]; exact this
  draining := fun i hi => by rw [(hp i).2.1]; exact h.draining i ((hp i).1 ▸ hi)
  deadline := fun i hi => by rw [(hp i).1]; exact h.deadline i ((hp i).2.2.2.1 ▸ hi)
  cutCount := fun i hi => by rw [(hp i).1]; exact h.cutCount i ((hp i).2.2.2.2 ▸ hi)

theorem PurgeLaw.congr {table : List Entry} {b c : Bank} (h : PurgeLaw table b)
    (hp : ∀ i, (c.probe i).state = .purging ↔ (b.probe i).state = .purging)
    (hc : c.purge.current = b.purge.current) (hw : c.purge.waiting = b.purge.waiting)
    (hn : c.purge.position = b.purge.position) : PurgeLaw table c where
  purging := fun i => by rw [hp, hc, hw]; exact h.purging i
  apart := by rw [hc, hw]; exact h.apart
  idle := by rw [hc, hn]; exact h.idle
  rest := by rw [hc, hw]; exact h.rest
  visited := by rw [hc, hn]; exact h.visited

/-- Entries with the same index and match set keep the laws. -/
theorem FlightLaw.map {table : List Entry} {b : Bank} (h : FlightLaw table b) (f : Entry → Entry)
    (hf : ∀ e ∈ table, (f e).matchSet = e.matchSet) : FlightLaw (table.map f) b where
  counts := fun i => by rw [naming_map i f table hf]; exact h.counts i
  named := fun e he i hi => by
    obtain ⟨x, hx, rfl⟩ := List.mem_map.mp he
    exact h.named x hx i (hf x hx ▸ hi)
  draining := h.draining
  deadline := h.deadline
  cutCount := h.cutCount

theorem PurgeLaw.map {table : List Entry} {b : Bank} (h : PurgeLaw table b) (f : Entry → Entry)
    (hf : ∀ e ∈ table, (f e).matchSet = e.matchSet ∧ (f e).index = e.index) : PurgeLaw (table.map f) b where
  purging := h.purging
  apart := h.apart
  idle := h.idle
  rest := h.rest
  visited := fun k hk e he hlt => by
    obtain ⟨x, hx, rfl⟩ := List.mem_map.mp he
    rw [(hf x hx).1]; exact h.visited k hk x hx ((hf x hx).2 ▸ hlt)

/-- Entries leave match sets: each probe of `gone` takes one notice and leaves one entry's match set (R28, R29). `table'`
is the table after, in which `old` is gone or stands with the match set less `gone`. -/
theorem FlightLaw.leave {table table' : List Entry} {b c : Bank} (h : FlightLaw table b) (gone : ProbeSet) (n : Notice)
    (hcount : ∀ i, naming i table = naming i table' + if gone.has i then 1 else 0)
    (hmem : ∀ e' ∈ table', ∃ e ∈ table, ∀ i, e'.matchSet.has i = true → e.matchSet.has i = true)
    (hc : ∀ i, c.probe i = if gone.has i then (b.probe i).take n else b.probe i) : FlightLaw table' c where
  counts := fun i => by
    rw [hc]
    have hb := h.counts i
    have hn := hcount i
    split <;> rename_i hg
    · rw [if_pos hg] at hn; rw [take_inFlight]; omega
    · rw [if_neg hg] at hn; omega
  named := fun e' he' i hi => by
    obtain ⟨e, he, hsub⟩ := hmem e' he'
    obtain ⟨hl, hst⟩ := h.named e he i (hsub i hi)
    rw [hc]
    split <;> rename_i hg
    · refine ⟨?_, ?_⟩
      · simpa [Probe.isLatency] using hl
      · have hpos := naming_pos_of_mem he' hi
        have hn := hcount i
        rw [if_pos hg] at hn
        have hne : (b.probe i).emptiesDrain = false := by
          cases hx : (b.probe i).emptiesDrain
          · rfl
          · have := (emptiesDrain_iff _).mp hx
            have hb := h.counts i
            omega
        rw [take_state, hne]; exact hst
    · exact ⟨hl, hst⟩
  draining := fun i hi => by
    rw [hc] at hi ⊢
    split at hi <;> rename_i hg
    · rw [if_pos hg, take_inFlight]
      rw [take_state] at hi
      split at hi <;> rename_i he
      · cases hi
      · have h1 := h.draining i hi
        have : ¬ ((b.probe i).state = .draining ∧ (b.probe i).inFlight ≤ 1) := fun hx => he ((emptiesDrain_iff _).mpr hx)
        have : ¬ (b.probe i).inFlight ≤ 1 := fun hx => this ⟨hi, hx⟩
        omega
    · rw [if_neg hg]; exact h.draining i hi
  deadline := fun i hi => by
    rw [hc] at hi ⊢
    split at hi <;> rename_i hg
    · rw [if_pos hg]
      rw [take_drainDeadline] at hi
      rw [take_state]
      split at hi <;> rename_i he
      · cases hi
      · rw [if_neg he]; exact h.deadline i hi
    · rw [if_neg hg]; exact h.deadline i hi
  cutCount := fun i hi => by
    rw [hc] at hi ⊢
    split at hi <;> rename_i hg
    · rw [if_pos hg]
      have hp := h.cutCount i (by simpa using hi)
      rw [take_state]
      have hne : (b.probe i).emptiesDrain = false := by
        cases hx : (b.probe i).emptiesDrain
        · rfl
        · have := ((emptiesDrain_iff _).mp hx).1; rw [hp] at this; cases this
      rw [hne]; exact hp
    · rw [if_neg hg]; exact h.cutCount i hi

theorem take_state_purging (n : Notice) (x : Probe) : (x.take n).state = .purging ↔ x.state = .purging := by
  rw [take_state]
  split <;> rename_i he
  · have := ((emptiesDrain_iff x).mp he).1
    simp [this]
  · rfl

/-- Notices keep the purge law of a table whose match sets shrink. -/
theorem PurgeLaw.leave {table table' : List Entry} {b c : Bank} (h : PurgeLaw table b) (gone : ProbeSet) (n : Notice)
    (hmem : ∀ e' ∈ table', ∃ e ∈ table, e.index = e'.index ∧ ∀ i, e'.matchSet.has i = true → e.matchSet.has i = true)
    (hc : ∀ i, c.probe i = if gone.has i then (b.probe i).take n else b.probe i) (hp : c.purge = b.purge) :
    PurgeLaw table' c where
  purging := fun i => by
    rw [hc, hp, ← h.purging i]
    split
    · exact take_state_purging ..
    · rfl
  apart := by rw [hp]; exact h.apart
  idle := by rw [hp]; exact h.idle
  rest := by rw [hp]; exact h.rest
  visited := fun k hk e' he' hlt => by
    rw [hp] at hk ⊢
    obtain ⟨e, he, hi, hsub⟩ := hmem e' he'
    have := (ProbeSet.eq_zero_iff _).mp (h.visited k hk e he (hi ▸ hlt))
    refine (ProbeSet.eq_zero_iff _).mpr fun i => ?_
    have hi' := this i
    rw [ProbeSet.has_and] at hi' ⊢
    cases hx : e'.matchSet.has i
    · rfl
    · rw [hsub i hx] at hi'; simpa using hi'

/-! ### The operations on an entry -/

@[simp] theorem closeEntry_probe (e : Entry) (o : Closure) (t latency : Tick) (s : State) (i : ProbeNo) :
    (closeEntry e o t latency s).probe i =
      if e.matchSet.has i then (s.probe i).take (o.notice latency) else s.probe i :=
  sendNotices_probe t e.matchSet (o.notice latency) s i

@[simp] theorem closeEntry_trk (e : Entry) (o : Closure) (t latency : Tick) (s : State) :
    (closeEntry e o t latency s).trk = s.trk.close e.index o := rfl
@[simp] theorem closeEntry_bank (e : Entry) (o : Closure) (t latency : Tick) (s : State) :
    (closeEntry e o t latency s).bank = (sendNotices t e.matchSet (o.notice latency) s).bank := rfl
@[simp] theorem closeEntry_obs (e : Entry) (o : Closure) (t latency : Tick) (s : State) :
    (closeEntry e o t latency s).obs = s.obs := sendNotices_obs ..
@[simp] theorem closeEntry_harv (e : Entry) (o : Closure) (t latency : Tick) (s : State) :
    (closeEntry e o t latency s).harv = s.harv := sendNotices_harv ..
@[simp] theorem closeEntry_timebase (e : Entry) (o : Closure) (t latency : Tick) (s : State) :
    (closeEntry e o t latency s).timebase = s.timebase := sendNotices_timebase ..

/-- A closure keeps the laws (R36). -/
theorem EngineLaw.closed {s : State} (h : EngineLaw s) {e : Entry} (he : e ∈ s.trk.table) (o : Closure)
    (t latency : Tick) : EngineLaw (closeEntry e o t latency s) where
  table := (h.table.remove e.index).congr rfl rfl
  flight := h.flight.leave e.matchSet (o.notice latency) (fun i => naming_removeEntry h.table.indices he i)
    (fun x hx => ⟨x, mem_of_mem_removeEntry hx, fun _ hi => hi⟩)
    (fun i => sendNotices_probe t e.matchSet (o.notice latency) s i)
  purge := h.purge.leave e.matchSet (o.notice latency)
    (fun x hx => ⟨x, mem_of_mem_removeEntry hx, rfl, fun _ hi => hi⟩)
    (fun i => sendNotices_probe t e.matchSet (o.notice latency) s i) (sendNotices_purge ..)

/-- An entry whose match set shrinks in its place, each probe that leaves taking a notice, keeps the laws (R30, R35). -/
theorem EngineLaw.shrink {s : State} (h : EngineLaw s) {e new : Entry} (he : e ∈ s.trk.table)
    (hi : new.index = e.index) (hk : new.key = e.key) (hs : new.shaped) (gone : ProbeSet)
    (hsub : ∀ i, gone.has i = true → e.matchSet.has i = true) (hm : new.matchSet = e.matchSet &&& ~~~gone)
    (t : Tick) (n : Notice) :
    EngineLaw { sendNotices t gone n s with
      trk := { s.trk with table := replaceEntry new s.trk.table } } := by
  have hnew : ∀ i, new.matchSet.has i = true → e.matchSet.has i = true := by
    intro i hx; rw [hm, ProbeSet.has_and] at hx; exact (Bool.and_eq_true_iff.mp hx).1
  have hmem : ∀ x ∈ replaceEntry new s.trk.table,
      ∃ y ∈ s.trk.table, y.index = x.index ∧ ∀ i, x.matchSet.has i = true → y.matchSet.has i = true := by
    intro x hx
    rcases mem_replaceEntry hx with ⟨rfl, _⟩ | ⟨hx, _⟩
    · exact ⟨e, he, hi.symm, hnew⟩
    · exact ⟨x, hx, rfl, fun _ h => h⟩
  refine ⟨h.table.replace he hi hk hs, h.flight.leave gone n ?_ (fun x hx => ?_) (fun i => sendNotices_probe t gone n s i),
    h.purge.leave gone n hmem (fun i => sendNotices_probe t gone n s i) (sendNotices_purge ..)⟩
  · intro i
    rw [naming_removeEntry h.table.indices he i, naming_perm (perm_replaceEntry h.table.indices he hi), naming_cons, hm,
      ProbeSet.has_and, ProbeSet.has_not]
    have := hsub i
    cases hg : gone.has i <;> cases hx : e.matchSet.has i <;> simp_all
  · obtain ⟨y, hy, _, hz⟩ := hmem x hx
    exact ⟨y, hy, hz⟩

/-- Admission of an entry with a free index and a new key keeps the laws (R26, R27). -/
theorem EngineLaw.admission {s : State} (h : EngineLaw s) {e : Entry} (hi : ∀ x ∈ s.trk.table, x.index ≠ e.index)
    (hk : ∀ x ∈ s.trk.table, x.key ≠ e.key) (hr : ∀ r ∈ s.trk.ring, r.key ≠ e.key) (hs : e.shaped)
    (hm : ∀ i, e.matchSet.has i = true → (s.probe i).state = .running ∧ (s.probe i).isLatency) :
    EngineLaw (enterTable e s) := by
  have hp : ∀ i, (enterTable e s).bank.probe i =
      if e.matchSet.has i then { s.probe i with inFlight := (s.probe i).inFlight + 1 } else s.probe i := by
    intro i; exact Bank.probe_mapProbes ..
  refine ⟨(h.table.insert hi hk hr hs).congr rfl rfl, ⟨?_, ?_, ?_, ?_, ?_⟩, ⟨?_, h.purge.apart, h.purge.idle, h.purge.rest, ?_⟩⟩
  · intro i
    show ((enterTable e s).bank.probe i).inFlight = naming i (insertEntry e s.trk.table)
    rw [hp, naming_insertEntry]
    have := h.flight.counts i
    split
    · show (s.probe i).inFlight + 1 = _
      rw [State.probe_eq_bank, this]
    · rw [State.probe_eq_bank, this]; rfl
  · intro x hx i hxi
    rw [hp]
    have hx' : (s.probe i).isLatency ∧
        ((s.probe i).state = .running ∨ (s.probe i).state = .draining ∨ (s.probe i).state = .purging) := by
      rcases mem_insertEntry.mp hx with rfl | hx
      · exact ⟨(hm i hxi).2, .inl (hm i hxi).1⟩
      · exact h.flight.named x hx i hxi
    split
    · exact hx'
    · exact hx'
  · intro i hst
    rw [hp] at hst ⊢
    split at hst <;> rename_i hg
    · rw [if_pos hg]; exact Nat.le_add_left 1 _
    · rw [if_neg hg]; exact h.flight.draining i hst
  · intro i hst
    rw [hp] at hst ⊢
    split at hst <;> rename_i hg
    · rw [if_pos hg]; exact h.flight.deadline i hst
    · rw [if_neg hg]; exact h.flight.deadline i hst
  · intro i hst
    rw [hp] at hst ⊢
    split at hst <;> rename_i hg
    · rw [if_pos hg]; exact h.flight.cutCount i hst
    · rw [if_neg hg]; exact h.flight.cutCount i hst
  · intro i
    rw [hp]
    refine Iff.trans ?_ (h.purge.purging i)
    split <;> rfl
  · intro k hk' x hx hlt
    rcases mem_insertEntry.mp hx with rfl | hx
    · refine (ProbeSet.eq_zero_iff _).mpr fun i => ?_
      rw [ProbeSet.has_and]
      cases hxi : x.matchSet.has i
      · rfl
      · have hrun := (hm i hxi).1
        cases hc : s.bank.purge.current.has i
        · show (true && s.bank.purge.current.has i) = false
          rw [hc]; rfl
        · have := (h.purge.purging i).mpr (.inl hc)
          rw [State.probe_eq_bank] at hrun
          rw [hrun] at this; cases this
    · exact h.purge.visited k hk' x hx hlt

end Sys2Proof.Machine
end

