-- ==== Sys2Proof/Laws/EngineSteps.lean ====
section
/-! SUPPORT. The handling of a record, an expiry, and the bank's own operations keep the laws of the engine. -/

namespace Sys2Proof.Machine

/-- The laws look at the table, the ring and the bank alone. -/
theorem EngineLaw.congr {s t : State} (h : EngineLaw s) (ht : t.trk.table = s.trk.table) (hr : t.trk.ring = s.trk.ring)
    (hb : t.bank = s.bank) : EngineLaw t where
  table := h.table.congr ht hr
  flight := by rw [ht, hb]; exact h.flight
  purge := by rw [ht, hb]; exact h.purge

/-- What the laws read of a bank: the conditions of its probes and the sets and position of its purge engine. -/
structure SameCondition (b c : Bank) : Prop where
  probes : ∀ i, (c.probe i).state = (b.probe i).state ∧ (c.probe i).inFlight = (b.probe i).inFlight ∧
    (c.probe i).definition = (b.probe i).definition ∧ (c.probe i).drainDeadline = (b.probe i).drainDeadline ∧
    (c.probe i).cutCount = (b.probe i).cutCount
  current : c.purge.current = b.purge.current
  waiting : c.purge.waiting = b.purge.waiting
  position : c.purge.position = b.purge.position

theorem SameCondition.refl (b : Bank) : SameCondition b b := ⟨fun _ => ⟨rfl, rfl, rfl, rfl, rfl⟩, rfl, rfl, rfl⟩

theorem SameCondition.trans {a b c : Bank} (h : SameCondition a b) (k : SameCondition b c) : SameCondition a c :=
  ⟨fun i => ⟨(k.probes i).1.trans (h.probes i).1, (k.probes i).2.1.trans (h.probes i).2.1,
    (k.probes i).2.2.1.trans (h.probes i).2.2.1, (k.probes i).2.2.2.1.trans (h.probes i).2.2.2.1,
    (k.probes i).2.2.2.2.trans (h.probes i).2.2.2.2⟩,
    k.current.trans h.current, k.waiting.trans h.waiting, k.position.trans h.position⟩

/-- A change of the bank's probes by their numbers that leaves their conditions. -/
theorem sameCondition_mapProbes (b : Bank) (f : ProbeNo → Probe → Probe)
    (h : ∀ i x, (f i x).state = x.state ∧ (f i x).inFlight = x.inFlight ∧ (f i x).definition = x.definition ∧
      (f i x).drainDeadline = x.drainDeadline ∧ (f i x).cutCount = x.cutCount) :
    SameCondition b (b.mapProbes f) :=
  ⟨fun i => by rw [Bank.probe_mapProbes]; exact h i _, rfl, rfl, rfl⟩

theorem EngineLaw.condition {s t : State} (h : EngineLaw s) (ht : t.trk.table = s.trk.table)
    (hr : t.trk.ring = s.trk.ring) (hb : SameCondition s.bank t.bank) : EngineLaw t where
  table := h.table.congr ht hr
  flight := by rw [ht]; exact h.flight.congr hb.probes
  purge := by
    rw [ht]
    exact h.purge.congr (fun i => by rw [(hb.probes i).1]) hb.current hb.waiting hb.position

/-- Marks of what is due may change (log 6). -/
theorem EngineLaw.marks {s t : State} (h : EngineLaw s) (f : Entry → Entry) (ht : t.trk.table = s.trk.table.map f)
    (hf : ∀ e, ∃ d, f e = { e with dueAhead := d }) (hr : t.trk.ring = s.trk.ring)
    (hb : SameCondition s.bank t.bank) : EngineLaw t := by
  have key : ∀ e, (f e).index = e.index ∧ (f e).key = e.key ∧ (f e).matchSet = e.matchSet ∧ (e.shaped → (f e).shaped) := by
    intro e; obtain ⟨d, hd⟩ := hf e; rw [hd]; exact ⟨rfl, rfl, rfl, id⟩
  have hmap : ∀ {β : Type} (g : Entry → β), (∀ e, g (f e) = g e) → (s.trk.table.map f).map g = s.trk.table.map g := by
    intro β g hg; rw [List.map_map]; exact List.map_congr_left fun e _ => hg e
  refine ⟨⟨?_, ?_, ?_, ?_, ?_⟩, ?_, ?_⟩
  · rw [ht, hmap _ fun e => (key e).1]; exact h.table.indices
  · rw [ht, hmap _ fun e => (key e).2.1]; exact h.table.keys
  · rw [hr]; exact h.table.ringKeys
  · intro r hr' e he
    rw [ht] at he; rw [hr] at hr'
    obtain ⟨x, hx, rfl⟩ := List.mem_map.mp he
    rw [(key x).2.1]; exact h.table.apart r hr' x hx
  · intro e he
    rw [ht] at he
    obtain ⟨x, hx, rfl⟩ := List.mem_map.mp he
    exact (key x).2.2.2 (h.table.shapes x hx)
  · rw [ht]; exact (h.flight.map f fun e _ => (key e).2.2.1).congr hb.probes
  · rw [ht]
    exact (h.purge.map f fun e _ => ⟨(key e).2.2.1, (key e).1⟩).congr (fun i => by rw [(hb.probes i).1]) hb.current
      hb.waiting hb.position

/-! ### Requests and parts -/

/-- The match set of a new entry holds RUNNING latency probes only (R27). -/
theorem matchSetOf_has {b : Bank} {group : Fin 8} {kind : RequestKind} {tag : Byte} {length : Nat} {i : ProbeNo}
    (h : (matchSetOf b group kind tag length).has i = true) : (b.probe i).state = .running ∧ (b.probe i).isLatency := by
  unfold matchSetOf at h
  rw [probesWhere_has, Bool.and_eq_true] at h
  refine ⟨by simpa using h.1, ?_⟩
  cases hd : (b.probe i).definition with
  | none => simp [hd] at h
  | some d =>
    simp only [hd, Bool.and_eq_true] at h
    exact ⟨d, hd, h.2.1⟩

theorem newEntry_shaped (index : Fin 256) (key : Key) (kind : TrackedKind) (length : Nat) (stamp : Tick) (s : State) :
    (newEntry index key kind length stamp s).shaped := ⟨rfl, rfl, rfl⟩

theorem EngineLaw.dropKey {s : State} (h : EngineLaw s) (key : Key) :
    EngineLaw { s with trk := { s.trk with ring := dropKey key s.trk.ring } } :=
  ⟨(h.table.ringSublist (dropKey_sublist key s.trk.ring)).congr rfl rfl, h.flight, h.purge⟩

theorem EngineLaw.untracked {s : State} (h : EngineLaw s) (stamp : Tick) : EngineLaw (untracked stamp s) :=
  h.congr rfl rfl rfl

/-- A tracked request keeps the laws (R21). -/
theorem EngineLaw.request {s : State} (h : EngineLaw s) (key : Key) (kind : TrackedKind) (length : Nat) (stamp : Tick) :
    EngineLaw (handleRequest key kind length stamp s) := by
  unfold handleRequest
  cases hf : findKey s.trk.table key with
  | some old =>
    obtain ⟨ho, hk⟩ := mem_of_findKey hf
    dsimp only
    apply (h.closed ho .superseded stamp 0).admission
    · intro x hx; exact index_ne_of_mem_removeEntry h.table.indices hx
    · intro x hx
      have hx' : x ∈ removeEntry old.index s.trk.table := hx
      have hne := index_ne_of_mem_removeEntry h.table.indices hx'
      intro hxk
      have : x = old := eq_of_nodup_map h.table.keys (mem_of_mem_removeEntry hx') ho (hxk.trans hk.symm)
      exact hne (by rw [this])
    · intro r hr
      have := h.table.apart r hr old ho
      rw [hk] at this; exact this
    · exact newEntry_shaped ..
    · intro i hi; exact matchSetOf_has hi
  | none =>
    dsimp only
    have hnone := findKey_eq_none.mp hf
    unfold admitFresh
    have h1 := h.dropKey key
    dsimp only
    split
    · split
      · rename_i i hi
        obtain ⟨hfree, _⟩ := lowestFree_eq_some.mp hi
        apply h1.admission
        · exact hfree
        · exact hnone
        · intro r hr; exact key_ne_of_mem_dropKey hr
        · exact newEntry_shaped ..
        · intro j hj; exact matchSetOf_has hj
      · exact h1.untracked stamp
    · exact h1.untracked stamp

theorem judge_continues {e : Entry} {status : Status} {bytes : Nat} {last : Bool}
    (h : judge e status bytes last = .continues) :
    e.kind = .read ∧ 0 < bytes ∧ e.received + bytes < e.expected ∧ status = .ok ∧ last = false := by
  unfold judge at h
  split at h
  · cases h
  · cases h
  · split at h
    · split at h <;> cases h
    · split at h <;> cases h
    · rename_i hk
      split at h
      · cases h
      split at h
      · cases h
      split at h
      · split at h <;> cases h
      split at h
      · cases h
      rename_i h0 h1 h2 h3
      simp only [beq_iff_eq] at h0 h2
      exact ⟨hk, by omega, by omega, rfl, by simpa using h3⟩

/-- A completion part keeps the laws (R31). -/
theorem EngineLaw.part {s : State} (h : EngineLaw s) (key : Key) (status : Status) (bytes : Nat) (last : Bool)
    (stamp : Tick) : EngineLaw (handlePart key status bytes last stamp s) := by
  unfold handlePart
  cases hf : findKey s.trk.table key with
  | some e =>
    obtain ⟨he, hk⟩ := mem_of_findKey hf
    dsimp only
    cases hj : judge e status bytes last with
    | closes o => exact h.closed he o stamp _
    | continues =>
      obtain ⟨hkind, hpos, hlt, _, _⟩ := judge_continues hj
      refine h.shrink (new := e.continued bytes stamp (leavers e s.bank)) he rfl rfl ?_ (leavers e s.bank) ?_ rfl stamp _
      · have hs := h.table.shapes e he
        unfold Entry.shaped at hs ⊢
        show e.kind = .read ∧ 1 ≤ e.parts + 1 ∧ e.parts + 1 ≤ e.received + bytes ∧ e.received + bytes < e.expected ∧
          (if e.parts == 0 then some stamp else e.first).isSome
        refine ⟨hkind, by omega, ?_, hlt, ?_⟩
        · cases hst : e.state <;> rw [hst] at hs
          · have := hs.1; have := hs.2.1; omega
          · have := hs.2.2.1; omega
        · cases hst : e.state <;> rw [hst] at hs
          · simp [hs.1]
          · split
            · rfl
            · exact hs.2.2.2.2
      · intro i hi
        unfold leavers at hi
        split at hi
        · rw [ProbeSet.has_and, Bool.and_eq_true] at hi; exact hi.1
        · simp at hi
  | none =>
    dsimp only
    unfold Tracking.strayPart
    split
    · split
      · exact ⟨(h.table.ringSublist (dropKey_sublist key s.trk.ring)).congr rfl rfl, h.flight, h.purge⟩
      · exact h.congr rfl rfl rfl
    · exact h.congr rfl rfl rfl

/-- An expiry keeps the laws (R53). -/
theorem EngineLaw.expire {s : State} (h : EngineLaw s) {e : Entry} (he : e ∈ s.trk.table) :
    EngineLaw (expireEntry e s) := by
  have h1 := h.closed he .timedOut e.deadline 0
  refine ⟨(h1.table.push (r := { key := e.key, kind := e.kind, expiry := e.deadline }) ?_ ?_).congr rfl rfl,
    h1.flight, h1.purge⟩
  · intro r hr; exact h.table.apart r hr e he
  · intro x hx
    have hx' : x ∈ removeEntry e.index s.trk.table := hx
    intro hxk
    exact index_ne_of_mem_removeEntry h.table.indices hx'
      (by rw [eq_of_nodup_map h.table.keys (mem_of_mem_removeEntry hx') he hxk])

/-! ### The handling of a record -/

theorem sameCondition_offerRecord (r : Record) (s : State) : SameCondition s.bank (offerRecord r s).bank := by
  unfold offerRecord
  apply sameCondition_mapProbes
  intro i x
  split <;> exact ⟨rfl, rfl, rfl, rfl, rfl⟩

theorem EngineLaw.offer {s : State} (h : EngineLaw s) (r : Record) : EngineLaw (offerRecord r s) :=
  h.condition rfl rfl (sameCondition_offerRecord r s)

theorem sameCondition_zeroProbes (set : ProbeSet) (s : State) : SameCondition s.bank (zeroProbes set s).bank := by
  unfold zeroProbes
  apply sameCondition_mapProbes
  intro i x
  split <;> exact ⟨rfl, rfl, rfl, rfl, rfl⟩

theorem sameCondition_serveTrigger (label : BitVec 16) (stamp : Tick) (s : State) (n : Fin 4) :
    SameCondition s.bank (serveTrigger label stamp s n).bank ∧ (serveTrigger label stamp s n).trk = s.trk := by
  unfold serveTrigger
  split
  · split
    · unfold fireTrigger
      split
      · exact ⟨sameCondition_zeroProbes _ { s with harv := _ }, rfl⟩
      · exact ⟨SameCondition.refl _, rfl⟩
    · exact ⟨SameCondition.refl _, rfl⟩
  · exact ⟨SameCondition.refl _, rfl⟩

theorem sameCondition_serveTriggers (label : BitVec 16) (stamp : Tick) (s : State) :
    SameCondition s.bank (serveTriggers label stamp s).bank ∧ (serveTriggers label stamp s).trk = s.trk := by
  unfold serveTriggers
  generalize List.finRange 4 = l
  induction l generalizing s with
  | nil => exact ⟨SameCondition.refl _, rfl⟩
  | cons n l ih =>
    obtain ⟨h1, h2⟩ := sameCondition_serveTrigger label stamp s n
    obtain ⟨h3, h4⟩ := ih (serveTrigger label stamp s n)
    exact ⟨h1.trans h3, h4.trans h2⟩

theorem EngineLaw.fireMark {s : State} (h : EngineLaw s) (r : Record) (stamp : Tick) :
    EngineLaw (fireMark r stamp s) := by
  unfold Machine.fireMark
  split
  · rename_i label
    obtain ⟨h1, h2⟩ := sameCondition_serveTriggers label stamp s
    exact h.condition (by rw [h2]) (by rw [h2]) h1
  all_goals exact h

theorem EngineLaw.engineHandle {s : State} (h : EngineLaw s) (r : Record) (stamp : Tick) :
    EngineLaw (engineHandle r stamp s) := by
  unfold Machine.engineHandle
  split
  · split
    · exact h.request ..
    · exact h
  · exact h.part ..
  all_goals exact h

@[simp] theorem popRecord_probe (s : State) (i : ProbeNo) : (popRecord s).probe i = (s.probe i).countDown :=
  mapFin_get s.bank.probes (fun _ x => x.countDown) i

theorem sameCondition_popRecord (s : State) : SameCondition s.bank (popRecord s).bank := by
  refine ⟨fun i => ?_, rfl, rfl, rfl⟩
  rw [← State.probe_eq_bank, popRecord_probe]
  exact ⟨rfl, rfl, rfl, rfl, rfl⟩

theorem EngineLaw.popRecord {s : State} (h : EngineLaw s) : EngineLaw (popRecord s) :=
  h.marks Entry.countDown rfl (fun _ => ⟨_, rfl⟩) rfl (sameCondition_popRecord s)

theorem EngineLaw.handleRecord {s : State} (h : EngineLaw s) (x : Stamped) : EngineLaw (handleRecord x s) :=
  ((h.engineHandle x.record x.stamp).offer x.record).fireMark x.record x.stamp

theorem EngineLaw.tick {s : State} (h : EngineLaw s) (now : Tick) (queued : Nat) :
    EngineLaw { s with
      timebase := now
      trk := { s.trk with table := s.trk.table.map (Entry.tick now queued) }
      bank := s.bank.mapProbes (fun _ x => x.tick now queued) } := by
  refine h.marks (Entry.tick now queued) rfl (fun e => ?_) rfl (sameCondition_mapProbes _ _ fun i x => ?_)
  · unfold Entry.tick; split
    · exact ⟨_, rfl⟩
    · exact ⟨e.dueAhead, rfl⟩
  · unfold Probe.tick; split <;> exact ⟨rfl, rfl, rfl, rfl, rfl⟩

end Sys2Proof.Machine
end

