-- ==== Sys2Proof/Laws/Dispatch.lean ====
section
/-! SUPPORT. All that the dispatch of a management command can do: the command that was taken is answered as its checks
and its block decide, or the state stands. -/

namespace Sys2Proof.Machine

/-! ### Taking a command -/

/-- Where the dispatcher takes nothing the port stands. -/
theorem takeNext_of_busy {x : PortState} (h : x.executing.isSome ∨ x.reply.isSome ∨ x.commands = []) :
    x.takeNext = x := by
  unfold PortState.takeNext
  split
  · rename_i h1 h2 h3; simp [h1, h2, h3] at h
  all_goals rfl

/-- An idle dispatcher takes the head of the queue. -/
theorem takeNext_of_idle {x : PortState} {c : Command} {rest : List Command} (h1 : x.executing = none)
    (h2 : x.reply = none) (h3 : x.commands = c :: rest) :
    x.takeNext = { x with executing := some c, commands := rest } := by
  simp [PortState.takeNext, h1, h2, h3]

/-- Taking a command reaches the queue and the executing command alone. -/
theorem takeNext_eq (x : PortState) :
    x.takeNext = { x with executing := x.takeNext.executing, commands := x.takeNext.commands } := by
  unfold PortState.takeNext
  split <;> rfl

/-- The queue never grows by a taking. -/
theorem takeNext_commands_length (x : PortState) : x.takeNext.commands.length ≤ x.commands.length := by
  unfold PortState.takeNext
  split
  · rename_i h; simp [h]
  all_goals exact Nat.le_refl _

/-- The law of a dispatcher speaks of the queue, the executing command and the reply buffer alone. -/
theorem DispatchLaw.congr {x y : PortState} (h : DispatchLaw x) (hc : y.commands = x.commands)
    (he : y.executing = x.executing) (hr : y.reply = x.reply) : DispatchLaw y :=
  ⟨by rw [he, hr]; exact h.buffer, by rw [hc, he, hr]; exact h.prompt⟩

/-- A received frame joins a queue with room while the dispatcher is busy. -/
theorem receive_of_busy {x : PortState} {content : List Byte} {c : Command} (hc : commandOf content = some c)
    (h : x.commands.length < 4) (hb : x.executing.isSome ∨ x.reply.isSome) :
    x.receive content = { x with framer := .hunt, commands := x.commands ++ [c] } := by
  unfold PortState.receive
  rw [hc]
  exact (if_pos h).trans (takeNext_of_busy (hb.imp id .inl))

/-- A received frame joins a queue with room, and an idle dispatcher takes the head. -/
theorem receive_of_idle {x : PortState} {content : List Byte} {c head : Command} {rest : List Command}
    (hc : commandOf content = some c) (h : x.commands.length < 4) (he : x.executing = none) (hr : x.reply = none)
    (hq : x.commands ++ [c] = head :: rest) :
    x.receive content = { x with framer := .hunt, executing := some head, commands := rest } := by
  unfold PortState.receive
  rw [hc]
  exact (if_pos h).trans (takeNext_of_idle he hr hq)

/-- A received frame that finds a full queue leaves a QUEUE_FULL notice. -/
theorem receive_of_full {x : PortState} {content : List Byte} {c : Command} (hc : commandOf content = some c)
    (h : 4 ≤ x.commands.length) :
    x.receive content =
      { x with framer := .hunt, notice := some { type := c.type, seq := c.seq, code := .queueFull, body := [] } } := by
  unfold PortState.receive
  rw [hc]
  exact if_neg (Nat.not_lt.mpr h)

/-- After a taking the dispatcher has no more to take. -/
theorem dispatchLaw_takeNext {x : PortState} (h : x.executing.isSome → x.reply = none) : DispatchLaw x.takeNext := by
  unfold PortState.takeNext
  split
  · rename_i h2 _; exact ⟨fun _ => h2, fun _ => .inl rfl⟩
  · rename_i h3; exact ⟨h, fun hc => absurd h3 hc⟩
  · rename_i h2; exact ⟨h, fun _ => .inr (by simp [h2])⟩
  · rename_i h1; exact ⟨h, fun _ => .inl (by simp [h1])⟩

/-! ### Executing a command -/

theorem isRetry_eq_false {x : PortState} {c : Command} :
    isRetry x c = false ↔ ∀ r, x.lastReply = some r → r.seq = c.seq → r.type ≠ c.type := by
  cases h : x.lastReply <;> simp [isRetry, h]

theorem isRetry_eq_true {x : PortState} {c : Command} :
    isRetry x c = true ↔ ∃ r, x.lastReply = some r ∧ r.seq = c.seq ∧ r.type = c.type := by
  cases h : x.lastReply <;> simp [isRetry, h]

theorem conclude_refusal (p : Port) (c : Command) (s : State) (code : ReplyCode) (body : List Byte) :
    conclude p c s (.refusal code body) = answered p c code body s := rfl

theorem conclude_accept (p : Port) (c : Command) (s u : State) (body : List Byte) :
    conclude p c s (.accept body u) = answered p c .ok body u := rfl

/-- A waiting command of the type is carried out and answered. -/
theorem dispatch_of_waits {p : Port} {c : Command} {s : State} (h : CommandWaits p c s) {type : Byte} (ht : c.type = type)
    (run : List Byte → State → Verdict) : dispatch p type run s = .next (conclude p c s (run c.body s)) := by
  have hr : isRetry (s.port p) c = false := isRetry_eq_false.mpr h.fresh
  simp [dispatch, h.taken, whileReleased, h.released, hr, ht]

/-- Where no command of the type waits, the state stands. -/
theorem dispatch_otherwise {p : Port} {type : Byte} {s : State} (h : ∀ c, CommandWaits p c s → c.type ≠ type)
    (run : List Byte → State → Verdict) : dispatch p type run s = .next s := by
  unfold dispatch
  split
  · rename_i c hq
    unfold whileReleased
    split
    · rename_i h1
      split
      · rename_i hc
        simp only [Bool.and_eq_true, beq_iff_eq, Bool.not_eq_true'] at hc
        exact absurd hc.1 (h c ⟨h1, hq, isRetry_eq_false.mp hc.2⟩)
      · rfl
    · rfl
  · rfl

/-- The two ways a dispatch ends. -/
theorem dispatch_cases (p : Port) (type : Byte) (run : List Byte → State → Verdict) (s : State) :
    dispatch p type run s = .next s ∨ ∃ c, CommandWaits p c s ∧ c.type = type ∧
      dispatch p type run s = .next (conclude p c s (run c.body s)) := by
  by_cases h : ∃ c, CommandWaits p c s ∧ c.type = type
  · obtain ⟨c, hw, ht⟩ := h
    exact .inr ⟨c, hw, ht, dispatch_of_waits hw ht run⟩
  · exact .inl (dispatch_otherwise (fun c hw ht => h ⟨c, hw, ht⟩) run)

/-- A property that answering keeps, and that the command's effect keeps, a dispatch keeps. -/
theorem dispatch_keeps {Inv : State → Prop} {p : Port} {type : Byte} {run : List Byte → State → Verdict} {s t : State}
    (hs : Inv s) (hanswer : ∀ u c code body, Inv u → Inv (answered p c code body u))
    (hrun : ∀ body reply u, run body s = .accept reply u → Inv u) (h : dispatch p type run s = .next t) : Inv t := by
  rcases dispatch_cases p type run s with h' | ⟨c, hw, -, h'⟩
  · rw [h'] at h; cases h; exact hs
  · rw [h'] at h; cases h
    cases hv : run c.body s with
    | refusal code body => exact hanswer _ _ _ _ hs
    | accept body u => exact hanswer _ _ _ _ (hrun c.body body u hv)

/-! ### The levels of checks -/

theorem refuseIf_eq_accept {fails : Bool} {code : ReplyCode} {v : Verdict} {body : List Byte} {u : State} :
    refuseIf fails code v = .accept body u ↔ fails = false ∧ v = .accept body u := by
  cases fails <;> simp [refuseIf]

theorem refuseProbe_eq_accept {i : Option ProbeNo} {code : ProbeNo → ReplyCode} {v : Verdict} {body : List Byte}
    {u : State} : refuseProbe i code v = .accept body u ↔ i = none ∧ v = .accept body u := by
  cases i <;> simp [refuseProbe]

theorem whenOpen_eq_accept {p : Port} {s : State} {ok : Bool} {v : Verdict} {body : List Byte} {u : State} :
    whenOpen p s ok v = .accept body u ↔ ok = true ∧ (s.port p).isOpen = true ∧ v = .accept body u := by
  simp [whenOpen, refuseIf_eq_accept]

theorem whenHolder_eq_accept {p : Port} {s : State} {v : Verdict} {body : List Byte} {u : State} :
    whenHolder p s v = .accept body u ↔ s.mgmt.holder = some p ∧ v = .accept body u := by
  simp [whenHolder, refuseIf_eq_accept]

theorem whenOwner_eq_accept {p : Port} {s : State} {set : ProbeSet} {v : Verdict} {body : List Byte} {u : State} :
    whenOwner p s set v = .accept body u ↔
      lowestIn set (fun i => !(s.probe i).ownedBy p) = none ∧ v = .accept body u := by
  simp [whenOwner, refuseProbe_eq_accept]

theorem whenStates_eq_accept {set : ProbeSet} {ok : ProbeState → Bool} {s : State} {v : Verdict} {body : List Byte}
    {u : State} : whenStates set ok s v = .accept body u ↔
      lowestIn set (fun i => !ok (s.probe i).state) = none ∧ v = .accept body u := by
  simp [whenStates, refuseProbe_eq_accept]

theorem whenOpen_pass {p : Port} {s : State} {ok : Bool} (v : Verdict) (h : ok = true) (ho : (s.port p).isOpen = true) :
    whenOpen p s ok v = v := by
  simp [whenOpen, refuseIf, h, ho]

theorem whenHolder_pass {p : Port} {s : State} (v : Verdict) (h : s.mgmt.holder = some p) : whenHolder p s v = v := by
  simp [whenHolder, refuseIf, h]

/-! ### The state once a command was answered -/

@[simp] theorem answered_pending (p : Port) (c : Command) (code : ReplyCode) (body : List Byte) (s : State) :
    (answered p c code body s).pending = s.pending := rfl
@[simp] theorem answered_trk (p : Port) (c : Command) (code : ReplyCode) (body : List Byte) (s : State) :
    (answered p c code body s).trk = s.trk := rfl
@[simp] theorem answered_obs (p : Port) (c : Command) (code : ReplyCode) (body : List Byte) (s : State) :
    (answered p c code body s).obs = s.obs := rfl
@[simp] theorem answered_bank (p : Port) (c : Command) (code : ReplyCode) (body : List Byte) (s : State) :
    (answered p c code body s).bank = s.bank := rfl
@[simp] theorem answered_pool (p : Port) (c : Command) (code : ReplyCode) (body : List Byte) (s : State) :
    (answered p c code body s).pool = s.pool := rfl
@[simp] theorem answered_harv (p : Port) (c : Command) (code : ReplyCode) (body : List Byte) (s : State) :
    (answered p c code body s).harv = s.harv := rfl
@[simp] theorem answered_port (p : Port) (c : Command) (code : ReplyCode) (body : List Byte) (s : State) :
    (answered p c code body s).port p = { s.port p with
      executing := none
      reply := some { type := c.type, seq := c.seq, code := code, body := body }
      lastReply := some { type := c.type, seq := c.seq, code := code, body := body } } := State.port_setPort s p _
@[simp] theorem answered_port_other (p : Port) (c : Command) (code : ReplyCode) (body : List Byte) (s : State) :
    (answered p c code body s).port p.other = s.port p.other := State.port_setPort_other s p _
@[simp] theorem answered_holder (p : Port) (c : Command) (code : ReplyCode) (body : List Byte) (s : State) :
    (answered p c code body s).mgmt.holder = s.mgmt.holder := setPort_holder s.mgmt p _

/-- A command that passes levels 1 to 3 is answered by what its further checks decide; `hrun` and `hok` hold by `rfl` and by
`h.length` for every command of Table 10-5 but SET_TIMEOUTS and DEFINE_PROBE (`lengthAccepted_settings`,
`lengthAccepted_define`). -/
theorem dispatch_of_passes {p : Port} {type : Byte} {c : Command} {s : State} (h : CommandPasses p type c s)
    {run : List Byte → State → Verdict} {ok : Bool} {v : Verdict} (hrun : run c.body s = whenOpen p s ok v)
    (hok : ok = true) : dispatch p type run s = .next (conclude p c s v) := by
  rw [dispatch_of_waits h.waits h.typed, hrun, whenOpen_pass v hok h.session]

/-! ### The session close -/

/-- A frame loses at most its hold on the head alert (R147). -/
theorem orphaned_eq (f : Transmission) : f.orphaned = completing f := by
  obtain ⟨what, bytes⟩ := f
  cases what with
  | alert stillHead => cases stillHead <;> rfl
  | _ => rfl

theorem orphaned_eq_completing : Transmission.orphaned = completing := funext orphaned_eq

/-- A port after its session close (R166, Table 9-3). -/
theorem sessionClose_port (p : Port) (s : State) : (sessionClose p s).port p = { s.port p with
    isOpen := false
    alerts := []
    head := HeadAlert.none
    lostCount := 0
    mask := AlertMask.empty
    sending := (s.port p).sending.map completing } := by
  rw [← orphaned_eq_completing]
  cases p <;> rfl

/-! ### The lengths of Table 10-5 -/

theorem lengthAccepted_settings (body : List Byte) : lengthAccepted 0x1C#8 body = settingsLengthOk body := by
  have h : lengthAccepted 0x1C#8 body = [5, 10, 15].contains body.length := rfl
  rw [h, settingsLengthOk, Bool.eq_iff_iff]
  simp [or_assoc]

theorem lengthAccepted_define (body : List Byte) : lengthAccepted 0x2A#8 body = defineLengthOk body := by
  have h : lengthAccepted 0x2A#8 body =
      if body.length == 33 then body[32]? == some 0 else body.length == 38 && body[32]? != some 0 := rfl
  rw [h, defineLengthOk, requestsUnit, byteAt, List.getD_eq_getElem?_getD]
  by_cases h33 : body.length = 33
  · obtain ⟨b, e⟩ : ∃ b, body[32]? = some b := ⟨body[32], List.getElem?_eq_getElem (by omega)⟩
    rw [e, h33, Option.getD_some]
    cases hz : (b == 0#8) <;> simp_all [bne]
  · by_cases h38 : body.length = 38
    · obtain ⟨b, e⟩ : ∃ b, body[32]? = some b := ⟨body[32], List.getElem?_eq_getElem (by omega)⟩
      rw [e, h38, Option.getD_some]
      cases hz : (b == 0#8) <;> simp_all [bne]
    · have a : (body.length == 33) = false := by simpa using h33
      have b : (body.length == 38) = false := by simpa using h38
      simp [a, b]

end Sys2Proof.Machine
end

