-- ==== Sys2Proof/Laws/Effects.lean ====
section
/-! SUPPORT. All that an accepted management command can do to the part, and the one theorem that says so for every
command of Table 10-5: an invariant is proved by its cases. -/

namespace Sys2Proof.Machine

/-- The effects of the accepted commands of port `p`: each with what its checks have found. Only the first two happen in
a CLOSED session. -/
inductive CommandEffect (p : Port) (s : State) : State → Prop
  | nothing : CommandEffect p s s
  | sessionOpened (h : (s.port p).isOpen = false) : CommandEffect p s (sessionOpen p s)
  | sessionClosed (ho : (s.port p).isOpen = true) : CommandEffect p s (sessionClose p s)
  | holder (h : Option Port) (ho : (s.port p).isOpen = true) (hh : h = none ∨ h = some p) :
    CommandEffect p s (s.setHolder h)
  | intake (b : Bool) (ho : (s.port p).isOpen = true) (hc : s.mgmt.holder = some p) :
    CommandEffect p s { s with obs := { s.obs with enabled := b } }
  | trackingCleared (ho : (s.port p).isOpen = true) (hc : s.mgmt.holder = some p) : CommandEffect p s (trackingClear s)
  | timeouts (x : Timeouts) (ho : (s.port p).isOpen = true) (hc : s.mgmt.holder = some p) :
    CommandEffect p s { s with trk := { s.trk with timeouts := x } }
  | groupMap (m : Vector (Fin 8) 32) (ho : (s.port p).isOpen = true) (hc : s.mgmt.holder = some p) :
    CommandEffect p s { s with trk := { s.trk with groupMap := m } }
  | claimed (set : ProbeSet) (ho : (s.port p).isOpen = true) :
    CommandEffect p s { s with bank := s.bank.own set (some p) }
  | unclaimed (set : ProbeSet) (ho : (s.port p).isOpen = true) :
    CommandEffect p s { s with bank := s.bank.own set none }
  | defined (i : ProbeNo) (d : Definition) (ho : (s.port p).isOpen = true)
      (hr : (s.probe i).state.atRest = true) :
    CommandEffect p s (defineProbe i d none (returnUnit (s.probe i) s.pool) s)
  | definedWithUnit (i : ProbeNo) (d : Definition) (h : HistMode × BitVec 32) (k : Fin 8)
      (ho : (s.port p).isOpen = true) (hr : (s.probe i).state.atRest = true) (hl : d.measure.isLatency = true)
      (hk : (returnUnit (s.probe i) s.pool)[k] = none) :
    CommandEffect p s
      (defineProbe i d (some k) ((returnUnit (s.probe i) s.pool).set k (some (attachedUnit i h))) s)
  | started (set : ProbeSet) (ho : (s.port p).isOpen = true)
      (hs : ∀ i, set.has i = true → (s.probe i).state = .armed ∨ (s.probe i).state = .held) :
    CommandEffect p s { s with bank := s.bank.start set }
  | stopped (mode : Nat) (set : ProbeSet) (ho : (s.port p).isOpen = true)
      (hs : ∀ i, set.has i = true → (s.probe i).state = .running) :
    CommandEffect p s { s with bank := s.bank.stop mode set s.timebase s.obs.queue.length }
  | probesCleared (set : ProbeSet) (ho : (s.port p).isOpen = true)
      (hs : ∀ i, set.has i = true → (s.probe i).state.atRest = true) : CommandEffect p s (clearProbes set s)
  | harvested (k : Fin 4) (set zeroed : ProbeSet) (ho : (s.port p).isOpen = true) :
    CommandEffect p s (makeHarvest k p .command set zeroed s)
  | slotFreed (k : Fin 4) (ho : (s.port p).isOpen = true) : CommandEffect p s (freeSlot k s)
  | triggerSet (n : Fin 4) (x : Trigger) (ho : (s.port p).isOpen = true) (hx : x.owner = p) :
    CommandEffect p s (s.setTrigger n (some x))
  | triggerCleared (n : Fin 4) (ho : (s.port p).isOpen = true) : CommandEffect p s (s.setTrigger n none)
  | masked (m : AlertMask) (ho : (s.port p).isOpen = true) :
    CommandEffect p s (s.setPort p { s.port p with mask := m })
  | acknowledged (al : Alert) (rest : List Alert) (ho : (s.port p).isOpen = true)
      (ha : (s.port p).alerts = al :: rest) : CommandEffect p s (acknowledge p al s)

/-- Each verdict of a command's checks is a refusal with a code other than OK, or acceptance with one of the effects. -/
def Verdict.sound (p : Port) (s : State) (v : Verdict) : Prop :=
  (∀ code body, v = .refusal code body → code ≠ .ok) ∧ ∀ body u, v = .accept body u → CommandEffect p s u

theorem Verdict.sound_refusal {p : Port} {s : State} {code : ReplyCode} (body : List Byte) (h : code ≠ .ok) :
    (Verdict.refusal code body).sound p s :=
  ⟨fun _ _ e => (Verdict.refusal.inj e).1 ▸ h, fun _ _ e => Verdict.noConfusion e⟩

theorem Verdict.sound_accept {p : Port} {s u : State} (body : List Byte) (h : CommandEffect p s u) :
    (Verdict.accept body u).sound p s :=
  ⟨fun _ _ e => Verdict.noConfusion e, fun _ _ e => (Verdict.accept.inj e).2 ▸ h⟩

theorem sound_refuseIf {p : Port} {s : State} {fails : Bool} {code : ReplyCode} {v : Verdict} (hc : code ≠ .ok)
    (h : fails = false → v.sound p s) : (refuseIf fails code v).sound p s := by
  cases fails
  · exact h rfl
  · exact Verdict.sound_refusal [] hc

theorem sound_refuseProbe {p : Port} {s : State} {i : Option ProbeNo} {code : ProbeNo → ReplyCode} {v : Verdict}
    (hc : ∀ i, code i ≠ .ok) (h : i = none → v.sound p s) : (refuseProbe i code v).sound p s := by
  cases i
  · exact h rfl
  · exact Verdict.sound_refusal _ (hc _)

theorem sound_whenOpen {p : Port} {s : State} {ok : Bool} {v : Verdict}
    (h : ok = true → (s.port p).isOpen = true → v.sound p s) : (whenOpen p s ok v).sound p s :=
  sound_refuseIf nofun fun h1 => sound_refuseIf nofun fun h2 => h (by simpa using h1) (by simpa using h2)

theorem sound_whenHolder {p : Port} {s : State} {v : Verdict} (h : s.mgmt.holder = some p → v.sound p s) :
    (whenHolder p s v).sound p s :=
  sound_refuseIf nofun fun h1 => h (by simpa using h1)

theorem sound_whenOwner {p : Port} {s : State} {set : ProbeSet} {v : Verdict} (h : v.sound p s) :
    (whenOwner p s set v).sound p s :=
  sound_refuseProbe (fun _ => nofun) fun _ => h

theorem refusal_ne_ok (x : ProbeState) : x.refusal ≠ .ok := by cases x <;> simp [ProbeState.refusal]

theorem sound_whenStates {p : Port} {s : State} {set : ProbeSet} {ok : ProbeState → Bool} {v : Verdict}
    (h : (∀ i, set.has i = true → ok (s.probe i).state = true) → v.sound p s) :
    (whenStates set ok s v).sound p s :=
  sound_refuseProbe (fun _ => refusal_ne_ok _) fun hn => h fun i hi => by
    simpa using lowestIn_eq_none.mp hn i hi

/-- The sound acceptance of a command that reports. -/
theorem sound_report {p : Port} {s : State} {ok : Bool} (body : List Byte) :
    (whenOpen p s ok (.accept body s)).sound p s :=
  sound_whenOpen fun _ _ => Verdict.sound_accept _ .nothing

theorem startable_iff (x : ProbeState) : x.startable = true ↔ x = .armed ∨ x = .held := by
  cases x <;> simp [ProbeState.startable]

theorem atRest_iff (x : ProbeState) : x.atRest = true ↔ x = .unbound ∨ x = .armed ∨ x = .held := by
  cases x <;> simp [ProbeState.atRest]

theorem sound_defineProbe (p : Port) (body : List Byte) (s : State) : (cmdDefineProbe p body s).sound p s := by
  refine sound_whenOpen fun _ ho => ?_
  split
  · rename_i h
    dsimp only
    split
    · split
      · exact Verdict.sound_refusal _ nofun
      · rename_i d request hd
        split
        · rename_i hr
          unfold allocate
          dsimp only
          split
          · exact Verdict.sound_accept _ (.defined _ d ho hr)
          · rename_i hist
            split
            · rename_i k hk
              refine Verdict.sound_accept _ (.definedWithUnit _ d hist k ho hr ?_ (lowestNone_eq_some.mp hk).1)
              unfold checkedDefinition at hd
              split at hd
              · cases hd
              · dsimp only at hd
                split at hd
                · split at hd
                  · split at hd
                    · rename_i m _ _ _ hm
                      cases hh : histRequestOfBody body with
                      | none => rw [hh] at hd; cases hd
                      | some x => rw [hh] at hd; cases hd; exact hm
                    · cases hd
                  · cases hd
                · cases hd
            · exact Verdict.sound_refusal _ nofun
        · exact Verdict.sound_refusal _ (refusal_ne_ok _)
    · exact Verdict.sound_refusal _ nofun
  · exact Verdict.sound_refusal _ nofun

theorem sound_harvest (p : Port) (body : List Byte) (s : State) : (cmdHarvest p body s).sound p s := by
  refine sound_whenOpen fun _ ho => sound_whenOwner (sound_refuseIf nofun fun _ =>
    sound_refuseProbe (fun _ => nofun) fun _ => ?_)
  split
  · exact Verdict.sound_accept _ (.harvested _ _ _ ho)
  · exact Verdict.sound_refusal _ nofun

theorem sound_readSnapshot (p : Port) (body : List Byte) (s : State) : (cmdReadSnapshot p body s).sound p s := by
  refine sound_whenOpen fun _ ho => ?_
  split
  · exact Verdict.sound_refusal _ nofun
  · split
    · exact sound_refuseIf nofun fun _ => sound_refuseIf nofun fun _ => Verdict.sound_accept _ .nothing
    · exact sound_refuseIf nofun fun _ => Verdict.sound_refusal _ nofun

theorem sound_freeSnapshot (p : Port) (body : List Byte) (s : State) : (cmdFreeSnapshot p body s).sound p s := by
  refine sound_whenOpen fun _ ho => ?_
  split
  · exact Verdict.sound_refusal _ nofun
  · split
    · exact sound_refuseIf nofun fun _ => Verdict.sound_accept _ (.slotFreed _ ho)
    · exact Verdict.sound_refusal _ nofun

theorem sound_setTrigger (p : Port) (body : List Byte) (s : State) : (cmdSetTrigger p body s).sound p s := by
  refine sound_whenOpen fun _ ho => sound_refuseIf nofun fun _ => sound_whenOwner ?_
  unfold setTriggerVerdict
  split
  · exact sound_refuseIf nofun fun _ => Verdict.sound_accept _ (.triggerSet _ _ ho rfl)
  · exact Verdict.sound_refusal _ nofun
  · exact Verdict.sound_refusal _ nofun
  · exact Verdict.sound_refusal _ nofun

theorem sound_clearTrigger (p : Port) (body : List Byte) (s : State) : (cmdClearTrigger p body s).sound p s := by
  refine sound_whenOpen fun _ ho => ?_
  split
  · exact Verdict.sound_refusal _ nofun
  · split
    · exact sound_refuseIf nofun fun _ => Verdict.sound_accept _ (.triggerCleared _ ho)
    · exact Verdict.sound_refusal _ nofun

theorem sound_ackAlert (p : Port) (body : List Byte) (s : State) : (cmdAckAlert p body s).sound p s := by
  refine sound_whenOpen fun _ ho => ?_
  split
  · exact Verdict.sound_refusal _ nofun
  · rename_i h
    exact sound_refuseIf nofun fun _ => Verdict.sound_accept _ (.acknowledged _ _ ho h)

theorem sound_openSession (p : Port) (body : List Byte) (s : State) : (cmdOpenSession p body s).sound p s := by
  refine sound_refuseIf nofun fun _ => ?_
  split
  · exact Verdict.sound_accept _ .nothing
  · rename_i h
    exact Verdict.sound_accept _ (.sessionOpened (by simpa using h))

theorem sound_claimConfig (p : Port) (body : List Byte) (s : State) : (cmdClaimConfig p body s).sound p s := by
  refine sound_whenOpen fun _ ho => ?_
  split
  · exact Verdict.sound_refusal _ nofun
  · exact Verdict.sound_accept _ (.holder _ ho (.inr rfl))

/-- Every row of Table 10-5 is the dispatch of a command whose verdicts are sound. -/
theorem exec_dispatched {i : Instr} {p : Port} {type : Byte} (h : i.dispatched = some (p, type)) :
    ∃ run : List Byte → State → Verdict, (∀ s, exec i s = dispatch p type run s) ∧ ∀ body s, (run body s).sound p s := by
  cases i
  case identify q =>
    cases h
    exact ⟨cmdIdentify p, fun _ => rfl, fun _ _ =>
      sound_refuseIf nofun fun _ => Verdict.sound_accept _ .nothing⟩
  case portStatus q =>
    cases h
    exact ⟨cmdPortStatus p, fun _ => rfl, fun _ _ =>
      sound_refuseIf nofun fun _ => Verdict.sound_accept _ .nothing⟩
  case openSession q =>
    cases h
    exact ⟨cmdOpenSession p, fun _ => rfl, sound_openSession p⟩
  case closeSession q =>
    cases h
    exact ⟨cmdCloseSession p, fun _ => rfl, fun _ _ =>
      sound_whenOpen fun _ ho => Verdict.sound_accept _ (.sessionClosed ho)⟩
  case claimConfig q =>
    cases h
    exact ⟨cmdClaimConfig p, fun _ => rfl, sound_claimConfig p⟩
  case unclaimConfig q =>
    cases h
    exact ⟨cmdUnclaimConfig p, fun _ => rfl, fun _ _ =>
      sound_whenOpen fun _ ho => sound_whenHolder fun _ => Verdict.sound_accept _ (.holder _ ho (.inl rfl))⟩
  case intakeEnable q =>
    cases h
    exact ⟨cmdIntakeEnable p, fun _ => rfl, fun _ _ =>
      sound_whenOpen fun _ ho => sound_whenHolder fun hc => Verdict.sound_accept _ (.intake _ ho hc)⟩
  case intakeDisable q =>
    cases h
    exact ⟨cmdIntakeDisable p, fun _ => rfl, fun _ _ =>
      sound_whenOpen fun _ ho => sound_whenHolder fun hc => Verdict.sound_accept _ (.intake _ ho hc)⟩
  case readIntake q =>
    cases h
    exact ⟨cmdReadIntake p, fun _ => rfl, fun _ _ => sound_report _⟩
  case readGlobals q =>
    cases h
    exact ⟨cmdReadGlobals p, fun _ => rfl, fun _ _ => sound_report _⟩
  case listPending q =>
    cases h
    exact ⟨cmdListPending p, fun _ => rfl, fun _ _ =>
      sound_whenOpen fun _ _ => sound_refuseIf nofun fun _ => Verdict.sound_accept _ .nothing⟩
  case clearTracking q =>
    cases h
    exact ⟨cmdClearTracking p, fun _ => rfl, fun _ _ =>
      sound_whenOpen fun _ ho => sound_whenHolder fun hc => Verdict.sound_accept _ (.trackingCleared ho hc)⟩
  case setTimeouts q =>
    cases h
    exact ⟨cmdSetTimeouts p, fun _ => rfl, fun _ _ =>
      sound_whenOpen fun _ ho => sound_whenHolder fun hc => sound_refuseIf nofun fun _ =>
        Verdict.sound_accept _ (.timeouts _ ho hc)⟩
  case readTimeouts q =>
    cases h
    exact ⟨cmdReadTimeouts p, fun _ => rfl, fun _ _ => sound_report _⟩
  case listExpired q =>
    cases h
    exact ⟨cmdListExpired p, fun _ => rfl, fun _ _ => sound_report _⟩
  case setGroupMap q =>
    cases h
    exact ⟨cmdSetGroupMap p, fun _ => rfl, fun _ _ =>
      sound_whenOpen fun _ ho => sound_whenHolder fun hc => sound_refuseIf nofun fun _ =>
        Verdict.sound_accept _ (.groupMap _ ho hc)⟩
  case readGroupMap q =>
    cases h
    exact ⟨cmdReadGroupMap p, fun _ => rfl, fun _ _ => sound_report _⟩
  case claimProbes q =>
    cases h
    exact ⟨cmdClaimProbes p, fun _ => rfl, fun _ _ =>
      sound_whenOpen fun _ ho => sound_refuseProbe (fun _ => nofun) fun _ => sound_refuseIf nofun fun _ =>
        Verdict.sound_accept _ (.claimed _ ho)⟩
  case unclaimProbes q =>
    cases h
    exact ⟨cmdUnclaimProbes p, fun _ => rfl, fun _ _ =>
      sound_whenOpen fun _ ho => sound_whenOwner (sound_refuseIf nofun fun _ =>
        Verdict.sound_accept _ (.unclaimed _ ho))⟩
  case defineProbe q =>
    cases h
    exact ⟨cmdDefineProbe p, fun _ => rfl, sound_defineProbe p⟩
  case startProbes q =>
    cases h
    exact ⟨cmdStartProbes p, fun _ => rfl, fun _ _ =>
      sound_whenOpen fun _ ho => sound_whenOwner (sound_refuseIf nofun fun _ => sound_whenStates fun hs =>
        Verdict.sound_accept _ (.started _ ho fun i hi => (startable_iff _).mp (hs i hi)))⟩
  case stopProbes q =>
    cases h
    exact ⟨cmdStopProbes p, fun _ => rfl, fun _ _ =>
      sound_whenOpen fun _ ho => sound_whenOwner (sound_refuseIf nofun fun _ =>
        sound_refuseProbe (fun _ => nofun) fun hn => Verdict.sound_accept _ (.stopped _ _ ho fun i hi => by
          simpa using lowestIn_eq_none.mp hn i hi))⟩
  case clearProbes q =>
    cases h
    exact ⟨cmdClearProbes p, fun _ => rfl, fun _ _ =>
      sound_whenOpen fun _ ho => sound_whenOwner (sound_refuseIf nofun fun _ => sound_whenStates fun hs =>
        Verdict.sound_accept _ (.probesCleared _ ho hs))⟩
  case probeStatus q =>
    cases h
    exact ⟨cmdProbeStatus p, fun _ => rfl, fun _ _ =>
      sound_whenOpen fun _ _ => sound_refuseIf nofun fun _ => Verdict.sound_accept _ .nothing⟩
  case poolStatus q =>
    cases h
    exact ⟨cmdPoolStatus p, fun _ => rfl, fun _ _ => sound_report _⟩
  case harvest q =>
    cases h
    exact ⟨cmdHarvest p, fun _ => rfl, sound_harvest p⟩
  case readSnapshot q =>
    cases h
    exact ⟨cmdReadSnapshot p, fun _ => rfl, sound_readSnapshot p⟩
  case freeSnapshot q =>
    cases h
    exact ⟨cmdFreeSnapshot p, fun _ => rfl, sound_freeSnapshot p⟩
  case snapshotStatus q =>
    cases h
    exact ⟨cmdSnapshotStatus p, fun _ => rfl, fun _ _ => sound_report _⟩
  case setTrigger q =>
    cases h
    exact ⟨cmdSetTrigger p, fun _ => rfl, sound_setTrigger p⟩
  case clearTrigger q =>
    cases h
    exact ⟨cmdClearTrigger p, fun _ => rfl, sound_clearTrigger p⟩
  case triggerStatus q =>
    cases h
    exact ⟨cmdTriggerStatus p, fun _ => rfl, fun _ _ => sound_report _⟩
  case setAlertMask q =>
    cases h
    exact ⟨cmdSetAlertMask p, fun _ => rfl, fun _ _ =>
      sound_whenOpen fun _ ho => sound_refuseIf nofun fun _ => Verdict.sound_accept _ (.masked _ ho)⟩
  case ackAlert q =>
    cases h
    exact ⟨cmdAckAlert p, fun _ => rfl, sound_ackAlert p⟩
  case alertStatus q =>
    cases h
    exact ⟨cmdAlertStatus p, fun _ => rfl, fun _ _ => sound_report _⟩
  all_goals cases h

/-- The three ways a command of Table 10-5 ends: the state stands, a refusal, or acceptance with its effect. -/
theorem exec_dispatched_cases {i : Instr} {p : Port} {type : Byte} {s t : State} (h : i.dispatched = some (p, type))
    (he : exec i s = .next t) :
    t = s ∨ ∃ c, CommandWaits p c s ∧ c.type = type ∧
      ((∃ code body, code ≠ .ok ∧ t = answered p c code body s) ∨
        ∃ body u, CommandEffect p s u ∧ t = answered p c .ok body u) := by
  obtain ⟨run, hrun, hsound⟩ := exec_dispatched h
  rw [hrun] at he
  rcases dispatch_cases p type run s with h' | ⟨c, hw, ht, h'⟩
  · rw [h'] at he; cases he; exact .inl rfl
  · rw [h'] at he; cases he
    refine .inr ⟨c, hw, ht, ?_⟩
    obtain ⟨h1, h2⟩ := hsound c.body s
    cases hv : run c.body s with
    | refusal code body => exact .inl ⟨code, body, h1 _ _ hv, rfl⟩
    | accept body u => exact .inr ⟨body, u, h2 _ _ hv, rfl⟩

/-- A property that answering keeps, and that each effect keeps, every command of Table 10-5 keeps. -/
theorem dispatched_keeps {Inv : State → Prop} {i : Instr} {p : Port} {type : Byte} {s t : State}
    (h : i.dispatched = some (p, type)) (he : exec i s = .next t) (hs : Inv s)
    (hanswer : ∀ u c code body, Inv u → Inv (answered p c code body u))
    (heffect : ∀ u, CommandEffect p s u → Inv u) : Inv t := by
  rcases exec_dispatched_cases h he with rfl | ⟨c, -, -, ⟨code, body, -, rfl⟩ | ⟨body, u, hu, rfl⟩⟩
  · exact hs
  · exact hanswer _ _ _ _ hs
  · exact hanswer _ _ _ _ (heffect _ hu)

end Sys2Proof.Machine
end

