-- ==== Sys2Proof/Laws/Steps.lean ====
section
/-! SUPPORT. All that the other rows of the table can do, and the rule by which a property that every effect keeps is
kept by every step. -/

namespace Sys2Proof.Machine

/-- What a receive line can do to its port: to the framer, the low period and the reject count, and a command that joins
a queue with room, from where the dispatcher may take the head, or leaves its notice. -/
structure LineEffect (x y : PortState) : Prop where
  rest : y = { x with framer := y.framer, low := y.low, rejectCount := y.rejectCount, commands := y.commands,
                      executing := y.executing, notice := y.notice }
  queue : (y.commands = x.commands ∧ y.executing = x.executing) ∨
    x.commands.length < 4 ∧ ∃ (c : Command) (z : PortState), z.commands = x.commands ++ [c] ∧
      z.executing = x.executing ∧ z.reply = x.reply ∧
      y.commands = z.takeNext.commands ∧ y.executing = z.takeNext.executing

/-- The effects of the rows that no dispatcher executes, by row, each with the condition under which it happens. -/
inductive OwnEffect (s : State) : Instr → State → Prop
  | stands (i : Instr) : OwnEffect s i s
  | held : OwnEffect s (.deviceReset .resetNLow) (heldInReset s)
  | poweredOn (sel1 sel0 : Bool) : OwnEffect s (.deviceReset (.powerOn sel1 sel0)) (releasedFromReset sel1 sel0 s)
  | released (sel1 sel0 : Bool) (h : s.resetN = false) :
    OwnEffect s (.resetNRelease sel1 sel0) { s with resetN := true, baud := baudOfStraps sel1 sel0, timebase := 0 }
  | ticked (h : s.resetN = true) : OwnEffect s .timebaseTick
      { s with
        timebase := s.timebase + 1
        trk := { s.trk with table := s.trk.table.map (Entry.tick (s.timebase + 1) s.obs.queue.length) }
        bank := s.bank.mapProbes (fun _ x => x.tick (s.timebase + 1) s.obs.queue.length) }
  | arrived (data : BitVec 64) (h : s.resetN = true) : OwnEffect s (.recordTransfer data) (arrive data s)
  | taken (x : Stamped) (rest : List Stamped) (h : s.resetN = true) (hq : s.obs.queue = x :: rest)
      (hw : engineWorkFirst s = false) : OwnEffect s .takeRecord (handleRecord x (popRecord s))
  | expired (e : Entry) (rest : List Entry) (h : s.resetN = true) (ht : s.trk.table = e :: rest)
      (hr : reached s.timebase e.deadline = true) : OwnEffect s .expiry (expireEntry e s)
  | cut (i : ProbeNo) (h : s.resetN = true) (hc : (s.probe i).cutDue s.timebase = true) :
    OwnEffect s (.drainCut i) (cutDrain i s)
  | swept (k : Fin 256) (h : s.resetN = true) (hk : s.bank.purge.position = some k) (hne : k ≠ 255) :
    OwnEffect s .sweepVisit (advanceSweep k (visitEntry k s))
  | sweepEnded (h : s.resetN = true) (hk : s.bank.purge.position = some 255) :
    OwnEffect s .sweepVisit (finishSweep (visitEntry 255 s))
  | line (i : Instr) (p : Port) (x : PortState) (h : s.resetN = true) (hx : LineEffect (s.port p) x) :
    OwnEffect s i (s.setPort p x)
  | portReset (p : Port) (l : LowPeriod) (h : s.resetN = true) (hl : (s.port p).low = some l) :
    OwnEffect s (.portReset p) (resetPort p l s)
  | began (p : Port) (h : s.resetN = true) (hi : (s.port p).sending = none) :
    OwnEffect s (.transmitStart p) (s.setPort p (s.port p).beginFrame)
  | ended (p : Port) (f : Transmission) (h : s.resetN = true) (hf : (s.port p).sending = some f) :
    OwnEffect s (.transmitEnd p) (s.setPort p ((s.port p).endFrame s.timebase f.what))
  | resendDue (p : Port) (h : s.resetN = true) (hd : (s.port p).resendDue s.timebase = true) :
    OwnEffect s (.alertResendTimeout p)
      (s.setPort p { s.port p with head := { (s.port p).head with due := true, timer := none } })
  | retried (p : Port) (c : Command) (r : Reply) (h : s.resetN = true) (hq : (s.port p).executing = some c)
      (hr : (s.port p).lastReply = some r) :
    OwnEffect s (.commandRetry p) (s.setPort p { s.port p with executing := none, reply := some r })
  | unknown (p : Port) (c : Command) (hw : CommandWaits p c s) (hu : c.type ∉ commandTypes) :
    OwnEffect s (.unknownCommand p) (answered p c .unknownCommand [] s)

/-! ### The receive lines -/

theorem LineEffect.refl (x : PortState) : LineEffect x x := ⟨rfl, .inl ⟨rfl, rfl⟩⟩

/-- A receive line never takes a queue beyond its capacity. -/
theorem LineEffect.commands_length {x y : PortState} (h : LineEffect x y) (hx : x.commands.length ≤ 4) :
    y.commands.length ≤ 4 := by
  rcases h.queue with ⟨h, -⟩ | ⟨hl, c, z, hz, -, -, h, -⟩
  · rw [h]; exact hx
  · have := takeNext_commands_length z
    rw [← h, hz, List.length_append, List.length_singleton] at this
    omega

/-- A receive line keeps the law of the dispatcher. -/
theorem LineEffect.dispatchLaw {x y : PortState} (h : LineEffect x y) (hx : DispatchLaw x) : DispatchLaw y := by
  have hr : y.reply = x.reply := by rw [h.rest]
  rcases h.queue with ⟨hc, he⟩ | ⟨-, c, z, -, hze, hzr, hc, he⟩
  · exact hx.congr hc he hr
  · have hz : z.takeNext.reply = z.reply := by rw [takeNext_eq]
    exact (dispatchLaw_takeNext (x := z) (by rw [hze, hzr]; exact hx.buffer)).congr hc he ((hr.trans hzr.symm).trans hz.symm)

theorem lineEffect_discard (x : PortState) : LineEffect x x.discard := ⟨rfl, .inl ⟨rfl, rfl⟩⟩

theorem lineEffect_receive (content : List Byte) (x : PortState) : LineEffect x (x.receive content) := by
  unfold PortState.receive
  split
  · unfold PortState.offerCommand
    split
    · rename_i h
      refine ⟨?_, .inr ⟨h, _, { x with framer := .hunt, commands := x.commands ++ [_] }, rfl, rfl, rfl, rfl, rfl⟩⟩
      rw [takeNext_eq]
    · exact ⟨rfl, .inl ⟨rfl, rfl⟩⟩
  · exact ⟨rfl, .inl ⟨rfl, rfl⟩⟩

theorem lineEffect_takeChar (now : Tick) (b : Byte) (x : PortState) : LineEffect x (x.takeChar now b) := by
  unfold PortState.takeChar
  split
  · split
    · exact ⟨rfl, .inl ⟨rfl, rfl⟩⟩
    · exact .refl x
  · exact ⟨rfl, .inl ⟨rfl, rfl⟩⟩
  · split
    · exact lineEffect_discard x
    · exact ⟨rfl, .inl ⟨rfl, rfl⟩⟩
  · exact ⟨rfl, .inl ⟨rfl, rfl⟩⟩
  · exact ⟨rfl, .inl ⟨rfl, rfl⟩⟩
  · split
    · exact lineEffect_receive _ x
    · exact lineEffect_discard x

theorem LineEffect.after_discard {x y : PortState} (h : LineEffect x.discard y) : LineEffect x y :=
  ⟨by have := h.rest; rw [this]; rfl, h.queue⟩

theorem lineEffect_character (now : Tick) (b : Byte) (x : PortState) :
    LineEffect x ((x.expireGap now).takeChar now b) := by
  unfold PortState.expireGap
  split
  · exact (lineEffect_takeChar now b x.discard).after_discard
  · exact lineEffect_takeChar now b x

theorem lineEffect_framingError (since : Tick) (x : PortState) : LineEffect x (x.framingError since) := by
  unfold PortState.framingError
  split <;> exact ⟨rfl, .inl ⟨rfl, rfl⟩⟩

/-! ### Each row -/

theorem whileReleased_cases {s u t : State} (h : whileReleased s u = .next t) : t = s ∨ s.resetN = true ∧ t = u := by
  unfold whileReleased at h
  split at h
  · rename_i hr
    cases h; exact .inr ⟨hr, rfl⟩
  · cases h; exact .inl rfl

/-- A row that acts while RESET_N is high and its condition holds. -/
theorem OwnEffect.when {i : Instr} {s u t : State} {b : Bool} (h : whileReleased s (if b then u else s) = .next t)
    (hu : s.resetN = true → b = true → OwnEffect s i u) : OwnEffect s i t := by
  rcases whileReleased_cases h with rfl | ⟨hr, rfl⟩
  · exact .stands _
  · split
    · rename_i hb; exact hu hr hb
    · exact .stands _

theorem ownEffect_listening (i : Instr) {p : Port} {s t : State} {f : PortState → PortState}
    (hf : LineEffect (s.port p) (f (s.port p))) (h : whenListening p s f = .next t) : OwnEffect s i t :=
  OwnEffect.when h fun hr _ => .line i p _ hr hf

theorem ownEffect_frameReceived {p : Port} {high : Byte} {s t : State} (h : execFrameReceived p high s = .next t) :
    OwnEffect s (.frameReceived p high) t := by
  refine ownEffect_listening _ ?_ h
  split
  · exact lineEffect_receive _ _
  · exact .refl _

theorem ownEffect_frameDiscard {p : Port} {cause : DiscardCause} {s t : State}
    (h : execFrameDiscard p cause s = .next t) :
    OwnEffect s (.frameDiscard p cause) t := by
  refine ownEffect_listening _ ?_ h
  cases cause <;> dsimp only
  · exact lineEffect_framingError _ _
  · split
    · exact lineEffect_discard _
    · exact .refl _
  · split
    · exact lineEffect_discard _
    · exact .refl _

theorem ownEffect_takeRecord {s t : State} (h : execTakeRecord s = .next t) :
    OwnEffect s .takeRecord t := by
  unfold execTakeRecord at h
  split at h
  · cases h; exact .stands _
  · rename_i x rest hq
    rcases whileReleased_cases h with rfl | ⟨hr, rfl⟩
    · exact .stands _
    · split
      · exact .stands _
      · rename_i hw
        exact .taken x rest hr hq (by simpa using hw)

theorem ownEffect_expiry {s t : State} (h : execExpiry s = .next t) :
    OwnEffect s .expiry t := by
  unfold execExpiry at h
  split at h
  · cases h; exact .stands _
  · rename_i e rest ht
    exact OwnEffect.when h fun hr hd => .expired e rest hr ht hd

theorem ownEffect_sweepVisit {s t : State} (h : execSweepVisit s = .next t) :
    OwnEffect s .sweepVisit t := by
  unfold execSweepVisit at h
  split at h
  · rename_i k hk
    rcases whileReleased_cases h with rfl | ⟨hr, rfl⟩
    · exact .stands _
    · split
      · rename_i he
        have e : k = 255 := by simpa using he
        subst e
        exact .sweepEnded hr hk
      · rename_i he
        exact .swept k hr hk (by simpa using he)
  · cases h; exact .stands _

theorem ownEffect_portReset {p : Port} {s t : State} (h : execPortReset p s = .next t) :
    OwnEffect s (.portReset p) t := by
  unfold execPortReset at h
  split at h
  · rename_i l hl
    exact OwnEffect.when h fun hr _ => .portReset p l hr hl
  · cases h; exact .stands _

theorem ownEffect_transmitEnd {p : Port} {s t : State} (h : execTransmitEnd p s = .next t) :
    OwnEffect s (.transmitEnd p) t := by
  unfold execTransmitEnd at h
  split at h
  · rename_i f hf
    rcases whileReleased_cases h with rfl | ⟨hr, rfl⟩
    · exact .stands _
    · exact .ended p f hr hf
  · cases h; exact .stands _

theorem ownEffect_commandRetry {p : Port} {s t : State} (h : execCommandRetry p s = .next t) :
    OwnEffect s (.commandRetry p) t := by
  unfold execCommandRetry at h
  split at h
  · rename_i c hq
    refine OwnEffect.when h fun hr hc => ?_
    obtain ⟨r, hl, -, -⟩ := isRetry_eq_true.mp hc
    unfold resendReply
    rw [hl]
    exact .retried p c r hr hq hl
  · cases h; exact .stands _

theorem ownEffect_unknownCommand {p : Port} {s t : State} (h : execUnknownCommand p s = .next t) :
    OwnEffect s (.unknownCommand p) t := by
  unfold execUnknownCommand at h
  split at h
  · rename_i c hq
    refine OwnEffect.when h fun hr hc => ?_
    simp only [Bool.and_eq_true, Bool.not_eq_true'] at hc
    refine .unknown p c ⟨hr, hq, isRetry_eq_false.mp hc.1⟩ fun hm => ?_
    exact absurd (List.contains_iff_mem.mpr hm) (by simpa [knownType] using hc.2)
  · cases h; exact .stands _

theorem resetPort_resetN (p : Port) (l : LowPeriod) (s : State) : (resetPort p l s).resetN = s.resetN := by
  unfold resetPort closeIfOpen
  split <;> rfl

/-- The end of a low period is a line effect, after the port reset if that is due. -/
theorem breakEnd_cases {p : Port} {s t : State} (h : execBreakEnd p s = .next t) :
    OwnEffect s (.breakEnd p) t ∨ ∃ l, (s.port p).low = some l ∧ OwnEffect s (.portReset p) (resetPort p l s) ∧
      OwnEffect (resetPort p l s) (.breakEnd p) t := by
  unfold execBreakEnd at h
  split at h
  · rename_i l hl
    rcases whileReleased_cases h with rfl | ⟨hr, rfl⟩
    · exact .inl (.stands _)
    · unfold resetIfDue
      split
      · exact .inr ⟨l, hl, .portReset p l hr hl, .line _ p _ ((resetPort_resetN p l s).trans hr) ⟨rfl, .inl ⟨rfl, rfl⟩⟩⟩
      · exact .inl (.line _ p _ hr ⟨rfl, .inl ⟨rfl, rfl⟩⟩)
  · cases h; exact .inl (.stands _)

/-- Every other row of the table ends in one of the effects; a BREAK_END may take a port reset first. -/
theorem exec_own_cases {i : Instr} {s t : State} (h : i.dispatched = none) (he : exec i s = .next t) :
    OwnEffect s i t ∨ ∃ p l, (s.port p).low = some l ∧ OwnEffect s (.portReset p) (resetPort p l s) ∧
      OwnEffect (resetPort p l s) i t := by
  by_cases hb : ∃ p, i = .breakEnd p
  · obtain ⟨p, rfl⟩ := hb
    exact (breakEnd_cases he).imp id fun ⟨l, hl⟩ => ⟨p, l, hl⟩
  refine .inl ?_
  cases i
  case deviceReset cause =>
    cases cause
    · cases he; exact .held
    · cases he; exact .poweredOn _ _
  case recordTransfer data =>
    rcases whileReleased_cases he with rfl | ⟨hr, rfl⟩
    · exact .stands _
    · exact .arrived data hr
  case takeRecord => exact ownEffect_takeRecord he
  case expiry => exact ownEffect_expiry he
  case drainCut i => exact OwnEffect.when he fun hr hc => .cut i hr hc
  case sweepVisit => exact ownEffect_sweepVisit he
  case frameReceived p high => exact ownEffect_frameReceived he
  case frameDiscard p cause => exact ownEffect_frameDiscard he
  case frameGapTimeout p => exact OwnEffect.when he fun hr _ => .line _ p _ hr (lineEffect_discard _)
  case portReset p => exact ownEffect_portReset he
  case transmitStart p => exact OwnEffect.when he fun hr hi => .began p hr (by simpa using hi)
  case transmitEnd p => exact ownEffect_transmitEnd he
  case alertResendTimeout p => exact OwnEffect.when he fun hr hd => .resendDue p hr hd
  case commandRetry p => exact ownEffect_commandRetry he
  case unknownCommand p => exact ownEffect_unknownCommand he
  case timebaseTick =>
    rcases whileReleased_cases he with rfl | ⟨hr, rfl⟩
    · exact .stands _
    · exact .ticked hr
  case resetNRelease sel1 sel0 =>
    change execResetNRelease sel1 sel0 s = .next t at he
    unfold execResetNRelease at he
    split at he
    · cases he; exact .stands _
    · rename_i hr
      cases he; exact .released sel1 sel0 (by simpa using hr)
  case characterReceived p b =>
    change execCharacterReceived p b s = .next t at he
    exact ownEffect_listening _ (lineEffect_character s.timebase b _) he
  case breakEnd p => exact absurd ⟨p, rfl⟩ hb
  all_goals cases h

/-- A property is kept by every step if the queue of waiting commands does not matter to it, answering keeps it, and each
effect keeps it. -/
theorem step_keeps {Inv : State → Prop} (hqueue : ∀ s q, Inv s → Inv { s with pending := q })
    (hanswer : ∀ s p c code body, Inv s → Inv (answered p c code body s))
    (heffect : ∀ s u p, Inv s → CommandEffect p s u → Inv u) (hown : ∀ s u i, Inv s → OwnEffect s i u → Inv u)
    {s t : State} (hs : Inv s) (h : step s = .next t) : Inv t := by
  unfold step at h
  split at h
  · cases h; exact hs
  · rename_i i rest hp
    have hs' := hqueue s rest hs
    cases hd : i.dispatched with
    | none =>
      rcases exec_own_cases hd h with ho | ⟨p, l, -, h1, h2⟩
      · exact hown _ _ _ hs' ho
      · exact hown _ _ _ (hown _ _ _ hs' h1) h2
    | some x =>
      obtain ⟨p, type⟩ := x
      exact dispatched_keeps hd h hs' (fun u c code body hu => hanswer u p c code body hu)
        (fun u hu => heffect _ u p hs' hu)

end Sys2Proof.Machine
end

