-- ==== Sys2Proof/Laws/Ports.lean ====
section
/-! SUPPORT. What the engine's work can do to the ports: it only offers alerts to them, so a property of the ports that an
offered alert keeps is kept by all of it. -/

namespace Sys2Proof.Machine

/-- A property of each port that an alert offered to it keeps. -/
def OfferKeeps (P : Port → PortState → Prop) : Prop := ∀ p x c t, P p x → P p (x.offer c t)

/-- Each port of a management side has the property. -/
def OnPorts (P : Port → PortState → Prop) (m : Management) : Prop := ∀ p, P p (m.port p)

section

variable {P : Port → PortState → Prop}

theorem OnPorts.set {m : Management} (h : OnPorts P m) {p : Port} {x : PortState} (hx : P p x) :
    OnPorts P (m.setPort p x) := by
  intro q
  rcases Port.eq_or_other p q with rfl | rfl
  · simpa using hx
  · simpa using h p.other

theorem OnPorts.congr {m n : Management} (h : OnPorts P m) (ha : n.portA = m.portA) (hb : n.portB = m.portB) :
    OnPorts P n := by
  intro p
  cases p
  · exact (congrArg (P .a) ha).mpr (h .a)
  · exact (congrArg (P .b) hb).mpr (h .b)

theorem onPorts_raiseToOwner (hP : OfferKeeps P) {m : Management} (h : OnPorts P m) (owner : Option Port) (c : Condition)
    (t : Tick) : OnPorts P (m.raiseToOwner owner c t) := by
  cases owner with
  | none => exact h.congr rfl rfl
  | some p => exact h.set (hP p _ c t (h p))

theorem onPorts_raiseDeviceWide (hP : OfferKeeps P) {m : Management} (h : OnPorts P m) (c : Condition) (t : Tick) :
    OnPorts P (m.raiseDeviceWide c t) := by
  have step : ∀ {m : Management} (p : Port), OnPorts P m → OnPorts P (m.offer p c t) :=
    fun p h => h.set (hP p _ c t (h p))
  unfold Management.raiseDeviceWide
  split
  · exact step _ (step _ h)
  · exact step _ h
  · exact step _ h
  · exact h.congr rfl rfl

theorem onPorts_alertNotice (hP : OfferKeeps P) {m : Management} (h : OnPorts P m) (t : Tick) (i : ProbeNo) (n : Notice)
    (x : Probe) : OnPorts P (alertNotice t i n x m) := by
  have h1 : OnPorts P (if x.limitHit n then m.raiseToOwner x.owner (.probeLimit i (x.valuesAfter n).overCount) t else m) := by
    split
    · exact onPorts_raiseToOwner hP h _ _ _
    · exact h
  unfold alertNotice
  dsimp only
  split
  · exact onPorts_raiseToOwner hP h1 _ _ _
  · exact h1

theorem onPorts_sendNotices (hP : OfferKeeps P) (t : Tick) (set : ProbeSet) (n : Notice) :
    ∀ {s : State}, OnPorts P s.mgmt → OnPorts P (sendNotices t set n s).mgmt := by
  unfold sendNotices
  induction members set with
  | nil => exact fun h => h
  | cons i is ih => exact fun {s} h => ih (onPorts_alertNotice hP h t i n (s.probe i))

theorem onPorts_raiseDrained (hP : OfferKeeps P) (o : DrainOutcome) (t : Tick) (abandoned : Probe → Option Nat)
    (set : ProbeSet) (b : Bank) : ∀ {m : Management}, OnPorts P m → OnPorts P (raiseDrained o t abandoned set b m) := by
  unfold raiseDrained
  induction members set with
  | nil => exact fun h => h
  | cons i is ih =>
    intro m h
    apply ih
    dsimp only
    split
    · exact onPorts_raiseToOwner hP h _ _ _
    · exact h

theorem onPorts_closeEntry (hP : OfferKeeps P) {s : State} (h : OnPorts P s.mgmt) (e : Entry) (o : Closure)
    (t latency : Tick) : OnPorts P (closeEntry e o t latency s).mgmt :=
  onPorts_sendNotices hP t e.matchSet _ h

theorem onPorts_untracked (hP : OfferKeeps P) {s : State} (h : OnPorts P s.mgmt) (stamp : Tick) :
    OnPorts P (untracked stamp s).mgmt := by
  unfold untracked
  dsimp only
  split
  · exact onPorts_raiseDeviceWide hP h _ _
  · exact h

theorem onPorts_handleRequest (hP : OfferKeeps P) {s : State} (h : OnPorts P s.mgmt) (key : Key) (kind : TrackedKind)
    (length : Nat) (stamp : Tick) : OnPorts P (handleRequest key kind length stamp s).mgmt := by
  unfold handleRequest
  split
  · exact onPorts_closeEntry hP h _ _ _ _
  · unfold admitFresh
    dsimp only
    split
    · split
      · exact h
      · exact onPorts_untracked hP h _
    · exact onPorts_untracked hP h _

theorem onPorts_handlePart (hP : OfferKeeps P) {s : State} (h : OnPorts P s.mgmt) (key : Key) (status : Status)
    (bytes : Nat) (last : Bool) (stamp : Tick) : OnPorts P (handlePart key status bytes last stamp s).mgmt := by
  unfold handlePart
  split
  · split
    · exact onPorts_sendNotices hP _ _ _ h
    · exact onPorts_closeEntry hP h _ _ _ _
  · exact h

theorem onPorts_engineHandle (hP : OfferKeeps P) {s : State} (h : OnPorts P s.mgmt) (r : Record) (stamp : Tick) :
    OnPorts P (engineHandle r stamp s).mgmt := by
  unfold engineHandle
  split
  · split
    · exact onPorts_handleRequest hP h _ _ _ _
    · exact h
  · exact onPorts_handlePart hP h _ _ _ _ _
  all_goals exact h

theorem onPorts_serveTrigger (hP : OfferKeeps P) {s : State} (h : OnPorts P s.mgmt) (label : BitVec 16) (stamp : Tick)
    (n : Fin 4) : OnPorts P (serveTrigger label stamp s n).mgmt := by
  unfold serveTrigger
  split
  · split
    · unfold fireTrigger
      split
      · exact onPorts_raiseToOwner hP h _ _ _
      · exact onPorts_raiseToOwner hP h _ _ _
    · exact h
  · exact h

theorem onPorts_fireMark (hP : OfferKeeps P) {s : State} (h : OnPorts P s.mgmt) (r : Record) (stamp : Tick) :
    OnPorts P (fireMark r stamp s).mgmt := by
  unfold fireMark
  split
  · unfold serveTriggers
    generalize List.finRange 4 = l
    induction l generalizing s with
    | nil => exact h
    | cons n ns ih => exact ih (onPorts_serveTrigger hP h _ _ n)
  all_goals exact h

/-- Taking a record. -/
theorem onPorts_handleRecord (hP : OfferKeeps P) {s : State} (h : OnPorts P s.mgmt) (x : Stamped) :
    OnPorts P (handleRecord x (popRecord s)).mgmt :=
  onPorts_fireMark hP (s := offerRecord _ _) (onPorts_engineHandle hP (s := popRecord s) h _ _) _ _

/-- An expiry. -/
theorem onPorts_expireEntry (hP : OfferKeeps P) {s : State} (h : OnPorts P s.mgmt) (e : Entry) :
    OnPorts P (expireEntry e s).mgmt :=
  onPorts_closeEntry hP h _ _ _ _

/-- A sweep visit. -/
theorem onPorts_visitEntry (hP : OfferKeeps P) {s : State} (h : OnPorts P s.mgmt) (k : Fin 256) :
    OnPorts P (visitEntry k s).mgmt := by
  unfold visitEntry
  split
  · exact onPorts_sendNotices hP _ _ _ h
  · exact h

/-- The end of a sweep. -/
theorem onPorts_finishSweep (hP : OfferKeeps P) {s : State} (h : OnPorts P s.mgmt) : OnPorts P (finishSweep s).mgmt :=
  onPorts_raiseDrained hP _ _ _ _ _ h

/-- A tracking clear. -/
theorem onPorts_trackingClear (hP : OfferKeeps P) {s : State} (h : OnPorts P s.mgmt) :
    OnPorts P (trackingClear s).mgmt :=
  onPorts_raiseDrained hP _ _ _ _ _ h

/-- An arriving record. -/
theorem onPorts_arrive (hP : OfferKeeps P) {s : State} (h : OnPorts P s.mgmt) (data : BitVec 64) :
    OnPorts P (arrive data s).mgmt := by
  unfold arrive
  split
  · split
    · split
      · exact h
      · unfold dropRecord
        dsimp only
        split
        · exact onPorts_raiseDeviceWide hP h _ _
        · exact h
    · exact h
  · exact h

end

end Sys2Proof.Machine
end

