-- ==== Sys2Proof/Laws/Work.lean ====
section
/-! SUPPORT. What the engine's work leaves as it was, whatever record, expiry or visit it handles: settings, claims, times,
the purge engine, and of each probe its owner, definition, unit and cut count. -/

namespace Sys2Proof.Machine

/-- The state after a piece of the engine's work, as what it leaves unchanged. -/
structure EngineWork (s t : State) : Prop where
  pending : t.pending = s.pending
  resetN : t.resetN = s.resetN
  baud : t.baud = s.baud
  timebase : t.timebase = s.timebase
  obs : t.obs = s.obs
  timeouts : t.trk.timeouts = s.trk.timeouts
  groupMap : t.trk.groupMap = s.trk.groupMap
  purge : t.bank.purge = s.bank.purge
  holder : t.mgmt.holder = s.mgmt.holder
  sessionCount : t.mgmt.sessionCount = s.mgmt.sessionCount
  probes : ∀ i, (t.probe i).owner = (s.probe i).owner ∧ (t.probe i).definition = (s.probe i).definition ∧
    (t.probe i).unit = (s.probe i).unit ∧ (t.probe i).cutCount = (s.probe i).cutCount ∧
    ((t.probe i).state = .unbound ↔ (s.probe i).state = .unbound)
  units : ∀ k : Fin 8, t.pool[k].map HistUnit.probe = s.pool[k].map HistUnit.probe

theorem EngineWork.refl (s : State) : EngineWork s s :=
  ⟨rfl, rfl, rfl, rfl, rfl, rfl, rfl, rfl, rfl, rfl, fun _ => ⟨rfl, rfl, rfl, rfl, Iff.rfl⟩, fun _ => rfl⟩

theorem EngineWork.trans {a b c : State} (h : EngineWork a b) (k : EngineWork b c) : EngineWork a c where
  pending := k.pending.trans h.pending
  resetN := k.resetN.trans h.resetN
  baud := k.baud.trans h.baud
  timebase := k.timebase.trans h.timebase
  obs := k.obs.trans h.obs
  timeouts := k.timeouts.trans h.timeouts
  groupMap := k.groupMap.trans h.groupMap
  purge := k.purge.trans h.purge
  holder := k.holder.trans h.holder
  sessionCount := k.sessionCount.trans h.sessionCount
  probes := fun i =>
    let ⟨a1, a2, a3, a4, a5⟩ := h.probes i
    let ⟨b1, b2, b3, b4, b5⟩ := k.probes i
    ⟨b1.trans a1, b2.trans a2, b3.trans a3, b4.trans a4, b5.trans a5⟩
  units := fun j => (k.units j).trans (h.units j)

/-- A change of the table, the ring, the counters or the flag alone is such work. -/
theorem EngineWork.tracking (s : State) (k : Tracking) (ht : k.timeouts = s.trk.timeouts)
    (hg : k.groupMap = s.trk.groupMap) : EngineWork s { s with trk := k } :=
  ⟨rfl, rfl, rfl, rfl, rfl, ht, hg, rfl, rfl, rfl, fun _ => ⟨rfl, rfl, rfl, rfl, Iff.rfl⟩, fun _ => rfl⟩

/-- A change of each probe that leaves those of its fields is such work. -/
theorem EngineWork.probesOnly (s : State) (f : ProbeNo → Probe → Probe)
    (hf : ∀ i x, (f i x).owner = x.owner ∧ (f i x).definition = x.definition ∧ (f i x).unit = x.unit ∧
      (f i x).cutCount = x.cutCount ∧ ((f i x).state = .unbound ↔ x.state = .unbound)) :
    EngineWork s { s with bank := s.bank.mapProbes f } :=
  ⟨rfl, rfl, rfl, rfl, rfl, rfl, rfl, rfl, rfl, rfl,
    fun i => by
      have e : State.probe { s with bank := s.bank.mapProbes f } i = f i (s.probe i) := Bank.probe_mapProbes _ _ _
      rw [e]; exact hf i _,
    fun _ => rfl⟩

theorem take_unbound (n : Notice) (x : Probe) : (x.take n).state = .unbound ↔ x.state = .unbound := by
  rw [take_state]
  split
  · rename_i h
    have := ((emptiesDrain_iff x).mp h).1
    simp [this]
  · exact Iff.rfl

theorem engineWork_sendNotices (t : Tick) (set : ProbeSet) (n : Notice) (s : State) :
    EngineWork s (sendNotices t set n s) := by
  have h := sameButNotices_sendNotices t set n s
  refine ⟨h.pending, h.resetN, h.baud, h.timebase, h.obs, by rw [h.trk], by rw [h.trk], h.purge, h.mgmt.holder,
    h.mgmt.sessionCount, fun i => ?_, h.units⟩
  rw [sendNotices_probe]
  split
  · exact ⟨rfl, rfl, rfl, rfl, take_unbound n _⟩
  · exact ⟨rfl, rfl, rfl, rfl, Iff.rfl⟩

/-- Notices with a change of the table, the ring, the counters or the flag. -/
theorem engineWork_noticesAnd (t : Tick) (set : ProbeSet) (n : Notice) (s : State) (k : Tracking)
    (ht : k.timeouts = s.trk.timeouts) (hg : k.groupMap = s.trk.groupMap) :
    EngineWork s { sendNotices t set n s with trk := k } :=
  (engineWork_sendNotices t set n s).trans (EngineWork.tracking _ k (by simp [ht]) (by simp [hg]))

theorem engineWork_closeEntry (e : Entry) (o : Closure) (t latency : Tick) (s : State) :
    EngineWork s (closeEntry e o t latency s) := engineWork_noticesAnd t _ _ s _ rfl rfl

theorem engineWork_admit (e : Entry) (s : State) : EngineWork s (enterTable e s) := by
  refine (EngineWork.probesOnly s (fun i x => if e.matchSet.has i then { x with inFlight := x.inFlight + 1 } else x)
    ?_).trans (EngineWork.tracking _ _ rfl rfl)
  intro i x
  split <;> exact ⟨rfl, rfl, rfl, rfl, Iff.rfl⟩

theorem engineWork_alerts (s : State) {m : Management} (h : SameButAlerts s.mgmt m) : EngineWork s { s with mgmt := m } :=
  ⟨rfl, rfl, rfl, rfl, rfl, rfl, rfl, rfl, h.holder, h.sessionCount, fun _ => ⟨rfl, rfl, rfl, rfl, Iff.rfl⟩, fun _ => rfl⟩

theorem engineWork_untracked (stamp : Tick) (s : State) : EngineWork s (untracked stamp s) := by
  refine (engineWork_alerts s (m := (untracked stamp s).mgmt) ?_).trans (EngineWork.tracking _ _ rfl rfl)
  unfold untracked
  dsimp only
  split
  · exact sameButAlerts_raiseDeviceWide _ _ _
  · exact SameButAlerts.refl _

theorem engineWork_handleRequest (key : Key) (kind : TrackedKind) (length : Nat) (stamp : Tick) (s : State) :
    EngineWork s (handleRequest key kind length stamp s) := by
  unfold handleRequest
  split
  · exact (engineWork_closeEntry _ _ _ _ s).trans (engineWork_admit _ _)
  · unfold admitFresh
    refine (EngineWork.tracking s { s.trk with ring := dropKey key s.trk.ring } rfl rfl).trans ?_
    dsimp only
    split
    · split
      · exact engineWork_admit _ _
      · exact engineWork_untracked _ _
    · exact engineWork_untracked _ _

theorem engineWork_handlePart (key : Key) (status : Status) (bytes : Nat) (last : Bool) (stamp : Tick) (s : State) :
    EngineWork s (handlePart key status bytes last stamp s) := by
  unfold handlePart
  split
  · split
    · exact engineWork_noticesAnd _ _ _ s _ rfl rfl
    · exact engineWork_closeEntry _ _ _ _ s
  · refine EngineWork.tracking s _ ?_ ?_ <;> (unfold Tracking.strayPart; split <;> rfl)

theorem engineWork_engineHandle (r : Record) (stamp : Tick) (s : State) : EngineWork s (engineHandle r stamp s) := by
  unfold engineHandle
  split
  · split
    · exact engineWork_handleRequest _ _ _ _ s
    · exact .refl s
  · exact engineWork_handlePart _ _ _ _ _ s
  all_goals exact .refl s

theorem engineWork_expireEntry (e : Entry) (s : State) : EngineWork s (expireEntry e s) :=
  (engineWork_closeEntry e _ _ _ s).trans (EngineWork.tracking _ _ rfl rfl)

theorem engineWork_visitEntry (k : Fin 256) (s : State) : EngineWork s (visitEntry k s) := by
  unfold visitEntry
  split
  · exact engineWork_noticesAnd _ _ _ s _ rfl rfl
  · exact .refl s

theorem engineWork_offerRecord (r : Record) (s : State) : EngineWork s (offerRecord r s) := by
  refine EngineWork.probesOnly s _ ?_
  intro i x
  split <;> exact ⟨rfl, rfl, rfl, rfl, Iff.rfl⟩

theorem clearBins_units (set : ProbeSet) (b : Bank) (pool : Vector (Option HistUnit) 8) (k : Fin 8) :
    (clearBins set b pool)[k].map HistUnit.probe = pool[k].map HistUnit.probe := by
  unfold clearBins
  rw [mapFin_get]
  split
  · rw [Option.map_map]; rfl
  · rfl

theorem engineWork_zeroProbes (set : ProbeSet) (s : State) : EngineWork s (zeroProbes set s) := by
  have h := EngineWork.probesOnly s (fun i x => if set.has i then x.zeroed else x) (by
    intro i x
    split <;> exact ⟨rfl, rfl, rfl, rfl, Iff.rfl⟩)
  exact ⟨h.pending, h.resetN, h.baud, h.timebase, h.obs, h.timeouts, h.groupMap, h.purge, h.holder, h.sessionCount,
    h.probes, clearBins_units set s.bank s.pool⟩

theorem engineWork_harv (s : State) (h : Harvester) : EngineWork s { s with harv := h } :=
  ⟨rfl, rfl, rfl, rfl, rfl, rfl, rfl, rfl, rfl, rfl, fun _ => ⟨rfl, rfl, rfl, rfl, Iff.rfl⟩, fun _ => rfl⟩

theorem engineWork_makeHarvest (k : Fin 4) (owner : Port) (origin : Origin) (captured zeroed : ProbeSet) (s : State) :
    EngineWork s (makeHarvest k owner origin captured zeroed s) :=
  (engineWork_harv s _).trans (engineWork_zeroProbes zeroed _)

theorem engineWork_serveTrigger (label : BitVec 16) (stamp : Tick) (s : State) (n : Fin 4) :
    EngineWork s (serveTrigger label stamp s n) := by
  unfold serveTrigger
  split
  · split
    · unfold fireTrigger
      split
      · refine (engineWork_makeHarvest _ _ _ _ _ s).trans (EngineWork.trans (engineWork_alerts _ ?_) (engineWork_harv _ _))
        exact sameButAlerts_raiseToOwner _ _ _ _
      · refine EngineWork.trans (engineWork_alerts _ ?_) (engineWork_harv _ _)
        exact sameButAlerts_raiseToOwner _ _ _ _
    · exact .refl s
  · exact .refl s

theorem engineWork_fireMark (r : Record) (stamp : Tick) (s : State) : EngineWork s (fireMark r stamp s) := by
  unfold fireMark
  split
  · unfold serveTriggers
    generalize List.finRange 4 = l
    induction l generalizing s with
    | nil => exact .refl s
    | cons n ns ih => exact (engineWork_serveTrigger _ _ s n).trans (ih _)
  all_goals exact .refl s

/-- All the engine does with a record that it took. -/
theorem engineWork_handleRecord (x : Stamped) (s : State) : EngineWork s (handleRecord x s) :=
  ((engineWork_engineHandle x.record x.stamp s).trans (engineWork_offerRecord x.record _)).trans
    (engineWork_fireMark x.record x.stamp _)

end Sys2Proof.Machine
end

