-- ==== Sys2Proof/Laws/Aloof.lean ====
section
/-! SUPPORT. The engine's work does not reach a port that is CLOSED and owns no probe and no trigger. -/

namespace Sys2Proof.Machine

/-- A port that no alert can reach: CLOSED, with no probe and no trigger of its own. -/
structure Aloof (p : Port) (s : State) : Prop where
  closed : (s.port p).isOpen = false
  probes : ∀ i, (s.probe i).owner ≠ some p
  triggers : ∀ (k : Fin 4) (x : Trigger), s.harv.triggers[k] = some x → x.owner ≠ p

theorem port_raiseToOwner_ne {m : Management} {p : Port} {owner : Option Port} (h : owner ≠ some p) (c : Condition)
    (t : Tick) : (m.raiseToOwner owner c t).port p = m.port p := by
  cases owner with
  | none => cases p <;> rfl
  | some q => exact port_setPort_ne m _ (fun e => h (by rw [e]))

theorem wants_closed {m : Management} {p : Port} (h : (m.port p).isOpen = false) (c : Condition) : m.wants p c = false := by
  simp [Management.wants, h]

theorem port_offer_ne (m : Management) {p q : Port} (h : p ≠ q) (c : Condition) (t : Tick) :
    (m.offer q c t).port p = m.port p := port_setPort_ne m _ h

theorem port_raiseDeviceWide_closed {m : Management} {p : Port} (h : (m.port p).isOpen = false) (c : Condition) (t : Tick) :
    (m.raiseDeviceWide c t).port p = m.port p := by
  have hw := wants_closed h c
  unfold Management.raiseDeviceWide
  split
  · rename_i ha hb
    cases p
    · rw [hw] at ha; cases ha
    · rw [hw] at hb; cases hb
  · rename_i ha hb
    cases p
    · rw [hw] at ha; cases ha
    · exact port_offer_ne m (by decide) c t
  · rename_i ha hb
    cases p
    · exact port_offer_ne m (by decide) c t
    · rw [hw] at hb; cases hb
  · cases p <;> rfl

theorem port_alertNotice_ne {m : Management} {p : Port} {x : Probe} (h : x.owner ≠ some p) (t : Tick) (i : ProbeNo)
    (n : Notice) : (alertNotice t i n x m).port p = m.port p := by
  unfold alertNotice
  dsimp only
  split <;> split <;> simp [port_raiseToOwner_ne h]

theorem port_sendNotices_ne {p : Port} (t : Tick) (set : ProbeSet) (n : Notice) :
    ∀ {s : State}, (∀ i, (s.probe i).owner ≠ some p) → (sendNotices t set n s).port p = s.port p := by
  unfold sendNotices
  induction members set with
  | nil => exact fun _ => rfl
  | cons i is ih =>
    intro s h
    refine (ih (s := notify t i n s) fun j => ?_).trans (port_alertNotice_ne (m := s.mgmt) (h i) t i n)
    by_cases hj : j = i
    · subst hj; rw [notify_probe_same]; exact h j
    · rw [notify_probe_ne t n s hj]; exact h j

theorem port_raiseDrained_ne {p : Port} (o : DrainOutcome) (t : Tick) (abandoned : Probe → Option Nat) (set : ProbeSet)
    {b : Bank} (h : ∀ i, (b.probe i).owner ≠ some p) :
    ∀ m : Management, (raiseDrained o t abandoned set b m).port p = m.port p := by
  unfold raiseDrained
  induction members set with
  | nil => exact fun _ => rfl
  | cons i is ih =>
    intro m
    refine (ih _).trans ?_
    dsimp only
    split
    · exact port_raiseToOwner_ne (h i) _ _
    · rfl

section

variable {p : Port} {s : State}

theorem Aloof.untracked (h : Aloof p s) (stamp : Tick) : (untracked stamp s).port p = s.port p := by
  unfold Machine.untracked State.port
  dsimp only
  split
  · exact port_raiseDeviceWide_closed h.closed _ _
  · rfl

theorem Aloof.handleRequest (h : Aloof p s) (key : Key) (kind : TrackedKind) (length : Nat) (stamp : Tick) :
    (handleRequest key kind length stamp s).port p = s.port p := by
  unfold Machine.handleRequest
  split
  · exact port_sendNotices_ne _ _ _ h.probes
  · unfold admitFresh
    dsimp only
    split
    · split
      · rfl
      · exact Aloof.untracked (s := { s with trk := { s.trk with ring := dropKey key s.trk.ring } })
          ⟨h.closed, h.probes, h.triggers⟩ stamp
    · exact Aloof.untracked (s := { s with trk := { s.trk with ring := dropKey key s.trk.ring } })
        ⟨h.closed, h.probes, h.triggers⟩ stamp

theorem Aloof.handlePart (h : Aloof p s) (key : Key) (status : Status) (bytes : Nat) (last : Bool) (stamp : Tick) :
    (handlePart key status bytes last stamp s).port p = s.port p := by
  unfold Machine.handlePart
  split
  · split
    · exact port_sendNotices_ne _ _ _ h.probes
    · exact port_sendNotices_ne _ _ _ h.probes
  · rfl

theorem Aloof.engineHandle (h : Aloof p s) (r : Record) (stamp : Tick) : (engineHandle r stamp s).port p = s.port p := by
  unfold Machine.engineHandle
  split
  · split
    · exact h.handleRequest _ _ _ _
    · rfl
  · exact h.handlePart _ _ _ _ _
  all_goals rfl

/-- What one trigger's turn does to the Harvest Unit: a slot may be filled for the owner of a trigger, and a trigger may
change but for its owner, or go. -/
theorem serveTrigger_harv (label : BitVec 16) (stamp : Tick) (s : State) (n : Fin 4) :
    (∀ (k : Fin 4) (x : Trigger), (serveTrigger label stamp s n).harv.triggers[k] = some x →
      ∃ y, s.harv.triggers[k] = some y ∧ y.owner = x.owner) ∧
    ∀ (k : Fin 4) (x : Slot), (serveTrigger label stamp s n).harv.slots[k] = some x →
      s.harv.slots[k] = some x ∨ ∃ (j : Fin 4) (y : Trigger), s.harv.triggers[j] = some y ∧ y.owner = x.owner := by
  have keep : (∀ (k : Fin 4) (x : Trigger), s.harv.triggers[k] = some x →
      ∃ y, s.harv.triggers[k] = some y ∧ y.owner = x.owner) := fun _ x h => ⟨x, h, rfl⟩
  have served : ∀ (x y : Trigger) (k : Fin 4) (z : Trigger), s.harv.triggers[n] = some x → y.owner = x.owner →
      (s.harv.triggers.set n y.served)[k] = some z → ∃ w, s.harv.triggers[k] = some w ∧ w.owner = z.owner := by
    intro x y k z hx hy hz
    rw [vector_set_get] at hz
    split at hz
    · rename_i hk
      subst hk
      unfold Trigger.served at hz
      split at hz
      · cases hz
      · cases hz; exact ⟨x, hx, hy.symm⟩
    · exact ⟨z, hz, rfl⟩
  unfold serveTrigger
  split
  · rename_i x hx
    split
    · unfold fireTrigger
      split
      · rename_i k0 hk0
        refine ⟨fun k z hz => served x { x with fired := satInc x.fired } k z hx rfl hz, fun k z hz => ?_⟩
        have e : (s.harv.slots.set k0 (some (captureSlot x.owner (.trigger n label stamp) (boundProbes x.probes s.bank)
            (if x.zero then boundProbes x.probes s.bank &&& s.bank.ownedBy x.owner else 0) s)))[k] = some z := hz
        rw [vector_set_get] at e
        split at e
        · cases e; exact .inr ⟨n, x, hx, rfl⟩
        · exact .inl e
      · exact ⟨fun k z hz => served x x k z hx rfl hz, fun k z hz => .inl hz⟩
    · exact ⟨keep, fun _ _ h => .inl h⟩
  · exact ⟨keep, fun _ _ h => .inl h⟩

theorem Aloof.serveTrigger_port (h : Aloof p s) (label : BitVec 16) (stamp : Tick) (n : Fin 4) :
    (serveTrigger label stamp s n).port p = s.port p := by
  unfold serveTrigger
  split
  · rename_i x hx
    split
    · have ho : some x.owner ≠ some p := fun e => h.triggers n x hx (by cases e; rfl)
      unfold fireTrigger
      split
      · exact port_raiseToOwner_ne ho _ _
      · exact port_raiseToOwner_ne ho _ _
    · rfl
  · rfl

theorem Aloof.serveTrigger (h : Aloof p s) (label : BitVec 16) (stamp : Tick) (n : Fin 4) :
    Aloof p (serveTrigger label stamp s n) where
  closed := by rw [h.serveTrigger_port]; exact h.closed
  probes := fun i => by rw [((engineWork_serveTrigger label stamp s n).probes i).1]; exact h.probes i
  triggers := fun k x hx => by
    obtain ⟨y, hy, ho⟩ := (serveTrigger_harv label stamp s n).1 k x hx
    rw [← ho]; exact h.triggers k y hy

theorem Aloof.offerRecord (h : Aloof p s) (r : Record) : Aloof p (offerRecord r s) :=
  ⟨h.closed, fun i => by rw [((engineWork_offerRecord r s).probes i).1]; exact h.probes i, h.triggers⟩

end

end Sys2Proof.Machine
end

