-- ==== Sys2Proof/Laws/BankSteps.lean ====
section
/-! SUPPORT. Drain cuts, sweep visits, the tracking clear and the probe commands keep the laws of the engine. -/

namespace Sys2Proof.Machine

/-- An addition of probes that have just become PURGING keeps the purge law (R102). -/
theorem PurgeLaw.added {table : List Entry} {b c : Bank} (h : PurgeLaw table b) (set : ProbeSet) (queued : Nat)
    (hs : ∀ i, set.has i = true → (b.probe i).state ≠ .purging)
    (hp : ∀ i, (c.probe i).state = .purging ↔ ((b.probe i).state = .purging ∨ set.has i = true))
    (hc : c.purge = b.purge.add set queued) : PurgeLaw table c := by
  unfold Purge.add at hc
  split at hc
  · rename_i hz
    have hz' := (ProbeSet.eq_zero_iff set).mp (by simpa using hz)
    exact h.congr (fun i => by rw [hp, hz' i]; simp) (by rw [hc]) (by rw [hc]) (by rw [hc])
  · rename_i hz
    have hnz : set ≠ 0#16 := by simpa using hz
    split at hc
    · rename_i hcur
      have hcur' : b.purge.current = 0#16 := by simpa using hcur
      have hw : b.purge.waiting = 0#16 := h.rest hcur'
      refine ⟨fun i => ?_, ?_, ?_, ?_, ?_⟩
      · rw [hp, hc]
        have := h.purging i
        rw [hcur', hw] at this
        simp only [ProbeSet.has_zero] at this
        show _ ↔ (set.has i = true ∨ b.purge.waiting.has i = true)
        rw [hw]; simp only [ProbeSet.has_zero]
        simp [this]
      · rw [hc]; show set &&& b.purge.waiting = 0; rw [hw]; simp
      · rw [hc]; simp [hnz]
      · rw [hc]; intro h0; exact absurd h0 hnz
      · rw [hc]; intro k hk e _ hlt
        have : k = 0 := (Option.some.inj hk).symm
        subst this
        exact absurd hlt (Fin.not_lt_zero _)
    · rename_i hcur
      have hcur' : b.purge.current ≠ 0#16 := by simpa using hcur
      refine ⟨fun i => ?_, ?_, ?_, ?_, ?_⟩
      · rw [hp, hc, h.purging i]
        show _ ↔ (b.purge.current.has i = true ∨ ProbeSet.has (b.purge.waiting ||| set) i = true)
        rw [ProbeSet.has_or, Bool.or_eq_true]; tauto
      · rw [hc]
        show b.purge.current &&& (b.purge.waiting ||| set) = 0
        refine (ProbeSet.eq_zero_iff _).mpr fun i => ?_
        rw [ProbeSet.has_and, ProbeSet.has_or]
        cases hi : b.purge.current.has i
        · rfl
        · have h1 := ProbeSet.has_eq_false_of_and_eq_zero h.apart hi
          have h2 : set.has i = false := by
            cases hsi : set.has i
            · rfl
            · exact absurd ((h.purging i).mpr (.inl hi)) (hs i hsi)
          rw [h1, h2]; rfl
      · rw [hc]; exact h.idle
      · rw [hc]; intro h0; exact absurd h0 hcur'
      · rw [hc]; exact h.visited

/-- A drain cut keeps the laws (R98). -/
theorem EngineLaw.cut {s : State} (h : EngineLaw s) (i : ProbeNo) (hd : (s.probe i).state = .draining) :
    EngineLaw (cutDrain i s) := by
  have hp : ∀ j, (cutDrain i s).bank.probe j = if i = j then (s.probe i).cut else s.probe j :=
    fun j => Bank.probe_setProbe ..
  refine ⟨h.table, ⟨?_, ?_, ?_, ?_, ?_⟩, h.purge.added (1#16 <<< i.val) s.obs.queue.length ?_ ?_ rfl⟩
  · intro j; rw [hp]; have := h.flight.counts j
    split
    · rename_i hij; subst hij; exact this
    · exact this
  · intro e he j hj; rw [hp]
    have := h.flight.named e he j hj
    split
    · rename_i hij; subst hij; exact ⟨this.1, .inr (.inr rfl)⟩
    · exact this
  · intro j hj; rw [hp] at hj ⊢
    split at hj
    · cases hj
    · rename_i hij; rw [if_neg hij]; exact h.flight.draining j hj
  · intro j hj; rw [hp] at hj ⊢
    split at hj
    · cases hj
    · rename_i hij; rw [if_neg hij]; exact h.flight.deadline j hj
  · intro j hj; rw [hp] at hj ⊢
    split at hj
    · rename_i hij; rw [if_pos hij]; rfl
    · rename_i hij; rw [if_neg hij]; exact h.flight.cutCount j hj
  · intro j hj
    rw [ProbeSet.has_single, decide_eq_true_eq] at hj
    subst hj
    rw [State.probe_eq_bank] at hd; rw [hd]; decide
  · intro j
    rw [hp, ProbeSet.has_single]
    split
    · rename_i hij; subst hij; simp [Probe.cut]
    · rename_i hij
      have hji : ¬ j = i := fun e => hij e.symm
      rw [decide_eq_true_eq, State.probe_eq_bank]; tauto

/-! ### Sweeps -/

theorem visitEntry_laws {s : State} (h : EngineLaw s) {k : Fin 256} (hk : s.bank.purge.position = some k) :
    EngineLaw (visitEntry k s) ∧ (visitEntry k s).bank.purge = s.bank.purge ∧
      (∀ e ∈ (visitEntry k s).trk.table, e.index ≤ k → e.matchSet &&& s.bank.purge.current = 0) := by
  unfold visitEntry
  cases hf : findIndex s.trk.table k with
  | none =>
    refine ⟨h, rfl, fun e he hle => ?_⟩
    rcases lt_or_eq_of_le hle with hlt | heq
    · exact h.purge.visited k hk e he hlt
    · exact absurd heq (findIndex_eq_none.mp hf e he)
  | some e =>
    obtain ⟨he, hi⟩ := mem_of_findIndex hf
    dsimp only
    refine ⟨h.shrink (new := { e with matchSet := e.matchSet &&& ~~~(e.matchSet &&& s.bank.purge.current) }) he rfl rfl
      (h.table.shapes e he) _ (fun i hi => ?_) rfl s.timebase .removal, sendNotices_purge .., fun x hx hle => ?_⟩
    · rw [ProbeSet.has_and, Bool.and_eq_true] at hi; exact hi.1
    · rcases mem_replaceEntry hx with ⟨rfl, _⟩ | ⟨hx, hne⟩
      · refine (ProbeSet.eq_zero_iff _).mpr fun i => ?_
        simp only [ProbeSet.has_and, ProbeSet.has_not]
        cases e.matchSet.has i <;> cases s.bank.purge.current.has i <;> rfl
      · rcases lt_or_eq_of_le hle with hlt | heq
        · exact h.purge.visited k hk x hx hlt
        · exact absurd (heq.trans hi.symm) hne

theorem EngineLaw.advance {s : State} (h : EngineLaw s) {k : Fin 256} (hk : s.bank.purge.position = some k)
    (hne : k ≠ 255) : EngineLaw (advanceSweep k (visitEntry k s)) := by
  obtain ⟨h1, h2, h3⟩ := visitEntry_laws h hk
  refine ⟨h1.table, h1.flight.congr (fun i => ⟨rfl, rfl, rfl, rfl, rfl⟩), ⟨h1.purge.purging, h1.purge.apart, ?_, h1.purge.rest, ?_⟩⟩
  · have := h1.purge.idle
    rw [h2, hk] at this
    show some (k + 1) = none ↔ (visitEntry k s).bank.purge.current = 0
    rw [h2]; simpa using this
  · intro j hj e he hlt
    have : j = k + 1 := (Option.some.inj hj).symm
    subst this
    show e.matchSet &&& (visitEntry k s).bank.purge.current = 0
    rw [h2]
    refine h3 e he ?_
    have hkl : k.val < 255 := by
      have : k.val ≠ 255 := fun hv => hne (Fin.ext hv)
      have := k.isLt; omega
    have hv : (k + 1).val = k.val + 1 := by
      rw [Fin.val_add]; show (k.val + 1) % 256 = _; omega
    have : e.index.val < k.val + 1 := hv ▸ hlt
    exact Fin.le_def.mpr (by omega)

theorem finishSweep_probe (s : State) (i : ProbeNo) :
    (finishSweep s).bank.probe i = if s.bank.purge.current.has i then (s.probe i).rest else s.probe i :=
  mapFin_get s.bank.probes (fun i (x : Probe) => if s.bank.purge.current.has i then x.rest else x) i

/-- The end of a sweep keeps the laws when no entry names a probe of its current set any more (R104). -/
theorem EngineLaw.finish {s : State} (h : EngineLaw s)
    (hv : ∀ e ∈ s.trk.table, e.matchSet &&& s.bank.purge.current = 0) :
    EngineLaw (finishSweep s) := by
  have hno : ∀ e ∈ s.trk.table, ∀ i, e.matchSet.has i = true → s.bank.purge.current.has i = false :=
    fun e he i hi => ProbeSet.has_eq_false_of_and_eq_zero (hv e he) hi
  have hother : ∀ i, s.bank.purge.current.has i = false →
      ((s.probe i).state = .purging ↔ s.bank.purge.waiting.has i = true) := by
    intro i hi
    have := h.purge.purging i
    rw [hi] at this; rw [State.probe_eq_bank, this]; simp
  have hcp : ∀ i, s.bank.purge.current.has i = true → (s.probe i).state = .purging :=
    fun i hi => (h.purge.purging i).mpr (.inl hi)
  have hstate : ∀ i, ((finishSweep s).bank.probe i).state = .purging ↔ s.bank.purge.waiting.has i = true := by
    intro i
    rw [finishSweep_probe]
    split
    · rename_i hi
      have := ProbeSet.has_eq_false_of_and_eq_zero h.purge.apart hi
      simp [Probe.rest, this]
    · rename_i hi
      exact hother i (by simpa using hi)
  refine ⟨h.table, ⟨?_, ?_, ?_, ?_, ?_⟩, ?_⟩
  · intro i; rw [finishSweep_probe]; have := h.flight.counts i
    split
    · exact this
    · exact this
  · intro e he i hi; rw [finishSweep_probe, if_neg (by simp [hno e he i hi])]
    exact h.flight.named e he i hi
  · intro i hi; rw [finishSweep_probe] at hi ⊢
    split at hi
    · cases hi
    · rename_i hx; rw [if_neg hx]; exact h.flight.draining i hi
  · intro i hi; rw [finishSweep_probe] at hi ⊢
    split at hi
    · cases hi
    · rename_i hx; rw [if_neg hx]; exact h.flight.deadline i hi
  · intro i hi; rw [finishSweep_probe] at hi ⊢
    split at hi
    · cases hi
    · rename_i hx; rw [if_neg hx]; exact h.flight.cutCount i hi
  · have hp : (finishSweep s).bank.purge = s.bank.purge.endSweep s.obs.queue.length := rfl
    unfold Purge.endSweep at hp
    split at hp
    · rename_i hw
      have hw' : s.bank.purge.waiting = 0#16 := by simpa using hw
      refine ⟨fun i => ?_, ?_, ?_, ?_, ?_⟩
      · rw [hstate, hp, hw']; simp [Purge.idle]
      · rw [hp]; rfl
      · rw [hp]; simp [Purge.idle]
      · rw [hp]; simp [Purge.idle]
      · rw [hp]; intro k hk; cases hk
    · rename_i hw
      have hw' : s.bank.purge.waiting ≠ 0#16 := by simpa using hw
      refine ⟨fun i => ?_, ?_, ?_, ?_, ?_⟩
      · rw [hstate, hp]; simp
      · rw [hp]; simp
      · rw [hp]; simp [hw']
      · rw [hp]; intro h0; exact absurd h0 hw'
      · rw [hp]; intro k hk e _ hlt
        have : k = 0 := (Option.some.inj hk).symm
        subst this
        exact absurd hlt (Fin.not_lt_zero _)

/-! ### The tracking clear -/

theorem trackingClear_probe (s : State) (i : ProbeNo) : (trackingClear s).bank.probe i = (s.probe i).flushed :=
  mapFin_get s.bank.probes (fun _ x => x.flushed) i

theorem flushed_state (x : Probe) : x.flushed.state ≠ .draining ∧ x.flushed.state ≠ .purging := by
  unfold Probe.flushed
  split <;> rename_i he
  · exact ⟨by simp [Probe.rest], by simp [Probe.rest]⟩
  · simpa [Probe.ending] using he

theorem flushed_inFlight (x : Probe) : x.flushed.inFlight = 0 := by unfold Probe.flushed; split <;> rfl

/-- The tracking clear keeps the laws (R42, R43). -/
theorem EngineLaw.cleared {s : State} (h : EngineLaw s) : EngineLaw (trackingClear s) := by
  have hp := trackingClear_probe s
  have ht : (trackingClear s).trk.table = [] := rfl
  have hr : (trackingClear s).trk.ring = [] := rfl
  have hu : (trackingClear s).bank.purge = Purge.idle := rfl
  refine ⟨⟨List.nodup_nil, List.nodup_nil, List.nodup_nil, ?_, ?_⟩, ⟨?_, ?_, ?_, ?_, ?_⟩, ⟨?_, ?_, ?_, ?_, ?_⟩⟩
  · rw [hr]; intro r hr; cases hr
  · rw [ht]; intro e he; cases he
  · intro i; rw [hp, flushed_inFlight]; rfl
  · rw [ht]; intro e he; cases he
  · intro i hi; rw [hp] at hi; exact absurd hi (flushed_state _).1
  · intro i hi; rw [hp] at hi
    unfold Probe.flushed at hi
    split at hi <;> rename_i he
    · cases hi
    · have := h.flight.deadline i hi
      rw [State.probe_eq_bank] at he
      exact absurd (by simp [Probe.ending, this]) he
  · intro i hi; rw [hp] at hi
    unfold Probe.flushed at hi
    split at hi <;> rename_i he
    · cases hi
    · have := h.flight.cutCount i hi
      rw [State.probe_eq_bank] at he
      exact absurd (by simp [Probe.ending, this]) he
  · intro i; rw [hp]
    have := (flushed_state (s.probe i)).2
    rw [hu]; simp [this, Purge.idle]
  · rw [hu]; rfl
  · rw [hu]; simp [Purge.idle]
  · rw [hu]; intro _; rfl
  · rw [hu]; intro k hk; cases hk

/-! ### Probe commands -/

/-- A probe with nothing in flight, outside the sets of the purge engine, may become any probe with nothing in flight that
neither drains nor purges (R84, R85, R89). -/
theorem EngineLaw.atRest {s t : State} (h : EngineLaw s) (set : ProbeNo → Prop) (ht : t.trk.table = s.trk.table)
    (hr : t.trk.ring = s.trk.ring) (hpurge : t.bank.purge = s.bank.purge)
    (hsame : ∀ i, ¬ set i → t.bank.probe i = s.bank.probe i)
    (hold : ∀ i, set i → (s.bank.probe i).state = .unbound ∨ (s.bank.probe i).state = .armed ∨
      (s.bank.probe i).state = .held)
    (hnew : ∀ i, set i → (t.bank.probe i).inFlight = (s.bank.probe i).inFlight ∧
      (t.bank.probe i).drainDeadline = (s.bank.probe i).drainDeadline ∧
      (t.bank.probe i).cutCount = (s.bank.probe i).cutCount ∧
      ((t.bank.probe i).state ≠ .draining ∧ (t.bank.probe i).state ≠ .purging)) : EngineLaw t := by
  have hnone : ∀ e ∈ s.trk.table, ∀ i, e.matchSet.has i = true → ¬ set i := by
    intro e he i hi hs
    have := (h.flight.named e he i hi).2
    rcases hold i hs with h1 | h1 | h1 <;> rw [h1] at this <;> simp at this
  have hnd : ∀ i, set i → (s.bank.probe i).drainDeadline = none ∧ (s.bank.probe i).cutCount = none := by
    intro i hs
    constructor
    · cases hd : (s.bank.probe i).drainDeadline with
      | none => rfl
      | some d =>
        have := h.flight.deadline i (by rw [hd]; rfl)
        rcases hold i hs with h1 | h1 | h1 <;> rw [h1] at this <;> simp at this
    · cases hd : (s.bank.probe i).cutCount with
      | none => rfl
      | some d =>
        have := h.flight.cutCount i (by rw [hd]; rfl)
        rcases hold i hs with h1 | h1 | h1 <;> rw [h1] at this <;> simp at this
  refine ⟨h.table.congr ht hr, ?_, ?_⟩
  · rw [ht]
    refine ⟨?_, ?_, ?_, ?_, ?_⟩
    · intro i
      by_cases hs : set i
      · rw [(hnew i hs).1]; exact h.flight.counts i
      · rw [hsame i hs]; exact h.flight.counts i
    · intro e he i hi
      rw [hsame i (hnone e he i hi)]; exact h.flight.named e he i hi
    · intro i hi
      by_cases hs : set i
      · exact absurd hi (hnew i hs).2.2.2.1
      · rw [hsame i hs] at hi ⊢; exact h.flight.draining i hi
    · intro i hi
      by_cases hs : set i
      · rw [(hnew i hs).2.1, (hnd i hs).1] at hi; cases hi
      · rw [hsame i hs] at hi ⊢; exact h.flight.deadline i hi
    · intro i hi
      by_cases hs : set i
      · rw [(hnew i hs).2.2.1, (hnd i hs).2] at hi; cases hi
      · rw [hsame i hs] at hi ⊢; exact h.flight.cutCount i hi
  · rw [ht]
    refine h.purge.congr (fun i => ?_) (by rw [hpurge]) (by rw [hpurge]) (by rw [hpurge])
    by_cases hs : set i
    · have h1 := (hnew i hs).2.2.2.2
      have h2 : (s.bank.probe i).state ≠ .purging := by
        rcases hold i hs with h1 | h1 | h1 <;> rw [h1] <;> decide
      exact iff_of_false h1 h2
    · rw [hsame i hs]

theorem Bank.stop_now_probe (b : Bank) (set : ProbeSet) (now : Tick) (queued : Nat) (i : ProbeNo) :
    (b.stop 0 set now queued).probe i = if set.has i then (b.probe i).stopNow else b.probe i :=
  mapFin_get b.probes (fun i (x : Probe) => if set.has i then x.stopNow else x) i

/-- An immediate stop of RUNNING probes keeps the laws (R87). -/
theorem EngineLaw.stopNow {s : State} (h : EngineLaw s) (set : ProbeSet) (now : Tick) (queued : Nat)
    (hrun : ∀ i, set.has i = true → (s.bank.probe i).state = .running) :
    EngineLaw { s with bank := s.bank.stop 0 set now queued } := by
  have hp := Bank.stop_now_probe s.bank set now queued
  refine ⟨h.table, ⟨?_, ?_, ?_, ?_, ?_⟩, h.purge.added (s.bank.busy set) queued ?_ ?_ rfl⟩
  · intro i; rw [hp]; have := h.flight.counts i
    split
    · unfold Probe.stopNow; split <;> exact this
    · exact this
  · intro e he i hi; rw [hp]
    have hn := h.flight.named e he i hi
    split
    · have hpos := naming_pos_of_mem he hi
      rw [← h.flight.counts i] at hpos
      unfold Probe.stopNow
      rw [if_neg (by simpa using Nat.pos_iff_ne_zero.mp hpos)]
      exact ⟨hn.1, .inr (.inr rfl)⟩
    · exact hn
  · intro i hi; rw [hp] at hi ⊢
    split at hi
    · unfold Probe.stopNow at hi; split at hi <;> cases hi
    · rename_i hs; rw [if_neg hs]; exact h.flight.draining i hi
  · intro i hi; rw [hp] at hi ⊢
    split at hi
    · rename_i hs
      have hd : (s.bank.probe i).drainDeadline.isSome := by
        unfold Probe.stopNow at hi; split at hi <;> exact hi
      have := h.flight.deadline i hd
      rw [hrun i hs] at this; cases this
    · rename_i hs; rw [if_neg hs]; exact h.flight.deadline i hi
  · intro i hi; rw [hp] at hi ⊢
    split at hi
    · rename_i hs
      rw [if_pos hs]
      unfold Probe.stopNow at hi ⊢
      split at hi
      · have := h.flight.cutCount i hi
        rw [hrun i hs] at this; cases this
      · cases hi
    · rename_i hs; rw [if_neg hs]; exact h.flight.cutCount i hi
  · intro i hi
    unfold Bank.busy at hi
    rw [probesWhere_has, Bool.and_eq_true] at hi
    rw [hrun i hi.1]; decide
  · intro i
    rw [hp]
    unfold Bank.busy
    rw [probesWhere_has, Bool.and_eq_true]
    cases hs : set.has i
    · simp
    · have := hrun i hs
      rw [this, if_pos rfl]
      unfold Probe.stopNow
      split <;> simp_all

theorem Bank.stop_drain_probe (b : Bank) (set : ProbeSet) (now : Tick) (queued n : Nat) (i : ProbeNo) :
    (b.stop (n + 1) set now queued).probe i = if set.has i then (b.probe i).stopDraining now else b.probe i :=
  Bank.probe_mapProbes ..

/-- A draining stop of RUNNING probes keeps the laws (R88). -/
theorem EngineLaw.stopDraining {s : State} (h : EngineLaw s) (n : Nat) (set : ProbeSet) (now : Tick) (queued : Nat)
    (hrun : ∀ i, set.has i = true → (s.bank.probe i).state = .running) :
    EngineLaw { s with bank := s.bank.stop (n + 1) set now queued } := by
  have hp := Bank.stop_drain_probe s.bank set now queued n
  refine ⟨h.table, ⟨?_, ?_, ?_, ?_, ?_⟩, h.purge.congr (fun i => ?_) rfl rfl rfl⟩
  · intro i; rw [hp]; have := h.flight.counts i
    split
    · unfold Probe.stopDraining; split <;> exact this
    · exact this
  · intro e he i hi; rw [hp]
    have hn := h.flight.named e he i hi
    split
    · have hpos := naming_pos_of_mem he hi
      rw [← h.flight.counts i] at hpos
      unfold Probe.stopDraining
      rw [if_neg (by simpa using Nat.pos_iff_ne_zero.mp hpos)]
      exact ⟨hn.1, .inr (.inl rfl)⟩
    · exact hn
  · intro i hi; rw [hp] at hi ⊢
    split at hi
    · rename_i hs
      rw [if_pos hs]
      unfold Probe.stopDraining at hi ⊢
      split at hi
      · cases hi
      · rename_i hz
        rw [if_neg hz]
        exact Nat.pos_iff_ne_zero.mpr (by simpa using hz)
    · rename_i hs; rw [if_neg hs]; exact h.flight.draining i hi
  · intro i hi; rw [hp] at hi ⊢
    split at hi
    · rename_i hs
      rw [if_pos hs]
      unfold Probe.stopDraining at hi ⊢
      split at hi
      · have := h.flight.deadline i hi
        rw [hrun i hs] at this; cases this
      · rename_i hz; rw [if_neg hz]
    · rename_i hs; rw [if_neg hs]; exact h.flight.deadline i hi
  · intro i hi; rw [hp] at hi ⊢
    split at hi
    · rename_i hs
      have hd : (s.bank.probe i).cutCount.isSome := by
        unfold Probe.stopDraining at hi; split at hi <;> exact hi
      have := h.flight.cutCount i hd
      rw [hrun i hs] at this; cases this
    · rename_i hs; rw [if_neg hs]; exact h.flight.cutCount i hi
  · rw [hp]
    split
    · rename_i hs
      have := hrun i hs
      rw [this]
      unfold Probe.stopDraining
      split <;> simp
    · rfl

end Sys2Proof.Machine
end

