-- ==== Sys2Proof/Laws/Operands.lean ====
section
/-! SUPPORT. The checks of command bodies, as propositions; and what the settings and assignments of a body leave. -/

namespace Sys2Proof.Machine

/-! ### Selectors and definitions -/

theorem maskOk_iff (n : Nat) (mask : Byte) : maskOk n mask = true ↔ mask ≠ 0 ∧ mask.toNat < 2 ^ n := by simp [maskOk]

theorem rangeOk_iff (greatest lo hi : Nat) : rangeOk greatest lo hi = true ↔ lo ≤ hi ∧ hi ≤ greatest := by
  simp [rangeOk]

theorem within_iff (lo hi v : Nat) : within lo hi v = true ↔ lo ≤ v ∧ v ≤ hi := by simp [within]

theorem fits_iff (x : Selector) (m : Measure) :
    x.fits m = true ↔ (m.isLatency = true → x.kindSet.toNat < 8) := by
  cases h : m.isLatency <;> simp [Selector.fits, h]

theorem valid_iff (x : Selector) : x.valid = true ↔
    (((((((maskOk 8 x.groupSet = true ∧ maskOk 5 x.kindSet = true) ∧ maskOk 3 x.statusSet = true) ∧
      maskOk 4 x.creditSet = true) ∧ maskOk 3 x.errorSet = true) ∧ rangeOk 255 x.tagLo x.tagHi = true) ∧
      rangeOk 4096 x.lengthLo x.lengthHi = true) ∧ rangeOk 65535 x.labelLo x.labelHi = true) := by
  simp only [Selector.valid, Bool.and_eq_true]

theorem measureOfCodes_isSome (m e : Nat) : (measureOfCodes m e).isSome = true ↔ m ≤ 2 ∧ (m = 0 → e ≤ 5) := by
  match m with
  | 0 =>
    match e with
    | 0 | 1 | 2 | 3 | 4 | 5 => simp [measureOfCodes, recordKindOfCode]
    | n + 6 => simp [measureOfCodes, recordKindOfCode]
  | 1 => simp [measureOfCodes]
  | 2 => simp [measureOfCodes]
  | n + 3 => simp [measureOfCodes]

theorem isLatency_of_measureOfCodes {m e : Nat} {x : Measure} (h : measureOfCodes m e = some x) :
    x.isLatency = true ↔ m ≠ 0 := by
  match m with
  | 0 =>
    simp only [measureOfCodes, Option.map_eq_some_iff] at h
    obtain ⟨k, -, rfl⟩ := h
    simp [Measure.isLatency]
  | 1 => cases h; simp [Measure.isLatency]
  | 2 => cases h; simp [Measure.isLatency]
  | n + 3 => cases h

theorem histModeOfCode_isSome (n : Nat) : (histModeOfCode n).isSome = true ↔ n ≤ 1 := by
  match n with
  | 0 | 1 => simp [histModeOfCode]
  | n + 2 => simp [histModeOfCode]

/-- The checks of a histogram request (R110). -/
theorem histRequestOfBody_isSome (body : List Byte) : (histRequestOfBody body).isSome = true ↔
    (byteAt body 33).toNat ≤ 1 ∧ 1 ≤ field body 34 4 ∧ field body 34 4 ≤ Config.greatestParameter := by
  rw [← histModeOfCode_isSome]
  unfold histRequestOfBody
  cases histModeOfCode (byteAt body 33).toNat with
  | none => simp
  | some mode => simp

theorem field_two_lt (body : List Byte) (offset : Nat) : field body offset 2 < 65536 := by
  unfold field
  generalize body.drop offset = l
  match l with
  | [] => simp [leNat]
  | [a] => have := a.isLt; simp [leNat]; omega
  | a :: b :: _ => have := a.isLt; have := b.isLt; simp [leNat]; omega

/-! ### Settings and assignments -/

theorem settingsOk_iff (l : List (Byte × Nat)) : settingsOk l = true ↔
    (∀ x ∈ l, x.1.toNat < 3 ∧ Config.leastTimeout ≤ x.2) ∧ (l.map Prod.fst).Nodup := by
  simp [settingsOk]

theorem assignmentsOk_iff (l : List (Byte × Byte)) : assignmentsOk l = true ↔
    (∀ x ∈ l, x.1.toNat < 32 ∧ x.2.toNat < 8) ∧ (l.map Prod.fst).Nodup := by
  simp [assignmentsOk]

theorem settingsOfBody_lt (body : List Byte) : ∀ x ∈ settingsOfBody body, x.2 < 2 ^ 32 := by
  intro x hx
  fun_induction settingsOfBody body with
  | case1 k b0 b1 b2 b3 rest ih =>
    rcases List.mem_cons.mp hx with rfl | h
    · have := b0.isLt
      have := b1.isLt
      have := b2.isLt
      have := b3.isLt
      simp [leNat]; omega
    · exact ih h
  | case2 => simp at hx

/-- One setting changes the timeout of the kind it names. -/
theorem put_of (t : Timeouts) (x : Byte × Nat) (k : TrackedKind) :
    (t.put x).of k = if x.1 = byte k.code then BitVec.ofNat 32 x.2 else t.of k := by
  obtain ⟨b, v⟩ := x
  have hb : ∀ n < 256, b.toNat = n → b = BitVec.ofNat 8 n := by
    intro n hn h
    apply BitVec.eq_of_toNat_eq
    simp [h]; omega
  unfold Timeouts.put
  split
  · rename_i h; have := hb 0 (by omega) h; subst this; cases k <;> simp [Timeouts.of, TrackedKind.code, byte]
  · rename_i h; have := hb 1 (by omega) h; subst this; cases k <;> simp [Timeouts.of, TrackedKind.code, byte]
  · rename_i h; have := hb 2 (by omega) h; subst this; cases k <;> simp [Timeouts.of, TrackedKind.code, byte]
  · rename_i h0 h1 h2
    rw [if_neg]
    rintro rfl
    cases k <;> simp [TrackedKind.code, byte] at h0 h1 h2

/-- Settings that name each kind once: a kind named takes its value, the others keep theirs. -/
theorem foldl_put (l : List (Byte × Nat)) : ∀ (t : Timeouts) (k : TrackedKind), (l.map Prod.fst).Nodup →
    (∀ v, (byte k.code, v) ∈ l → (l.foldl Timeouts.put t).of k = BitVec.ofNat 32 v) ∧
      ((∀ v, (byte k.code, v) ∉ l) → (l.foldl Timeouts.put t).of k = t.of k) := by
  induction l with
  | nil => intro t k _; simp
  | cons x l ih =>
    intro t k hn
    simp at hn
    obtain ⟨h1, h2⟩ := ih (t.put x) k hn.2
    refine ⟨fun v hv => ?_, fun h => ?_⟩
    · rcases List.mem_cons.mp hv with h | h
      · subst h
        rw [List.foldl_cons, h2 (fun v hv => hn.1 v hv), put_of, if_pos rfl]
      · exact h1 v h
    · rw [List.foldl_cons, h2 (fun v hv => h v (by simp [hv])), put_of, if_neg]
      intro he
      exact h x.2 (by rw [← he]; simp)

/-- One assignment changes the group of the requester it names. -/
theorem putGroup_get (m : Vector (Fin 8) 32) (x : Byte × Byte) (hx : x.1.toNat < 32) (r : Fin 32) :
    (putGroup m x)[r] = if x.1 = byte r then Fin.ofNat 8 x.2.toNat else m[r] := by
  have e : Fin.ofNat 32 x.1.toNat = r ↔ x.1 = byte r := by
    constructor
    · intro h
      apply BitVec.eq_of_toNat_eq
      rw [← h]; simp [byte, Fin.ofNat]; omega
    · intro h
      rw [h]; ext; simp [byte, Fin.ofNat]
  refine (vector_set_get m (Fin.ofNat 32 x.1.toNat) r (Fin.ofNat 8 x.2.toNat)).trans ?_
  by_cases h : x.1 = byte r
  · rw [if_pos (e.mpr h), if_pos h]
  · rw [if_neg (fun hh => h (e.mp hh)), if_neg h]

/-- Assignments that name each requester once: one named takes its group, the others keep theirs. -/
theorem foldl_putGroup (l : List (Byte × Byte)) : ∀ (m : Vector (Fin 8) 32) (r : Fin 32), (∀ x ∈ l, x.1.toNat < 32) →
    (l.map Prod.fst).Nodup →
    (∀ g, (byte r, g) ∈ l → (l.foldl putGroup m)[r] = Fin.ofNat 8 g.toNat) ∧
      ((∀ g, (byte r, g) ∉ l) → (l.foldl putGroup m)[r] = m[r]) := by
  induction l with
  | nil => intro t k _; simp
  | cons x l ih =>
    intro t k hl hn
    simp at hn
    obtain ⟨h1, h2⟩ := ih (putGroup t x) k (fun y hy => hl y (by simp [hy])) hn.2
    refine ⟨fun v hv => ?_, fun h => ?_⟩
    · rcases List.mem_cons.mp hv with h | h
      · subst h
        rw [List.foldl_cons, h2 (fun v hv => hn.1 v hv), putGroup_get _ _ (hl _ (by simp)), if_pos rfl]
      · exact h1 v h
    · rw [List.foldl_cons, h2 (fun v hv => h v (by simp [hv])), putGroup_get _ _ (hl _ (by simp)), if_neg]
      intro he
      exact h x.2 (by rw [← he]; simp)

end Sys2Proof.Machine
end

