-- ==== Sys2Proof/Laws/Order.lean ====
section
/-! SUPPORT. What a step can do to the deadlines of the deadline list, once: entries leave it, and one may be inserted. -/

namespace Sys2Proof.Machine

/-- The deadlines of a list in their order. -/
def deadlines (table : List Entry) : List Tick := table.map Entry.deadline

/-- What a step does to the deadline list, by its deadlines: entries may leave it (R51), then one may be inserted in the
order of R50. -/
def ListStep (old new : List Entry) : Prop :=
  ∃ kept : List Entry, (deadlines kept).Sublist (deadlines old) ∧
    (deadlines new = deadlines kept ∨ ∃ e, deadlines new = deadlines (insertEntry e kept))

theorem ListStep.same {old new : List Entry} (h : deadlines new = deadlines old) : ListStep old new :=
  ⟨old, List.Sublist.refl _, .inl h⟩

theorem ListStep.leaves {old new : List Entry} (h : new.Sublist old) : ListStep old new := ⟨new, h.map _, .inl rfl⟩

theorem ListStep.inserts {old kept : List Entry} (h : kept.Sublist old) (e : Entry) : ListStep old (insertEntry e kept) :=
  ⟨kept, h.map _, .inr ⟨e, rfl⟩⟩

/-- A list with the same deadlines may stand in the place of the one a step finds. -/
theorem ListStep.after {old mid new : List Entry} (h : ListStep mid new) (hm : deadlines mid = deadlines old) :
    ListStep old new := by
  unfold ListStep at h ⊢
  rwa [hm] at h

theorem deadlines_map {f : Entry → Entry} (hf : ∀ e, (f e).deadline = e.deadline) (table : List Entry) :
    deadlines (table.map f) = deadlines table := by
  unfold deadlines
  rw [List.map_map]
  exact List.map_congr_left fun e _ => hf e

/-- The replacement of a member by an entry of its index and deadline, with each index held once. -/
theorem deadlines_replaceEntry {table : List Entry} (hi : (table.map Entry.index).Nodup) {old new : Entry}
    (ho : old ∈ table) (h1 : new.index = old.index) (h2 : new.deadline = old.deadline) :
    deadlines (replaceEntry new table) = deadlines table := by
  refine map_replaceEntry Entry.deadline new table fun x hx he => ?_
  rw [eq_of_nodup_map hi hx ho (he.trans h1), h2]

/-! ### The engine's work -/

theorem listStep_handleRequest (key : Key) (kind : TrackedKind) (length : Nat) (stamp : Tick) (s : State) :
    ListStep s.trk.table (handleRequest key kind length stamp s).trk.table := by
  unfold handleRequest
  split
  · exact .inserts (removeEntry_sublist _ _) _
  · unfold admitFresh
    dsimp only
    split
    · split
      · exact .inserts (List.Sublist.refl _) _
      · exact .same rfl
    · exact .same rfl

theorem listStep_handlePart {s : State} (hi : (s.trk.table.map Entry.index).Nodup) (key : Key) (status : Status)
    (bytes : Nat) (last : Bool) (stamp : Tick) :
    ListStep s.trk.table (handlePart key status bytes last stamp s).trk.table := by
  unfold handlePart
  split
  · rename_i e he
    split
    · exact .same (deadlines_replaceEntry hi (mem_of_findKey he).1 rfl rfl)
    · exact .leaves (removeEntry_sublist _ _)
  · refine .same ?_
    unfold Tracking.strayPart
    split <;> rfl

theorem listStep_engineHandle {s : State} (hi : (s.trk.table.map Entry.index).Nodup) (r : Record) (stamp : Tick) :
    ListStep s.trk.table (engineHandle r stamp s).trk.table := by
  unfold engineHandle
  split
  · split
    · exact listStep_handleRequest ..
    · exact .same rfl
  · exact listStep_handlePart hi ..
  all_goals exact .same rfl

theorem fireMark_trk (r : Record) (stamp : Tick) (s : State) : (fireMark r stamp s).trk = s.trk := by
  unfold fireMark
  split
  · exact (sameCondition_serveTriggers _ _ _).2
  all_goals rfl

theorem deadlines_visitEntry {s : State} (hi : (s.trk.table.map Entry.index).Nodup) (k : Fin 256) :
    deadlines (visitEntry k s).trk.table = deadlines s.trk.table := by
  unfold visitEntry
  split
  · rename_i e he
    exact deadlines_replaceEntry hi (mem_of_findIndex he).1 rfl rfl
  · rfl

/-! ### Every step -/

theorem listStep_command {p : Port} {s t : State} (h : CommandEffect p s t) : ListStep s.trk.table t.trk.table := by
  cases h with
  | trackingCleared => exact .leaves (List.nil_sublist _)
  | _ => exact .same rfl

theorem resetPort_trk (p : Port) (l : LowPeriod) (s : State) : (resetPort p l s).trk = s.trk := by
  unfold resetPort closeIfOpen
  split <;> rfl

theorem listStep_own {s t : State} {i : Instr} (hi : (s.trk.table.map Entry.index).Nodup) (h : OwnEffect s i t) :
    ListStep s.trk.table t.trk.table := by
  cases h with
  | held => exact .leaves (List.nil_sublist _)
  | poweredOn => exact .leaves (List.nil_sublist _)
  | ticked =>
    refine .same (deadlines_map (fun e => ?_) _)
    unfold Entry.tick
    split <;> rfl
  | arrived data =>
    refine .same ?_
    unfold arrive
    repeat' split
    all_goals rfl
  | taken x rest =>
    have hd : deadlines (popRecord s).trk.table = deadlines s.trk.table :=
      deadlines_map (f := Entry.countDown) (fun _ => rfl) _
    have hn : ((popRecord s).trk.table.map Entry.index).Nodup := by
      have e : (popRecord s).trk.table.map Entry.index = s.trk.table.map Entry.index := by
        show (s.trk.table.map Entry.countDown).map Entry.index = _
        rw [List.map_map]
        rfl
      rwa [e]
    have := (listStep_engineHandle hn x.record x.stamp).after hd
    unfold handleRecord
    rwa [fireMark_trk]
  | expired e rest _ ht => exact .leaves (removeEntry_sublist _ _)
  | swept k => exact .same (deadlines_visitEntry hi k)
  | sweepEnded => exact .same (deadlines_visitEntry hi 255)
  | portReset p l => exact .same (by rw [resetPort_trk])
  | _ => exact .same rfl

/-- What every step does to the deadline list (R49, R50, R51). -/
theorem listStep_step {s t : State} (hi : (s.trk.table.map Entry.index).Nodup) (h : step s = .next t) :
    ListStep s.trk.table t.trk.table := by
  unfold step at h
  split at h
  · cases h; exact .same rfl
  · rename_i i rest hp
    cases hd : i.dispatched with
    | some x =>
      obtain ⟨p, type⟩ := x
      rcases exec_dispatched_cases hd h with rfl | ⟨c, -, -, ⟨code, body, -, rfl⟩ | ⟨body, u, hu, rfl⟩⟩
      · exact .same rfl
      · exact .same rfl
      · rw [answered_trk]
        exact listStep_command (s := { s with pending := rest }) hu
    | none =>
      rcases exec_own_cases hd h with ho | ⟨p, l, -, -, ho⟩
      · exact listStep_own (s := { s with pending := rest }) hi ho
      · have e := resetPort_trk p l { s with pending := rest }
        have := listStep_own (by rw [e]; exact hi) ho
        rwa [e] at this

end Sys2Proof.Machine
end

