-- ==== Sys2Proof/Laws/PerInstr.lean ====
section
/-! SUPPORT. A law of every command as syntax: the type by which a dispatcher executes it, if it does, is one that
Table 10-5 lists (R177). -/

namespace Sys2Proof.Laws.CommandType

/-- The type code of a command that a dispatcher executes is listed in Table 10-5. -/
def Statement (i : Instr) : Prop :=
  ∀ p type, i.dispatched = some (p, type) → type ∈ Machine.commandTypes

theorem deviceReset (cause : ResetCause) : Statement (.deviceReset cause) := by simp [Statement, Instr.dispatched]
theorem recordTransfer (data : BitVec 64) : Statement (.recordTransfer data) := by simp [Statement, Instr.dispatched]
theorem takeRecord : Statement .takeRecord := by simp [Statement, Instr.dispatched]
theorem expiry : Statement .expiry := by simp [Statement, Instr.dispatched]
theorem drainCut (probe : ProbeNo) : Statement (.drainCut probe) := by simp [Statement, Instr.dispatched]
theorem sweepVisit : Statement .sweepVisit := by simp [Statement, Instr.dispatched]
theorem frameReceived (port : Port) (high : Byte) : Statement (.frameReceived port high) := by simp [Statement, Instr.dispatched]
theorem frameDiscard (port : Port) (cause : DiscardCause) : Statement (.frameDiscard port cause) := by simp [Statement, Instr.dispatched]
theorem frameGapTimeout (port : Port) : Statement (.frameGapTimeout port) := by simp [Statement, Instr.dispatched]
theorem portReset (port : Port) : Statement (.portReset port) := by simp [Statement, Instr.dispatched]
theorem transmitStart (port : Port) : Statement (.transmitStart port) := by simp [Statement, Instr.dispatched]
theorem transmitEnd (port : Port) : Statement (.transmitEnd port) := by simp [Statement, Instr.dispatched]
theorem alertResendTimeout (port : Port) : Statement (.alertResendTimeout port) := by simp [Statement, Instr.dispatched]
theorem commandRetry (port : Port) : Statement (.commandRetry port) := by simp [Statement, Instr.dispatched]
theorem unknownCommand (port : Port) : Statement (.unknownCommand port) := by simp [Statement, Instr.dispatched]
theorem identify (port : Port) : Statement (.identify port) := by rintro _ _ h; cases h; decide
theorem portStatus (port : Port) : Statement (.portStatus port) := by rintro _ _ h; cases h; decide
theorem openSession (port : Port) : Statement (.openSession port) := by rintro _ _ h; cases h; decide
theorem closeSession (port : Port) : Statement (.closeSession port) := by rintro _ _ h; cases h; decide
theorem claimConfig (port : Port) : Statement (.claimConfig port) := by rintro _ _ h; cases h; decide
theorem unclaimConfig (port : Port) : Statement (.unclaimConfig port) := by rintro _ _ h; cases h; decide
theorem intakeEnable (port : Port) : Statement (.intakeEnable port) := by rintro _ _ h; cases h; decide
theorem intakeDisable (port : Port) : Statement (.intakeDisable port) := by rintro _ _ h; cases h; decide
theorem readIntake (port : Port) : Statement (.readIntake port) := by rintro _ _ h; cases h; decide
theorem readGlobals (port : Port) : Statement (.readGlobals port) := by rintro _ _ h; cases h; decide
theorem listPending (port : Port) : Statement (.listPending port) := by rintro _ _ h; cases h; decide
theorem clearTracking (port : Port) : Statement (.clearTracking port) := by rintro _ _ h; cases h; decide
theorem setTimeouts (port : Port) : Statement (.setTimeouts port) := by rintro _ _ h; cases h; decide
theorem readTimeouts (port : Port) : Statement (.readTimeouts port) := by rintro _ _ h; cases h; decide
theorem listExpired (port : Port) : Statement (.listExpired port) := by rintro _ _ h; cases h; decide
theorem setGroupMap (port : Port) : Statement (.setGroupMap port) := by rintro _ _ h; cases h; decide
theorem readGroupMap (port : Port) : Statement (.readGroupMap port) := by rintro _ _ h; cases h; decide
theorem claimProbes (port : Port) : Statement (.claimProbes port) := by rintro _ _ h; cases h; decide
theorem unclaimProbes (port : Port) : Statement (.unclaimProbes port) := by rintro _ _ h; cases h; decide
theorem defineProbe (port : Port) : Statement (.defineProbe port) := by rintro _ _ h; cases h; decide
theorem startProbes (port : Port) : Statement (.startProbes port) := by rintro _ _ h; cases h; decide
theorem stopProbes (port : Port) : Statement (.stopProbes port) := by rintro _ _ h; cases h; decide
theorem clearProbes (port : Port) : Statement (.clearProbes port) := by rintro _ _ h; cases h; decide
theorem probeStatus (port : Port) : Statement (.probeStatus port) := by rintro _ _ h; cases h; decide
theorem poolStatus (port : Port) : Statement (.poolStatus port) := by rintro _ _ h; cases h; decide
theorem harvest (port : Port) : Statement (.harvest port) := by rintro _ _ h; cases h; decide
theorem readSnapshot (port : Port) : Statement (.readSnapshot port) := by rintro _ _ h; cases h; decide
theorem freeSnapshot (port : Port) : Statement (.freeSnapshot port) := by rintro _ _ h; cases h; decide
theorem snapshotStatus (port : Port) : Statement (.snapshotStatus port) := by rintro _ _ h; cases h; decide
theorem setTrigger (port : Port) : Statement (.setTrigger port) := by rintro _ _ h; cases h; decide
theorem clearTrigger (port : Port) : Statement (.clearTrigger port) := by rintro _ _ h; cases h; decide
theorem triggerStatus (port : Port) : Statement (.triggerStatus port) := by rintro _ _ h; cases h; decide
theorem setAlertMask (port : Port) : Statement (.setAlertMask port) := by rintro _ _ h; cases h; decide
theorem ackAlert (port : Port) : Statement (.ackAlert port) := by rintro _ _ h; cases h; decide
theorem alertStatus (port : Port) : Statement (.alertStatus port) := by rintro _ _ h; cases h; decide
theorem timebaseTick : Statement .timebaseTick := by simp [Statement, Instr.dispatched]
theorem resetNRelease (sel1 sel0 : Bool) : Statement (.resetNRelease sel1 sel0) := by simp [Statement, Instr.dispatched]
theorem characterReceived (port : Port) (char : Byte) : Statement (.characterReceived port char) := by simp [Statement, Instr.dispatched]
theorem breakEnd (port : Port) : Statement (.breakEnd port) := by simp [Statement, Instr.dispatched]

end Sys2Proof.Laws.CommandType
end

