-- ==== Sys2Proof/Laws/Records.lean ====
section
/-! SUPPORT. The fields of a transfer as numbers, and the fields of the transfer that carries a record (Table 10-1). -/

namespace Sys2Proof

/-- A field of a transfer is a quotient and a remainder of its number. -/
theorem recordField_eq (data : BitVec 64) (low width : Nat) :
    recordField data low width = data.toNat / 2 ^ low % 2 ^ width := by
  simp [recordField, BitVec.extractLsb'_toNat, Nat.shiftRight_eq_div_pow]

@[simp] theorem requestKindOfCode_code (k : RequestKind) : requestKindOfCode k.code = some k := by cases k <;> rfl
@[simp] theorem statusOfCode_code (x : Status) : statusOfCode x.code = some x := by cases x <;> rfl
@[simp] theorem creditTypeOfCode_code (x : CreditType) : creditTypeOfCode x.code = some x := by cases x <;> rfl
@[simp] theorem errorClassOfCode_code (x : ErrorClass) : errorClassOfCode x.code = some x := by cases x <;> rfl

theorem RequestKind.code_le (k : RequestKind) : k.code ≤ 4 := by cases k <;> simp [RequestKind.code]
theorem Status.code_le (x : Status) : x.code ≤ 2 := by cases x <;> simp [Status.code]

theorem RequestKind.length_le {k : RequestKind} {length : Nat} (h : k.lengthOk length = true) : length ≤ 4096 := by
  cases k <;> simp [RequestKind.lengthOk] at h <;> omega

/-- The fields of a transfer whose number is that of a REQ record. -/
theorem reqFields {d : BitVec 64} {q : Fin 32} {t : Byte} {length k : Nat} (hl : length ≤ 4096) (hk : k ≤ 4)
    (h : d.toNat = 2 ^ 3 * q.val + 2 ^ 9 * t.toNat + 2 ^ 17 * k + 2 ^ 20 * length) :
    recordField d 0 3 = 0 ∧ recordField d 3 6 = q.val ∧ d.extractLsb' 9 8 = t ∧ recordField d 17 3 = k ∧
      recordField d 20 13 = length := by
  have hq := q.isLt
  have ht := t.isLt
  refine ⟨?_, ?_, ?_, ?_, ?_⟩
  · rw [recordField_eq, h]; omega
  · rw [recordField_eq, h]; omega
  · apply BitVec.eq_of_toNat_eq; rw [← recordField, recordField_eq, h]; omega
  · rw [recordField_eq, h]; omega
  · rw [recordField_eq, h]; omega

/-- The fields of a transfer whose number is that of a CPL record. -/
theorem cplFields {d : BitVec 64} {q : Fin 32} {t : Byte} {bytes x : Nat} {last : Bool} (hb : bytes ≤ 4096) (hx : x ≤ 2)
    (h : d.toNat = 1 + 2 ^ 3 * q.val + 2 ^ 9 * t.toNat + 2 ^ 17 * x + 2 ^ 19 * bytes + 2 ^ 32 * last.toNat) :
    recordField d 0 3 = 1 ∧ recordField d 3 6 = q.val ∧ d.extractLsb' 9 8 = t ∧ recordField d 17 2 = x ∧
      recordField d 19 13 = bytes ∧ d.getLsbD 32 = last := by
  have hq := q.isLt
  have ht := t.isLt
  have hlast : last.toNat ≤ 1 := Bool.toNat_le last
  have hf : recordField d 32 1 = last.toNat := by rw [recordField_eq, h]; omega
  refine ⟨?_, ?_, ?_, ?_, ?_, ?_⟩
  · rw [recordField_eq, h]; omega
  · rw [recordField_eq, h]; omega
  · apply BitVec.eq_of_toNat_eq; rw [← recordField, recordField_eq, h]; omega
  · rw [recordField_eq, h]; omega
  · rw [recordField_eq, h]; omega
  · rw [BitVec.getLsbD, Nat.testBit_eq_decide_div_mod_eq]
    rw [recordField_eq] at hf
    cases last <;> simp at hf ⊢ <;> omega

end Sys2Proof
end

