-- ==== Sys2Proof/Tests/Slice0.lean ====
section
/-! SUPPORT. Tests of the model on small states, and for every statement with hypotheses a witness: a state and operands
that meet them, clause by clause, at the boundary of a range where there is one. -/

namespace Sys2Proof.Tests

open Sys2Proof Sys2Proof.Machine

/-! ### Ill-formed records, each refused by its check (R4, R5) -/

theorem test_read_of_no_length_ill_formed : (Record.req 0 0 .read 0).wellFormed = false := by decide
theorem test_read_too_long_ill_formed : (Record.req 0 0 .read 4097).wellFormed = false := by decide
theorem test_npwrite_of_no_length_ill_formed : (Record.req 0 0 .npwrite 0).wellFormed = false := by decide
theorem test_atomic_of_six_bytes_ill_formed : (Record.req 0 0 .atomic 6).wellFormed = false := by decide
theorem test_message_too_long_ill_formed : (Record.req 0 0 .message 4097).wellFormed = false := by decide
theorem test_posted_with_tag_ill_formed : (Record.req 0 1 .posted 64).wellFormed = false := by decide
theorem test_completion_too_long_ill_formed : (Record.cpl 0 0 .ok 4097 true).wellFormed = false := by decide

/-! ### Tap records, bit by bit (Table 10-1): fields from the high bits down -/

/-- length 64 | kind 000 | tag 7 | requester 5 | record kind 000. -/
theorem test_decode_req :
    decodeRecord 0b0000001000000_000_00000111_000101_000#64 = some (.req 5 7 .read 64) := by decide

/-- A POSTED request with tag 255 joins the queue with tag 0 (R4). -/
theorem test_decode_posted :
    decodeRecord 0b0000000000000_011_11111111_011111_000#64 = some (.req 31 0 .posted 0) := by decide

/-- last 1 | bytes 64 | status 00 | tag 7 | requester 5 | record kind 001. -/
theorem test_decode_cpl :
    decodeRecord 0b1_0000001000000_00_00000111_000101_001#64 = some (.cpl 5 7 .ok 64 true) := by decide

theorem test_decode_stall : decodeRecord 0b10_010#64 = some (.stall .nonposted) := by decide
theorem test_decode_retry : decodeRecord 0b011#64 = some .retry := by decide
theorem test_decode_linkerr : decodeRecord 0b01_100#64 = some (.linkerr .protocol) := by decide
theorem test_decode_mark : decodeRecord 0b0000000100000000_101#64 = some (.mark 256) := by decide

/-- Undefined record kind, requester above 31, undefined request kind, length out of range, undefined status, too many
bytes, undefined error class: each is no record (R3 to R6). -/
theorem test_decode_rejects :
    decodeRecord 0b110#64 = none ∧ decodeRecord 0b0000001000000_000_00000111_100000_000#64 = none ∧
    decodeRecord 0b0000001000000_101_00000111_000101_000#64 = none ∧
    decodeRecord 0b0000000000000_000_00000111_000101_000#64 = none ∧
    decodeRecord 0b1_0000001000000_11_00000111_000101_001#64 = none ∧
    decodeRecord 0b1_1000000000001_00_00000111_000101_001#64 = none ∧ decodeRecord 0b11_100#64 = none := by decide

/-! ### Small states -/

/-- The state after one command of the block. -/
def after (c : Instr) (s : State) : State :=
  match exec c s with
  | .next t => t
  | .fault _ => s
  | .refused _ => s

/-- A command of a management port. -/
def cmd (type : Byte) (body : List Byte) : Command := { type := type, seq := 9, body := body }

/-- Port A with its session OPEN and a command that its dispatcher has taken, the first since its port reset. -/
def asking (c : Command) (x : PortState) : PortState :=
  { x with isOpen := true, sessionNumber := 1, executing := some c, reply := none, lastReply := none }

/-- The part with one command to execute at port A. -/
def asks (type : Byte) (body : List Byte) (s : State) : State := s.setPort .a (asking (cmd type body) (s.port .a))

theorem waits_asks (type : Byte) (body : List Byte) (s : State) (h : s.resetN = true) :
    CommandWaits .a (cmd type body) (asks type body s) :=
  ⟨h, rfl, nofun⟩

theorem passes_asks (type : Byte) (body : List Byte) (s : State) (h : s.resetN = true)
    (hl : lengthAccepted type body = true) : CommandPasses .a type (cmd type body) (asks type body s) :=
  ⟨waits_asks type body s h, rfl, hl, rfl⟩

/-- The reply in port A's buffer. -/
def replyOf (s : State) : Option (ReplyCode × List Byte) := (s.port .a).reply.map (fun r => (r.code, r.body))

/-- The part with port A holding the configuration claim. -/
def held : State := { State.reset with mgmt := { Management.reset with holder := some .a } }

/-- A read request of 64 bytes, issued at time 100 by requester 5 with tag 7, awaiting its first part. -/
def waiting : Entry :=
  { index := 0, key := ⟨5, 7⟩, kind := .read, group := 0, expected := 64, received := 0, parts := 0, issue := 100,
    first := none, deadline := 6250100, matchSet := 0, state := .awaiting, dueAhead := none }

/-- The part with the given pending entries. -/
def tracking (table : List Entry) : State := { State.reset with trk := { Tracking.reset with table := table } }

/-- A FULL definition that selects every tracked request, with threshold 1000 and alert limit 1. -/
def latency : Definition :=
  { measure := .full
    selector :=
      { groupSet := 0xFF#8, kindSet := 7, statusSet := 7, creditSet := 15, errorSet := 7, tagLo := 0, tagHi := 255,
        lengthLo := 0, lengthHi := 4096, labelLo := 0, labelHi := 65535 }
    threshold := 1000, alertLimit := 1, drainLimit := 500 }

/-- A probe of port A in a state, with the latency definition. -/
def probeIn (st : ProbeState) (flight : Nat) : Probe :=
  { Probe.reset with state := st, owner := some .a, definition := some latency, inFlight := flight }

/-- The part with probe 0 as given. -/
def withProbe (x : Probe) : State := { State.reset with bank := Bank.reset.setProbe 0 x }

/-- The part at a time. -/
def at_ (now : Tick) (s : State) : State := { s with timebase := now }

/-- The part with every histogram unit attached to probe 1. -/
def noUnit (s : State) : State :=
  { s with pool := Vector.replicate 8 (some { probe := 1, mode := .log, parameter := 1, bins := Vector.replicate 16 0 }) }

/-- A FILLED slot of a port, header page alone. -/
def slotOf (p : Port) : Slot :=
  { owner := p, origin := .command, number := 1
    header :=
      { captureTime := 0, captured := 0, zeroed := 0, occupancy := 0, globals := Globals.zero, lossCount := 0,
        rejectedCount := 0 }
    pages := [] }

/-- A SET trigger of a port for probe 0. -/
def triggerOf (p : Port) : Trigger :=
  { owner := p, label := 7, probes := 1, zero := true, mode := .once, fired := 0 }

/-- The part with slots and triggers as given. -/
def harvesting (slots : Vector (Option Slot) 4) (triggers : Vector (Option Trigger) 4) (s : State) : State :=
  { s with harv := { slots := slots, triggers := triggers, number := 1 } }

/-- An alert. -/
def alert : Alert := { number := 1, time := 5, condition := .intakeLoss 1, lost := 0 }

theorem lowest_zero {set : ProbeSet} {bad : ProbeNo → Prop} (h : set.has 0 = true) (hb : bad 0) :
    LowestFailing set bad 0 :=
  ⟨h, hb, fun j hj => absurd hj (Fin.not_lt_zero j)⟩

theorem none_fails_one {bad : ProbeNo → Prop} (h : ¬ bad 0) : NoneFails 1 bad := by
  intro i hi
  have e : i = 0 := by revert i; decide
  exact e ▸ h

/-! ### Steps of the rules' own figures -/

/-- A tick advances the Timebase, and wraps at 2^48 (R1). -/
theorem test_tick : (after .timebaseTick (at_ 5 State.reset)).timebase = 6 ∧
    (after .timebaseTick (at_ (BitVec.allOnes 48) State.reset)).timebase = 0 := by decide

/-- An enabled port queues a valid record with its stamp and counts an invalid one (R7, R8). -/
theorem test_record_transfer :
    (after (.recordTransfer 0b011#64) (at_ 5 { State.reset with obs := { Observation.reset with enabled := true } })).obs =
      { Observation.reset with enabled := true, queue := [{ record := .retry, stamp := 5 }] } ∧
    (after (.recordTransfer 0b110#64) { State.reset with obs := { Observation.reset with enabled := true } }).obs =
      { Observation.reset with enabled := true, rejectedCount := 1 } := by decide

/-- A read request of 64 bytes taken from the queue is admitted into index 0 (R23, R26). -/
theorem test_admission :
    (after .takeRecord
      { State.reset with obs := { Observation.reset with queue := [{ record := .req 5 7 .read 64, stamp := 100 }] } }).trk =
      { Tracking.reset with table := [waiting], globals := { Globals.zero with admitted := 1 } } := by decide

/-- The last 64 bytes complete it, with a latency of 40 ticks at the probe it names (R31, R34, R36, R91). -/
theorem test_completion :
    let t := after .takeRecord { withProbe (probeIn .running 1) with
      trk := { Tracking.reset with table := [{ waiting with matchSet := 1 }] }
      obs := { Observation.reset with queue := [{ record := .cpl 5 7 .ok 64 true, stamp := 140 }] } }
    t.trk.table = [] ∧ t.trk.globals.completed = 1 ∧ (t.probe 0).values.samples = 1 ∧ (t.probe 0).values.sum = 40 ∧
      (t.probe 0).values.min = 40 ∧ (t.probe 0).values.max = 40 ∧ (t.probe 0).inFlight = 0 := by decide

/-- With an expiry due that no record may go ahead of, a request at the head of the list whose own expiry lets one record
go ahead changes nothing: no record is taken (R11, R52). -/
theorem test_record_after_expiry :
    let s := at_ 6250101 { tracking [{ waiting with dueAhead := some 1 },
      { waiting with index := 1, key := ⟨6, 7⟩, deadline := 6250101, dueAhead := some 0 }] with
        obs := { Observation.reset with queue := [{ record := .retry, stamp := 6250101 }] } }
    after .takeRecord s = s := by decide

/-- A request admitted at 200 with its deadline 150 reached (R54): its part, stamped 160, was queued at the admission and
closes it before its expiry with a latency of 60 ticks, above the timeout (R61; log 6). -/
theorem test_admitted_past_deadline :
    let s := at_ 200 { withProbe (probeIn .running 0) with
      trk := { Tracking.reset with timeouts := { read := 50, npwrite := 50, atomic := 50 } }
      obs := { Observation.reset with queue := [⟨.req 5 7 .read 64, 100⟩, ⟨.cpl 5 7 .ok 64 true, 160⟩] } }
    let t := after .takeRecord s
    t.trk.table.map Entry.dueAhead = [some 1] ∧ engineWorkFirst t = false ∧
      ((after .takeRecord t).probe 0).values.sum = 60 ∧ (after .takeRecord t).trk.globals.completed = 1 ∧
      (after .expiry t).trk.globals.timedOut = 1 := by decide

/-- The tick that brings a deadline to be reached marks the entry with the intake occupancy; an earlier one does not
(R11; log 6). -/
theorem test_tick_marks :
    let s := { tracking [waiting] with obs := { Observation.reset with queue := [⟨.retry, 5⟩] } }
    (after .timebaseTick (at_ 6250099 s)).trk.table.map Entry.dueAhead = [some 1] ∧
      (after .timebaseTick (at_ 6250098 s)).trk.table.map Entry.dueAhead = [none] := by decide

/-- An expiry closes the head of the deadline list and keeps its key in the ring (R53, R56). -/
theorem test_expiry :
    (after .expiry (at_ 6250100 (tracking [waiting]))).trk =
      { Tracking.reset with
        ring := [{ key := ⟨5, 7⟩, kind := .read, expiry := 6250100 }]
        globals := { Globals.zero with timedOut := 1 } } := by decide

/-- A drain cut brings a DRAINING probe whose deadline is reached to PURGING and starts a sweep (R98, R102). -/
theorem test_drain_cut :
    let t := after (.drainCut 0) (at_ 500 (withProbe { probeIn .draining 3 with drainDeadline := some 500 }))
    (t.probe 0).state = .purging ∧ (t.probe 0).cutCount = some 3 ∧ t.bank.purge.current = 1 ∧
      t.bank.purge.position = some 0 := by decide

/-- The bins of R114 with base 100 and of R115 with width 100. -/
theorem test_bins : logBin 100 99 = 0 ∧ logBin 100 100 = 1 ∧ logBin 100 199 = 1 ∧ logBin 100 200 = 2 ∧
    logBin 100 1638399 = 14 ∧ logBin 100 1638400 = 15 ∧ linearBin 100 99 = 0 ∧ linearBin 100 1499 = 14 ∧
    linearBin 100 1500 = 15 := by decide

/-- An IDENTIFY in a CLOSED session is answered (R170). -/
theorem test_identify :
    replyOf (after (.identify .a) (asks 0x01#8 [] State.reset)) =
      some (.ok, [0x44, 0x0C, 1, 1, 0x00, 0xC2, 0x01, 0x00, 0, 1, 16, 0, 8, 0, 4, 0, 4, 0, 64, 0, 16, 0]) := by decide

/-- CLAIM_PROBES of the probes 0 and 15 (R79). -/
theorem test_claim_probes :
    replyOf (after (.claimProbes .a) (asks 0x28#8 [0x01, 0x80] State.reset)) = some (.ok, [0x01, 0x80]) := by decide

/-- A command of a type that Table 10-5 does not give is refused (R177). -/
theorem test_unknown :
    replyOf (after (.unknownCommand .a) (asks 0x7F#8 [] State.reset)) = some (.unknownCommand, []) := by decide

/-- A PORT_STATUS reports a full queue behind it (R171). -/
theorem test_full_queue_reported :
    (replyOf (after (.portStatus .a) (State.reset.setPort .a { asking (cmd 0x02#8 []) PortState.reset with
      commands := List.replicate 4 (cmd 0x01#8 []) }))).map Prod.snd = some [1, 1, 0, 4, 0, 0, 0, 0, 0, 0] := by decide

/-- A break of 125,000 ticks whose port reset was not yet taken gives it when the line returns high; a shorter one gives
none (R154, R163; log 25). -/
theorem test_break_end :
    let s (now : Tick) := at_ now (State.reset.setPort .a { PortState.reset with
      rejectCount := 5, low := some { since := 0, resetTaken := false } })
    ((after (.breakEnd .a) (s 125000)).port .a).rejectCount = 0 ∧
    ((after (.breakEnd .a) (s 125000)).port .a).low = none ∧
    ((after (.breakEnd .a) (s 124999)).port .a).rejectCount = 5 := by decide

/-- A HARVEST takes slot 0 with harvest number 1 and two pages (R124). -/
theorem test_harvest :
    replyOf (after (.harvest .a) (asks 0x38#8 [1, 0, 0] (withProbe (probeIn .held 0)))) = some (.ok, [0, 1, 0, 2]) := by
  decide

/-! ### Witnesses: the machine and the Observation Port -/

theorem witness_step : ∃ s : State, s.pending = .timebaseTick :: [] := ⟨{ State.reset with pending := [.timebaseTick] }, rfl⟩

theorem witness_low_reset : ∃ (c : Instr) (s : State), s.resetN = false ∧ (∀ cause, c ≠ .deviceReset cause) ∧
    (∀ sel1 sel0, c ≠ .resetNRelease sel1 sel0) ∧ s.timebase = 0 :=
  ⟨.timebaseTick, { State.reset with resetN := false }, rfl, nofun, nofun, rfl⟩

theorem witness_timebase_kept : ∃ (c : Instr) (s t : State), exec c s = .next t ∧ c ≠ .timebaseTick ∧
    (∀ cause, c ≠ .deviceReset cause) ∧ ∀ sel1 sel0, c ≠ .resetNRelease sel1 sel0 :=
  ⟨.expiry, State.reset, _, rfl, nofun, nofun, nofun⟩

/-- The Observation Port enabled, with `n` records queued. -/
def intake (n : Nat) (armed : Bool) : State :=
  { State.reset with
    obs := { Observation.reset with
      enabled := true, queue := List.replicate n { record := .retry, stamp := 0 }, lossArmed := armed } }

theorem witness_record_transfer : State.reset.obs.enabled = false ∧ (intake 63 true).obs.enabled = true ∧
    decodeRecord 6#64 = none ∧ decodeRecord 3#64 = some .retry ∧ (intake 63 true).obs.queue.length < 64 ∧
    64 ≤ (intake 64 true).obs.queue.length ∧ (intake 64 true).obs.lossArmed = true ∧
    64 ≤ (intake 64 false).obs.queue.length ∧ (intake 64 false).obs.lossArmed = false := by decide

theorem witness_round_trip : (Record.req 31 255 .read 4096).wellFormed = true ∧
    (Record.cpl 31 255 .aborted 4096 true).wellFormed = true ∧ (Record.req 0 0 .message 0).wellFormed = true := by decide

theorem witness_intake_commands :
    held.mgmt.holder = some .a ∧ CommandPasses .a 0x10#8 (cmd 0x10#8 []) (asks 0x10#8 [] held) ∧
      CommandPasses .a 0x11#8 (cmd 0x11#8 []) (asks 0x11#8 [] held) ∧
      (asks 0x10#8 [] held).mgmt.holder = some .a :=
  ⟨rfl, passes_asks _ _ _ rfl rfl, passes_asks _ _ _ rfl rfl, rfl⟩

/-! ### Witnesses: the Tracking Engine -/

theorem witness_take_record : State.reset.obs.queue = [] ∧
    (∃ x rest, (intake 64 true).obs.queue = x :: rest ∧ engineWorkFirst (intake 64 true) = false) ∧
    engineWorkFirst (at_ 6250100 (tracking [{ waiting with dueAhead := some 0 }])) = true ∧
    engineWorkFirst (at_ 6250100 (tracking [{ waiting with dueAhead := some 2 }, { waiting with dueAhead := some 0 }])) =
      true ∧
    (Record.retry.kind ≠ .req ∧ Record.retry.kind ≠ .cpl ∧ Record.retry.kind ≠ .mark) ∧
    engineWorkFirst (at_ 500
      (withProbe { probeIn .draining 1 with drainDeadline := some 500, cutAhead := some 0 })) = true ∧
    engineWorkFirst { State.reset with
      bank := { Bank.reset with purge := { Purge.idle with position := some 0 } } } = true :=
  ⟨rfl, ⟨_, _, rfl, by decide⟩, by decide, by decide, by decide, by decide, by decide⟩

/-- A table of `n` copies of an entry: enough for a statement about one key and an occupancy. -/
def crowd (n : Nat) : State := tracking (List.replicate n waiting)

theorem crowd_lacks (n : Nat) : ∀ e ∈ (crowd n).trk.table, e.key ≠ ⟨6, 7⟩ := by
  intro e he
  obtain rfl := List.eq_of_mem_replicate he
  decide

theorem witness_fresh : (∀ e ∈ (crowd 255).trk.table, e.key ≠ ⟨6, 7⟩) ∧ (crowd 255).trk.table.length < 256 :=
  ⟨crowd_lacks 255, (List.length_replicate (n := 255) (a := waiting)).trans_lt (by omega)⟩

theorem witness_untracked : (∀ e ∈ (crowd 256).trk.table, e.key ≠ ⟨6, 7⟩) ∧ (crowd 256).trk.table.length = 256 :=
  ⟨crowd_lacks 256, List.length_replicate⟩

theorem tableLaw_one (e : Entry) (h : e.shaped) : TableLaw (tracking [e]).trk :=
  ⟨by simp [tracking], by simp [tracking], by simp [tracking, Tracking.reset], by simp [tracking, Tracking.reset],
    fun _ hx => List.mem_singleton.mp hx ▸ h⟩

/-- One entry, which a complete part closes, which 63 bytes continue, and which a second request of its key supersedes. -/
theorem witness_entry : TableLaw (tracking [waiting]).trk ∧ waiting ∈ (tracking [waiting]).trk.table ∧
    judge waiting .ok 64 true = .closes .complete ∧ judge waiting .ok 63 false = .continues ∧
    judge waiting .aborted 0 true = .closes .failed ∧ judge waiting .ok 65 true = .closes .malformed :=
  ⟨tableLaw_one waiting ⟨rfl, rfl, rfl⟩, List.mem_singleton.mpr rfl, by decide, by decide, by decide, by decide⟩

theorem witness_judgement :
    (∃ e : Entry, e.kind ≠ .read ∧ 0 = e.expected) ∧ (∃ e : Entry, e.kind ≠ .read ∧ 1 ≠ e.expected) ∧
    (∃ e : Entry, e.kind = .read ∧ e.expected < e.received + 64) ∧
    (∃ e : Entry, e.kind = .read ∧ e.received + 63 = e.expected) ∧
    (∃ e : Entry, e.kind = .read ∧ e.received + 1 < e.expected) :=
  let one : Entry := { waiting with received := 1, parts := 1, state := .receiving }
  ⟨⟨{ waiting with kind := .npwrite, expected := 0 }, nofun, rfl⟩,
    ⟨{ waiting with kind := .npwrite, expected := 0 }, nofun, by decide⟩,
    ⟨one, rfl, by decide⟩, ⟨one, rfl, rfl⟩, ⟨one, rfl, by decide⟩⟩

theorem witness_late_and_orphan :
    let s := { State.reset with trk := { Tracking.reset with ring := [{ key := ⟨5, 7⟩, kind := .read, expiry := 0 }] } }
    (∀ e ∈ s.trk.table, e.key ≠ ⟨5, 7⟩) ∧ (∃ r ∈ s.trk.ring, r.key = ⟨5, 7⟩) ∧ ∀ r ∈ s.trk.ring, r.key ≠ ⟨6, 7⟩ := by
  decide

theorem witness_expiry : (∃ rest, (tracking [waiting]).trk.table = waiting :: rest) ∧
    reached 6250100 waiting.deadline = true ∧ reached 6250099 waiting.deadline = false := ⟨⟨[], rfl⟩, by decide, by decide⟩

theorem witness_deadline_order : ∃ (base : Tick) (e : Entry) (table : List Entry),
    (∀ x ∈ e :: table, elapsed base x.deadline < 2 ^ 46) ∧
      table.Pairwise (fun a b => notLater a.deadline b.deadline = true) ∧ table ≠ [] :=
  ⟨0, waiting, [waiting, { waiting with deadline := 6250101 }], by decide, by decide, by decide⟩

/-! ### Witnesses: probes, sweeps and bins -/

theorem witness_notice : (probeIn .running 1).state = .running ∧ (probeIn .held 0).state ≠ .running ∧
    (probeIn .held 0).state ≠ .draining := by decide

theorem witness_notice_alerts : ((withProbe (probeIn .draining 1)).probe 0).state = .draining ∧
    ((withProbe (probeIn .draining 1)).probe 0).inFlight ≤ 1 ∧
    ¬ (((withProbe (probeIn .draining 2)).probe 0).state = .draining ∧
      ((withProbe (probeIn .draining 2)).probe 0).inFlight ≤ 1) := by decide

/-- A histogram unit with parameter 100. -/
def unit (m : HistMode) : HistUnit := { probe := 0, mode := m, parameter := 100, bins := Vector.replicate 16 0 }

theorem witness_bins : (unit .log).mode = .log ∧ (99#48).toNat < (unit .log).parameter.toNat ∧
    (unit .log).parameter.toNat * 2 ^ 13 ≤ (819200#48).toNat ∧ (819200#48).toNat < (unit .log).parameter.toNat * 2 ^ 14 ∧
    (unit .log).parameter.toNat * 2 ^ 14 ≤ (1638400#48).toNat ∧ (unit .linear).mode = .linear ∧
    (1499#48).toNat / (unit .linear).parameter.toNat < 15 ∧ 15 ≤ (1500#48).toNat / (unit .linear).parameter.toNat := by
  decide

theorem witness_bin_sample :
    let s := { withProbe { probeIn .running 1 with unit := some 7 } with
      pool := (Vector.replicate 8 none).set 7 (some (unit .log)) }
    (s.probe 0).state = .running ∧ (s.probe 0).unit = some 7 ∧ s.pool[(7 : Fin 8)] = some (unit .log) := by decide

theorem witness_count_offer :
    let d : Definition := { latency with measure := .count .mark }
    let s := withProbe { probeIn .running 0 with definition := some d }
    (s.probe 0).state = .running ∧ (s.probe 0).definition = some d ∧ d.measure = .count (Record.mark 65535).kind ∧
      d.selector.matchesRecord s.trk.groupMap (.mark 65535) = true ∧
      ¬ (∃ d, (s.probe 1).state = .running ∧ (s.probe 1).definition = some d) :=
  ⟨rfl, rfl, rfl, by decide, fun h => by obtain ⟨d, hd, -⟩ := h; exact absurd hd (by decide)⟩

theorem witness_drain_cut :
    let s := withProbe { probeIn .draining 1 with drainDeadline := some 500 }
    (s.probe 0).state = .draining ∧ (s.probe 0).drainDeadline = some 500 ∧ reached 500 500 = true ∧
      reached 499 500 = false ∧ s.bank.purge.current = 0 ∧
      ({ s with bank := { s.bank with purge := { Purge.idle with current := 2 } } } : State).bank.purge.current ≠ 0 := by
  decide

/-- A sweep at a position, with probe 0 PURGING and named by the entry at index 255. -/
def sweeping (k : Fin 256) : State :=
  { withProbe { probeIn .purging 1 with cutCount := some 1 } with
    trk := { Tracking.reset with table := [{ waiting with index := 255, matchSet := 1 }] }
    bank := { Bank.reset.setProbe 0 { probeIn .purging 1 with cutCount := some 1 } with
      purge := { current := 1, waiting := 0, position := some k, visitAhead := 0 } } }

theorem witness_sweep_law (k : Fin 256) : EngineLaw (sweeping k) := by
  refine ⟨tableLaw_one { waiting with index := 255, matchSet := 1 } ⟨rfl, rfl, rfl⟩, ⟨?_, ?_, ?_, ?_, ?_⟩,
    ⟨?_, ?_, ?_, nofun, ?_⟩⟩
  · show ∀ i, ((sweeping 0).probe i).inFlight = naming i (sweeping 0).trk.table
    decide
  · intro e he i hi
    obtain rfl := List.mem_singleton.mp he
    have e : i = 0 := by revert i; decide
    exact e ▸ ⟨⟨latency, rfl, rfl⟩, .inr (.inr rfl)⟩
  · show ∀ i, ((sweeping 0).probe i).state = .draining → 1 ≤ ((sweeping 0).probe i).inFlight
    decide
  · show ∀ i, ((sweeping 0).probe i).drainDeadline.isSome → ((sweeping 0).probe i).state = .draining
    decide
  · show ∀ i, ((sweeping 0).probe i).cutCount.isSome → ((sweeping 0).probe i).state = .purging
    decide
  · show ∀ i, ((sweeping 0).probe i).state = .purging ↔
      ((sweeping 0).bank.purge.current.has i = true ∨ (sweeping 0).bank.purge.waiting.has i = true)
    decide
  · show (sweeping 0).bank.purge.current &&& (sweeping 0).bank.purge.waiting = 0
    decide
  · exact ⟨nofun, nofun⟩
  · intro j hj e he hlt
    obtain rfl := List.mem_singleton.mp he
    exact absurd hlt (by simp; exact Fin.le_last j)

theorem witness_sweep : (sweeping 0).bank.purge.position = some 0 ∧ (sweeping 254).bank.purge.position = some 254 ∧
    (254 : Fin 256) ≠ 255 ∧ (sweeping 255).bank.purge.position = some 255 ∧ (sweeping 0).resetN = true ∧
    (sweeping 255).bank.purge.current.has 0 = true ∧ (sweeping 255).bank.purge.current.has 1 = false := by decide

/-- A sweep at the last index, with probe 1 PURGING and in the pending purge set. -/
def sweepingNext : State :=
  { sweeping 255 with
    bank := { (sweeping 255).bank.setProbe 1 (probeIn .purging 0) with
      purge := { current := 1, waiting := 2, position := some 255, visitAhead := 0 } } }

theorem witness_pending_set : EngineLaw sweepingNext ∧ sweepingNext.resetN = true ∧
    sweepingNext.bank.purge.position = some 255 ∧ sweepingNext.bank.purge.waiting ≠ 0 := by
  refine ⟨⟨tableLaw_one { waiting with index := 255, matchSet := 1 } ⟨rfl, rfl, rfl⟩, ⟨by decide, ?_, by decide, by decide,
    by decide⟩, ⟨by decide, by decide, by decide, nofun, ?_⟩⟩, rfl, rfl, by decide⟩
  · intro e he i hi
    obtain rfl := List.mem_singleton.mp he
    have e : i = 0 := by revert i; decide
    exact e ▸ ⟨⟨latency, rfl, rfl⟩, .inr (.inr rfl)⟩
  · intro j hj e he hlt
    obtain rfl := Option.some.inj hj
    obtain rfl := List.mem_singleton.mp he
    exact absurd hlt (by decide)

/-- With no sweep running. -/
theorem witness_sweep_ends : EngineLaw (tracking [waiting]) ∧ (tracking [waiting]).bank.purge.position = none :=
  ⟨⟨tableLaw_one waiting ⟨rfl, rfl, rfl⟩,
    ⟨by decide, fun e he i hi => absurd hi (by
        obtain rfl := List.mem_singleton.mp he
        revert i; decide), by decide, by decide, by decide⟩,
    ⟨by decide, rfl, ⟨fun _ => rfl, fun _ => rfl⟩, fun _ => rfl, nofun⟩⟩, rfl⟩

/-- A step whose deadline list is in order, with an entry left in its window. -/
theorem witness_deadline_order_step : ∃ (base : Tick) (s t : State), EngineLaw s ∧
    s.trk.table.Pairwise (fun a b => notLater a.deadline b.deadline = true) ∧ step s = .next t ∧
    (∀ x ∈ t.trk.table, elapsed base x.deadline < 2 ^ 46) ∧ t.trk.table ≠ [] :=
  ⟨0, tracking [waiting], tracking [waiting], witness_sweep_ends.1, by decide, rfl, by decide, by decide⟩

/-! ### Witnesses: the checks that commands share -/

theorem witness_shared_checks :
    (Instr.startProbes .a).dispatched = some (.a, 0x2B#8) ∧
    CommandWaits .a (cmd 0x2B#8 [1]) (asks 0x2B#8 [1] State.reset) ∧ lengthAccepted 0x2B#8 [1] = false ∧
    lengthAccepted 0x2B#8 [1, 0] = true ∧
    CommandWaits .b (cmd 0x2B#8 [1, 0])
      (State.reset.setPort .b { PortState.reset with executing := some (cmd 0x2B#8 [1, 0]) }) ∧
    CommandPasses .a 0x2B#8 (cmd 0x2B#8 [1, 0]) (asks 0x2B#8 [1, 0] State.reset) ∧
    LowestFailing (probeSetAt [1, 0] 0) (fun j => ((asks 0x2B#8 [1, 0] State.reset).probe j).owner ≠ some .a) 0 ∧
    probeSetAt [0, 0] 0 = 0 ∧ (asks 0x10#8 [] State.reset).mgmt.holder ≠ some .a :=
  ⟨rfl, waits_asks _ _ _ rfl, rfl, rfl, ⟨rfl, rfl, nofun⟩, passes_asks _ _ _ rfl rfl,
    lowest_zero (by decide) (by decide), by decide, by decide⟩

/-- The boundaries of the body lengths (R176). -/
theorem test_lengths : lengthAccepted 0x20#8 (List.replicate 64 0) = true ∧
    lengthAccepted 0x20#8 (List.replicate 66 0) = false ∧ lengthAccepted 0x20#8 [] = false ∧
    lengthAccepted 0x1C#8 (List.replicate 15 0) = true ∧ lengthAccepted 0x1C#8 (List.replicate 20 0) = false ∧
    lengthAccepted 0x2A#8 (List.replicate 33 0) = true ∧ lengthAccepted 0x2A#8 (List.replicate 38 0) = false ∧
    lengthAccepted 0x2A#8 (List.replicate 33 1) = false ∧ lengthAccepted 0x2A#8 (List.replicate 38 1) = true := by
  decide

theorem witness_refusal : ∃ (t : State) (r : Reply),
    exec (.unclaimConfig .a) (asks 0x06#8 [] State.reset) = .next t ∧ (t.port .a).reply = some r ∧ r.code ≠ .ok :=
  ⟨_, _, rfl, rfl, nofun⟩

theorem witness_retry_and_unknown :
    (let x := asking (cmd 0x01#8 []) PortState.reset
     let s := State.reset.setPort .a { x with lastReply := some { type := 0x01#8, seq := 9, code := .ok, body := [] } }
     s.resetN = true ∧ (s.port .a).executing = some (cmd 0x01#8 []) ∧
       ∃ r, (s.port .a).lastReply = some r ∧ r.seq = 9 ∧ r.type = 0x01#8) ∧
    CommandWaits .a (cmd 0x7F#8 []) (asks 0x7F#8 [] State.reset) ∧ 0x7F#8 ∉ commandTypes ∧ 0x01#8 ∈ commandTypes ∧
    (∀ c, CommandWaits .a c State.reset → c.type ≠ 0x01#8) :=
  ⟨⟨rfl, rfl, _, rfl, rfl, rfl⟩, waits_asks _ _ _ rfl, by decide, by decide, fun _ h => absurd h.taken nofun⟩

theorem witness_closed_session :
    (let s := State.reset.setPort .a { PortState.reset with executing := some (cmd 0x03#8 []) }
     CommandWaits .a (cmd 0x03#8 []) s ∧ (s.port .a).isOpen = false) ∧
    CommandWaits .a (cmd 0x03#8 []) (asks 0x03#8 [] State.reset) ∧
    ((asks 0x03#8 [] State.reset).port .a).isOpen = true ∧
    CommandWaits .a (cmd 0x01#8 []) (asks 0x01#8 [] State.reset) ∧
    CommandWaits .a (cmd 0x02#8 []) (asks 0x02#8 [] State.reset) :=
  ⟨⟨⟨rfl, rfl, nofun⟩, rfl⟩, waits_asks _ _ _ rfl, rfl, waits_asks _ _ _ rfl, waits_asks _ _ _ rfl⟩

theorem witness_close_session : CommandPasses .a 0x04#8 (cmd 0x04#8 []) (asks 0x04#8 [] held) :=
  passes_asks _ _ _ rfl rfl

/-- The part with port B holding the configuration claim. -/
def heldByB : State := { State.reset with mgmt := { Management.reset with holder := some .b } }

theorem witness_config_claim :
    CommandPasses .a 0x05#8 (cmd 0x05#8 []) (asks 0x05#8 [] State.reset) ∧
    (asks 0x05#8 [] State.reset).mgmt.holder ≠ some Port.a.other ∧
    CommandPasses .a 0x05#8 (cmd 0x05#8 []) (asks 0x05#8 [] heldByB) ∧
    (asks 0x05#8 [] heldByB).mgmt.holder = some Port.a.other ∧
    CommandPasses .a 0x06#8 (cmd 0x06#8 []) (asks 0x06#8 [] held) ∧ (asks 0x06#8 [] held).mgmt.holder = some .a ∧
    CommandPasses .a 0x06#8 (cmd 0x06#8 []) (asks 0x06#8 [] heldByB) ∧
    (asks 0x06#8 [] heldByB).mgmt.holder ≠ some .a :=
  ⟨passes_asks _ _ _ rfl rfl, by decide, passes_asks _ _ _ rfl rfl, rfl, passes_asks _ _ _ rfl rfl, rfl,
    passes_asks _ _ _ rfl rfl, by decide⟩

/-- Every report without a body waits at a port and passes; so do the first and last positions of LIST_PENDING. -/
theorem witness_reports :
    (∀ type ∈ [0x12#8, 0x18#8, 0x1D#8, 0x1E#8, 0x21#8, 0x30#8, 0x3B#8, 0x3E#8, 0x42#8],
      CommandPasses .a type (cmd type []) (asks type [] State.reset)) ∧
    (∀ n : Byte, CommandPasses .a 0x19#8 (cmd 0x19#8 [255, 0, n]) (asks 0x19#8 [255, 0, n] State.reset)) ∧
    1 ≤ (16 : Byte).toNat ∧ (16 : Byte).toNat ≤ 16 ∧ 16 < (17 : Byte).toNat ∧
    CommandPasses .a 0x19#8 (cmd 0x19#8 [0, 1, 1]) (asks 0x19#8 [0, 1, 1] State.reset) :=
  ⟨fun type h => passes_asks type [] State.reset rfl (by revert type; decide), fun _ => passes_asks _ _ _ rfl rfl,
    by decide, by decide, by decide, passes_asks _ _ _ rfl rfl⟩

theorem witness_clear_tracking : CommandPasses .a 0x1A#8 (cmd 0x1A#8 []) (asks 0x1A#8 [] held) ∧
    (asks 0x1A#8 [] held).mgmt.holder = some .a := ⟨passes_asks _ _ _ rfl rfl, rfl⟩

/-- SET_TIMEOUTS at its least timeout 125, below it, with an untracked kind, and with a kind named twice; SET_GROUP_MAP
with the greatest requester and group, beyond each, and with a requester named twice. -/
theorem witness_settings :
    CommandPasses .a 0x1C#8 (cmd 0x1C#8 [2, 125, 0, 0, 0]) (asks 0x1C#8 [2, 125, 0, 0, 0] held) ∧
    CommandPasses .a 0x20#8 (cmd 0x20#8 [31, 7]) (asks 0x20#8 [31, 7] held) ∧
    (∀ x ∈ settingsOfBody [2, 125, 0, 0, 0], x.1.toNat ≤ 2 ∧ 125 ≤ x.2) ∧
    ((settingsOfBody [2, 125, 0, 0, 0]).map Prod.fst).Nodup ∧
    (∃ x ∈ settingsOfBody [2, 124, 0, 0, 0], 2 < x.1.toNat ∨ x.2 < 125) ∧
    (∃ x ∈ settingsOfBody [3, 125, 0, 0, 0], 2 < x.1.toNat ∨ x.2 < 125) ∧
    ¬ ((settingsOfBody [0, 125, 0, 0, 0, 0, 126, 0, 0, 0]).map Prod.fst).Nodup ∧
    (∀ x ∈ assignmentsOfBody [31, 7], x.1.toNat ≤ 31 ∧ x.2.toNat ≤ 7) ∧
    ((assignmentsOfBody [31, 7]).map Prod.fst).Nodup ∧
    (∃ x ∈ assignmentsOfBody [32, 7], 31 < x.1.toNat ∨ 7 < x.2.toNat) ∧
    (∃ x ∈ assignmentsOfBody [31, 8], 31 < x.1.toNat ∨ 7 < x.2.toNat) ∧
    ¬ ((assignmentsOfBody [31, 7, 31, 6]).map Prod.fst).Nodup :=
  ⟨passes_asks _ _ _ rfl rfl, passes_asks _ _ _ rfl rfl, by simp [settingsOfBody, assignmentsOfBody, leNat]⟩

/-! ### Witnesses: probe commands -/

/-- A probe set in the body: probe 0, by itself, and none. -/
theorem witness_sets : (1 : ProbeSet) = probeSetAt [1, 0] 0 ∧ (0 : ProbeSet) = probeSetAt [0, 0] 0 ∧ (1 : ProbeSet) ≠ 0 := by
  decide

theorem witness_probe_ownership :
    (∀ type ∈ [0x28#8, 0x29#8], CommandPasses .a type (cmd type [1, 0]) (asks type [1, 0] State.reset)) ∧
    LowestFailing 1 (fun j => ((withProbe { probeIn .held 0 with owner := some .b }).probe j).owner = some Port.a.other) 0 ∧
    NoneFails 1 (fun j => (State.reset.probe j).owner = some Port.a.other) ∧
    LowestFailing 1 (fun j => (State.reset.probe j).owner ≠ some .a) 0 ∧
    NoneFails 1 (fun j => ((withProbe (probeIn .held 0)).probe j).owner ≠ some .a) :=
  ⟨fun type h => passes_asks type [1, 0] State.reset rfl (by revert type; decide), lowest_zero (by decide) (by decide),
    none_fails_one (by decide), lowest_zero (by decide) (by decide), none_fails_one (by decide)⟩

/-- A DEFINE_PROBE body for a FULL measure of every tracked request, with the selector's ranges as wide as they may be:
probe number, then with or without a histogram request. -/
def defineBody (i : Byte) (request : List Byte) : List Byte :=
  [i, 2, 0, 0xFF, 7, 7, 15, 7, 0, 0, 255, 0, 0, 0, 0x00, 0x10, 0, 0, 0xFF, 0xFF, 0, 0, 0, 0, 0, 0, 0, 0, 0, 0, 0, 0] ++ request

/-- A histogram request in LINEAR mode with the greatest parameter, 2^24. -/
def greatestRequest : List Byte := [1, 1, 0, 0, 0, 1]

theorem witness_define_bodies :
    (checkedDefinition (defineBody 0 [0])).isSome = true ∧
    ((checkedDefinition (defineBody 15 greatestRequest)).map Prod.snd = some (some (.linear, 16777216))) ∧
    checkedDefinition (defineBody 0 [1, 1, 1, 0, 0, 1]) = none ∧ checkedDefinition (defineBody 0 [1, 2, 1, 0, 0, 0]) = none ∧
    lengthAccepted 0x2A#8 (defineBody 0 [0]) = true ∧ lengthAccepted 0x2A#8 (defineBody 15 greatestRequest) = true ∧
    15 < (byteAt (defineBody 16 [0]) 0).toNat := by decide

/-- The body of a definition of each measure is accepted, the greatest count event, MARK, among them. -/
theorem witness_define_measures :
    (checkedDefinition (defineBody 0 [0])).map (fun x => x.1.measure) = some .full ∧
    (checkedDefinition ([0, 1] ++ (defineBody 0 [0]).drop 2)).map (fun x => x.1.measure) = some .first ∧
    (checkedDefinition ([0, 0, 5] ++ (defineBody 0 [0]).drop 3)).map (fun x => x.1.measure) = some (.count .mark) := by
  decide

theorem witness_define_passes (i : Byte) (s : State) (h : s.resetN = true) :
    CommandPasses .a 0x2A#8 (cmd 0x2A#8 (defineBody i [0])) (asks 0x2A#8 (defineBody i [0]) s) ∧
    CommandPasses .a 0x2A#8 (cmd 0x2A#8 (defineBody i greatestRequest))
      (asks 0x2A#8 (defineBody i greatestRequest) s) :=
  ⟨passes_asks _ _ _ h rfl, passes_asks _ _ _ h rfl⟩

theorem witness_define_states :
    (byteAt (defineBody 0 [0]) 0).toNat = (0 : ProbeNo).val ∧ (State.reset.probe 0).owner ≠ some .a ∧
    (∀ st, ((withProbe (probeIn st 0)).probe 0).owner = some .a ∧ ((withProbe (probeIn st 0)).probe 0).state = st ∧
      ((withProbe (probeIn st 0)).probe 0).unit = none) ∧
    (∀ k : Fin 8, (noUnit State.reset).pool[k] ≠ none) ∧ State.reset.pool[(0 : Fin 8)] = none ∧
    (∀ j : Fin 8, j < 0 → State.reset.pool[j] ≠ none ∧ (State.reset.probe 0).unit ≠ some j) :=
  ⟨rfl, by decide, fun st => ⟨rfl, rfl, rfl⟩, by decide, rfl, fun j hj => absurd hj (Fin.not_lt_zero j)⟩

/-- START_PROBES, STOP_PROBES and CLEAR_PROBES of probe 0, which port A owns. -/
theorem witness_probe_commands (st : ProbeState) (flight : Nat) (mode : Byte) :
    let s := withProbe (probeIn st flight)
    CommandPasses .a 0x2B#8 (cmd 0x2B#8 [1, 0]) (asks 0x2B#8 [1, 0] s) ∧
    CommandPasses .a 0x2C#8 (cmd 0x2C#8 [1, 0, mode]) (asks 0x2C#8 [1, 0, mode] s) ∧
    CommandPasses .a 0x2D#8 (cmd 0x2D#8 [1, 0]) (asks 0x2D#8 [1, 0] s) ∧
    NoneFails 1 (fun j => (s.probe j).owner ≠ some .a) :=
  ⟨passes_asks _ _ _ rfl rfl, passes_asks _ _ _ rfl rfl, passes_asks _ _ _ rfl rfl, none_fails_one (fun h => h rfl)⟩

/-- The states in which each of the three commands names probe 0, and those in which it names none. -/
theorem witness_probe_states (flight : Nat) :
    (∀ st, st ≠ .armed → st ≠ .held → LowestFailing 1 (fun j =>
      ((withProbe (probeIn st flight)).probe j).state ≠ .armed ∧
        ((withProbe (probeIn st flight)).probe j).state ≠ .held) 0) ∧
    NoneFails 1 (fun j => ((withProbe (probeIn .armed flight)).probe j).state ≠ .armed ∧
      ((withProbe (probeIn .armed flight)).probe j).state ≠ .held) ∧
    LowestFailing 1 (fun j => ((withProbe (probeIn .held flight)).probe j).state ≠ .running) 0 ∧
    NoneFails 1 (fun j => ((withProbe (probeIn .running flight)).probe j).state ≠ .running) ∧
    LowestFailing 1 (fun j => ((withProbe (probeIn .purging flight)).probe j).state = .running ∨
      ((withProbe (probeIn .purging flight)).probe j).state = .draining ∨
      ((withProbe (probeIn .purging flight)).probe j).state = .purging) 0 ∧
    NoneFails 1 (fun j => ((withProbe (probeIn .held flight)).probe j).state = .running ∨
      ((withProbe (probeIn .held flight)).probe j).state = .draining ∨
      ((withProbe (probeIn .held flight)).probe j).state = .purging) :=
  ⟨fun _ h1 h2 => lowest_zero (by decide) ⟨h1, h2⟩, none_fails_one (fun h => h.1 rfl),
    lowest_zero (by decide) nofun, none_fails_one (fun h => h rfl), lowest_zero (by decide) (.inr (.inr rfl)),
    none_fails_one (by rintro (h | h | h) <;> cases h)⟩

theorem witness_stop_modes : 1 < (byteAt [1, 0, 2] 2).toNat ∧ (byteAt [1, 0, 1] 2).toNat ≤ 1 ∧ byteAt [1, 0, 0] 2 = 0 ∧
    byteAt [1, 0, 1] 2 = 1 := by decide

/-! ### Witnesses: the Harvest Unit -/

theorem witness_probe_status : CommandPasses .a 0x2E#8 (cmd 0x2E#8 [1, 0]) (asks 0x2E#8 [1, 0] State.reset) ∧
    CommandPasses .a 0x2E#8 (cmd 0x2E#8 [0, 0]) (asks 0x2E#8 [0, 0] State.reset) :=
  ⟨passes_asks _ _ _ rfl rfl, passes_asks _ _ _ rfl rfl⟩

theorem witness_harvest (flag : Byte) (s : State) (h : s.resetN = true) :
    CommandPasses .a 0x38#8 (cmd 0x38#8 [1, 0, flag]) (asks 0x38#8 [1, 0, flag] s) ∧
    (1 : ProbeSet) = probeSetAt [1, 0, flag] 0 ∧ flag = byteAt [1, 0, flag] 2 :=
  ⟨passes_asks _ _ _ h rfl, rfl, rfl⟩

theorem witness_harvest_states :
    LowestFailing 1 (fun j => (State.reset.probe j).owner ≠ some .a) 0 ∧
    NoneFails 1 (fun j => ((withProbe (probeIn .held 0)).probe j).owner ≠ some .a) ∧
    LowestFailing 1 (fun j => (State.reset.probe j).state = .unbound) 0 ∧
    NoneFails 1 (fun j => ((withProbe (probeIn .held 0)).probe j).state = .unbound) ∧
    (let full := harvesting (Vector.replicate 4 (some (slotOf .b))) (Vector.replicate 4 none) State.reset
     ∀ k : Fin 4, full.harv.slots[k] ≠ none) ∧
    (let last := harvesting ((Vector.replicate 4 (some (slotOf .b))).set 3 none) (Vector.replicate 4 none) State.reset
     last.harv.slots[(3 : Fin 4)] = none ∧ ∀ j : Fin 4, j < 3 → last.harv.slots[j] ≠ none) :=
  ⟨lowest_zero (by decide) (by decide), none_fails_one (by decide), lowest_zero (by decide) (by decide),
    none_fails_one (by decide), by decide, by decide⟩

theorem witness_snapshots (a b : Byte) (s : State) (h : s.resetN = true) :
    CommandPasses .a 0x39#8 (cmd 0x39#8 [a, b]) (asks 0x39#8 [a, b] s) ∧
    CommandPasses .a 0x3A#8 (cmd 0x3A#8 [a]) (asks 0x3A#8 [a] s) ∧
    CommandPasses .a 0x3D#8 (cmd 0x3D#8 [a]) (asks 0x3D#8 [a] s) :=
  ⟨passes_asks _ _ _ h rfl, passes_asks _ _ _ h rfl, passes_asks _ _ _ h rfl⟩

/-- Slot 3 of port A with one probe page, read at page 1, the last, and at page 2; slot and trigger of port B; none. -/
theorem witness_slots :
    let page := pageOf (withProbe (probeIn .held 0)) 0
    let mine : Slot := { slotOf .a with pages := [page] }
    let s := harvesting #v[none, some (slotOf .b), none, some mine]
      #v[none, some (triggerOf .b), none, some (triggerOf .a)] State.reset
    3 < (4 : Byte).toNat ∧ (3 : Byte).toNat = (3 : Fin 4).val ∧ s.harv.slots[(0 : Fin 4)] = none ∧
    s.harv.slots[(1 : Fin 4)] = some (slotOf .b) ∧ (slotOf .b).owner ≠ .a ∧
    s.harv.slots[(3 : Fin 4)] = some mine ∧ mine.owner = .a ∧ mine.pages[(1 : Byte).toNat - 1]? = some page ∧
    1 + mine.pages.length ≤ (2 : Byte).toNat ∧ 16 < (17 : Byte).toNat ∧ s.harv.triggers[(0 : Fin 4)] = none ∧
    s.harv.triggers[(1 : Fin 4)] = some (triggerOf .b) ∧ s.harv.triggers[(3 : Fin 4)] = some (triggerOf .a) :=
  ⟨by decide, rfl, rfl, rfl, by decide, rfl, rfl, rfl, by decide, by decide, rfl, rfl, rfl⟩

/-- SET_TRIGGER of trigger 3 on label 7 for probe 0, for each zero flag and mode. -/
theorem witness_set_trigger (a z m : Byte) (s : State) (h : s.resetN = true) :
    CommandPasses .a 0x3C#8 (cmd 0x3C#8 [a, 7, 0, 1, 0, z, m]) (asks 0x3C#8 [a, 7, 0, 1, 0, z, m] s) ∧
    (1 : ProbeSet) = (0 : Byte) ++ (1 : Byte) ∧ 1 < (2 : Byte).toNat ∧ (1 : Byte).toNat ≤ 1 :=
  ⟨passes_asks _ _ _ h rfl, by decide, by decide, by decide⟩

theorem witness_trigger_service :
    (triggerOf .a).label = 7 ∧ (triggerOf .a).label ≠ 8 ∧
    (let missing := harvesting (Vector.replicate 4 (some (slotOf .b))) (Vector.replicate 4 (some (triggerOf .a))) State.reset
     missing.harv.triggers[(0 : Fin 4)] = some (triggerOf .a) ∧ ∀ k : Fin 4, missing.harv.slots[k] ≠ none) ∧
    (let found := harvesting ((Vector.replicate 4 (some (slotOf .b))).set 3 none) (Vector.replicate 4 (some (triggerOf .a)))
      State.reset
     found.harv.slots[(3 : Fin 4)] = none ∧ ∀ j : Fin 4, j < 3 → found.harv.slots[j] ≠ none) :=
  ⟨rfl, by decide, ⟨rfl, by decide⟩, by decide⟩

/-! ### Witnesses: alerts, transmitter and receive line -/

theorem witness_alert_delivery :
    ({ PortState.reset with alerts := List.replicate 15 alert } : PortState).alerts.length < 16 ∧
    16 ≤ ({ PortState.reset with alerts := List.replicate 16 alert } : PortState).alerts.length := by decide

/-- Masks at the boundaries: both kinds, a kind that no mask holds, a code with no kind. -/
theorem witness_alert_mask (b : Byte) :
    CommandPasses .a 0x40#8 (cmd 0x40#8 [b]) (asks 0x40#8 [b] State.reset) ∧ (0x30 : Byte).toNat % 16 = 0 ∧
    (0x30 : Byte).toNat < 64 ∧ (0x38 : Byte).toNat % 16 ≠ 0 ∧ 64 ≤ (0x40 : Byte).toNat :=
  ⟨passes_asks _ _ _ rfl rfl, by decide, by decide, by decide, by decide⟩

/-- Port A with one alert in its queue, its head in a condition. -/
def alerting (h : HeadAlert) : State := State.reset.setPort .a { PortState.reset with alerts := [alert], head := h }

theorem witness_ack (n : Byte) (s : State) (h : s.resetN = true) :
    CommandPasses .a 0x41#8 (cmd 0x41#8 [n, 0]) (asks 0x41#8 [n, 0] s) ∧ alert.number.toNat = field [1, 0] 0 2 ∧
    alert.number.toNat ≠ field [2, 0] 0 2 ∧
    ((asks 0x41#8 [n, 0] (alerting { sent := true, due := false, timer := some 0 })).port .a).head.sent = true ∧
    ((asks 0x41#8 [n, 0] (alerting HeadAlert.fresh)).port .a).head.sent = false ∧
    ((asks 0x41#8 [n, 0] (alerting HeadAlert.fresh)).port .a).alerts = [alert] ∧
    ((asks 0x41#8 [n, 0] State.reset).port .a).alerts = [] :=
  ⟨passes_asks _ _ _ h rfl, rfl, by decide, rfl, rfl, rfl, rfl⟩

/-- Port A sending a frame. -/
def sending (w : Sending) : State :=
  State.reset.setPort .a { PortState.reset with sending := some { what := w, bytes := [] } }

theorem witness_transmitter :
    (let r : Reply := { type := 1, seq := 0, code := .queueFull, body := [] }
     ((State.reset.setPort .a { PortState.reset with notice := some r }).port .a).sending = none ∧
     ((State.reset.setPort .a { PortState.reset with notice := some r }).port .a).notice = some r ∧
     ((State.reset.setPort .a { PortState.reset with reply := some r }).port .a).reply = some r) ∧
    ((alerting HeadAlert.fresh).port .a).head.due = true ∧ ((alerting HeadAlert.fresh).port .a).alerts = [alert] ∧
    (∀ w, ∃ f, ((sending w).port .a).sending = some f ∧ f.what = w) ∧
    (let s := (sending .reply).setPort .a { (sending .reply).port .a with commands := [cmd 0x01#8 []] }
     (s.port .a).executing = none ∧ (s.port .a).commands = [cmd 0x01#8 []]) ∧
    ((sending .reply).port .a).commands = [] ∧ ((asks 0x01#8 [] (sending .reply)).port .a).executing ≠ none ∧
    reached 31250005 (5 + 31250000#48) = true ∧ reached 31250004 (5 + 31250000#48) = false :=
  ⟨⟨rfl, rfl, rfl⟩, rfl, rfl, fun _ => ⟨_, rfl, rfl⟩, ⟨rfl, rfl⟩, rfl, nofun, by decide, by decide⟩

/-- Port A in a framer state. -/
def framing (x : Framer) : State := State.reset.setPort .a { PortState.reset with framer := x }

/-- The gap at its boundary, and every framer state with the line high. -/
theorem witness_characters : elapsed 0 (625000#48) ≤ 625000 ∧ 625000 < elapsed 0 (625001#48) ∧ ¬ elapsed 0 (625000#48) < 625000 ∧
    elapsed 0 (624999#48) < 625000 ∧
    (∀ x, ((framing x).port .a).framer = x ∧ ((framing x).port .a).low = none ∧ (framing x).resetN = true) ∧
    (Framer.length none 0).last = some 0 :=
  ⟨by decide, by decide, by decide, by decide, fun _ => ⟨rfl, rfl, rfl⟩, rfl⟩

set_option maxRecDepth 10000 in
/-- The frame of an IDENTIFY with sequence number 9, up to its last byte, and one with another CRC; lengths out of range. -/
theorem witness_frames :
    let crc := crc16 [2, 0, 0x01, 9]
    ((crc.setWidth 8).toNat + 256 * ((crc >>> 8).setWidth 8).toNat = crc.toNat) ∧
    (0 : Byte).toNat + 256 * (0 : Byte).toNat ≠ crc.toNat ∧
    (1 : Byte).toNat + 256 * (0 : Byte).toNat < 2 ∧ ¬ 1026 < (2 : Byte).toNat + 256 * (4 : Byte).toNat ∧
    1026 < (3 : Byte).toNat + 256 * (4 : Byte).toNat := by decide

/-- A port whose dispatcher is idle, and one whose queue has three and four commands behind the one that executes. -/
theorem witness_queues :
    (PortState.reset.executing = none ∧ PortState.reset.reply = none ∧
      PortState.reset.commands ++ [cmd 0x01#8 []] = cmd 0x01#8 [] :: []) ∧
    (let x (n : Nat) := { asking (cmd 0x01#8 []) PortState.reset with commands := List.replicate n (cmd 0x01#8 []) }
     (x 3).commands.length < 4 ∧ (x 3).executing ≠ none ∧ 4 ≤ (x 4).commands.length) :=
  ⟨⟨rfl, rfl, rfl⟩, by decide, nofun, by decide⟩

set_option maxRecDepth 10000 in
/-- The frame of an IDENTIFY, its characters 625,000 ticks apart. -/
theorem witness_frame_round_trip : PortState.reset.framer = .hunt ∧ PortState.reset.commands.length < 4 ∧
    (cmd 0x01#8 []).body.length ≤ 1024 ∧ (List.replicate 1024 (0 : Byte)).length ≤ 1024 ∧
    ∃ arrivals : List (Byte × Tick), arrivals.map Prod.fst = frameOf [0x01#8, 9] ∧
      arrivals.IsChain (fun a b => elapsed a.2 b.2 ≤ 625000) :=
  ⟨rfl, by decide, by decide, (List.length_replicate).le,
    (frameOf [0x01#8, 9]).zipIdx.map (fun a => (a.1, BitVec.ofNat 48 (a.2 * 625000))), by decide, by decide⟩

/-- Port A in a low period that began at time 0. -/
def broken (taken : Bool) (now : Tick) : State :=
  at_ now (State.reset.setPort .a { PortState.reset with low := some { since := 0, resetTaken := taken } })

theorem witness_port_reset :
    (∀ taken now, ((broken taken now).port .a).low = some { since := 0, resetTaken := taken }) ∧
    125000 ≤ elapsed 0 (125000#48) ∧ elapsed 0 (124999#48) < 125000 ∧ SessionLaw (broken false 125000) := by
  have owners : ∀ i, ((broken false 125000).probe i).owner = none := by decide
  have slots : ∀ k : Fin 4, (broken false 125000).harv.slots[k] = none := by decide
  have triggers : ∀ k : Fin 4, (broken false 125000).harv.triggers[k] = none := by decide
  refine ⟨fun _ _ => rfl, by decide, by decide, ⟨fun p _ => ⟨fun i h => ?_, fun k x h => ?_, fun k x h => ?_,
    nofun, ?_, ?_, ?_⟩, fun p => ⟨?_, fun _ => ?_, fun _ f hf => ?_⟩, fun p => ?_⟩⟩
  · exact absurd ((owners i).symm.trans h) nofun
  · exact absurd ((slots k).symm.trans h) nofun
  · exact absurd ((triggers k).symm.trans h) nofun
  all_goals cases p
  any_goals rfl
  all_goals first | exact ⟨fun _ => rfl, fun h => absurd rfl h⟩ | (intro k al hal; cases hal) | cases hf

/-! ### Witnesses: the laws -/

theorem witness_capacities : ∃ t, step { sweeping 254 with pending := [.sweepVisit] } = .next t ∧
    WithinCapacities { sweeping 254 with pending := [.sweepVisit] } :=
  ⟨_, rfl, by decide, by decide, by decide, fun p => by cases p <;> decide, fun p => by cases p <;> decide⟩

theorem witness_engine_law : ∃ t, step { sweeping 254 with pending := [.sweepVisit] } = .next t ∧
    EngineLaw { sweeping 254 with pending := [.sweepVisit] } :=
  let h := witness_sweep_law 254
  ⟨_, rfl, h.table, h.flight, h.purge⟩

theorem witness_balance :
    let s := { tracking [waiting] with pending := [.expiry], timebase := 6250100 }
    let u := { s with trk := { s.trk with globals := { s.trk.globals with admitted := 1 } } }
    (∃ t, step u = .next t) ∧ Balanced u :=
  ⟨⟨_, rfl⟩, fun _ => rfl⟩

theorem witness_session_law : ∃ t, step { broken false 125000 with pending := [.portReset .a] } = .next t ∧
    SessionLaw { broken false 125000 with pending := [.portReset .a] } :=
  let h := witness_port_reset.2.2.2
  ⟨_, rfl, fun p hp => let c := h.closed p hp; ⟨c.probes, c.slots, c.triggers, c.claim, c.alerts, c.lost, c.mask⟩, h.alerts, h.dispatch⟩

/-- Probe 0 with unit 7, and a tick to take. -/
def pooled : State :=
  { withProbe { probeIn .running 0 with unit := some 7 } with
    pool := (Vector.replicate 8 none).set 7 (some (unit .log)), pending := [.timebaseTick] }

theorem witness_pool_law : (∃ t, step pooled = .next t) ∧ PoolLaw pooled := by
  have others : ∀ k : Fin 8, k ≠ 7 → pooled.pool[k] = none := by decide
  have unattached : ∀ i, i ≠ 0 → (pooled.probe i).unit = none := by decide
  refine ⟨⟨_, rfl⟩, fun k u h => ?_, fun i k h => ?_, fun i k h => ?_⟩
  · by_cases hk : k = 7
    · subst hk
      obtain rfl := Option.some.inj h
      rfl
    · exact absurd ((others k hk).symm.trans h) nofun
  · by_cases hi : i = 0
    · subst hi
      obtain rfl := Option.some.inj h
      exact ⟨_, rfl, rfl⟩
    · exact absurd ((unattached i hi).symm.trans h) nofun
  · by_cases hi : i = 0
    · subst hi
      exact ⟨⟨latency, rfl, rfl⟩, nofun⟩
    · exact absurd ((unattached i hi).symm.trans h) nofun

end Sys2Proof.Tests
end

section
/-! What becomes of a record that arrives at the Observation Port (R7, R8): one equation per branch of `arrive`, then the
statement about the command. -/

namespace Sys2Proof.Machine

theorem whileReleased_of_released {s : State} (u : State) (h : s.resetN = true) : whileReleased s u = .next u :=
  if_pos h

/-- Out of reset, the whole meaning of RECORD_TRANSFER is the arrival of its record. -/
theorem exec_recordTransfer_of_released {s : State} (data : BitVec 64) (h : s.resetN = true) :
    exec (.recordTransfer data) s = .next (arrive data s) :=
  whileReleased_of_released (arrive data s) h

/-! ### The branches of an arrival -/

theorem arrive_of_disabled {s : State} (data : BitVec 64) (hoff : s.obs.enabled = false) : arrive data s = s := by
  simp [arrive, hoff]

theorem arrive_of_invalid {s : State} {data : BitVec 64} (hon : s.obs.enabled = true)
    (hbad : decodeRecord data = none) : arrive data s = rejectRecord s := by
  simp [arrive, hon, hbad]

theorem arrive_of_room {s : State} {data : BitVec 64} {r : Record} (hon : s.obs.enabled = true)
    (hr : decodeRecord data = some r) (hroom : s.obs.queue.length < Config.intakeRecords) :
    arrive data s = queueRecord r s := by
  simp [arrive, hon, hr, hroom]

theorem arrive_of_full {s : State} {data : BitVec 64} {r : Record} (hon : s.obs.enabled = true)
    (hr : decodeRecord data = some r) (hfull : Config.intakeRecords ≤ s.obs.queue.length) :
    arrive data s = dropRecord s := by
  simp [arrive, hon, hr, Nat.not_lt.mpr hfull]

/-! ### A drop, by the loss-alert armed flag -/

/-- A drop writes the flag clear, which is no change when it was clear: such a drop only counts (R8). -/
theorem dropRecord_of_disarmed {s : State} (hclear : s.obs.lossArmed = false) :
    dropRecord s = { s with obs := { s.obs with lossCount := satInc s.obs.lossCount } } := by
  simp [dropRecord, hclear]

/-- The alert carries the count after its increase and the time of the drop (R8). -/
theorem dropRecord_of_armed {s : State} (hset : s.obs.lossArmed = true) :
    dropRecord s =
      { s with
        obs := { s.obs with lossCount := satInc s.obs.lossCount, lossArmed := false }
        mgmt := s.mgmt.raiseDeviceWide (.intakeLoss (satInc s.obs.lossCount)) s.timebase } := by
  simp [dropRecord, hset]

/-- Settles O6, by the branches of an arrival and, for a dropped record, by the loss-alert armed flag. -/
theorem recordTransferResult : Obligations.RecordTransferResult := by
  intro s data hs
  rw [exec_recordTransfer_of_released data hs]
  refine ⟨fun hoff => ?ignored, fun hon hbad => ?rejected, fun r hon hr hroom => ?queued,
    fun r hon hr hfull hclear => ?counted, fun r hon hr hfull hset => ?alerted⟩
  case ignored => rw [arrive_of_disabled data hoff]
  case rejected => rw [arrive_of_invalid hon hbad, rejectRecord]
  case queued => rw [arrive_of_room hon hr hroom, queueRecord]
  case counted => rw [arrive_of_full hon hr hfull, dropRecord_of_disarmed hclear]
  case alerted => rw [arrive_of_full hon hr hfull, dropRecord_of_armed hset]

end Sys2Proof.Machine
end

section
/-! What becomes of a tracked request that the pending table cannot take (R21, R23, R24, R25): the two branches that lead
to it, then the statement about the whole state. -/

namespace Sys2Proof.Machine

/-! ### The branches of a tracked request -/

/-- A request supersedes nothing when no entry holds its key (R22). -/
theorem handleRequest_of_absent {s : State} {key : Key} (kind : TrackedKind) (length : Nat) (stamp : Tick)
    (habsent : ∀ e ∈ s.trk.table, e.key ≠ key) :
    handleRequest key kind length stamp s = admitFresh key kind length stamp s := by
  rw [handleRequest, findKey_eq_none.mpr habsent]

/-- The key leaves the ring before the full table is found (R21, R23). -/
theorem admitFresh_of_full {s : State} (key : Key) (kind : TrackedKind) (length : Nat) (stamp : Tick)
    (hfull : Config.tableEntries ≤ s.trk.table.length) :
    admitFresh key kind length stamp s =
      untracked stamp { s with trk := { s.trk with ring := dropKey key s.trk.ring } } :=
  if_neg (Nat.not_lt.mpr hfull)

/-- Settles O13, by the two branches that lead to an untracked request: its key is not pending, and the table is full. -/
theorem untrackedRequest : Obligations.UntrackedRequest := by
  intro s key kind length stamp habsent hcount
  have hfull : Config.tableEntries ≤ s.trk.table.length := hcount.ge
  rw [handleRequest_of_absent kind length stamp habsent, admitFresh_of_full key kind length stamp hfull, untracked,
    dropKey]

end Sys2Proof.Machine
end

section
/-! What becomes of a completion part whose key is not pending (R59, R60): it reaches the Tracking Engine alone, which
counts it by whether the expired-key ring holds its key. -/

namespace Sys2Proof.Machine

theorem ringHolds_eq_true {key : Key} {ring : List RingRecord} :
    ringHolds key ring = true ↔ ∃ r ∈ ring, r.key = key := by
  simp [ringHolds]

theorem ringHolds_eq_false {key : Key} {ring : List RingRecord} :
    ringHolds key ring = false ↔ ∀ r ∈ ring, r.key ≠ key := by
  simp [ringHolds]

/-- A part whose key no entry holds gives no notice and closes no entry: the probes, the alerts, the table and its
occupancy stay as they are (R31). -/
theorem handlePart_of_absent {s : State} {key : Key} (status : Status) (bytes : Nat) (last : Bool) (stamp : Tick)
    (habsent : ∀ e ∈ s.trk.table, e.key ≠ key) :
    handlePart key status bytes last stamp s = { s with trk := s.trk.strayPart key last } := by
  rw [handlePart, findKey_eq_none.mpr habsent]

/-! ### The branches of a stray part -/

/-- A late part, whose record leaves the ring with the last flag (R57, R59). -/
theorem strayPart_of_held {k : Tracking} {key : Key} (last : Bool) (hheld : ∃ r ∈ k.ring, r.key = key) :
    k.strayPart key last =
      { k with
        globals := { k.globals with late := satInc k.globals.late }
        ring := if last then dropKey key k.ring else k.ring } :=
  if_pos (ringHolds_eq_true.mpr hheld)

/-- An orphan, which changes nothing in the ring whatever its last flag (R60). -/
theorem strayPart_of_not_held {k : Tracking} {key : Key} (last : Bool) (hlacks : ∀ r ∈ k.ring, r.key ≠ key) :
    k.strayPart key last = { k with globals := { k.globals with orphan := satInc k.globals.orphan } } := by
  rw [Tracking.strayPart, ringHolds_eq_false.mpr hlacks, if_neg Bool.false_ne_true]

/-- Settles O17, by whether the expired-key ring holds the key of the part. -/
theorem lateAndOrphanParts : Obligations.LateAndOrphanParts := by
  intro s key status bytes last stamp habsent
  rw [handlePart_of_absent status bytes last stamp habsent]
  refine ⟨fun hheld => ?late, fun hlacks => ?orphan⟩
  case late => rw [strayPart_of_held last hheld, dropKey]
  case orphan => rw [strayPart_of_not_held last hlacks]

end Sys2Proof.Machine
end

section
/-! Which records a COUNT probe counts, and what the offer of a record does to each probe (R12, R72, R74, R75, R95). -/

namespace Sys2Proof.Machine

/-! ### The fields of a selector that apply to a record (Table 4-2) -/

theorem contains_eq_getLsbD (mask : Byte) (code : Nat) : contains mask code = mask.getLsbD code := rfl

theorem matchesRecord_req (x : Selector) (groupMap : Vector (Fin 8) 32) (requester : Fin 32) (tag : Byte)
    (kind : RequestKind) (n : Nat) :
    x.matchesRecord groupMap (.req requester tag kind n) = true ↔
      x.groupSet.getLsbD groupMap[requester] = true ∧ x.kindSet.getLsbD kind.code = true ∧
        x.tagLo ≤ tag.toNat ∧ tag.toNat ≤ x.tagHi ∧ x.lengthLo ≤ n ∧ n ≤ x.lengthHi := by
  simp only [Selector.matchesRecord, Selector.matchesRequest, contains_eq_getLsbD, Bool.and_eq_true, within_iff,
    and_assoc]

theorem matchesRecord_cpl (x : Selector) (groupMap : Vector (Fin 8) 32) (requester : Fin 32) (tag : Byte)
    (status : Status) (n : Nat) (last : Bool) :
    x.matchesRecord groupMap (.cpl requester tag status n last) = true ↔
      x.groupSet.getLsbD groupMap[requester] = true ∧ x.tagLo ≤ tag.toNat ∧ tag.toNat ≤ x.tagHi ∧
        x.lengthLo ≤ n ∧ n ≤ x.lengthHi ∧ x.statusSet.getLsbD status.code = true := by
  simp only [Selector.matchesRecord, contains_eq_getLsbD, Bool.and_eq_true, within_iff, and_assoc]

theorem matchesRecord_mark (x : Selector) (groupMap : Vector (Fin 8) 32) (label : BitVec 16) :
    x.matchesRecord groupMap (.mark label) = true ↔ x.labelLo ≤ label.toNat ∧ label.toNat ≤ x.labelHi :=
  within_iff ..

/-! ### The offer, probe by probe -/

/-- A probe counts a record when it is RUNNING with a COUNT measure of the record's kind and a selector that matches
(R12, R95). -/
theorem counts_iff (groupMap : Vector (Fin 8) 32) (r : Record) (x : Probe) :
    x.counts groupMap r = true ↔ ∃ d, x.state = .running ∧ x.definition = some d ∧ d.measure = .count r.kind ∧
      d.selector.matchesRecord groupMap r = true := by
  cases hd : x.definition <;> simp [Probe.counts, hd]

theorem offerRecord_probe_of_counts {r : Record} {s : State} {i : ProbeNo}
    (h : (s.probe i).counts s.trk.groupMap r = true) :
    (offerRecord r s).probe i = { s.probe i with values := { (s.probe i).values with
      samples := satInc (s.probe i).values.samples
      sum := satAdd (s.probe i).values.sum (recordAmount r) } } :=
  (Bank.probe_mapProbes ..).trans (if_pos h)

theorem offerRecord_probe_of_not_counts {r : Record} {s : State} {i : ProbeNo}
    (h : ¬ (s.probe i).counts s.trk.groupMap r = true) : (offerRecord r s).probe i = s.probe i :=
  (Bank.probe_mapProbes ..).trans (if_neg h)

/-- Settles O23, by whether the probe counts the record, and by the kinds of records for the selector. -/
theorem countOffer : Obligations.CountOffer := by
  intro s r i
  refine ⟨fun d hrun hdef hmeasure hmatch => ?counted, fun hnot => ?passed, ?frame,
    fun x groupMap requester tag n => ?selector⟩
  case counted => exact offerRecord_probe_of_counts ((counts_iff ..).mpr ⟨d, hrun, hdef, hmeasure, hmatch⟩)
  case passed => exact offerRecord_probe_of_not_counts (mt (counts_iff ..).mp hnot)
  case frame => rfl
  case selector =>
    exact ⟨fun kind => ⟨rfl, matchesRecord_req x groupMap requester tag kind n⟩,
      fun status last => ⟨rfl, matchesRecord_cpl x groupMap requester tag status n last⟩,
      fun _ => ⟨rfl, rfl⟩, rfl, rfl, fun _ => ⟨rfl, rfl⟩,
      fun label => ⟨rfl, matchesRecord_mark x groupMap label⟩⟩

end Sys2Proof.Machine
end

section
/-! The visit of a sweep and its end (R30, R103, R104). A visit sends removal notices to PURGING probes only, so it
raises no alert and lowers in-flight counts, nothing else of a probe; at index 255 no entry names a probe of the current
set any more, and the end of the sweep finds each of them with nothing in flight. -/

namespace Sys2Proof.Machine

/-! ### Removal notices to probes that do not drain -/

/-- Only the end of a drain lets a removal notice raise an alert (R97). -/
theorem foldl_notify_removal_mgmt (t : Tick) (l : List ProbeNo) (s : State)
    (hl : ∀ i ∈ l, (s.probe i).state ≠ .draining) :
    (l.foldl (fun s i => notify t i .removal s) s).mgmt = s.mgmt := by
  induction l generalizing s with
  | nil => rfl
  | cons i l ih =>
    have hi : (s.probe i).state ≠ .draining := hl i List.mem_cons_self
    have hrest : ∀ j ∈ l, ((notify t i .removal s).probe j).state ≠ .draining := by
      intro j hj
      by_cases hji : j = i
      · subst hji
        rw [notify_probe_same, take_removal hi]
        exact hi
      · rw [notify_probe_ne t .removal s hji]
        exact hl j (List.mem_cons_of_mem i hj)
    exact (ih _ hrest).trans (alertNotice_removal t i s.mgmt hi)

theorem sendNotices_removal_mgmt (t : Tick) {set : ProbeSet} {s : State}
    (hset : ∀ i, set.has i = true → (s.probe i).state ≠ .draining) :
    (sendNotices t set .removal s).mgmt = s.mgmt :=
  foldl_notify_removal_mgmt t (members set) s fun i hi => hset i (mem_members.mp hi)

/-! ### The visit of an index -/

/-- The probes of the current set are PURGING, so none drains (R101). -/
theorem EngineLaw.not_draining_of_current {s : State} (h : EngineLaw s) {i : ProbeNo}
    (hi : s.bank.purge.current.has i = true) : (s.probe i).state ≠ .draining := by
  have hpurging : (s.probe i).state = .purging := (h.purge.purging i).mpr (.inl hi)
  rw [hpurging]
  decide

/-- With each index held once, replacing an entry by its image is a change of the entries at its index. -/
theorem replaceEntry_eq_map {table : List Entry} (h : (table.map Entry.index).Nodup) {e : Entry} (he : e ∈ table)
    (f : Entry → Entry) (hf : (f e).index = e.index) :
    replaceEntry (f e) table = table.map (fun x => if x.index = e.index then f x else x) := by
  refine List.map_congr_left fun x hx => ?_
  by_cases hi : x.index = e.index
  · rw [eq_of_nodup_map h hx he hi]
    simp [hf]
  · simp [hf, hi]

/-- Leaving the current set's members of a match set is leaving the current set. -/
theorem matchSet_without_members (m set : ProbeSet) : m &&& ~~~(m &&& set) = m &&& ~~~set := by
  refine ProbeSet.ext fun i => ?_
  cases hm : m.has i <;> simp [hm]

theorem visitEntry_of_free {s : State} {k : Fin 256} (hf : findIndex s.trk.table k = none) : visitEntry k s = s := by
  rw [visitEntry, hf]

theorem visitEntry_of_pending {s : State} {k : Fin 256} {e : Entry} (hf : findIndex s.trk.table k = some e) :
    visitEntry k s = { sendNotices s.timebase (e.matchSet &&& s.bank.purge.current) .removal s with
      trk := { s.trk with
        table := replaceEntry { e with matchSet := e.matchSet &&& ~~~s.bank.purge.current } s.trk.table } } := by
  rw [visitEntry, hf, ← matchSet_without_members]

theorem visitEntry_trk {s : State} (hs : (s.trk.table.map Entry.index).Nodup) (k : Fin 256) :
    (visitEntry k s).trk = { s.trk with table := s.trk.table.map (fun e =>
      if e.index = k then { e with matchSet := e.matchSet &&& ~~~s.bank.purge.current } else e) } := by
  cases hf : findIndex s.trk.table k with
  | none =>
    have hid : s.trk.table.map (fun e => if e.index = k then
        { e with matchSet := e.matchSet &&& ~~~s.bank.purge.current } else e) = s.trk.table :=
      (List.map_congr_left fun e he => if_neg (findIndex_eq_none.mp hf e he)).trans (List.map_id' _)
    rw [visitEntry_of_free hf, hid]
  | some e =>
    obtain ⟨he, rfl⟩ := mem_of_findIndex hf
    rw [visitEntry_of_pending hf, ← replaceEntry_eq_map hs he
      (fun x => { x with matchSet := x.matchSet &&& ~~~s.bank.purge.current }) rfl]

/-- A visit touches the Tracking Engine and the Probe Bank only: its removal notices reach no bin and raise no alert. -/
theorem visitEntry_frame {s : State} (h : EngineLaw s) (k : Fin 256) :
    visitEntry k s = { s with trk := (visitEntry k s).trk, bank := (visitEntry k s).bank } := by
  cases hf : findIndex s.trk.table k with
  | none => rw [visitEntry_of_free hf]
  | some e =>
    have hpool := sendNotices_pool (n := .removal) nofun s.timebase (e.matchSet &&& s.bank.purge.current) s
    have hmgmt : (sendNotices s.timebase (e.matchSet &&& s.bank.purge.current) .removal s).mgmt = s.mgmt := by
      refine sendNotices_removal_mgmt _ fun i hi => ?_
      rw [ProbeSet.has_and, Bool.and_eq_true] at hi
      exact h.not_draining_of_current hi.2
    rw [visitEntry_of_pending hf]
    simp [hpool, hmgmt]

theorem visitEntry_probe_of_pending {s : State} {k : Fin 256} {e : Entry} (hf : findIndex s.trk.table k = some e)
    (i : ProbeNo) : (visitEntry k s).probe i =
      if (e.matchSet &&& s.bank.purge.current).has i then (s.probe i).take .removal else s.probe i := by
  rw [visitEntry_of_pending hf]
  exact sendNotices_probe ..

theorem visitEntry_probe_of_not_current {s : State} (k : Fin 256) {i : ProbeNo}
    (hi : s.bank.purge.current.has i = false) : (visitEntry k s).probe i = s.probe i := by
  cases hf : findIndex s.trk.table k with
  | none => rw [visitEntry_of_free hf]
  | some e => exact (visitEntry_probe_of_pending hf i).trans (if_neg (by simp [hi]))

/-- Of a probe of the current set a visit changes at most the in-flight count (R30). -/
theorem visitEntry_probe_of_current {s : State} (h : EngineLaw s) (k : Fin 256) {i : ProbeNo}
    (hi : s.bank.purge.current.has i = true) :
    (visitEntry k s).probe i = { s.probe i with inFlight := ((visitEntry k s).probe i).inFlight } := by
  cases hf : findIndex s.trk.table k with
  | none => rw [visitEntry_of_free hf]
  | some e =>
    rw [visitEntry_probe_of_pending hf, take_removal (h.not_draining_of_current hi)]
    split <;> rfl

/-- After the visit of index 255 every entry has been visited, so no probe of the current set has anything in flight
(R78, R104). -/
theorem visitEntry_last_inFlight {s : State} (h : EngineLaw s) (hlast : s.bank.purge.position = some 255) {i : ProbeNo}
    (hi : s.bank.purge.current.has i = true) : ((visitEntry 255 s).probe i).inFlight = 0 := by
  obtain ⟨hlaw, -, hvisited⟩ := visitEntry_laws h hlast
  refine (hlaw.flight.counts i).trans (naming_eq_zero.mpr fun e he => ?_)
  have hapart := hvisited e he (Fin.le_last e.index)
  exact ProbeSet.has_eq_false_of_and_eq_zero ((BitVec.and_comm ..).trans hapart) hi

/-! ### The end of a sweep -/

/-- The alerts of a drain's end depend on the probes of the set alone, by their owners and figures. -/
theorem raiseDrained_congr (o : DrainOutcome) (t : Tick) (abandoned : Probe → Option Nat) {set : ProbeSet} {b c : Bank}
    (m : Management) (howner : ∀ i, set.has i = true → (b.probe i).owner = (c.probe i).owner)
    (hfigure : ∀ i, set.has i = true → abandoned (b.probe i) = abandoned (c.probe i)) :
    raiseDrained o t abandoned set b m = raiseDrained o t abandoned set c m := by
  unfold raiseDrained
  refine List.foldl_ext _ _ m fun n i hi => ?_
  rw [howner i (mem_members.mp hi), hfigure i (mem_members.mp hi)]

theorem endSweep_of_none_waiting {x : Purge} (queued : Nat) (h : x.waiting = 0) : x.endSweep queued = Purge.idle := by
  simp [Purge.endSweep, h]

theorem endSweep_of_waiting {x : Purge} (queued : Nat) (h : x.waiting ≠ 0) :
    x.endSweep queued = { current := x.waiting, waiting := 0, position := some 0, visitAhead := queued } :=
  if_neg (by simpa using h)

/-- The end of a sweep brings a probe of the current set to HELD and no other (R104). -/
theorem finishSweep_probe_of_current {s : State} {i : ProbeNo} (hi : s.bank.purge.current.has i = true) :
    (finishSweep s).probe i = (s.probe i).rest :=
  (finishSweep_probe s i).trans (if_pos hi)

theorem finishSweep_probe_of_not_current {s : State} {i : ProbeNo} (hi : s.bank.purge.current.has i = false) :
    (finishSweep s).probe i = s.probe i :=
  (finishSweep_probe s i).trans (if_neg (Bool.eq_false_iff.mp hi))

theorem exec_sweepVisit_last {s : State} (hreset : s.resetN = true) (hlast : s.bank.purge.position = some 255) :
    exec .sweepVisit s = .next (finishSweep (visitEntry 255 s)) := by
  show execSweepVisit s = _
  rw [execSweepVisit, hlast]
  exact whileReleased_of_released _ hreset

/-- The CUT alerts of a sweep's end are those of the state before its last visit: the visit raises none, and it leaves
each probe its owner and cut count. -/
theorem finishSweep_visitEntry_mgmt {s : State} (h : EngineLaw s) {k : Fin 256} (hk : s.bank.purge.position = some k) :
    (finishSweep (visitEntry k s)).mgmt =
      raiseDrained .cut s.timebase Probe.cutCount s.bank.purge.current s.bank s.mgmt := by
  obtain ⟨-, hpurge, -⟩ := visitEntry_laws h hk
  have htimebase : (visitEntry k s).timebase = s.timebase := by rw [visitEntry_frame h k]
  have hmgmt : (visitEntry k s).mgmt = s.mgmt := by rw [visitEntry_frame h k]
  have howner : ∀ i, s.bank.purge.current.has i = true → ((visitEntry k s).probe i).owner = (s.probe i).owner :=
    fun i hi => by rw [visitEntry_probe_of_current h k hi]
  have hcut : ∀ i, s.bank.purge.current.has i = true → ((visitEntry k s).probe i).cutCount = (s.probe i).cutCount :=
    fun i hi => by rw [visitEntry_probe_of_current h k hi]
  rw [finishSweep, hpurge, htimebase, hmgmt]
  exact raiseDrained_congr .cut s.timebase Probe.cutCount s.mgmt howner hcut

/-- Settles O26: the last visit changes the table as stated and leaves the probes of the current set with nothing in
flight, and the end of the sweep acts on the state that it leaves. -/
theorem sweepEndResult : Obligations.SweepEndResult := by
  intro s h hreset hlast
  obtain ⟨-, hpurge, -⟩ := visitEntry_laws h hlast
  have hcurrent : (visitEntry 255 s).bank.purge.current = s.bank.purge.current := by rw [hpurge]
  have hend : (finishSweep (visitEntry 255 s)).bank.purge = s.bank.purge.endSweep (visitEntry 255 s).obs.queue.length :=
    congrArg (Purge.endSweep _) hpurge
  have hframe := visitEntry_frame h 255
  have hobs : (visitEntry 255 s).obs = s.obs := by rw [hframe]
  have hpool : (visitEntry 255 s).pool = s.pool := by rw [hframe]
  have hharv : (visitEntry 255 s).harv = s.harv := by rw [hframe]
  have htimebase : (visitEntry 255 s).timebase = s.timebase := by rw [hframe]
  refine ⟨finishSweep (visitEntry 255 s), exec_sweepVisit_last hreset hlast, visitEntry_trk h.table.indices 255,
    fun i hi => ?current, fun i hi => ?others, finishSweep_visitEntry_mgmt h hlast, fun hw => ?idle, fun hw => ?next,
    hobs, hpool, hharv, htimebase⟩
  case current =>
    have hvalues : ((visitEntry 255 s).probe i).values = (s.probe i).values := by
      rw [visitEntry_probe_of_current h 255 hi]
    rw [finishSweep_probe_of_current (hcurrent ▸ hi)]
    exact ⟨rfl, visitEntry_last_inFlight h hlast hi, rfl, hvalues⟩
  case others => rw [finishSweep_probe_of_not_current (hcurrent ▸ hi), visitEntry_probe_of_not_current 255 hi]
  case idle => rw [hend, endSweep_of_none_waiting _ hw]
  case next =>
    rw [hend, endSweep_of_waiting _ hw]
    exact ⟨rfl, rfl, rfl⟩

end Sys2Proof.Machine
end

section
/-! The bin a histogram unit chooses for a latency (R114, R115), and the bin a recorded sample raises (R91, R116). -/

namespace Sys2Proof.Machine

/-! ### The bin of a latency, by binning mode -/

theorem logBoundary_mono (b : Nat) {j k : Nat} (h : j ≤ k) : b * 2 ^ j ≤ b * 2 ^ k :=
  Nat.mul_le_mul_left b (Nat.pow_le_pow_right Nat.two_pos h)

/-- The search of R114 stops at the first boundary above the latency. -/
theorem logBin_of_lt {b L k : Nat} (hk : k ≤ 14) (hbelow : L < b * 2 ^ k)
    (hpassed : ∀ j, j < k → b * 2 ^ j ≤ L) : (logBin b L).val = k := by
  have hfind : (List.range 15).find? (fun j => L < b * 2 ^ j) = some k :=
    List.find?_range_eq_some.mpr
      ⟨by simpa using hbelow, List.mem_range.mpr (by omega), fun j hj => by simpa using hpassed j hj⟩
  rw [logBin, hfind]
  exact Nat.mod_eq_of_lt (by omega)

theorem logBin_first {b L : Nat} (h : L < b) : logBin b L = 0 :=
  Fin.ext (logBin_of_lt (by omega) (by simpa using h) fun j hj => absurd hj (Nat.not_lt_zero j))

/-- Boundaries rise with `k`, so a latency that has passed the boundary `k - 1` has passed every earlier one. -/
theorem logBin_between {b L k : Nat} (hpos : 1 ≤ k) (hk : k ≤ 14) (hfrom : b * 2 ^ (k - 1) ≤ L)
    (hbelow : L < b * 2 ^ k) : (logBin b L).val = k :=
  logBin_of_lt hk hbelow fun _ hj => (logBoundary_mono b (by omega)).trans hfrom

theorem logBin_last {b L : Nat} (h : b * 2 ^ 14 ≤ L) : logBin b L = 15 := by
  have hfind : (List.range 15).find? (fun k => L < b * 2 ^ k) = none :=
    List.find?_eq_none.mpr fun k hk => by
      have hpassed : b * 2 ^ k ≤ L := (logBoundary_mono b (Nat.le_of_lt_succ (List.mem_range.mp hk))).trans h
      simpa using hpassed
  rw [logBin, hfind]

theorem linearBin_of_lt {w L : Nat} (h : L / w < 15) : (linearBin w L).val = L / w := by
  rw [linearBin, if_pos h]
  exact Nat.mod_eq_of_lt (by omega)

theorem linearBin_last {w L : Nat} (h : 15 ≤ L / w) : linearBin w L = 15 := if_neg (Nat.not_lt.mpr h)

theorem binOf_log {u : HistUnit} (h : u.mode = .log) (L : Tick) : u.binOf L = logBin u.parameter.toNat L.toNat := by
  rw [HistUnit.binOf, h]

theorem binOf_linear {u : HistUnit} (h : u.mode = .linear) (L : Tick) :
    u.binOf L = linearBin u.parameter.toNat L.toNat := by
  rw [HistUnit.binOf, h]

/-! ### The bin that a recorded sample raises -/

theorem recording_iff (x : Probe) : x.recording = true ↔ x.state = .running ∨ x.state = .draining := by
  simp [Probe.recording]

/-- A recorded sample of a probe with a unit counts in that unit (R91, R116). -/
theorem binNotice_sample {x : Probe} {k : Fin 8} (hrec : x.recording = true) (hunit : x.unit = some k) (L : Tick)
    (pool : Vector (Option HistUnit) 8) :
    binNotice (.sample L) x pool = modifyUnit pool k (HistUnit.count L) := by
  simp only [binNotice, hunit, hrec, if_true]

theorem modifyUnit_of_attached {pool : Vector (Option HistUnit) 8} {k : Fin 8} {u : HistUnit} (h : pool[k] = some u)
    (f : HistUnit → HistUnit) : modifyUnit pool k f = pool.set k (some (f u)) := by
  rw [modifyUnit, h, Option.map_some]

/-- Settles O22, by the binning mode and the boundaries of its bins; the pool after a recorded sample differs in the
probe's own unit only, which counts the latency. -/
theorem binOfLatency : Obligations.BinOfLatency := by
  intro u L
  refine ⟨fun hlog => ?log, fun hlinear => ?linear, fun s t i k hstate hunit hattached => ?sample⟩
  case log =>
    rw [binOf_log hlog]
    exact ⟨logBin_first, fun _ => logBin_between, logBin_last⟩
  case linear =>
    rw [binOf_linear hlinear]
    exact ⟨linearBin_of_lt, linearBin_last⟩
  case sample =>
    calc (notify t i (.sample L) s).pool
      _ = binNotice (.sample L) (s.probe i) s.pool := congrArg State.pool (notify_eq t i (.sample L) s)
      _ = modifyUnit s.pool k (HistUnit.count L) := binNotice_sample ((recording_iff _).mpr hstate) hunit L s.pool
      _ = s.pool.set k (some (u.count L)) := modifyUnit_of_attached hattached (HistUnit.count L)

end Sys2Proof.Machine
end

section
/-! Where a raised alert goes, and what a port's queue does with it (R142, R145, R146, R148). -/

namespace Sys2Proof.Machine

/-! ### The port an alert is raised to -/

theorem raiseToOwner_none (m : Management) (c : Condition) (t : Tick) :
    m.raiseToOwner none c t = { m with undeliverable := satInc m.undeliverable } := rfl

theorem port_raiseToOwner_same (m : Management) (p : Port) (c : Condition) (t : Tick) :
    (m.raiseToOwner (some p) c t).port p = (m.port p).offer c t := port_setPort_same m p _

theorem raiseToOwner_some_undeliverable (m : Management) (p : Port) (c : Condition) (t : Tick) :
    (m.raiseToOwner (some p) c t).undeliverable = m.undeliverable := setPort_undeliverable m p _

/-! ### The head of the queue after an alert entered it -/

theorem head_offer_of_room (c : Condition) (t : Tick) {x : PortState} (h : x.alerts.length < 16) :
    (x.offer c t).head = if x.alerts = [] then { sent := false, due := true, timer := none } else x.head := by
  rw [offer_of_room c t x h]
  simp only [List.isEmpty_iff, HeadAlert.fresh]

/-! ### A device-wide alert, by the ports that want it -/

theorem raiseDeviceWide_of_both {m : Management} {c : Condition} (ha : m.wants .a c = true) (hb : m.wants .b c = true)
    (t : Tick) : m.raiseDeviceWide c t = (m.raiseToOwner (some .a) c t).raiseToOwner (some .b) c t := by
  rw [Management.raiseDeviceWide, ha, hb]; rfl

theorem raiseDeviceWide_of_a {m : Management} {c : Condition} (ha : m.wants .a c = true) (hb : m.wants .b c = false)
    (t : Tick) : m.raiseDeviceWide c t = m.raiseToOwner (some .a) c t := by
  rw [Management.raiseDeviceWide, ha, hb]; rfl

theorem raiseDeviceWide_of_b {m : Management} {c : Condition} (ha : m.wants .a c = false) (hb : m.wants .b c = true)
    (t : Tick) : m.raiseDeviceWide c t = m.raiseToOwner (some .b) c t := by
  rw [Management.raiseDeviceWide, ha, hb]; rfl

theorem raiseDeviceWide_of_neither {m : Management} {c : Condition} (ha : m.wants .a c = false)
    (hb : m.wants .b c = false) (t : Tick) :
    m.raiseDeviceWide c t = { m with undeliverable := satInc m.undeliverable } := by
  rw [Management.raiseDeviceWide, ha, hb]; rfl

/-- Settles O47, by whether the alert has an owner, by the room in the owner's queue, and for a device-wide alert by
the ports that want it. -/
theorem alertDelivery : Obligations.AlertDelivery := by
  intro m p cond t
  refine ⟨raiseToOwner_none m cond t, ?otherPort, raiseToOwner_some_undeliverable m p cond t,
    fun hroom => ?room, fun hfull => ?full, fun wantsA wantsB hA hB => ?deviceWide⟩
  case otherPort => exact port_raiseToOwner_ne (by simp) cond t
  case room =>
    rw [port_raiseToOwner_same, ← head_offer_of_room cond t hroom, offer_of_room cond t _ hroom]
  case full =>
    rw [port_raiseToOwner_same]
    exact offer_of_full cond t _ (Nat.not_lt.mpr hfull)
  case deviceWide =>
    have ha : m.wants .a cond = wantsA := hA.symm
    have hb : m.wants .b cond = wantsB := hB.symm
    clear hA hB
    cases wantsA <;> cases wantsB
    case true.true => exact raiseDeviceWide_of_both ha hb t
    case true.false => exact raiseDeviceWide_of_a ha hb t
    case false.true => exact raiseDeviceWide_of_b ha hb t
    case false.false => exact raiseDeviceWide_of_neither ha hb t

end Sys2Proof.Machine
end

section
/-! What every step keeps of the Tracking Engine's own state: the handling of records, expiries, sweeps and commands is
made of a few moves on it, and a property that each move keeps is kept by every step. So are the capacities of table and
ring and the balance of the global counters (R10, R18, R38, R55, R145, R160). -/

namespace Sys2Proof.Machine

/-! ### The moves of the Tracking Engine -/

/-- The Tracking Engine's own part of an admission (R26). -/
def Tracking.enter (e : Entry) (k : Tracking) : Tracking :=
  { k with
    table := insertEntry e k.table
    globals := { k.globals with admitted := satInc k.globals.admitted } }

/-- A property of the Tracking Engine that each of its moves keeps. -/
structure TrackingMoves (I : Tracking → Prop) : Prop where
  reset : I Tracking.reset
  closed : ∀ k e o, I k → e ∈ k.table → I (k.close e.index o)
  superseded : ∀ k e new, I k → e ∈ k.table → I ((k.close e.index .superseded).enter new)
  entered : ∀ k e, I k → k.table.length < 256 → I (k.enter e)
  expired : ∀ k r, I k → I { k with ring := pushRing r k.ring }
  ringLess : ∀ k ring, I k → ring.Sublist k.ring → I { k with ring := ring }
  sameLength : ∀ k table, I k → table.length = k.table.length → I { k with table := table }
  cleared : ∀ k, I k → I k.cleared
  otherCounts : ∀ k u l o, I k → I { k with globals := { k.globals with untracked := u, late := l, orphan := o } }
  settings : ∀ k t g f, I k → I { k with timeouts := t, groupMap := g, tableFullArmed := f }

section

variable {I : Tracking → Prop}

theorem TrackingMoves.untracked (hI : TrackingMoves I) {s : State} (h : I s.trk) (stamp : Tick) :
    I (untracked stamp s).trk :=
  hI.settings { s.trk with globals := { s.trk.globals with untracked := _ } } s.trk.timeouts s.trk.groupMap false
    (hI.otherCounts s.trk (satInc s.trk.globals.untracked) s.trk.globals.late s.trk.globals.orphan h)

theorem TrackingMoves.handleRequest (hI : TrackingMoves I) {s : State} (h : I s.trk) (key : Key) (kind : TrackedKind)
    (length : Nat) (stamp : Tick) : I (handleRequest key kind length stamp s).trk := by
  unfold Machine.handleRequest
  split
  · rename_i old hf
    exact hI.superseded s.trk old _ h (mem_of_findKey hf).1
  · have hring := hI.ringLess _ _ h (dropKey_sublist key s.trk.ring)
    unfold admitFresh
    dsimp only
    split
    · rename_i hroom
      split
      · exact hI.entered _ _ hring hroom
      · exact hI.untracked (s := { s with trk := _ }) hring stamp
    · exact hI.untracked (s := { s with trk := _ }) hring stamp

theorem TrackingMoves.strayPart (hI : TrackingMoves I) {k : Tracking} (h : I k) (key : Key) (last : Bool) :
    I (k.strayPart key last) := by
  unfold Tracking.strayPart
  split
  · have hcount := hI.otherCounts k k.globals.untracked (satInc k.globals.late) k.globals.orphan h
    refine hI.ringLess _ (if last then dropKey key k.ring else k.ring) hcount ?_
    split
    · exact dropKey_sublist key k.ring
    · exact .refl _
  · exact hI.otherCounts _ _ _ _ h

theorem TrackingMoves.handlePart (hI : TrackingMoves I) {s : State} (h : I s.trk) (key : Key) (status : Status)
    (bytes : Nat) (last : Bool) (stamp : Tick) : I (handlePart key status bytes last stamp s).trk := by
  unfold Machine.handlePart
  split
  · rename_i e hf
    split
    · exact hI.sameLength _ _ h (length_replaceEntry _ _)
    · exact hI.closed s.trk e _ h (mem_of_findKey hf).1
  · exact hI.strayPart h key last

theorem TrackingMoves.engineHandle (hI : TrackingMoves I) {s : State} (h : I s.trk) (r : Record) (stamp : Tick) :
    I (engineHandle r stamp s).trk := by
  unfold Machine.engineHandle
  split
  · split
    · exact hI.handleRequest h _ _ _ _
    · exact h
  · exact hI.handlePart h _ _ _ _ _
  all_goals exact h

theorem TrackingMoves.handleRecord (hI : TrackingMoves I) {s : State} (h : I s.trk) (x : Stamped) :
    I (handleRecord x (popRecord s)).trk := by
  rw [Machine.handleRecord, fireMark_trk]
  exact hI.engineHandle (s := popRecord s) (hI.sameLength _ _ h (List.length_map _)) _ _

theorem TrackingMoves.visitEntry (hI : TrackingMoves I) {s : State} (h : I s.trk) (k : Fin 256) :
    I (visitEntry k s).trk := by
  unfold Machine.visitEntry
  split
  · exact hI.sameLength _ _ h (length_replaceEntry _ _)
  · exact h

theorem TrackingMoves.command (hI : TrackingMoves I) {p : Port} {s u : State} (h : I s.trk)
    (hu : CommandEffect p s u) : I u.trk := by
  cases hu
  case trackingCleared => exact hI.cleared _ h
  case timeouts x _ _ => exact hI.settings _ x _ _ h
  case groupMap m _ _ => exact hI.settings _ _ m _ h
  all_goals exact h

theorem arrive_trk (data : BitVec 64) (s : State) : (arrive data s).trk = s.trk := by
  unfold arrive
  split
  · split
    · split <;> rfl
    · rfl
  · rfl

theorem TrackingMoves.own (hI : TrackingMoves I) {i : Instr} {s u : State} (h : I s.trk) (hu : OwnEffect s i u) :
    I u.trk := by
  cases hu
  case held => exact hI.reset
  case poweredOn => exact hI.reset
  case ticked => exact hI.sameLength _ _ h (List.length_map _)
  case arrived data _ => rw [arrive_trk]; exact h
  case taken x _ _ _ _ => exact hI.handleRecord h x
  case expired e rest _ ht _ =>
    exact hI.expired _ _ (hI.closed s.trk e .timedOut h (by rw [ht]; exact List.mem_cons_self))
  case swept k _ _ _ => exact hI.visitEntry h k
  case sweepEnded => exact hI.visitEntry h 255
  case portReset p l _ _ => rw [resetPort_trk]; exact h
  all_goals exact h

/-- Every step keeps a property of the Tracking Engine that its moves keep. -/
theorem TrackingMoves.step (hI : TrackingMoves I) {s t : State} (h : I s.trk) (hs : step s = .next t) : I t.trk :=
  step_keeps (Inv := fun s => I s.trk) (fun _ _ h => h) (fun _ _ _ _ _ h => h) (fun _ _ _ h hu => hI.command h hu)
    (fun _ _ _ h hu => hI.own h hu) h hs

end

/-! ### Capacities -/

/-- Table and ring are within their capacities. -/
def Tracking.Fits (k : Tracking) : Prop := k.table.length ≤ Config.tableEntries ∧ k.ring.length ≤ Config.ringRecords

/-- A port's queues are within their capacities. -/
def PortState.Fits (x : PortState) : Prop :=
  x.commands.length ≤ Config.queuedCommands ∧ x.alerts.length ≤ Config.alertRecords

theorem withinCapacities_iff (s : State) :
    WithinCapacities s ↔ s.obs.queue.length ≤ Config.intakeRecords ∧ s.trk.Fits ∧ OnPorts (fun _ => PortState.Fits) s.mgmt :=
  ⟨fun ⟨hq, ht, hr, hc, ha⟩ => ⟨hq, ⟨ht, hr⟩, fun p => ⟨hc p, ha p⟩⟩,
    fun ⟨hq, ⟨ht, hr⟩, hp⟩ => ⟨hq, ht, hr, fun p => (hp p).1, fun p => (hp p).2⟩⟩

theorem length_pushRing_le {ring : List RingRecord} (r : RingRecord) (h : ring.length ≤ Config.ringRecords) :
    (pushRing r ring).length ≤ Config.ringRecords := by
  unfold pushRing
  split
  · rename_i hroom
    rw [List.length_append, List.length_singleton]
    exact hroom
  · simp only [List.length_append, List.length_drop, List.length_singleton, Config.ringRecords] at h ⊢
    omega

theorem trackingMoves_fits : TrackingMoves Tracking.Fits where
  reset := ⟨Nat.zero_le _, Nat.zero_le _⟩
  closed := fun k e _ h _ => ⟨(removeEntry_sublist e.index k.table).length_le.trans h.1, h.2⟩
  superseded := fun k e new h he => by
    refine ⟨?_, h.2⟩
    change (insertEntry new (removeEntry e.index k.table)).length ≤ _
    rw [length_insertEntry, length_removeEntry he]
    exact h.1
  entered := fun k e h hroom => ⟨(length_insertEntry e k.table).trans_le hroom, h.2⟩
  expired := fun _ r h => ⟨h.1, length_pushRing_le r h.2⟩
  ringLess := fun _ _ h hs => ⟨h.1, hs.length_le.trans h.2⟩
  sameLength := fun _ _ h hl => ⟨hl.trans_le h.1, h.2⟩
  cleared := fun _ _ => ⟨Nat.zero_le _, Nat.zero_le _⟩
  otherCounts := fun _ _ _ _ h => h
  settings := fun _ _ _ _ h => h

theorem offerKeeps_fits : OfferKeeps (fun _ => PortState.Fits) := by
  intro _ x c t h
  unfold PortState.offer
  split
  · rename_i hroom
    refine ⟨h.1, ?_⟩
    simp only [List.length_append, List.length_singleton]
    exact hroom
  · exact h

theorem takeNext_alerts (x : PortState) : x.takeNext.alerts = x.alerts := by rw [takeNext_eq]

theorem PortState.Fits.line {x y : PortState} (h : x.Fits) (hl : LineEffect x y) : y.Fits :=
  ⟨hl.commands_length h.1, by rw [hl.rest]; exact h.2⟩

theorem PortState.Fits.beginFrame {x : PortState} (h : x.Fits) : x.beginFrame.Fits := by
  unfold PortState.beginFrame
  split
  · exact h
  · split
    · exact h
    · unfold PortState.beginAlert
      split
      · exact h
      · split <;> exact h

theorem PortState.Fits.endFrame {x : PortState} (h : x.Fits) (now : Tick) (what : Sending) : (x.endFrame now what).Fits := by
  unfold PortState.endFrame
  split
  · exact h
  · exact ⟨(takeNext_commands_length _).trans h.1, by rw [takeNext_alerts]; exact h.2⟩
  · exact h
  · exact h

/-- A session close leaves the command queue and empties the alert queue. -/
theorem fits_sessionClose {s : State} (h : OnPorts (fun _ => PortState.Fits) s.mgmt) (p : Port) :
    OnPorts (fun _ => PortState.Fits) (sessionClose p s).mgmt :=
  (h.set (p := p) (x := (s.mgmt.port p).closed) ⟨(h p).1, Nat.zero_le _⟩).congr rfl rfl

theorem fits_resetPort {s : State} (h : OnPorts (fun _ => PortState.Fits) s.mgmt) (p : Port) (l : LowPeriod) :
    OnPorts (fun _ => PortState.Fits) (resetPort p l s).mgmt := by
  have hclose : OnPorts (fun _ => PortState.Fits) (closeIfOpen p s).mgmt := by
    unfold closeIfOpen
    split
    · exact fits_sessionClose h p
    · exact h
  exact hclose.set ⟨Nat.zero_le _, (hclose p).2⟩

theorem fits_command {p : Port} {s u : State} (h : OnPorts (fun _ => PortState.Fits) s.mgmt)
    (hu : CommandEffect p s u) : OnPorts (fun _ => PortState.Fits) u.mgmt := by
  cases hu
  case sessionOpened => exact (h.set (p := p) (x := { s.port p with isOpen := true, sessionNumber := _ }) (h p)).congr rfl rfl
  case sessionClosed => exact fits_sessionClose h p
  case holder => exact h.congr rfl rfl
  case trackingCleared => exact onPorts_trackingClear offerKeeps_fits h
  case masked m _ => exact h.set (h p)
  case acknowledged al rest _ _ =>
    exact h.set ⟨(h p).1, (List.drop_sublist 1 _).length_le.trans (h p).2⟩
  all_goals exact h

theorem fits_own {i : Instr} {s u : State} (h : OnPorts (fun _ => PortState.Fits) s.mgmt) (hu : OwnEffect s i u) :
    OnPorts (fun _ => PortState.Fits) u.mgmt := by
  cases hu
  case held => exact fun p => by cases p <;> exact ⟨Nat.zero_le _, Nat.zero_le _⟩
  case poweredOn => exact fun p => by cases p <;> exact ⟨Nat.zero_le _, Nat.zero_le _⟩
  case arrived data _ => exact onPorts_arrive offerKeeps_fits h data
  case taken x _ _ _ _ => exact onPorts_handleRecord offerKeeps_fits h x
  case expired e _ _ _ _ => exact onPorts_expireEntry offerKeeps_fits h e
  case swept k _ _ _ => exact onPorts_visitEntry offerKeeps_fits h k
  case sweepEnded => exact onPorts_finishSweep offerKeeps_fits (onPorts_visitEntry offerKeeps_fits h 255)
  case line p x _ hx => exact h.set ((h p).line hx)
  case portReset p l _ _ => exact fits_resetPort h p l
  case began p _ _ => exact h.set (h p).beginFrame
  case ended p f _ _ => exact h.set ((h p).endFrame s.timebase f.what)
  case resendDue p _ _ => exact h.set (h p)
  case retried p _ _ _ _ _ => exact h.set (h p)
  case unknown p _ _ _ => exact h.set (h p)
  all_goals exact h

/-- The intake queue grows by one at an arriving record only, which finds room. -/
theorem arrive_queue_length {s : State} (h : s.obs.queue.length ≤ Config.intakeRecords) (data : BitVec 64) :
    (arrive data s).obs.queue.length ≤ Config.intakeRecords := by
  unfold arrive
  split
  · split
    · split
      · rename_i hroom
        change (s.obs.queue ++ [_]).length ≤ _
        rw [List.length_append, List.length_singleton]
        exact hroom
      · exact h
    · exact h
  · exact h

theorem resetPort_obs (p : Port) (l : LowPeriod) (s : State) : (resetPort p l s).obs = s.obs := by
  unfold resetPort closeIfOpen
  split <;> rfl

theorem intake_command {p : Port} {s u : State} (h : s.obs.queue.length ≤ Config.intakeRecords)
    (hu : CommandEffect p s u) : u.obs.queue.length ≤ Config.intakeRecords := by
  cases hu
  case trackingCleared => exact Nat.zero_le _
  all_goals exact h

theorem intake_own {i : Instr} {s u : State} (h : s.obs.queue.length ≤ Config.intakeRecords) (hu : OwnEffect s i u) :
    u.obs.queue.length ≤ Config.intakeRecords := by
  cases hu
  case held => exact Nat.zero_le _
  case poweredOn => exact Nat.zero_le _
  case arrived data _ => exact arrive_queue_length h data
  case taken x _ _ _ _ =>
    rw [(engineWork_handleRecord x (popRecord s)).obs]
    exact (List.drop_sublist 1 _).length_le.trans h
  case expired e _ _ _ _ => rw [(engineWork_expireEntry e s).obs]; exact h
  case swept k _ _ _ => exact (congrArg (·.queue.length) (engineWork_visitEntry k s).obs).trans_le h
  case sweepEnded => exact (congrArg (·.queue.length) (engineWork_visitEntry 255 s).obs).trans_le h
  case portReset p l _ _ => rw [resetPort_obs]; exact h
  all_goals exact h

/-- Settles O55: the intake queue, the Tracking Engine's table and ring, and the queues of the ports keep their bounds
each by itself. -/
theorem capacitiesKept : Obligations.CapacitiesKept := by
  intro s t h hs
  rw [withinCapacities_iff] at h ⊢
  obtain ⟨hintake, htracking, hports⟩ := h
  refine ⟨?intake, trackingMoves_fits.step htracking hs, ?ports⟩
  case intake =>
    exact step_keeps (Inv := fun s => s.obs.queue.length ≤ Config.intakeRecords) (fun _ _ h => h)
      (fun _ _ _ _ _ h => h) (fun _ _ _ h hu => intake_command h hu) (fun _ _ _ h hu => intake_own h hu) hintake hs
  case ports =>
    exact step_keeps (Inv := fun s => OnPorts (fun _ => PortState.Fits) s.mgmt) (fun _ _ h => h)
      (fun _ p _ _ _ h => h.set (h p)) (fun _ _ _ h hu => fits_command h hu) (fun _ _ _ h hu => fits_own h hu) hports hs

/-! ### The balance of the global counters -/

/-- A count that is not at its greatest value after a rise was raised in full. -/
theorem satAdd_toNat {w : Nat} {x : BitVec w} {n : Nat} (h : satAdd x n ≠ BitVec.allOnes w) :
    (satAdd x n).toNat = x.toNat + n := by
  unfold satAdd at h ⊢
  split
  · rename_i hlt
    rw [BitVec.toNat_ofNat, Nat.mod_eq_of_lt hlt]
  · rename_i hge
    exact absurd (if_neg hge) h

/-- A count that is not at its greatest value after a rise was not there before it. -/
theorem ne_allOnes_of_satAdd {w : Nat} {x : BitVec w} {n : Nat} (h : satAdd x n ≠ BitVec.allOnes w) :
    x ≠ BitVec.allOnes w := by
  rintro rfl
  have hsum := satAdd_toNat h
  have hlt := (satAdd (BitVec.allOnes w) n).isLt
  rw [BitVec.toNat_allOnes] at hsum
  refine h (BitVec.eq_of_toNat_eq ?_)
  rw [BitVec.toNat_allOnes]
  omega

/-- None of the seven counters of the balance has saturated (R38). -/
def Globals.Unsaturated (g : Globals) : Prop :=
  ∀ c ∈ [g.admitted, g.completed, g.failed, g.malformed, g.timedOut, g.superseded, g.flushed], c ≠ BitVec.allOnes 64

/-- The transactions that the counters count as closed. -/
def Globals.ended (g : Globals) : Nat :=
  g.completed.toNat + g.failed.toNat + g.malformed.toNat + g.timedOut.toNat + g.superseded.toNat + g.flushed.toNat

/-- The balance of the counters, of the Tracking Engine alone. -/
def Tracking.Balances (k : Tracking) : Prop :=
  k.globals.Unsaturated → k.globals.admitted.toNat = k.globals.ended + k.table.length

theorem balanced_iff (s : State) : Balanced s ↔ s.trk.Balances := Iff.rfl

theorem Globals.unsaturated_iff (g : Globals) :
    g.Unsaturated ↔ g.admitted ≠ BitVec.allOnes 64 ∧ g.completed ≠ BitVec.allOnes 64 ∧ g.failed ≠ BitVec.allOnes 64 ∧
      g.malformed ≠ BitVec.allOnes 64 ∧ g.timedOut ≠ BitVec.allOnes 64 ∧ g.superseded ≠ BitVec.allOnes 64 ∧
      g.flushed ≠ BitVec.allOnes 64 := by
  simp [Globals.Unsaturated]

/-- A closure counts one more transaction as closed. -/
theorem ended_close {g : Globals} {o : Closure} (h : (g.close o).Unsaturated) :
    g.Unsaturated ∧ (g.close o).ended = g.ended + 1 ∧ (g.close o).admitted = g.admitted := by
  rw [Globals.unsaturated_iff] at h ⊢
  obtain ⟨hadm, hcomp, hfail, hmal, htime, hsup, hflush⟩ := h
  cases o
  case complete =>
    have hsum := satAdd_toNat hcomp
    refine ⟨⟨hadm, ne_allOnes_of_satAdd hcomp, hfail, hmal, htime, hsup, hflush⟩, ?_, rfl⟩
    simp only [Globals.ended, Globals.close, satInc]; omega
  case failed =>
    have hsum := satAdd_toNat hfail
    refine ⟨⟨hadm, hcomp, ne_allOnes_of_satAdd hfail, hmal, htime, hsup, hflush⟩, ?_, rfl⟩
    simp only [Globals.ended, Globals.close, satInc]; omega
  case malformed =>
    have hsum := satAdd_toNat hmal
    refine ⟨⟨hadm, hcomp, hfail, ne_allOnes_of_satAdd hmal, htime, hsup, hflush⟩, ?_, rfl⟩
    simp only [Globals.ended, Globals.close, satInc]; omega
  case timedOut =>
    have hsum := satAdd_toNat htime
    refine ⟨⟨hadm, hcomp, hfail, hmal, ne_allOnes_of_satAdd htime, hsup, hflush⟩, ?_, rfl⟩
    simp only [Globals.ended, Globals.close, satInc]; omega
  case superseded =>
    have hsum := satAdd_toNat hsup
    refine ⟨⟨hadm, hcomp, hfail, hmal, htime, ne_allOnes_of_satAdd hsup, hflush⟩, ?_, rfl⟩
    simp only [Globals.ended, Globals.close, satInc]; omega
  case flushed =>
    have hsum := satAdd_toNat hflush
    refine ⟨⟨hadm, hcomp, hfail, hmal, htime, hsup, ne_allOnes_of_satAdd hflush⟩, ?_, rfl⟩
    simp only [Globals.ended, Globals.close, satInc]; omega

/-- A closure takes one entry from the table and counts it. -/
theorem Tracking.Balances.close {k : Tracking} (h : k.Balances) {e : Entry} (he : e ∈ k.table) (o : Closure) :
    (k.close e.index o).Balances := by
  intro hu
  obtain ⟨hbefore, hended, hadmitted⟩ := ended_close hu
  have hbalance := h hbefore
  have hlength := length_removeEntry he
  change (k.globals.close o).admitted.toNat = (k.globals.close o).ended + (removeEntry e.index k.table).length
  rw [hended, hadmitted]
  omega

/-- An admission adds one entry to the table and counts it. -/
theorem Tracking.Balances.enter {k : Tracking} (h : k.Balances) (e : Entry) : (k.enter e).Balances := by
  intro hu
  obtain ⟨hadm, hrest⟩ := (Globals.unsaturated_iff _).mp hu
  have hbalance := h ((Globals.unsaturated_iff _).mpr ⟨ne_allOnes_of_satAdd hadm, hrest⟩)
  have hsum := satAdd_toNat hadm
  change (satAdd k.globals.admitted 1).toNat = k.globals.ended + (insertEntry e k.table).length
  rw [length_insertEntry]
  omega

/-- A tracking clear counts every entry it takes from the table as flushed. -/
theorem Tracking.Balances.cleared {k : Tracking} (h : k.Balances) : k.cleared.Balances := by
  intro hu
  obtain ⟨hadm, hcomp, hfail, hmal, htime, hsup, hflush⟩ := (Globals.unsaturated_iff _).mp hu
  have hbalance := h ((Globals.unsaturated_iff _).mpr ⟨hadm, hcomp, hfail, hmal, htime, hsup, ne_allOnes_of_satAdd hflush⟩)
  have hsum := satAdd_toNat hflush
  simp only [Tracking.cleared, Globals.ended, List.length_nil] at hbalance ⊢
  omega

theorem trackingMoves_balances : TrackingMoves Tracking.Balances where
  reset := fun _ => rfl
  closed := fun _ _ o h he => h.close he o
  superseded := fun _ _ new h he => (h.close he .superseded).enter new
  entered := fun _ e h _ => h.enter e
  expired := fun _ _ h => h
  ringLess := fun _ _ h _ => h
  sameLength := fun _ _ h hl hu => (h hu).trans (by rw [hl])
  cleared := fun _ h => h.cleared
  otherCounts := fun _ _ _ _ h => h
  settings := fun _ _ _ _ h => h

/-- Settles O57: admissions and closures change the counters and the table's length together, and no other move touches
either. -/
theorem balanceKept : Obligations.BalanceKept := by
  intro s t h hs
  rw [balanced_iff] at h ⊢
  exact trackingMoves_balances.step h hs

end Sys2Proof.Machine
end

section
/-! Every step keeps the laws of the engine, the order of the deadline list, and the agreement of units and probes (R18,
R19, R50, R78, R101, R104, R109). -/

namespace Sys2Proof.Machine

/-! ### The laws of the engine -/

theorem reset_probe (i : ProbeNo) : State.reset.probe i = Probe.reset := by
  simp [State.reset, State.probe, Bank.reset, Bank.probe]

theorem reset_pool (k : Fin 8) : State.reset.pool[k] = none := by
  simp [State.reset]

theorem engineLaw_reset : EngineLaw State.reset where
  table := ⟨List.nodup_nil, List.nodup_nil, List.nodup_nil, fun _ h => absurd h List.not_mem_nil,
    fun _ h => absurd h List.not_mem_nil⟩
  flight :=
    { counts := fun i => by rw [← State.probe_eq_bank, reset_probe]; rfl
      named := fun _ h => absurd h List.not_mem_nil
      draining := fun i h => by rw [← State.probe_eq_bank, reset_probe] at h; cases h
      deadline := fun i h => by rw [← State.probe_eq_bank, reset_probe] at h; cases h
      cutCount := fun i h => by rw [← State.probe_eq_bank, reset_probe] at h; cases h }
  purge :=
    { purging := fun i => by
        rw [← State.probe_eq_bank, reset_probe]
        simp [Probe.reset, State.reset, Bank.reset, Purge.idle]
      apart := rfl
      idle := ⟨fun _ => rfl, fun _ => rfl⟩
      rest := fun _ => rfl
      visited := fun _ h => by cases h }

theorem sameCondition_sessionClose (p : Port) (s : State) : SameCondition s.bank (sessionClose p s).bank :=
  sameCondition_mapProbes _ _ fun _ x => by
    unfold Probe.released
    split <;> exact ⟨rfl, rfl, rfl, rfl, rfl⟩

theorem sameCondition_own (set : ProbeSet) (owner : Option Port) (b : Bank) : SameCondition b (b.own set owner) :=
  sameCondition_mapProbes _ _ fun i x => by
    split <;> exact ⟨rfl, rfl, rfl, rfl, rfl⟩

theorem sameCondition_resetPort (p : Port) (l : LowPeriod) (s : State) : SameCondition s.bank (resetPort p l s).bank := by
  unfold resetPort closeIfOpen
  split
  · exact sameCondition_sessionClose p s
  · exact .refl _

theorem EngineLaw.define {s : State} (h : EngineLaw s) {i : ProbeNo} (hrest : (s.probe i).state.atRest = true)
    (d : Definition) (unit : Option (Fin 8)) (pool : Vector (Option HistUnit) 8) :
    EngineLaw (defineProbe i d unit pool s) := by
  refine h.atRest (fun j => j = i) rfl rfl rfl (fun j hj => Bank.probe_setProbe_ne _ _ hj) ?_ ?_
  · rintro j rfl
    exact (atRest_iff _).mp hrest
  · rintro j rfl
    have hj : (defineProbe j d unit pool s).bank.probe j = (s.probe j).defined d unit := Bank.probe_setProbe_same ..
    rw [hj]
    exact ⟨rfl, rfl, rfl, nofun, nofun⟩

theorem Bank.start_probe (set : ProbeSet) (b : Bank) (i : ProbeNo) :
    (b.start set).probe i = if set.has i then { b.probe i with state := .running } else b.probe i :=
  Bank.probe_mapProbes ..

theorem EngineLaw.start {s : State} (h : EngineLaw s) {set : ProbeSet}
    (hs : ∀ i, set.has i = true → (s.probe i).state = .armed ∨ (s.probe i).state = .held) :
    EngineLaw { s with bank := s.bank.start set } := by
  refine h.atRest (fun j => set.has j = true) rfl rfl rfl (fun j hj => ?_) (fun j hj => .inr (hs j hj)) fun j hj => ?_
  · exact (Bank.start_probe ..).trans (if_neg hj)
  · have hstart : ({ s with bank := s.bank.start set } : State).bank.probe j =
        { s.bank.probe j with state := .running } := (Bank.start_probe ..).trans (if_pos hj)
    rw [hstart]
    exact ⟨rfl, rfl, rfl, nofun, nofun⟩

theorem clearProbes_probe (set : ProbeSet) (s : State) (i : ProbeNo) :
    (clearProbes set s).probe i = if set.has i then (s.probe i).cleared else s.probe i :=
  Bank.probe_mapProbes ..

theorem EngineLaw.clearProbes {s : State} (h : EngineLaw s) {set : ProbeSet}
    (hs : ∀ i, set.has i = true → (s.probe i).state.atRest = true) : EngineLaw (clearProbes set s) := by
  refine h.atRest (fun j => set.has j = true) rfl rfl rfl (fun j hj => ?_) (fun j hj => (atRest_iff _).mp (hs j hj))
    fun j hj => ?_
  · exact (clearProbes_probe ..).trans (if_neg hj)
  · have hclear : (Machine.clearProbes set s).bank.probe j = (s.probe j).cleared :=
      (clearProbes_probe ..).trans (if_pos hj)
    rw [hclear]
    exact ⟨rfl, rfl, rfl, nofun, nofun⟩

theorem EngineLaw.command {p : Port} {s u : State} (h : EngineLaw s) (hu : CommandEffect p s u) : EngineLaw u := by
  cases hu
  case sessionClosed => exact h.condition rfl rfl (sameCondition_sessionClose p s)
  case trackingCleared => exact h.cleared
  case claimed set _ => exact h.condition rfl rfl (sameCondition_own set (some p) s.bank)
  case unclaimed set _ => exact h.condition rfl rfl (sameCondition_own set none s.bank)
  case defined i d _ hr => exact h.define hr d none _
  case definedWithUnit i d _ k _ hr _ _ => exact h.define hr d (some k) _
  case started hs => exact h.start hs
  case stopped mode set _ hs =>
    cases mode with
    | zero => exact h.stopNow set _ _ hs
    | succ n => exact h.stopDraining n set _ _ hs
  case probesCleared hs => exact h.clearProbes hs
  case harvested k set zeroed _ =>
    exact h.condition rfl rfl (sameCondition_zeroProbes zeroed { s with harv := _ })
  all_goals exact h.congr rfl rfl rfl

theorem arrive_bank (data : BitVec 64) (s : State) : (arrive data s).bank = s.bank := by
  unfold arrive
  split
  · split
    · split <;> rfl
    · rfl
  · rfl

theorem cutDue_draining {x : Probe} {now : Tick} (h : x.cutDue now = true) : x.state = .draining := by
  unfold Probe.cutDue at h
  split at h
  · rw [Bool.and_eq_true, beq_iff_eq] at h
    exact h.1
  · cases h

/-- After the visit of index 255 every entry has lost the current set. -/
theorem EngineLaw.sweepEnd {s : State} (h : EngineLaw s) (hlast : s.bank.purge.position = some 255) :
    EngineLaw (finishSweep (visitEntry 255 s)) := by
  obtain ⟨hlaw, hpurge, hvisited⟩ := visitEntry_laws h hlast
  refine hlaw.finish fun e he => ?_
  rw [hpurge]
  exact hvisited e he (Nat.le_of_lt_succ e.index.isLt)

theorem EngineLaw.own {i : Instr} {s u : State} (h : EngineLaw s) (hu : OwnEffect s i u) : EngineLaw u := by
  cases hu
  case held => exact engineLaw_reset.congr rfl rfl rfl
  case poweredOn => exact engineLaw_reset.congr rfl rfl rfl
  case ticked => exact h.tick _ _
  case arrived data _ =>
    exact h.congr (congrArg _ (arrive_trk data s)) (congrArg _ (arrive_trk data s)) (arrive_bank data s)
  case taken x _ _ _ _ => exact h.popRecord.handleRecord x
  case expired e _ _ ht _ => exact h.expire (by rw [ht]; exact List.mem_cons_self)
  case cut i _ hc => exact h.cut i (cutDue_draining hc)
  case swept k _ hk hne => exact h.advance hk hne
  case sweepEnded hk => exact h.sweepEnd hk
  case portReset p l _ _ =>
    exact h.condition (congrArg _ (resetPort_trk p l s)) (congrArg _ (resetPort_trk p l s)) (sameCondition_resetPort p l s)
  all_goals exact h.congr rfl rfl rfl

/-- Settles O56: the shared operations keep the laws, so every effect of a command and of the other rows does. -/
theorem engineLawKept : Obligations.EngineLawKept := by
  intro s t h hs
  exact step_keeps (fun _ _ h => h.congr rfl rfl rfl) (fun _ _ _ _ _ h => h.congr rfl rfl rfl)
    (fun _ _ _ h hu => h.command hu) (fun _ _ _ h hu => h.own hu) h hs

/-! ### The order of the deadline list -/

/-- Within a window of 2^46 ticks, deadlines are compared by their distances from its start (R48). -/
theorem notLater_iff_of_window {base a b : Tick} (ha : elapsed base a < 2 ^ 46) (hb : elapsed base b < 2 ^ 46) :
    notLater a b = true ↔ elapsed base a ≤ elapsed base b := by
  rw [notLater, decide_eq_true_eq]
  simp only [elapsed, BitVec.toNat_sub] at ha hb ⊢
  omega

/-- The deadlines of a list are in order. -/
def InOrder (table : List Entry) : Prop := table.Pairwise (fun a b => notLater a.deadline b.deadline = true)

/-- The deadlines of a list lie within 2^46 ticks from a time. -/
def InWindow (base : Tick) (table : List Entry) : Prop := ∀ x ∈ table, elapsed base x.deadline < 2 ^ 46

theorem inOrder_iff_deadlines (table : List Entry) :
    InOrder table ↔ (deadlines table).Pairwise (fun a b => notLater a b = true) := by
  rw [InOrder, deadlines, List.pairwise_map]

theorem inWindow_iff_deadlines (base : Tick) (table : List Entry) :
    InWindow base table ↔ ∀ d ∈ deadlines table, elapsed base d < 2 ^ 46 := by
  simp [InWindow, deadlines]

theorem insertEntry_inOrder {base : Tick} {e : Entry} {table : List Entry} (hw : InWindow base (e :: table))
    (ho : InOrder table) :
    InOrder (insertEntry e table) ∧ ∃ front back, table = front ++ back ∧ insertEntry e table = front ++ e :: back ∧
      (∀ x ∈ front, notLater x.deadline e.deadline = true) ∧ ∀ x ∈ back, notLater x.deadline e.deadline = false := by
  obtain ⟨front, back, rfl, hinsert, hfront, hhead⟩ := insertEntry_split e table
  obtain ⟨hof, hob, hacross⟩ := List.pairwise_append.mp ho
  have he := hw e List.mem_cons_self
  have hwb : InWindow base back := fun x hx => hw x (List.mem_cons_of_mem _ (List.mem_append_right _ hx))
  -- the first entry behind is later than `e`, and all the others are not before that one
  have hlater : ∀ x ∈ back, elapsed base e.deadline < elapsed base x.deadline := by
    cases back with
    | nil => exact fun x hx => absurd hx List.not_mem_nil
    | cons y ys =>
      have hy : elapsed base e.deadline < elapsed base y.deadline := by
        have hnot := hhead y rfl
        rw [← Bool.not_eq_true, notLater_iff_of_window (hwb y List.mem_cons_self) he] at hnot
        exact Nat.lt_of_not_le hnot
      intro x hx
      rcases List.mem_cons.mp hx with rfl | hx'
      · exact hy
      · have hyx := (List.pairwise_cons.mp hob).1 x hx'
        rw [notLater_iff_of_window (hwb y List.mem_cons_self) (hwb x hx)] at hyx
        exact hy.trans_le hyx
  refine ⟨?_, front, back, rfl, hinsert, hfront, fun x hx => ?_⟩
  · rw [InOrder, hinsert]
    refine List.pairwise_append.mpr ⟨hof, List.pairwise_cons.mpr ⟨fun x hx => ?_, hob⟩, fun x hx y hy => ?_⟩
    · exact (notLater_iff_of_window he (hwb x hx)).mpr (hlater x hx).le
    · rcases List.mem_cons.mp hy with rfl | hy'
      · exact hfront x hx
      · exact hacross x hx y hy'
  · rw [← Bool.not_eq_true, notLater_iff_of_window (hwb x hx) he]
    exact Nat.not_le.mpr (hlater x hx)

/-- A change of the list by which entries leave it, and one may be inserted, keeps the order. -/
theorem ListStep.inOrder {base : Tick} {old new : List Entry} (h : ListStep old new) (ho : InOrder old)
    (hw : InWindow base new) : InOrder new := by
  obtain ⟨kept, hsub, hnew⟩ := h
  have hkept : InOrder kept := (inOrder_iff_deadlines kept).mpr (((inOrder_iff_deadlines old).mp ho).sublist hsub)
  rw [inOrder_iff_deadlines]
  rw [inWindow_iff_deadlines] at hw
  rcases hnew with hsame | ⟨e, hinsert⟩
  · rw [hsame]
    exact (inOrder_iff_deadlines kept).mp hkept
  · rw [hinsert] at hw ⊢
    rw [← inWindow_iff_deadlines] at hw
    have hwindow : InWindow base (e :: kept) := fun x hx => hw x (mem_insertEntry.mpr (List.mem_cons.mp hx))
    exact (inOrder_iff_deadlines _).mp (insertEntry_inOrder hwindow hkept).1

/-- Settles O19: within the window the comparison of deadlines is that of their distances from its start. -/
theorem deadlineOrderKept : Obligations.DeadlineOrderKept := by
  refine ⟨fun base e table hw ho => insertEntry_inOrder hw ho, fun base s t h ho hs hw => ?_⟩
  exact (listStep_step h.table.indices hs).inOrder ho hw

/-! ### Units and probes -/

theorem PoolLaw.congr {s t : State} (h : PoolLaw s)
    (hunits : ∀ k : Fin 8, t.pool[k].map HistUnit.probe = s.pool[k].map HistUnit.probe)
    (hprobes : ∀ i, (t.probe i).unit = (s.probe i).unit ∧ (t.probe i).definition = (s.probe i).definition ∧
      ((t.probe i).state = .unbound → (s.probe i).state = .unbound)) : PoolLaw t where
  unitToProbe := fun k u hu => by
    have hk := hunits k
    rw [hu, Option.map_some, eq_comm, Option.map_eq_some_iff] at hk
    obtain ⟨v, hv, hvu⟩ := hk
    rw [(hprobes _).1, ← hvu]
    exact h.unitToProbe k v hv
  probeToUnit := fun i k hk => by
    rw [(hprobes i).1] at hk
    obtain ⟨u, hu, hui⟩ := h.probeToUnit i k hk
    have hmap := hunits k
    rw [hu, Option.map_some, Option.map_eq_some_iff] at hmap
    obtain ⟨v, hv, hvu⟩ := hmap
    exact ⟨v, hv, hvu.trans hui⟩
  latency := fun i k hk => by
    obtain ⟨hunit, hdef, hstate⟩ := hprobes i
    rw [hunit] at hk
    obtain ⟨hlat, hbound⟩ := h.latency i k hk
    exact ⟨by unfold Probe.isLatency; rw [hdef]; exact hlat, fun hu => hbound (hstate hu)⟩

theorem PoolLaw.work {s t : State} (h : PoolLaw s) (hw : EngineWork s t) : PoolLaw t :=
  h.congr hw.units fun i =>
    let ⟨_, hdef, hunit, _, hstate⟩ := hw.probes i
    ⟨hunit, hdef, hstate.mp⟩

/-- A change of each probe that leaves its unit and definition and makes no other probe UNBOUND. -/
theorem PoolLaw.map {s t : State} (h : PoolLaw s) (hpool : t.pool = s.pool) {f : ProbeNo → Probe → Probe}
    (ht : ∀ i, t.probe i = f i (s.probe i))
    (hf : ∀ i x, x = s.probe i →
      (f i x).unit = x.unit ∧ (f i x).definition = x.definition ∧ ((f i x).state = .unbound → x.state = .unbound)) :
    PoolLaw t :=
  h.congr (fun k => by rw [hpool]) fun i => by rw [ht i]; exact hf i _ rfl

theorem poolLaw_reset : PoolLaw State.reset where
  unitToProbe := fun k u hu => by rw [reset_pool] at hu; cases hu
  probeToUnit := fun i k hk => by rw [reset_probe] at hk; cases hk
  latency := fun i k hk => by rw [reset_probe] at hk; cases hk

/-- The pool with a probe's own unit returned (R85, R112). -/
theorem returnUnit_get (x : Probe) (pool : Vector (Option HistUnit) 8) (k : Fin 8) :
    (returnUnit x pool)[k] = if x.unit = some k then none else pool[k] := by
  unfold returnUnit
  split
  · rename_i j hj
    rw [vector_set_get, hj]
    simp only [Option.some.injEq]
  · rename_i hnone
    rw [hnone]
    simp

theorem defineProbe_probe (i j : ProbeNo) (d : Definition) (unit : Option (Fin 8))
    (pool : Vector (Option HistUnit) 8) (s : State) :
    (defineProbe i d unit pool s).probe j = if i = j then (s.probe i).defined d unit else s.probe j :=
  Bank.probe_setProbe ..

/-- Once a probe's own unit is returned, the units left are those of the other probes. -/
theorem PoolLaw.returned {s : State} (h : PoolLaw s) (i : ProbeNo) :
    (∀ (k : Fin 8) u, (returnUnit (s.probe i) s.pool)[k] = some u → u.probe ≠ i ∧ (s.probe u.probe).unit = some k) ∧
      ∀ j k, j ≠ i → (s.probe j).unit = some k → ∃ u, (returnUnit (s.probe i) s.pool)[k] = some u ∧ u.probe = j := by
  refine ⟨fun k u hu => ?_, fun j k hj hk => ?_⟩
  · rw [returnUnit_get] at hu
    split at hu
    · cases hu
    · rename_i hown
      have hunit := h.unitToProbe k u hu
      exact ⟨fun hi => hown (hi ▸ hunit), hunit⟩
  · obtain ⟨u, hu, huj⟩ := h.probeToUnit j k hk
    refine ⟨u, ?_, huj⟩
    rw [returnUnit_get, if_neg, hu]
    intro hown
    obtain ⟨v, hv, hvi⟩ := h.probeToUnit i k hown
    rw [hu, Option.some.injEq] at hv
    exact hj (huj.symm.trans ((congrArg HistUnit.probe hv).trans hvi))

theorem PoolLaw.define {s : State} (h : PoolLaw s) (i : ProbeNo) (d : Definition) :
    PoolLaw (defineProbe i d none (returnUnit (s.probe i) s.pool) s) where
  unitToProbe := fun k u hu => by
    obtain ⟨hne, hunit⟩ := (h.returned i).1 k u hu
    rw [defineProbe_probe, if_neg hne.symm]
    exact hunit
  probeToUnit := fun j k hk => by
    rw [defineProbe_probe] at hk
    split at hk
    · cases hk
    · rename_i hne
      exact (h.returned i).2 j k (Ne.symm hne) hk
  latency := fun j k hk => by
    rw [defineProbe_probe] at hk ⊢
    split at hk
    · cases hk
    · rename_i hne
      rw [if_neg hne]
      exact h.latency j k hk

theorem PoolLaw.defineWithUnit {s : State} (h : PoolLaw s) (i : ProbeNo) (d : Definition) (request : HistMode × BitVec 32)
    {n : Fin 8} (hlat : d.measure.isLatency = true) (hfree : (returnUnit (s.probe i) s.pool)[n] = none) :
    PoolLaw (defineProbe i d (some n) ((returnUnit (s.probe i) s.pool).set n (some (attachedUnit i request))) s) where
  unitToProbe := fun k u hu => by
    change ((returnUnit (s.probe i) s.pool).set n _)[k] = some u at hu
    rw [vector_set_get] at hu
    split at hu
    · rename_i hk
      cases hu
      change ((defineProbe i d _ _ s).probe i).unit = _
      rw [defineProbe_probe, if_pos rfl]
      exact congrArg some hk
    · obtain ⟨hne, hunit⟩ := (h.returned i).1 k u hu
      rw [defineProbe_probe, if_neg hne.symm]
      exact hunit
  probeToUnit := fun j k hk => by
    rw [defineProbe_probe] at hk
    change ∃ u, ((returnUnit (s.probe i) s.pool).set n _)[k] = some u ∧ _
    rw [vector_set_get]
    split at hk
    · rename_i hij
      cases hk
      exact ⟨_, if_pos rfl, hij⟩
    · rename_i hne
      obtain ⟨u, hu, huj⟩ := (h.returned i).2 j k (Ne.symm hne) hk
      refine ⟨u, (if_neg ?_).trans hu, huj⟩
      rintro rfl
      rw [hfree] at hu
      cases hu
  latency := fun j k hk => by
    rw [defineProbe_probe] at hk ⊢
    split at hk
    · rename_i hij
      rw [if_pos hij]
      exact ⟨⟨d, rfl, hlat⟩, nofun⟩
    · rename_i hne
      rw [if_neg hne]
      exact h.latency j k hk

/-- A probe of the set holds the unit. -/
theorem any_members_unit (set : ProbeSet) (b : Bank) (k : Fin 8) :
    (members set).any (fun i => (b.probe i).unit == some k) = true ↔
      ∃ i, set.has i = true ∧ (b.probe i).unit = some k := by
  simp [List.any_eq_true, mem_members]

/-- The pool with the units of a set of probes returned (R89, R112). -/
theorem returnUnits_get (set : ProbeSet) (b : Bank) (pool : Vector (Option HistUnit) 8) (k : Fin 8) :
    (returnUnits set b pool)[k] =
      if (members set).any (fun i => (b.probe i).unit == some k) then none else pool[k] := mapFin_get ..

theorem PoolLaw.clearProbes {s : State} (h : PoolLaw s) (set : ProbeSet) : PoolLaw (clearProbes set s) where
  unitToProbe := fun k u hu => by
    change (returnUnits set s.bank s.pool)[k] = some u at hu
    rw [returnUnits_get] at hu
    split at hu
    · cases hu
    · rename_i hnone
      have hunit := h.unitToProbe k u hu
      rw [clearProbes_probe, if_neg fun hset => hnone ((any_members_unit ..).mpr ⟨_, hset, hunit⟩)]
      exact hunit
  probeToUnit := fun i k hk => by
    rw [clearProbes_probe] at hk
    split at hk
    · cases hk
    · rename_i hout
      obtain ⟨u, hu, hui⟩ := h.probeToUnit i k hk
      refine ⟨u, ?_, hui⟩
      change (returnUnits set s.bank s.pool)[k] = some u
      rw [returnUnits_get, if_neg, hu]
      intro hany
      obtain ⟨j, hj, hjk⟩ := (any_members_unit ..).mp hany
      obtain ⟨v, hv, hvj⟩ := h.probeToUnit j k hjk
      rw [hu, Option.some.injEq] at hv
      have hij : i = j := hui.symm.trans ((congrArg HistUnit.probe hv).trans hvj)
      exact hout (hij ▸ hj)
  latency := fun i k hk => by
    rw [clearProbes_probe] at hk ⊢
    split at hk
    · cases hk
    · rename_i hout
      rw [if_neg hout]
      exact h.latency i k hk

theorem PoolLaw.sessionClose {s : State} (h : PoolLaw s) (p : Port) : PoolLaw (sessionClose p s) :=
  h.map (f := fun _ x => x.released p) rfl (fun _ => Bank.probe_mapProbes ..) fun _ x _ => by
    unfold Probe.released
    split <;> exact ⟨rfl, rfl, id⟩

theorem PoolLaw.own {s : State} (h : PoolLaw s) (set : ProbeSet) (owner : Option Port) :
    PoolLaw { s with bank := s.bank.own set owner } :=
  h.map (f := fun i x => if set.has i then { x with owner := owner } else x) rfl (fun _ => Bank.probe_mapProbes ..)
    fun _ x _ => by split <;> exact ⟨rfl, rfl, id⟩

theorem PoolLaw.start {s : State} (h : PoolLaw s) (set : ProbeSet) : PoolLaw { s with bank := s.bank.start set } :=
  h.map (f := fun i x => if set.has i then { x with state := .running } else x) rfl (fun _ => Bank.probe_mapProbes ..)
    fun _ x _ => by
      split
      · exact ⟨rfl, rfl, nofun⟩
      · exact ⟨rfl, rfl, id⟩

theorem PoolLaw.stop {s : State} (h : PoolLaw s) (mode : Nat) (set : ProbeSet) :
    PoolLaw { s with bank := s.bank.stop mode set s.timebase s.obs.queue.length } := by
  cases mode with
  | zero =>
    refine h.map (f := fun i x => if set.has i then x.stopNow else x) rfl
      (fun i => Bank.stop_now_probe s.bank set s.timebase s.obs.queue.length i) fun i x _ => ?_
    split
    · unfold Probe.stopNow
      split <;> exact ⟨rfl, rfl, nofun⟩
    · exact ⟨rfl, rfl, id⟩
  | succ n =>
    refine h.map (f := fun i x => if set.has i then x.stopDraining s.timebase else x) rfl
      (fun i => Bank.stop_drain_probe s.bank set s.timebase s.obs.queue.length n i) fun i x _ => ?_
    split
    · unfold Probe.stopDraining
      split <;> exact ⟨rfl, rfl, nofun⟩
    · exact ⟨rfl, rfl, id⟩

theorem flushed_keeps (x : Probe) :
    x.flushed.unit = x.unit ∧ x.flushed.definition = x.definition ∧ (x.flushed.state = .unbound → x.state = .unbound) := by
  unfold Probe.flushed
  split
  · exact ⟨rfl, rfl, nofun⟩
  · exact ⟨rfl, rfl, id⟩

theorem PoolLaw.command {p : Port} {s u : State} (h : PoolLaw s) (hu : CommandEffect p s u) : PoolLaw u := by
  cases hu
  case sessionClosed => exact h.sessionClose p
  case trackingCleared => exact h.map rfl (trackingClear_probe s) fun _ x _ => flushed_keeps x
  case claimed set _ => exact h.own set (some p)
  case unclaimed set _ => exact h.own set none
  case defined i d _ _ => exact h.define i d
  case definedWithUnit i d request k _ _ hl hk => exact h.defineWithUnit i d request hl hk
  case started set _ _ => exact h.start set
  case stopped mode set _ _ => exact h.stop mode set
  case probesCleared set _ _ => exact h.clearProbes set
  case harvested k set zeroed _ => exact h.work (engineWork_makeHarvest k p .command set zeroed s)
  all_goals exact ⟨h.unitToProbe, h.probeToUnit, h.latency⟩

theorem arrive_pool (data : BitVec 64) (s : State) : (arrive data s).pool = s.pool := by
  unfold arrive
  split
  · split
    · split <;> rfl
    · rfl
  · rfl

theorem PoolLaw.cut {s : State} (h : PoolLaw s) (i : ProbeNo) : PoolLaw (cutDrain i s) := by
  refine h.map (f := fun j x => if i = j then (s.probe i).cut else x) rfl (fun j => Bank.probe_setProbe ..)
    fun j x hx => ?_
  subst hx
  split
  · rename_i hij
    subst hij
    exact ⟨rfl, rfl, nofun⟩
  · exact ⟨rfl, rfl, id⟩

theorem PoolLaw.finish {s : State} (h : PoolLaw s) : PoolLaw (finishSweep s) :=
  h.map (f := fun i x => if s.bank.purge.current.has i then x.rest else x) rfl (finishSweep_probe s) fun _ x _ => by
    split
    · exact ⟨rfl, rfl, nofun⟩
    · exact ⟨rfl, rfl, id⟩

theorem PoolLaw.resetPort {s : State} (h : PoolLaw s) (p : Port) (l : LowPeriod) : PoolLaw (resetPort p l s) := by
  have hclose : PoolLaw (closeIfOpen p s) := by
    unfold closeIfOpen
    split
    · exact h.sessionClose p
    · exact h
  exact ⟨hclose.unitToProbe, hclose.probeToUnit, hclose.latency⟩

theorem PoolLaw.tick {s : State} (h : PoolLaw s) (now : Tick) (queued : Nat) (time : Tick) (k : Tracking) :
    PoolLaw { s with timebase := time, trk := k, bank := s.bank.mapProbes (fun _ x => x.tick now queued) } :=
  h.map (f := fun _ x => x.tick now queued) rfl (fun _ => Bank.probe_mapProbes ..) fun _ x _ => by
    unfold Probe.tick
    split <;> exact ⟨rfl, rfl, id⟩

theorem PoolLaw.popRecord {s : State} (h : PoolLaw s) : PoolLaw (popRecord s) :=
  h.map (f := fun _ x => x.countDown) rfl (popRecord_probe s) fun _ _ _ => ⟨rfl, rfl, id⟩

theorem PoolLaw.rowEffect {i : Instr} {s u : State} (h : PoolLaw s) (hu : OwnEffect s i u) : PoolLaw u := by
  cases hu
  case held => exact ⟨poolLaw_reset.unitToProbe, poolLaw_reset.probeToUnit, poolLaw_reset.latency⟩
  case poweredOn => exact ⟨poolLaw_reset.unitToProbe, poolLaw_reset.probeToUnit, poolLaw_reset.latency⟩
  case ticked => exact h.tick _ _ _ _
  case arrived data _ =>
    exact h.map (f := fun _ x => x) (arrive_pool data s) (fun i => congrArg (·.probe i) (arrive_bank data s))
      fun _ _ _ => ⟨rfl, rfl, id⟩
  case taken x _ _ _ _ => exact h.popRecord.work (engineWork_handleRecord x _)
  case expired e _ _ _ _ => exact h.work (engineWork_expireEntry e s)
  case cut i _ _ => exact h.cut i
  case swept k _ _ _ =>
    have hvisit := h.work (engineWork_visitEntry k s)
    exact ⟨hvisit.unitToProbe, hvisit.probeToUnit, hvisit.latency⟩
  case sweepEnded => exact (h.work (engineWork_visitEntry 255 s)).finish
  case portReset p l _ _ => exact h.resetPort p l
  all_goals exact ⟨h.unitToProbe, h.probeToUnit, h.latency⟩

/-- Settles O59: the engine's work leaves units and definitions, and the probe commands attach and return a unit on both
sides. -/
theorem poolLawKept : Obligations.PoolLawKept := by
  intro s t h hs
  exact step_keeps (fun _ _ h => ⟨h.unitToProbe, h.probeToUnit, h.latency⟩)
    (fun _ _ _ _ _ h => ⟨h.unitToProbe, h.probeToUnit, h.latency⟩) (fun _ _ _ h hu => h.command hu)
    (fun _ _ _ h hu => h.rowEffect hu) h hs

end Sys2Proof.Machine
end

section
/-! Every step keeps the law of the sessions: the alert queue and the dispatcher of each port by themselves, and a CLOSED
port without possessions, which no alert reaches (R145, R147, R160, R164). -/

namespace Sys2Proof.Machine

/-! ### The alert queue and the dispatcher of one port -/

/-- The laws of a port that speak of nothing but the port. -/
def PortState.Lawful (x : PortState) : Prop := AlertLaw x ∧ DispatchLaw x

theorem AlertLaw.congr {x y : PortState} (h : AlertLaw x) (ha : y.alerts = x.alerts) (hn : y.alertNumber = x.alertNumber)
    (hh : y.head = x.head) (hs : y.sending = x.sending) : AlertLaw y where
  numbers := by rw [ha, hn]; exact h.numbers
  noHead := by rw [ha, hh]; exact h.noHead
  noFrame := by rw [ha, hs]; exact h.noFrame

/-- The law of an empty alert queue. -/
theorem alertLaw_of_empty {x : PortState} (ha : x.alerts = []) (hh : x.head = HeadAlert.none)
    (hs : ∀ f, x.sending = some f → f.what ≠ .alert true) : AlertLaw x where
  numbers := fun k al hk => by rw [ha, List.getElem?_nil] at hk; cases hk
  noHead := fun _ => hh
  noFrame := fun _ => hs

/-- The law of a queue with an alert in it speaks of the numbers alone. -/
theorem alertLaw_of_nonempty {x : PortState} (ha : x.alerts ≠ [])
    (hn : ∀ k al, x.alerts[k]? = some al → al.number = x.alertNumber - BitVec.ofNat 16 (x.alerts.length - 1 - k)) :
    AlertLaw x where
  numbers := hn
  noHead := fun h => absurd h ha
  noFrame := fun h => absurd h ha

theorem number_before_next (a : BitVec 16) {len k : Nat} (hk : k < len) :
    a - BitVec.ofNat 16 (len - 1 - k) = a + 1 - BitVec.ofNat 16 (len + 1 - 1 - k) := by
  obtain ⟨n, rfl⟩ := Nat.exists_eq_add_of_lt hk
  rw [show k + n + 1 - 1 - k = n by omega, show k + n + 1 + 1 - 1 - k = n + 1 by omega, BitVec.ofNat_add]
  bv_omega

/-- An alert enters with the next number, so the numbers still run up to the port's. -/
theorem AlertLaw.offer {x : PortState} (h : AlertLaw x) (c : Condition) (t : Tick) : AlertLaw (x.offer c t) := by
  unfold PortState.offer
  split
  · refine alertLaw_of_nonempty (by simp) fun k al hk => ?_
    rw [List.length_append, List.length_singleton]
    rcases Nat.lt_or_ge k x.alerts.length with hlt | hge
    · rw [List.getElem?_append_left hlt] at hk
      exact (h.numbers k al hk).trans (number_before_next x.alertNumber hlt)
    · rw [List.getElem?_append_right hge, List.getElem?_singleton] at hk
      split at hk
      · cases hk
        rw [show x.alerts.length + 1 - 1 - k = 0 by omega]
        simp
      · cases hk
  · exact h.congr rfl rfl rfl rfl

theorem dispatchLaw_offer {x : PortState} (h : DispatchLaw x) (c : Condition) (t : Tick) : DispatchLaw (x.offer c t) :=
  have he := offer_eq c t x
  h.congr (by rw [he]) (by rw [he]) (by rw [he])

theorem offerKeeps_lawful : OfferKeeps (fun _ => PortState.Lawful) :=
  fun _ _ c t h => ⟨h.1.offer c t, dispatchLaw_offer h.2 c t⟩

theorem PortState.Lawful.line {x y : PortState} (h : x.Lawful) (hl : LineEffect x y) : y.Lawful :=
  ⟨h.1.congr (by rw [hl.rest]) (by rw [hl.rest]) (by rw [hl.rest]) (by rw [hl.rest]), hl.dispatchLaw h.2⟩

theorem PortState.Lawful.beginFrame {x : PortState} (h : x.Lawful) : x.beginFrame.Lawful := by
  obtain ⟨ha, hd⟩ := h
  unfold PortState.beginFrame
  split
  · exact ⟨⟨ha.numbers, ha.noHead, fun _ f hf => by cases hf; nofun⟩, hd.congr rfl rfl rfl⟩
  · split
    · exact ⟨⟨ha.numbers, ha.noHead, fun _ f hf => by cases hf; nofun⟩, hd.congr rfl rfl rfl⟩
    · unfold PortState.beginAlert
      split
      · exact ⟨ha, hd⟩
      · rename_i al rest hq
        split
        · exact ⟨alertLaw_of_nonempty (by simp [hq]) ha.numbers, hd.congr rfl rfl rfl⟩
        · exact ⟨ha, hd⟩

/-- A frame that carries the head alert ends only while there is a head. -/
theorem PortState.Lawful.endFrame {x : PortState} (h : x.Lawful) {f : Transmission} (hf : x.sending = some f)
    (now : Tick) : (x.endFrame now f.what).Lawful := by
  obtain ⟨ha, hd⟩ := h
  have hsilent : AlertLaw { x with sending := none } := ⟨ha.numbers, ha.noHead, fun _ _ h => by cases h⟩
  unfold PortState.endFrame
  split
  · exact ⟨hsilent, hd.congr rfl rfl rfl⟩
  · refine ⟨?_, dispatchLaw_takeNext fun _ => rfl⟩
    rw [takeNext_eq]
    exact ⟨ha.numbers, ha.noHead, fun _ _ h => by cases h⟩
  · rename_i hwhat
    have hne : x.alerts ≠ [] := fun hempty => ha.noFrame hempty f hf hwhat
    exact ⟨alertLaw_of_nonempty hne ha.numbers, hd.congr rfl rfl rfl⟩
  · exact ⟨hsilent, hd.congr rfl rfl rfl⟩

/-- The resend timer runs only while there is a head. -/
theorem PortState.Lawful.resend {x : PortState} (h : x.Lawful) {now : Tick} (hdue : x.resendDue now = true)
    (head : HeadAlert) : ({ x with head := head } : PortState).Lawful := by
  have hne : x.alerts ≠ [] := by
    intro hempty
    rw [PortState.resendDue, h.1.noHead hempty] at hdue
    cases hdue
  exact ⟨alertLaw_of_nonempty hne h.1.numbers, h.2.congr rfl rfl rfl⟩

theorem completing_what (f : Transmission) : (completing f).what ≠ .alert true := by
  unfold completing
  dsimp only
  split
  · nofun
  · assumption

/-- No frame being sent carries the head once the record it may carry left the queue. -/
theorem orphaned_sending {sending : Option Transmission} {f : Transmission}
    (h : sending.map Transmission.orphaned = some f) : f.what ≠ .alert true := by
  obtain ⟨g, -, rfl⟩ := Option.map_eq_some_iff.mp h
  rw [orphaned_eq]
  exact completing_what g

theorem PortState.Lawful.closed {x : PortState} (h : x.Lawful) : x.closed.Lawful :=
  ⟨alertLaw_of_empty rfl rfl fun _ hf => orphaned_sending hf, h.2.congr rfl rfl rfl⟩

theorem PortState.Lawful.dropAlert {x : PortState} (h : x.Lawful) : x.dropAlert.Lawful := by
  refine ⟨⟨fun k al hk => ?_, fun hempty => ?_, fun _ _ hf => orphaned_sending hf⟩, h.2.congr rfl rfl rfl⟩
  · change (x.alerts.drop 1)[k]? = some al at hk
    change al.number = x.alertNumber - BitVec.ofNat 16 ((x.alerts.drop 1).length - 1 - k)
    rw [List.getElem?_drop] at hk
    rw [h.1.numbers _ al hk, List.length_drop, show x.alerts.length - 1 - (1 + k) = x.alerts.length - 1 - 1 - k by omega]
  · change x.alerts.drop 1 = [] at hempty
    change headAfter (x.alerts.drop 1) = _
    rw [hempty]
    rfl

/-- An answered command leaves the reply buffer full and no command executing. -/
theorem PortState.Lawful.replied {x : PortState} (h : x.Lawful) (r : Reply) (last : Option Reply) :
    ({ x with executing := none, reply := some r, lastReply := last } : PortState).Lawful :=
  ⟨h.1.congr rfl rfl rfl rfl, fun he => (by cases he), fun _ => .inr rfl⟩

/-- A port reset of a port without alerts. -/
theorem PortState.Lawful.portReset {x : PortState} (h : x.Lawful) (hempty : x.alerts = []) (l : LowPeriod) :
    (x.portReset l).Lawful :=
  ⟨alertLaw_of_empty hempty (h.1.noHead hempty) (h.1.noFrame hempty), fun he => (by cases he), fun hc => absurd rfl hc⟩

/-! ### A closed port without possessions -/

/-- Every CLOSED port holds nothing (R164). -/
def ClosedHoldNothing (s : State) : Prop := ∀ p, (s.port p).isOpen = false → HoldsNothing p s

theorem HoldsNothing.aloof {p : Port} {s : State} (h : HoldsNothing p s) (hc : (s.port p).isOpen = false) : Aloof p s :=
  ⟨hc, h.probes, h.triggers⟩

/-- Work that does not reach the port, nor an owner, slot, trigger or claim. -/
theorem HoldsNothing.same {p : Port} {s t : State} (h : HoldsNothing p s)
    (howner : ∀ i, (t.probe i).owner = (s.probe i).owner) (hharv : t.harv = s.harv)
    (hholder : t.mgmt.holder = s.mgmt.holder) (hport : t.port p = s.port p) : HoldsNothing p t where
  probes := fun i => by rw [howner]; exact h.probes i
  slots := by rw [hharv]; exact h.slots
  triggers := by rw [hharv]; exact h.triggers
  claim := by rw [hholder]; exact h.claim
  alerts := by rw [hport]; exact h.alerts
  lost := by rw [hport]; exact h.lost
  mask := by rw [hport]; exact h.mask

theorem HoldsNothing.work {p : Port} {s t : State} (h : HoldsNothing p s) (hw : EngineWork s t) (hharv : t.harv = s.harv)
    (hport : t.port p = s.port p) : HoldsNothing p t :=
  h.same (fun i => (hw.probes i).1) hharv hw.holder hport

/-- No session opens or closes, and a CLOSED port that holds nothing still does. -/
theorem ClosedHoldNothing.keep {s t : State} (h : ClosedHoldNothing s)
    (hopen : OnPorts (fun p x => x.isOpen = (s.port p).isOpen) t.mgmt)
    (hkeep : ∀ p, (s.port p).isOpen = false → HoldsNothing p s → HoldsNothing p t) : ClosedHoldNothing t := by
  intro p hp
  have hclosed : (s.port p).isOpen = false := (hopen p).symm.trans hp
  exact hkeep p hclosed (h p hclosed)

/-- An offered alert opens and closes no session. -/
theorem offerKeeps_isOpen (s : State) : OfferKeeps (fun p x => x.isOpen = (s.port p).isOpen) :=
  fun _ x c t h => by rw [offer_eq c t x]; exact h

theorem onPorts_isOpen (s : State) : OnPorts (fun p x => x.isOpen = (s.port p).isOpen) s.mgmt := fun _ => rfl

theorem engineHandle_harv (r : Record) (stamp : Tick) (s : State) : (engineHandle r stamp s).harv = s.harv := by
  unfold engineHandle
  split
  · split
    · unfold handleRequest
      split
      · exact closeEntry_harv ..
      · unfold admitFresh
        dsimp only
        split
        · split <;> rfl
        · rfl
    · rfl
  · unfold handlePart
    split
    · split
      · exact sendNotices_harv ..
      · exact closeEntry_harv ..
    · rfl
  all_goals rfl

theorem HoldsNothing.engineHandle {p : Port} {s : State} (h : HoldsNothing p s) (hc : (s.port p).isOpen = false)
    (r : Record) (stamp : Tick) : HoldsNothing p (engineHandle r stamp s) :=
  h.work (engineWork_engineHandle r stamp s) (engineHandle_harv r stamp s) ((h.aloof hc).engineHandle r stamp)

theorem HoldsNothing.serveTrigger {p : Port} {s : State} (h : HoldsNothing p s) (hc : (s.port p).isOpen = false)
    (label : BitVec 16) (stamp : Tick) (n : Fin 4) : HoldsNothing p (serveTrigger label stamp s n) := by
  have hw := engineWork_serveTrigger label stamp s n
  have hport := (h.aloof hc).serveTrigger_port label stamp n
  obtain ⟨htriggers, hslots⟩ := serveTrigger_harv label stamp s n
  exact
    { probes := fun i => by rw [(hw.probes i).1]; exact h.probes i
      slots := fun k x hx => by
        rcases hslots k x hx with hold | ⟨j, y, hy, howner⟩
        · exact h.slots k x hold
        · rw [← howner]; exact h.triggers j y hy
      triggers := fun k x hx => by
        obtain ⟨y, hy, howner⟩ := htriggers k x hx
        rw [← howner]; exact h.triggers k y hy
      claim := by rw [hw.holder]; exact h.claim
      alerts := by rw [hport]; exact h.alerts
      lost := by rw [hport]; exact h.lost
      mask := by rw [hport]; exact h.mask }

/-- A MARK reaches no CLOSED port that holds nothing. -/
theorem HoldsNothing.fireMark {p : Port} {s : State} (h : HoldsNothing p s) (hc : (s.port p).isOpen = false)
    (r : Record) (stamp : Tick) : HoldsNothing p (fireMark r stamp s) := by
  unfold Machine.fireMark
  split
  · unfold serveTriggers
    generalize List.finRange 4 = l
    induction l generalizing s with
    | nil => exact h
    | cons n ns ih =>
      exact ih (h.serveTrigger hc _ _ n) (((h.aloof hc).serveTrigger _ _ n).closed)
  all_goals exact h

theorem HoldsNothing.handleRecord {p : Port} {s : State} (h : HoldsNothing p s) (hc : (s.port p).isOpen = false)
    (x : Stamped) : HoldsNothing p (handleRecord x (popRecord s)) := by
  have hpop : HoldsNothing p (popRecord s) := h.same (fun i => by rw [popRecord_probe]; rfl) rfl rfl rfl
  have hhandled := hpop.engineHandle hc x.record x.stamp
  have hstill : ((Machine.engineHandle x.record x.stamp (popRecord s)).port p).isOpen = false := by
    rw [(hpop.aloof hc).engineHandle]; exact hc
  have hoffered : HoldsNothing p (offerRecord x.record (Machine.engineHandle x.record x.stamp (popRecord s))) :=
    hhandled.work (engineWork_offerRecord _ _) rfl rfl
  exact hoffered.fireMark hstill x.record x.stamp

theorem HoldsNothing.expireEntry {p : Port} {s : State} (h : HoldsNothing p s) (e : Entry) :
    HoldsNothing p (expireEntry e s) :=
  h.work (engineWork_expireEntry e s) (sendNotices_harv ..) (port_sendNotices_ne _ _ _ h.probes)

theorem visitEntry_harv (k : Fin 256) (s : State) : (visitEntry k s).harv = s.harv := by
  unfold visitEntry
  split
  · exact sendNotices_harv ..
  · rfl

theorem HoldsNothing.visitEntry {p : Port} {s : State} (h : HoldsNothing p s) (k : Fin 256) :
    HoldsNothing p (visitEntry k s) := by
  refine h.work (engineWork_visitEntry k s) (visitEntry_harv k s) ?_
  unfold Machine.visitEntry
  split
  · exact port_sendNotices_ne _ _ _ h.probes
  · rfl

theorem HoldsNothing.finishSweep {p : Port} {s : State} (h : HoldsNothing p s) : HoldsNothing p (finishSweep s) := by
  refine h.same (fun i => ?_) rfl ?_ (port_raiseDrained_ne _ _ _ _ h.probes _)
  · rw [State.probe_eq_bank, finishSweep_probe]
    split <;> rfl
  · exact (sameButAlerts_raiseDrained ..).holder

theorem HoldsNothing.trackingClear {p : Port} {s : State} (h : HoldsNothing p s) : HoldsNothing p (trackingClear s) := by
  refine h.same (fun i => ?_) rfl ?_ (port_raiseDrained_ne _ _ _ _ h.probes _)
  · rw [State.probe_eq_bank, trackingClear_probe, Probe.flushed]
    split <;> rfl
  · exact (sameButAlerts_raiseDrained ..).holder

theorem HoldsNothing.arrive {p : Port} {s : State} (h : HoldsNothing p s) (hc : (s.port p).isOpen = false)
    (data : BitVec 64) : HoldsNothing p (arrive data s) := by
  unfold Machine.arrive
  split
  · split
    · split
      · exact h.same (fun _ => rfl) rfl rfl rfl
      · unfold dropRecord
        dsimp only
        split
        · exact h.same (fun _ => rfl) rfl (sameButAlerts_raiseDeviceWide ..).holder (port_raiseDeviceWide_closed hc _ _)
        · exact h.same (fun _ => rfl) rfl rfl rfl
    · exact h.same (fun _ => rfl) rfl rfl rfl
  · exact h

/-! ### A session close -/

theorem sessionClose_port_other (p : Port) (s : State) : (sessionClose p s).port p.other = s.port p.other := by
  cases p <;> rfl

theorem sessionClose_probe (p : Port) (s : State) (i : ProbeNo) :
    (sessionClose p s).probe i =
      { s.probe i with owner := if (s.probe i).owner = some p then none else (s.probe i).owner } := by
  have hi : (sessionClose p s).probe i = (s.probe i).released p := Bank.probe_mapProbes ..
  rw [hi, Probe.released, Probe.ownedBy]
  simp only [beq_iff_eq]
  split <;> rfl

theorem sessionClose_slots (p : Port) (s : State) (k : Fin 4) :
    (sessionClose p s).harv.slots[k] = s.harv.slots[k].filter (fun x => x.owner != p) := mapFin_get ..

theorem sessionClose_triggers (p : Port) (s : State) (k : Fin 4) :
    (sessionClose p s).harv.triggers[k] = s.harv.triggers[k].filter (fun x => x.owner != p) := mapFin_get ..

theorem sessionClose_holder (p : Port) (s : State) :
    (sessionClose p s).mgmt.holder = if s.mgmt.holder = some p then none else s.mgmt.holder := by
  simp only [sessionClose, beq_iff_eq]

/-- A session close leaves its port with nothing (R166). -/
theorem holdsNothing_sessionClose (p : Port) (s : State) : HoldsNothing p (sessionClose p s) where
  probes := fun i => by
    rw [sessionClose_probe]
    dsimp only
    split
    · nofun
    · assumption
  slots := fun k x hx => by
    rw [sessionClose_slots, Option.filter_eq_some_iff] at hx
    simpa using hx.2
  triggers := fun k x hx => by
    rw [sessionClose_triggers, Option.filter_eq_some_iff] at hx
    simpa using hx.2
  claim := by
    rw [sessionClose_holder]
    split
    · nofun
    · assumption
  alerts := by rw [sessionClose_port]
  lost := by rw [sessionClose_port]
  mask := by rw [sessionClose_port]

/-- A session close gives the other port nothing. -/
theorem HoldsNothing.sessionClose {p q : Port} {s : State} (h : HoldsNothing q s) (hq : q = p.other) :
    HoldsNothing q (sessionClose p s) := by
  have hport : (Machine.sessionClose p s).port q = s.port q := by rw [hq]; exact sessionClose_port_other p s
  exact
    { probes := fun i => by
        rw [sessionClose_probe]
        dsimp only
        split
        · nofun
        · exact h.probes i
      slots := fun k x hx => by
        rw [sessionClose_slots, Option.filter_eq_some_iff] at hx
        exact h.slots k x hx.1
      triggers := fun k x hx => by
        rw [sessionClose_triggers, Option.filter_eq_some_iff] at hx
        exact h.triggers k x hx.1
      claim := by
        rw [sessionClose_holder]
        split
        · nofun
        · exact h.claim
      alerts := by rw [hport]; exact h.alerts
      lost := by rw [hport]; exact h.lost
      mask := by rw [hport]; exact h.mask }

theorem ClosedHoldNothing.sessionClose {s : State} (h : ClosedHoldNothing s) (p : Port) :
    ClosedHoldNothing (sessionClose p s) := by
  intro q hq
  rcases Port.eq_or_other p q with rfl | hother
  · exact holdsNothing_sessionClose q s
  · refine (h q ?_).sessionClose hother
    rw [← hq, hother, sessionClose_port_other]

/-- After the close that a port reset takes, the port is CLOSED and holds nothing. -/
theorem ClosedHoldNothing.closeIfOpen {s : State} (h : ClosedHoldNothing s) (p : Port) :
    ClosedHoldNothing (closeIfOpen p s) ∧ ((closeIfOpen p s).port p).isOpen = false := by
  unfold Machine.closeIfOpen
  split
  · exact ⟨h.sessionClose p, by rw [sessionClose_port]⟩
  · rename_i hclosed
    exact ⟨h, Bool.not_eq_true _ ▸ hclosed⟩

/-- A change of one port that leaves its session, its alert queue, its lost count and its mask. -/
theorem ClosedHoldNothing.setPort {s : State} (h : ClosedHoldNothing s) {p : Port} {x : PortState}
    (ho : x.isOpen = (s.port p).isOpen) (ha : x.alerts = (s.port p).alerts) (hl : x.lostCount = (s.port p).lostCount)
    (hm : x.mask = (s.port p).mask) : ClosedHoldNothing (s.setPort p x) := by
  intro q hq
  rcases Port.eq_or_other p q with rfl | rfl
  · rw [State.port_setPort, ho] at hq
    obtain ⟨hprobes, hslots, htriggers, hclaim, halerts, hlost, hmask⟩ := h q hq
    exact ⟨hprobes, hslots, htriggers, by rw [State.setPort_mgmt, setPort_holder]; exact hclaim,
      by rw [State.port_setPort, ha]; exact halerts, by rw [State.port_setPort, hl]; exact hlost,
      by rw [State.port_setPort, hm]; exact hmask⟩
  · rw [State.port_setPort_other] at hq
    exact (h _ hq).same (fun _ => rfl) rfl (setPort_holder ..) (State.port_setPort_other ..)

theorem ClosedHoldNothing.resetPort {s : State} (h : ClosedHoldNothing s) (p : Port) (l : LowPeriod) :
    ClosedHoldNothing (resetPort p l s) :=
  (h.closeIfOpen p).1.setPort rfl rfl rfl rfl

/-! ### Commands -/

/-- A command of an OPEN port that closes no session reaches the other port's possessions only by way of what the other
port holds. -/
theorem ClosedHoldNothing.openPort {p : Port} {s u : State} (h : ClosedHoldNothing s) (hp : (u.port p).isOpen = true)
    (hport : u.port p.other = s.port p.other)
    (hkeep : HoldsNothing p.other s → HoldsNothing p.other u) : ClosedHoldNothing u := by
  intro q hq
  rcases Port.eq_or_other p q with rfl | rfl
  · rw [hp] at hq; cases hq
  · exact hkeep (h _ (hport ▸ hq))

theorem HoldsNothing.own {q : Port} {s : State} (h : HoldsNothing q s) (set : ProbeSet) {owner : Option Port}
    (ho : owner ≠ some q) : HoldsNothing q { s with bank := s.bank.own set owner } := by
  refine ⟨fun i => ?_, h.slots, h.triggers, h.claim, h.alerts, h.lost, h.mask⟩
  have hi : ({ s with bank := s.bank.own set owner } : State).probe i =
      if set.has i then { s.probe i with owner := owner } else s.probe i := Bank.probe_mapProbes ..
  rw [hi]
  split
  · exact ho
  · exact h.probes i

theorem stop_owner (b : Bank) (mode : Nat) (set : ProbeSet) (now : Tick) (queued : Nat) (i : ProbeNo) :
    ((b.stop mode set now queued).probe i).owner = (b.probe i).owner := by
  cases mode with
  | zero =>
    rw [Bank.stop_now_probe]
    split
    · unfold Probe.stopNow; split <;> rfl
    · rfl
  | succ n =>
    rw [Bank.stop_drain_probe]
    split
    · unfold Probe.stopDraining; split <;> rfl
    · rfl

theorem HoldsNothing.harvest {p q : Port} {s : State} (h : HoldsNothing q s) (hpq : p ≠ q) (k : Fin 4)
    (set zeroed : ProbeSet) : HoldsNothing q (makeHarvest k p .command set zeroed s) := by
  have hw := engineWork_makeHarvest k p .command set zeroed s
  refine ⟨fun i => by rw [(hw.probes i).1]; exact h.probes i, fun j x hx => ?_, h.triggers, h.claim, h.alerts, h.lost,
    h.mask⟩
  change (s.harv.slots.set k (some (captureSlot p .command set zeroed s)))[j] = some x at hx
  rw [vector_set_get] at hx
  split at hx
  · cases hx; exact hpq
  · exact h.slots j x hx

theorem HoldsNothing.freeSlot {q : Port} {s : State} (h : HoldsNothing q s) (k : Fin 4) : HoldsNothing q (freeSlot k s) := by
  refine ⟨h.probes, fun j x hx => ?_, h.triggers, h.claim, h.alerts, h.lost, h.mask⟩
  change (s.harv.slots.set k none)[j] = some x at hx
  rw [vector_set_get] at hx
  split at hx
  · cases hx
  · exact h.slots j x hx

theorem HoldsNothing.setTrigger {q : Port} {s : State} (h : HoldsNothing q s) (n : Fin 4) {x : Option Trigger}
    (hx : ∀ y, x = some y → y.owner ≠ q) : HoldsNothing q (s.setTrigger n x) := by
  refine ⟨h.probes, h.slots, fun j y hy => ?_, h.claim, h.alerts, h.lost, h.mask⟩
  rw [State.setTrigger_triggers, vector_set_get] at hy
  split at hy
  · exact hx y hy
  · exact h.triggers j y hy

theorem ClosedHoldNothing.command {p : Port} {s u : State} (h : ClosedHoldNothing s) (hu : CommandEffect p s u) :
    ClosedHoldNothing u := by
  cases hu
  case nothing => exact h
  case sessionOpened hclosed =>
    refine h.openPort (p := p) ?_ ?_ fun ho => ho.same (fun _ => rfl) rfl ?_ ?_
    all_goals cases p <;> rfl
  case sessionClosed => exact h.sessionClose p
  case holder x hopen hx =>
    refine h.openPort (p := p) hopen rfl fun ho => ⟨ho.probes, ho.slots, ho.triggers, ?_, ho.alerts, ho.lost, ho.mask⟩
    rcases hx with rfl | rfl
    · nofun
    · intro he
      exact Port.ne_other p (Option.some.inj he)
  case intake hopen _ => exact h.openPort hopen rfl fun ho => ho.same (fun _ => rfl) rfl rfl rfl
  case trackingCleared =>
    exact h.keep (onPorts_trackingClear (offerKeeps_isOpen s) (onPorts_isOpen s)) fun _ _ hq => hq.trackingClear
  case timeouts hopen _ => exact h.openPort hopen rfl fun ho => ho.same (fun _ => rfl) rfl rfl rfl
  case groupMap hopen _ => exact h.openPort hopen rfl fun ho => ho.same (fun _ => rfl) rfl rfl rfl
  case claimed set hopen =>
    exact h.openPort hopen rfl fun ho => ho.own set fun he => Port.ne_other p (Option.some.inj he)
  case unclaimed set hopen => exact h.openPort hopen rfl fun ho => ho.own set nofun
  case defined i d hopen _ =>
    refine h.openPort hopen rfl fun ho => ho.same (fun j => ?_) rfl rfl rfl
    rw [defineProbe_probe]
    split
    · rename_i hij; subst hij; rfl
    · rfl
  case definedWithUnit i d _ k hopen _ _ _ =>
    refine h.openPort hopen rfl fun ho => ho.same (fun j => ?_) rfl rfl rfl
    rw [defineProbe_probe]
    split
    · rename_i hij; subst hij; rfl
    · rfl
  case started set hopen _ =>
    refine h.openPort hopen rfl fun ho => ho.same (fun j => ?_) rfl rfl rfl
    rw [State.probe_eq_bank, Bank.start_probe]
    split <;> rfl
  case stopped mode set hopen _ =>
    exact h.openPort hopen rfl fun ho => ho.same (fun j => stop_owner s.bank mode set _ _ j) rfl rfl rfl
  case probesCleared set hopen _ =>
    refine h.openPort hopen rfl fun ho =>
      ⟨fun j => ?_, ho.slots, ho.triggers, ho.claim, ho.alerts, ho.lost, ho.mask⟩
    rw [clearProbes_probe]
    split
    · nofun
    · exact ho.probes j
  case harvested k set zeroed hopen => exact h.openPort hopen rfl fun ho => ho.harvest (Port.ne_other p) k set zeroed
  case slotFreed k hopen => exact h.openPort hopen rfl fun ho => ho.freeSlot k
  case triggerSet n x hopen hx =>
    refine h.openPort hopen rfl fun ho => ho.setTrigger n fun y hy => ?_
    cases hy
    rw [hx]
    exact Port.ne_other p
  case triggerCleared n hopen => exact h.openPort hopen rfl fun ho => ho.setTrigger n nofun
  case masked m hopen =>
    refine h.openPort (by rw [State.port_setPort]; exact hopen) (State.port_setPort_other ..) fun ho =>
      ho.same (fun _ => rfl) rfl (setPort_holder ..) (State.port_setPort_other ..)
  case acknowledged al rest hopen _ =>
    have hown : (acknowledge p al s).port p = (s.port p).dropAlert := State.port_setPort s p _
    have hother : (acknowledge p al s).port p.other = s.port p.other := State.port_setPort_other s p _
    refine h.openPort (by rw [hown]; exact hopen) hother fun ho => ho.same (fun _ => rfl) rfl (setPort_holder ..) hother

/-! ### Every row -/

theorem reset_port (p : Port) : State.reset.port p = PortState.reset := by cases p <;> rfl

theorem holdsNothing_reset (p : Port) : HoldsNothing p State.reset where
  probes := fun i => by rw [reset_probe]; nofun
  slots := fun k x hx => by
    rw [show State.reset.harv.slots[k] = none by simp [State.reset, Harvester.reset]] at hx
    cases hx
  triggers := fun k x hx => by
    rw [show State.reset.harv.triggers[k] = none by simp [State.reset, Harvester.reset]] at hx
    cases hx
  claim := nofun
  alerts := by rw [reset_port]; rfl
  lost := by rw [reset_port]; rfl
  mask := by rw [reset_port]; rfl

theorem lawful_reset : PortState.reset.Lawful :=
  ⟨alertLaw_of_empty rfl rfl fun _ h => (by cases h), fun h => (by cases h), fun h => absurd rfl h⟩

theorem sessionLaw_reset : SessionLaw State.reset where
  closed := fun p _ => holdsNothing_reset p
  alerts := fun p => by rw [reset_port]; exact lawful_reset.1
  dispatch := fun p => by rw [reset_port]; exact lawful_reset.2

theorem beginFrame_keeps (x : PortState) :
    x.beginFrame.isOpen = x.isOpen ∧ x.beginFrame.alerts = x.alerts ∧ x.beginFrame.lostCount = x.lostCount ∧
      x.beginFrame.mask = x.mask := by
  unfold PortState.beginFrame
  split
  · exact ⟨rfl, rfl, rfl, rfl⟩
  · split
    · exact ⟨rfl, rfl, rfl, rfl⟩
    · unfold PortState.beginAlert
      split
      · exact ⟨rfl, rfl, rfl, rfl⟩
      · split <;> exact ⟨rfl, rfl, rfl, rfl⟩

theorem endFrame_keeps (x : PortState) (now : Tick) (what : Sending) :
    (x.endFrame now what).isOpen = x.isOpen ∧ (x.endFrame now what).alerts = x.alerts ∧
      (x.endFrame now what).lostCount = x.lostCount ∧ (x.endFrame now what).mask = x.mask := by
  unfold PortState.endFrame
  split
  · exact ⟨rfl, rfl, rfl, rfl⟩
  · rw [takeNext_eq]; exact ⟨rfl, rfl, rfl, rfl⟩
  · exact ⟨rfl, rfl, rfl, rfl⟩
  · exact ⟨rfl, rfl, rfl, rfl⟩

theorem ClosedHoldNothing.own {i : Instr} {s u : State} (h : ClosedHoldNothing s) (hu : OwnEffect s i u) :
    ClosedHoldNothing u := by
  have hoffer := offerKeeps_isOpen s
  have hopen := onPorts_isOpen s
  cases hu
  case stands => exact h
  case held => exact fun p _ => (holdsNothing_reset p).same (fun _ => rfl) rfl rfl rfl
  case poweredOn => exact fun p _ => (holdsNothing_reset p).same (fun _ => rfl) rfl rfl rfl
  case released => exact h.keep hopen fun _ _ hq => hq.same (fun _ => rfl) rfl rfl rfl
  case ticked =>
    refine h.keep hopen fun _ _ hq => hq.same (fun j => ?_) rfl rfl rfl
    rw [State.probe_eq_bank, Bank.probe_mapProbes, Probe.tick]
    split <;> rfl
  case arrived data _ => exact h.keep (onPorts_arrive hoffer hopen data) fun _ hc hq => hq.arrive hc data
  case taken x _ _ _ _ => exact h.keep (onPorts_handleRecord hoffer hopen x) fun _ hc hq => hq.handleRecord hc x
  case expired e _ _ _ _ => exact h.keep (onPorts_expireEntry hoffer hopen e) fun _ _ hq => hq.expireEntry e
  case cut j _ _ =>
    refine h.keep hopen fun _ _ hq => hq.same (fun n => ?_) rfl rfl rfl
    have hn : (cutDrain j s).probe n = if j = n then (s.probe j).cut else s.probe n := Bank.probe_setProbe ..
    rw [hn]
    split
    · rename_i hjn; subst hjn; rfl
    · rfl
  case swept k _ _ _ =>
    exact h.keep (onPorts_visitEntry hoffer hopen k) fun _ _ hq => (hq.visitEntry k).same (fun _ => rfl) rfl rfl rfl
  case sweepEnded =>
    exact h.keep (onPorts_finishSweep hoffer (onPorts_visitEntry hoffer hopen 255)) fun _ _ hq =>
      (hq.visitEntry 255).finishSweep
  case line p x _ hx => exact h.setPort (by rw [hx.rest]) (by rw [hx.rest]) (by rw [hx.rest]) (by rw [hx.rest])
  case portReset p l _ _ => exact h.resetPort p l
  case began p _ _ =>
    obtain ⟨ho, ha, hl, hm⟩ := beginFrame_keeps (s.port p)
    exact h.setPort ho ha hl hm
  case ended p f _ _ =>
    obtain ⟨ho, ha, hl, hm⟩ := endFrame_keeps (s.port p) s.timebase f.what
    exact h.setPort ho ha hl hm
  case resendDue => exact h.setPort rfl rfl rfl rfl
  case retried => exact h.setPort rfl rfl rfl rfl
  case unknown => exact h.setPort rfl rfl rfl rfl

theorem sessionLaw_iff (s : State) :
    SessionLaw s ↔ ClosedHoldNothing s ∧ OnPorts (fun _ => PortState.Lawful) s.mgmt :=
  ⟨fun ⟨hc, ha, hd⟩ => ⟨hc, fun p => ⟨ha p, hd p⟩⟩, fun ⟨hc, hp⟩ => ⟨hc, fun p => (hp p).1, fun p => (hp p).2⟩⟩

theorem lawful_sessionClose {s : State} (h : OnPorts (fun _ => PortState.Lawful) s.mgmt) (p : Port) :
    OnPorts (fun _ => PortState.Lawful) (sessionClose p s).mgmt :=
  (h.set (p := p) (x := (s.mgmt.port p).closed) (h p).closed).congr rfl rfl

theorem lawful_resetPort {s : State} (hc : ClosedHoldNothing s) (h : OnPorts (fun _ => PortState.Lawful) s.mgmt)
    (p : Port) (l : LowPeriod) : OnPorts (fun _ => PortState.Lawful) (resetPort p l s).mgmt := by
  have hclose : OnPorts (fun _ => PortState.Lawful) (closeIfOpen p s).mgmt := by
    unfold closeIfOpen
    split
    · exact lawful_sessionClose h p
    · exact h
  obtain ⟨hnothing, hclosed⟩ := hc.closeIfOpen p
  exact hclose.set ((hclose p).portReset (hnothing p hclosed).alerts l)

theorem lawful_command {p : Port} {s u : State} (h : OnPorts (fun _ => PortState.Lawful) s.mgmt)
    (hu : CommandEffect p s u) : OnPorts (fun _ => PortState.Lawful) u.mgmt := by
  cases hu
  case sessionOpened =>
    exact (h.set (p := p) (x := { s.port p with isOpen := true, sessionNumber := _ })
      ⟨(h p).1.congr rfl rfl rfl rfl, (h p).2.congr rfl rfl rfl⟩).congr rfl rfl
  case sessionClosed => exact lawful_sessionClose h p
  case holder => exact h.congr rfl rfl
  case trackingCleared => exact onPorts_trackingClear offerKeeps_lawful h
  case masked m _ => exact h.set ⟨(h p).1.congr rfl rfl rfl rfl, (h p).2.congr rfl rfl rfl⟩
  case acknowledged => exact h.set (h p).dropAlert
  all_goals exact h

theorem lawful_own {i : Instr} {s u : State} (hc : ClosedHoldNothing s) (h : OnPorts (fun _ => PortState.Lawful) s.mgmt)
    (hu : OwnEffect s i u) : OnPorts (fun _ => PortState.Lawful) u.mgmt := by
  cases hu
  case held => exact fun p => by cases p <;> exact lawful_reset
  case poweredOn => exact fun p => by cases p <;> exact lawful_reset
  case arrived data _ => exact onPorts_arrive offerKeeps_lawful h data
  case taken x _ _ _ _ => exact onPorts_handleRecord offerKeeps_lawful h x
  case expired e _ _ _ _ => exact onPorts_expireEntry offerKeeps_lawful h e
  case swept k _ _ _ => exact onPorts_visitEntry offerKeeps_lawful h k
  case sweepEnded => exact onPorts_finishSweep offerKeeps_lawful (onPorts_visitEntry offerKeeps_lawful h 255)
  case line p x _ hx => exact h.set ((h p).line hx)
  case portReset p l _ _ => exact lawful_resetPort hc h p l
  case began p _ _ => exact h.set (h p).beginFrame
  case ended p f _ hf => exact h.set ((h p).endFrame hf s.timebase)
  case resendDue p _ hd => exact h.set ((h p).resend hd _)
  case retried p _ r _ _ _ => exact h.set ((h p).replied r _)
  case unknown p _ _ _ => exact h.set ((h p).replied _ _)
  all_goals exact h

/-- Settles O58: no alert reaches a CLOSED port that holds nothing, and each change of a port keeps its own laws. -/
theorem sessionLawKept : Obligations.SessionLawKept := by
  intro s t h hs
  rw [sessionLaw_iff] at h ⊢
  exact step_keeps (Inv := fun s => ClosedHoldNothing s ∧ OnPorts (fun _ => PortState.Lawful) s.mgmt)
    (fun _ _ ⟨hc, hp⟩ => ⟨hc.keep (onPorts_isOpen _) fun _ _ hq => hq.same (fun _ => rfl) rfl rfl rfl, hp⟩)
    (fun _ p _ _ _ ⟨hc, hp⟩ => ⟨hc.setPort rfl rfl rfl rfl, hp.set ((hp p).replied _ _)⟩)
    (fun _ _ _ ⟨hc, hp⟩ hu => ⟨hc.command hu, lawful_command hp hu⟩)
    (fun _ _ _ ⟨hc, hp⟩ hu => ⟨hc.own hu, lawful_own hc hp hu⟩) h hs

/-- Settles O60, law by law. -/
theorem lawsHoldAtReset : Obligations.LawsHoldAtReset :=
  ⟨(withinCapacities_iff _).mpr ⟨Nat.zero_le _, trackingMoves_fits.reset,
      fun p => by cases p <;> exact ⟨Nat.zero_le _, Nat.zero_le _⟩⟩,
    engineLaw_reset, trackingMoves_balances.reset, sessionLaw_reset, poolLaw_reset⟩

end Sys2Proof.Machine
end

section
/-! The machine: a step takes the front command, every command answers, device reset and its release, the reset values, and
what moves the Timebase (R1, R2, R16, R153). -/

namespace Sys2Proof.Machine

/-! ### Every command answers, and leaves the queue -/

theorem whileReleased_answers (s u : State) : ∃ t, whileReleased s u = .next t := by
  unfold whileReleased
  split <;> exact ⟨_, rfl⟩

theorem exec_answers_of_dispatched {c : Instr} {p : Port} {type : Byte} (h : c.dispatched = some (p, type)) (s : State) :
    ∃ t, exec c s = .next t := by
  obtain ⟨run, hexec, -⟩ := exec_dispatched h
  rw [hexec]
  rcases dispatch_cases p type run s with hd | ⟨_, _, _, hd⟩ <;> exact ⟨_, hd⟩

theorem exec_answers_of_own {c : Instr} (h : c.dispatched = none) (s : State) : ∃ t, exec c s = .next t := by
  cases c
  case deviceReset cause => cases cause <;> exact ⟨_, rfl⟩
  case recordTransfer => exact whileReleased_answers ..
  case takeRecord =>
    change ∃ t, execTakeRecord s = .next t
    unfold execTakeRecord
    split
    · exact ⟨_, rfl⟩
    · exact whileReleased_answers ..
  case expiry =>
    change ∃ t, execExpiry s = .next t
    unfold execExpiry
    split
    · exact ⟨_, rfl⟩
    · exact whileReleased_answers ..
  case drainCut => exact whileReleased_answers ..
  case sweepVisit =>
    change ∃ t, execSweepVisit s = .next t
    unfold execSweepVisit
    split
    · exact whileReleased_answers ..
    · exact ⟨_, rfl⟩
  case frameReceived => exact whileReleased_answers ..
  case frameDiscard => exact whileReleased_answers ..
  case frameGapTimeout => exact whileReleased_answers ..
  case portReset p =>
    change ∃ t, execPortReset p s = .next t
    unfold execPortReset
    split
    · exact whileReleased_answers ..
    · exact ⟨_, rfl⟩
  case transmitStart => exact whileReleased_answers ..
  case transmitEnd p =>
    change ∃ t, execTransmitEnd p s = .next t
    unfold execTransmitEnd
    split
    · exact whileReleased_answers ..
    · exact ⟨_, rfl⟩
  case alertResendTimeout => exact whileReleased_answers ..
  case commandRetry p =>
    change ∃ t, execCommandRetry p s = .next t
    unfold execCommandRetry
    split
    · exact whileReleased_answers ..
    · exact ⟨_, rfl⟩
  case unknownCommand p =>
    change ∃ t, execUnknownCommand p s = .next t
    unfold execUnknownCommand
    split
    · exact whileReleased_answers ..
    · exact ⟨_, rfl⟩
  case timebaseTick => exact whileReleased_answers ..
  case resetNRelease sel1 sel0 =>
    change ∃ t, execResetNRelease sel1 sel0 s = .next t
    unfold execResetNRelease
    split <;> exact ⟨_, rfl⟩
  case characterReceived => exact whileReleased_answers ..
  case breakEnd p =>
    change ∃ t, execBreakEnd p s = .next t
    unfold execBreakEnd
    split
    · exact whileReleased_answers ..
    · exact ⟨_, rfl⟩
  all_goals cases h

theorem exec_answers (c : Instr) (s : State) : ∃ t, exec c s = .next t := by
  cases h : c.dispatched with
  | none => exact exec_answers_of_own h s
  | some x => exact exec_answers_of_dispatched h s

theorem CommandEffect.pending_timebase {p : Port} {s u : State} (h : CommandEffect p s u) :
    u.pending = s.pending ∧ u.timebase = s.timebase := by
  cases h <;> exact ⟨rfl, rfl⟩

theorem arrive_pending_timebase (data : BitVec 64) (s : State) :
    (arrive data s).pending = s.pending ∧ (arrive data s).timebase = s.timebase := by
  unfold arrive
  split
  · split
    · split <;> exact ⟨rfl, rfl⟩
    · exact ⟨rfl, rfl⟩
  · exact ⟨rfl, rfl⟩

theorem resetPort_pending_timebase (p : Port) (l : LowPeriod) (s : State) :
    (resetPort p l s).pending = s.pending ∧ (resetPort p l s).timebase = s.timebase := by
  unfold resetPort closeIfOpen
  split <;> exact ⟨rfl, rfl⟩

theorem OwnEffect.pending {i : Instr} {s u : State} (h : OwnEffect s i u) : u.pending = s.pending := by
  cases h
  case arrived data _ => exact (arrive_pending_timebase data s).1
  case taken x _ _ _ _ => exact (engineWork_handleRecord x (popRecord s)).pending
  case expired e _ _ _ _ => exact (engineWork_expireEntry e s).pending
  case swept k _ _ _ => exact (engineWork_visitEntry k s).pending
  case sweepEnded => exact (engineWork_visitEntry 255 s).pending
  case portReset p l _ _ => exact (resetPort_pending_timebase p l s).1
  all_goals rfl

/-- Only a tick, a device reset and the release reach the Timebase. -/
theorem OwnEffect.timebase {i : Instr} {s u : State} (h : OwnEffect s i u) (htick : i ≠ .timebaseTick)
    (hreset : ∀ cause, i ≠ .deviceReset cause) (hrelease : ∀ sel1 sel0, i ≠ .resetNRelease sel1 sel0) :
    u.timebase = s.timebase := by
  cases h
  case held => exact absurd rfl (hreset _)
  case poweredOn => exact absurd rfl (hreset _)
  case released => exact absurd rfl (hrelease _ _)
  case ticked => exact absurd rfl htick
  case arrived data _ => exact (arrive_pending_timebase data s).2
  case taken x _ _ _ _ => exact (engineWork_handleRecord x (popRecord s)).timebase
  case expired e _ _ _ _ => exact (engineWork_expireEntry e s).timebase
  case swept k _ _ _ => exact (engineWork_visitEntry k s).timebase
  case sweepEnded => exact (engineWork_visitEntry 255 s).timebase
  case portReset p l _ _ => exact (resetPort_pending_timebase p l s).2
  all_goals rfl

/-- While RESET_N is low only a device reset and the release act. -/
theorem OwnEffect.of_low {i : Instr} {s u : State} (h : OwnEffect s i u) (hlow : s.resetN = false)
    (hreset : ∀ cause, i ≠ .deviceReset cause) (hrelease : ∀ sel1 sel0, i ≠ .resetNRelease sel1 sel0) : u = s := by
  have hnot : s.resetN ≠ true := by rw [hlow]; nofun
  cases h
  case stands => rfl
  case held => exact absurd rfl (hreset _)
  case poweredOn => exact absurd rfl (hreset _)
  case released => exact absurd rfl (hrelease _ _)
  case unknown c hw _ => exact absurd hw.released hnot
  all_goals exact absurd ‹s.resetN = true› hnot

/-- What every command keeps, from what answers and effects keep. -/
theorem exec_pending {c : Instr} {s t : State} (h : exec c s = .next t) : t.pending = s.pending := by
  cases hd : c.dispatched with
  | none =>
    rcases exec_own_cases hd h with ho | ⟨p, l, -, h1, h2⟩
    · exact ho.pending
    · exact h2.pending.trans h1.pending
  | some x =>
    obtain ⟨p, type⟩ := x
    rcases exec_dispatched_cases hd h with rfl | ⟨d, -, -, ⟨code, body, -, rfl⟩ | ⟨body, u, hu, rfl⟩⟩
    · rfl
    · rfl
    · exact hu.pending_timebase.1

theorem exec_timebase {c : Instr} {s t : State} (h : exec c s = .next t) (htick : c ≠ .timebaseTick)
    (hreset : ∀ cause, c ≠ .deviceReset cause) (hrelease : ∀ sel1 sel0, c ≠ .resetNRelease sel1 sel0) :
    t.timebase = s.timebase := by
  cases hd : c.dispatched with
  | none =>
    rcases exec_own_cases hd h with ho | ⟨p, l, -, h1, h2⟩
    · exact ho.timebase htick hreset hrelease
    · exact (h2.timebase htick hreset hrelease).trans (h1.timebase nofun nofun nofun)
  | some x =>
    obtain ⟨p, type⟩ := x
    rcases exec_dispatched_cases hd h with rfl | ⟨d, -, -, ⟨code, body, -, rfl⟩ | ⟨body, u, hu, rfl⟩⟩
    · rfl
    · rfl
    · exact hu.pending_timebase.2

theorem exec_of_low {c : Instr} {s : State} (hlow : s.resetN = false) (hreset : ∀ cause, c ≠ .deviceReset cause)
    (hrelease : ∀ sel1 sel0, c ≠ .resetNRelease sel1 sel0) : exec c s = .next s := by
  obtain ⟨t, ht⟩ := exec_answers c s
  refine ht.trans (congrArg _ ?_)
  cases hd : c.dispatched with
  | none =>
    rcases exec_own_cases hd ht with ho | ⟨p, l, -, h1, h2⟩
    · exact ho.of_low hlow hreset hrelease
    · rw [h1.of_low hlow nofun nofun] at h2
      exact h2.of_low hlow hreset hrelease
  | some x =>
    obtain ⟨p, type⟩ := x
    rcases exec_dispatched_cases hd ht with hs | ⟨d, hw, -⟩
    · exact hs
    · rw [hw.released] at hlow
      cases hlow

/-- Settles O2, by what an answered command and each effect leave. -/
theorem everyCommandAnswersNext : Obligations.EveryCommandAnswersNext := by
  intro c s
  obtain ⟨t, ht⟩ := exec_answers c s
  exact ⟨⟨t, ht, exec_pending ht⟩, exec_of_low⟩

/-- Settles O1, by the two forms of the queue. -/
theorem stepTakesFrontCommand : Obligations.StepTakesFrontCommand := by
  refine fun s => ⟨fun c rest h => ?_, fun h => ?_⟩
  · simp only [step, h]
  · simp only [step, h]

/-! ### Device reset and the Timebase -/

theorem exec_resetNRelease_of_low {s : State} (sel1 sel0 : Bool) (h : s.resetN = false) :
    exec (.resetNRelease sel1 sel0) s =
      .next { s with resetN := true, baud := baudOfStraps sel1 sel0, timebase := 0 } :=
  if_neg (by rw [h]; nofun)

theorem exec_resetNRelease_of_high {s : State} (sel1 sel0 : Bool) (h : s.resetN = true) :
    exec (.resetNRelease sel1 sel0) s = .next s := if_pos h

/-- Settles O3: both causes by their meaning, the release by the level of RESET_N, the rates by the straps. -/
theorem deviceResetAndRelease : Obligations.DeviceResetAndRelease := fun _ sel1 sel0 =>
  ⟨rfl, rfl, exec_resetNRelease_of_low sel1 sel0, exec_resetNRelease_of_high sel1 sel0, rfl, rfl, rfl, rfl⟩

theorem reset_groupMap (r : Fin 32) : State.reset.trk.groupMap[r] = 0 := by
  simp [State.reset, Tracking.reset]

theorem reset_slots_triggers (k : Fin 4) :
    State.reset.harv.slots[k] = none ∧ State.reset.harv.triggers[k] = none := by
  simp [State.reset, Harvester.reset]

/-- Settles O4, block by block. -/
theorem resetValues : Obligations.ResetValues :=
  ⟨rfl, rfl, rfl, rfl, rfl, rfl, rfl, reset_groupMap, reset_probe, rfl, rfl, rfl, reset_pool, reset_slots_triggers, rfl,
    rfl, rfl, rfl, reset_port⟩

theorem entry_tick_eq (now : Tick) (queued : Nat) (e : Entry) :
    e.tick now queued =
      if e.dueAhead = none ∧ reached now e.deadline = true then { e with dueAhead := some queued } else e := by
  simp only [Entry.tick, Bool.and_eq_true, Option.isNone_iff_eq_none]

theorem cutDue_iff (now : Tick) (x : Probe) :
    x.cutDue now = true ↔ x.state = .draining ∧ x.drainDeadline.any (reached now) = true := by
  unfold Probe.cutDue
  split <;> rename_i h <;> simp [h]

theorem probe_tick_eq (now : Tick) (queued : Nat) (x : Probe) :
    x.tick now queued =
      if x.cutAhead = none ∧ x.state = .draining ∧ x.drainDeadline.any (reached now) = true then
        { x with cutAhead := some queued }
      else x := by
  simp only [Probe.tick, Bool.and_eq_true, Option.isNone_iff_eq_none, cutDue_iff]

theorem exec_timebaseTick_of_high {s : State} (h : s.resetN = true) :
    exec .timebaseTick s = .next { s with
      timebase := s.timebase + 1
      trk := { s.trk with table := s.trk.table.map (Entry.tick (s.timebase + 1) s.obs.queue.length) }
      bank := s.bank.mapProbes (fun _ x => x.tick (s.timebase + 1) s.obs.queue.length) } :=
  whileReleased_of_released _ h

theorem exec_deviceReset_timebase (cause : ResetCause) (s : State) :
    ∃ t, exec (.deviceReset cause) s = .next t ∧ t.timebase = 0 := by
  cases cause <;> exact ⟨_, rfl, rfl⟩

/-- Settles O5: the tick by its meaning, device reset and the low RESET_N by the commands that act there, every other
command by what the effects leave. -/
theorem timebaseCountsTicks : Obligations.TimebaseCountsTicks := by
  refine fun s => ⟨fun hhigh => ?tick, fun cause => exec_deviceReset_timebase cause s, fun hlow hzero c t ht => ?low,
    fun c t ht htick hreset hrelease => exec_timebase ht htick hreset hrelease⟩
  case tick =>
    refine ⟨s.timebase + 1, mapFin s.bank.probes (fun _ x => x.tick (s.timebase + 1) s.obs.queue.length), ?_, ?_,
      fun i => ?_⟩
    · rw [exec_timebaseTick_of_high hhigh]
      simp only [← entry_tick_eq]
      rfl
    · rw [BitVec.toNat_add]
      rfl
    · rw [← probe_tick_eq]
      exact mapFin_get ..
  case low =>
    by_cases hreset : ∃ cause, c = .deviceReset cause
    · obtain ⟨cause, rfl⟩ := hreset
      obtain ⟨u, hu, hzero⟩ := exec_deviceReset_timebase cause s
      rw [hu] at ht
      cases ht
      exact hzero
    by_cases hrelease : ∃ sel1 sel0, c = .resetNRelease sel1 sel0
    · obtain ⟨sel1, sel0, rfl⟩ := hrelease
      rw [exec_resetNRelease_of_low sel1 sel0 hlow] at ht
      cases ht
      rfl
    rw [exec_of_low hlow (fun cause h => hreset ⟨cause, h⟩) (fun sel1 sel0 h => hrelease ⟨sel1, sel0, h⟩)] at ht
    cases ht
    exact hzero

end Sys2Proof.Machine
end

section
/-! Records on the tap bus: the round trip of a well-formed record, and which transfers are valid (R3 to R6, R173). -/

namespace Sys2Proof

/-! ### The round trip -/

theorem decodeRecord_of_req {d : BitVec 64} (h : recordField d 0 3 = 0) : decodeRecord d = decodeReq d := by
  simp [decodeRecord, h, recordKindOfCode]

theorem decodeRecord_of_cpl {d : BitVec 64} (h : recordField d 0 3 = 1) : decodeRecord d = decodeCpl d := by
  simp [decodeRecord, h, recordKindOfCode]

theorem decodeRecord_of_stall {d : BitVec 64} (h : recordField d 0 3 = 2) :
    decodeRecord d = (creditTypeOfCode (recordField d 3 2)).map .stall := by
  simp [decodeRecord, h, recordKindOfCode]

theorem decodeRecord_of_retry {d : BitVec 64} (h : recordField d 0 3 = 3) : decodeRecord d = some .retry := by
  simp [decodeRecord, h, recordKindOfCode]

theorem decodeRecord_of_linkerr {d : BitVec 64} (h : recordField d 0 3 = 4) :
    decodeRecord d = (errorClassOfCode (recordField d 3 2)).map .linkerr := by
  simp [decodeRecord, h, recordKindOfCode]

theorem decodeRecord_of_mark {d : BitVec 64} (h : recordField d 0 3 = 5) :
    decodeRecord d = some (.mark (d.extractLsb' 3 16)) := by
  simp [decodeRecord, h, recordKindOfCode]

theorem decodeRecord_of_undefined {d : BitVec 64} (h : 6 ≤ recordField d 0 3) : decodeRecord d = none := by
  have hkind : recordKindOfCode (recordField d 0 3) = none := by
    obtain ⟨n, hn⟩ := Nat.exists_eq_add_of_le' h
    rw [hn]
    rfl
  simp [decodeRecord, hkind]

/-- The tag that joins the queue is the one presented where that is one the port leaves (R4). -/
theorem keptTag_of_tagOk {kind : RequestKind} {tag : Byte} (h : kind.tagOk tag = true) : keptTag kind tag = tag := by
  cases kind
  case posted => exact (beq_iff_eq.mp h).symm
  case message => exact (beq_iff_eq.mp h).symm
  all_goals rfl

theorem decode_encode_req (requester : Fin 32) (tag : Byte) {kind : RequestKind} {length : Nat}
    (hl : kind.lengthOk length = true) (ht : kind.tagOk tag = true) :
    decodeRecord (encodeRecord (.req requester tag kind length)) = some (.req requester tag kind length) := by
  have hlength := RequestKind.length_le hl
  have hcode := kind.code_le
  have htag := tag.isLt
  have hvalue : (encodeRecord (.req requester tag kind length)).toNat =
      2 ^ 3 * requester.val + 2 ^ 9 * tag.toNat + 2 ^ 17 * kind.code + 2 ^ 20 * length := by
    rw [encodeRecord, BitVec.toNat_ofNat]
    omega
  obtain ⟨hkind, hreq, htagField, hkindField, hlengthField⟩ := reqFields hlength hcode hvalue
  rw [decodeRecord_of_req hkind, decodeReq]
  simp [hreq, htagField, hkindField, hlengthField, hl, keptTag_of_tagOk ht]

theorem decode_encode_cpl (requester : Fin 32) (tag : Byte) (status : Status) {bytes : Nat} (last : Bool)
    (hb : bytes ≤ 4096) :
    decodeRecord (encodeRecord (.cpl requester tag status bytes last)) = some (.cpl requester tag status bytes last) := by
  have hcode := status.code_le
  have htag := tag.isLt
  have hlast := Bool.toNat_le last
  have hvalue : (encodeRecord (.cpl requester tag status bytes last)).toNat =
      1 + 2 ^ 3 * requester.val + 2 ^ 9 * tag.toNat + 2 ^ 17 * status.code + 2 ^ 19 * bytes + 2 ^ 32 * last.toNat := by
    rw [encodeRecord, BitVec.toNat_ofNat]
    omega
  obtain ⟨hkind, hreq, htagField, hstatusField, hbytesField, hlastField⟩ := cplFields hb hcode hvalue
  rw [decodeRecord_of_cpl hkind, decodeCpl]
  simpa [hreq, htagField, hstatusField, hbytesField, hb] using hlastField

theorem decode_encode_mark (label : BitVec 16) :
    decodeRecord (encodeRecord (.mark label)) = some (.mark label) := by
  have hlabel := label.isLt
  have hvalue : (encodeRecord (.mark label)).toNat = 5 + 2 ^ 3 * label.toNat := by
    rw [encodeRecord, BitVec.toNat_ofNat]
    omega
  have hkind : recordField (encodeRecord (.mark label)) 0 3 = 5 := by
    rw [recordField_eq, hvalue]
    omega
  have hfield : (encodeRecord (.mark label)).extractLsb' 3 16 = label := by
    refine BitVec.eq_of_toNat_eq ?_
    rw [← recordField, recordField_eq, hvalue]
    omega
  rw [decodeRecord_of_mark hkind, hfield]

/-- Settles O7, by the kind of the record. -/
theorem tapRecordRoundTrip : Obligations.TapRecordRoundTrip := by
  intro r hr
  cases r with
  | req requester tag kind length =>
    obtain ⟨hl, ht⟩ := Bool.and_eq_true_iff.mp hr
    exact decode_encode_req requester tag hl ht
  | cpl requester tag status bytes last => exact decode_encode_cpl requester tag status last (of_decide_eq_true hr)
  | stall credit => cases credit <;> rfl
  | retry => rfl
  | linkerr cls => cases cls <;> rfl
  | mark label => exact decode_encode_mark label

/-! ### Validity -/

theorem requestKindOfCode_eq_some {n : Nat} {k : RequestKind} : requestKindOfCode n = some k ↔ n = k.code := by
  refine ⟨fun h => ?_, fun h => by rw [h, requestKindOfCode_code]⟩
  unfold requestKindOfCode at h
  split at h <;> cases h <;> rfl

theorem statusOfCode_isSome {n : Nat} (hn : n < 4) : (statusOfCode n).isSome = true ↔ n ≤ 2 := by
  interval_cases n <;> decide

theorem errorClassOfCode_isSome {n : Nat} (hn : n < 4) : (errorClassOfCode n).isSome = true ↔ n ≤ 2 := by
  interval_cases n <;> decide

theorem creditTypeOfCode_isSome {n : Nat} (hn : n < 4) : (creditTypeOfCode n).isSome = true := by
  interval_cases n <;> decide

theorem recordField_lt (d : BitVec 64) (low width : Nat) : recordField d low width < 2 ^ width :=
  (d.extractLsb' low width).isLt

/-- A valid REQ (R4). -/
theorem decodeReq_eq_some {d : BitVec 64} {r : Record} : decodeReq d = some r ↔
    ∃ (h : recordField d 3 6 < 32) (kind : RequestKind), recordField d 17 3 = kind.code ∧
      kind.lengthOk (recordField d 20 13) = true ∧
      r = .req ⟨recordField d 3 6, h⟩ (keptTag kind (d.extractLsb' 9 8)) kind (recordField d 20 13) := by
  unfold decodeReq
  dsimp only
  split
  · rename_i h
    cases hk : requestKindOfCode (recordField d 17 3) with
    | none =>
      refine ⟨nofun, fun ⟨_, kind, hcode, _⟩ => ?_⟩
      rw [requestKindOfCode_eq_some.mpr hcode] at hk
      cases hk
    | some kind =>
      have hcode := requestKindOfCode_eq_some.mp hk
      dsimp only
      constructor
      · intro hr
        split at hr
        · rename_i hl
          cases hr
          exact ⟨h, kind, hcode, hl, rfl⟩
        · cases hr
      · rintro ⟨_, kind', hcode', hl, rfl⟩
        rw [requestKindOfCode_eq_some.mpr hcode'] at hk
        cases hk
        exact if_pos hl
  · rename_i h
    exact ⟨nofun, fun ⟨h', _⟩ => absurd h' h⟩

/-- A valid CPL (R5). -/
theorem decodeCpl_isSome (d : BitVec 64) : (decodeCpl d).isSome = true ↔
    recordField d 3 6 < 32 ∧ recordField d 17 2 ≤ 2 ∧ recordField d 19 13 ≤ 4096 := by
  have hlt : recordField d 17 2 < 4 := recordField_lt d 17 2
  rw [← statusOfCode_isSome hlt]
  unfold decodeCpl
  dsimp only
  split
  · rename_i h
    cases hx : statusOfCode (recordField d 17 2) with
    | none => simp
    | some status =>
      dsimp only
      split <;> rename_i hb <;> simp [h, hb]
  · rename_i h
    simp [h]

theorem decodeCpl_wellFormed {d : BitVec 64} {r : Record} (h : decodeCpl d = some r) : r.wellFormed = true := by
  unfold decodeCpl at h
  dsimp only at h
  split at h
  · split at h
    · split at h
      · rename_i hb
        cases h
        exact decide_eq_true hb
      · cases h
    · cases h
  · cases h

theorem keptTag_tagOk (kind : RequestKind) (tag : Byte) : kind.tagOk (keptTag kind tag) = true := by
  cases kind <;> rfl

theorem decodeReq_wellFormed {d : BitVec 64} {r : Record} (h : decodeReq d = some r) : r.wellFormed = true := by
  obtain ⟨_, kind, _, hl, rfl⟩ := decodeReq_eq_some.mp h
  exact Bool.and_eq_true_iff.mpr ⟨hl, keptTag_tagOk kind _⟩

/-- The requests by the code of their kind and their length (Table 1-2). -/
theorem exists_kind_iff (code length : Nat) :
    (∃ kind : RequestKind, code = kind.code ∧ kind.lengthOk length = true) ↔
      code ≤ 1 ∧ 1 ≤ length ∧ length ≤ 4096 ∨ code = 2 ∧ (length = 4 ∨ length = 8) ∨
        (code = 3 ∨ code = 4) ∧ length ≤ 4096 := by
  constructor
  · rintro ⟨kind, rfl, hl⟩
    cases kind <;> simp [RequestKind.lengthOk, RequestKind.code] at hl ⊢ <;> exact hl
  · rintro (⟨hcode, h1, h2⟩ | ⟨rfl, hl⟩ | ⟨rfl | rfl, hl⟩)
    · rcases Nat.le_one_iff_eq_zero_or_eq_one.mp hcode with rfl | rfl
      · exact ⟨.read, rfl, by simp [RequestKind.lengthOk, h1, h2]⟩
      · exact ⟨.npwrite, rfl, by simp [RequestKind.lengthOk, h1, h2]⟩
    · exact ⟨.atomic, rfl, by simpa [RequestKind.lengthOk] using hl⟩
    · exact ⟨.posted, rfl, by simpa [RequestKind.lengthOk] using hl⟩
    · exact ⟨.message, rfl, by simpa [RequestKind.lengthOk] using hl⟩

theorem decodeReq_isSome (d : BitVec 64) : (decodeReq d).isSome = true ↔
    recordField d 3 6 < 32 ∧ ∃ kind : RequestKind, recordField d 17 3 = kind.code ∧
      kind.lengthOk (recordField d 20 13) = true := by
  rw [Option.isSome_iff_exists]
  constructor
  · rintro ⟨r, hr⟩
    obtain ⟨h, kind, hcode, hl, -⟩ := decodeReq_eq_some.mp hr
    exact ⟨h, kind, hcode, hl⟩
  · rintro ⟨h, kind, hcode, hl⟩
    exact ⟨_, decodeReq_eq_some.mpr ⟨h, kind, hcode, hl, rfl⟩⟩

/-- What a transfer needs to be a valid record, by its kind code. -/
theorem decodeRecord_isSome (d : BitVec 64) : (decodeRecord d).isSome = true ↔
    recordField d 0 3 = 0 ∧ (decodeReq d).isSome = true ∨ recordField d 0 3 = 1 ∧ (decodeCpl d).isSome = true ∨
      recordField d 0 3 = 2 ∨ recordField d 0 3 = 3 ∨ recordField d 0 3 = 4 ∧ recordField d 3 2 ≤ 2 ∨
      recordField d 0 3 = 5 := by
  have hkind : recordField d 0 3 < 8 := recordField_lt d 0 3
  have hcode : recordField d 3 2 < 4 := recordField_lt d 3 2
  obtain h | h | h | h | h | h | h : recordField d 0 3 = 0 ∨ recordField d 0 3 = 1 ∨ recordField d 0 3 = 2 ∨
      recordField d 0 3 = 3 ∨ recordField d 0 3 = 4 ∨ recordField d 0 3 = 5 ∨ 6 ≤ recordField d 0 3 := by omega
  · simp [decodeRecord_of_req h, h]
  · simp [decodeRecord_of_cpl h, h]
  · simp [decodeRecord_of_stall h, h, creditTypeOfCode_isSome hcode]
  · simp [decodeRecord_of_retry h, h]
  · simp [decodeRecord_of_linkerr h, h, errorClassOfCode_isSome hcode]
  · simp [decodeRecord_of_mark h, h]
  · rw [decodeRecord_of_undefined h]
    simp
    omega

theorem decodeRecord_wellFormed {d : BitVec 64} {r : Record} (hr : decodeRecord d = some r) : r.wellFormed = true := by
  unfold decodeRecord at hr
  split at hr
  · exact decodeReq_wellFormed hr
  · exact decodeCpl_wellFormed hr
  · obtain ⟨credit, -, rfl⟩ := Option.map_eq_some_iff.mp hr
    rfl
  · cases hr
    rfl
  · obtain ⟨cls, -, rfl⟩ := Option.map_eq_some_iff.mp hr
    rfl
  · cases hr
    rfl
  · cases hr

/-- Settles O8, by the kind code of the transfer. -/
theorem recordValidity : Obligations.RecordValidity := by
  refine fun data => ⟨?_, fun _ => decodeRecord_wellFormed⟩
  rw [decodeRecord_isSome, decodeReq_isSome, decodeCpl_isSome, exists_kind_iff]
  simp only [recordField_eq, Nat.pow_zero, Nat.div_one, Nat.reducePow, Nat.lt_succ_iff (n := 31)]

end Sys2Proof
end

section
/-! Records taken, requests admitted, completion parts judged, closures and expiries (R11, R12, R21 to R36, R53). -/

namespace Sys2Proof.Machine

/-! ### Taking a record -/

theorem expiryFirst_iff (now : Tick) (k : Tracking) : k.expiryFirst now = true ↔
    ∃ first others e, k.table = first :: others ∧ reached now first.deadline = true ∧ e ∈ k.table ∧
      reached now e.deadline = true ∧ e.dueAhead = some 0 := by
  unfold Tracking.expiryFirst
  cases k.table with
  | nil => simp
  | cons first others =>
    simp only [List.any_eq_true, Bool.and_eq_true, beq_iff_eq]
    constructor
    · rintro ⟨hfirst, e, he, hdue, hnone⟩
      exact ⟨first, others, e, rfl, hfirst, he, hdue, hnone⟩
    · rintro ⟨_, _, e, heq, hfirst, he, hdue, hnone⟩
      cases heq
      exact ⟨hfirst, e, he, hdue, hnone⟩

theorem cutFirst_iff (now : Tick) (x : Probe) : x.cutFirst now = true ↔
    ∃ d, x.state = .draining ∧ x.drainDeadline = some d ∧ reached now d = true ∧ x.cutAhead = some 0 := by
  simp only [Probe.cutFirst, Bool.and_eq_true, cutDue_iff, beq_iff_eq, Option.any_eq_true]
  constructor
  · rintro ⟨⟨hstate, d, hd, hdue⟩, hnone⟩
    exact ⟨d, hstate, hd, hdue, hnone⟩
  · rintro ⟨d, hstate, hd, hdue, hnone⟩
    exact ⟨⟨hstate, d, hd, hdue⟩, hnone⟩

theorem visitFirst_iff (x : Purge) : x.visitFirst = true ↔ ∃ k, x.position = some k ∧ x.visitAhead = 0 := by
  simp [Purge.visitFirst, Option.isSome_iff_exists]

theorem engineWorkFirst_iff (s : State) : engineWorkFirst s = true ↔
    (∃ first others e, s.trk.table = first :: others ∧ reached s.timebase first.deadline = true ∧ e ∈ s.trk.table ∧
      reached s.timebase e.deadline = true ∧ e.dueAhead = some 0) ∨
    (∃ i d, (s.probe i).state = .draining ∧ (s.probe i).drainDeadline = some d ∧ reached s.timebase d = true ∧
      (s.probe i).cutAhead = some 0) ∨
    ∃ k, s.bank.purge.position = some k ∧ s.bank.purge.visitAhead = 0 := by
  simp only [engineWorkFirst, Bool.or_eq_true, expiryFirst_iff, visitFirst_iff, List.any_eq_true, List.mem_finRange,
    true_and, cutFirst_iff, or_assoc]

theorem exec_takeRecord_of_empty {s : State} (h : s.obs.queue = []) : exec .takeRecord s = .next s := by
  change execTakeRecord s = _
  simp only [execTakeRecord, h]

theorem exec_takeRecord_of_queued {s : State} {x : Stamped} {rest : List Stamped} (h : s.obs.queue = x :: rest) :
    exec .takeRecord s = whileReleased s (if engineWorkFirst s then s else handleRecord x (popRecord s)) := by
  change execTakeRecord s = _
  simp only [execTakeRecord, h]

theorem whileReleased_self (s : State) : whileReleased s s = .next s := ite_self _

theorem exec_takeRecord_of_work {s : State} (h : engineWorkFirst s = true) : exec .takeRecord s = .next s := by
  cases hq : s.obs.queue with
  | nil => exact exec_takeRecord_of_empty hq
  | cons x rest => rw [exec_takeRecord_of_queued hq, if_pos h, whileReleased_self]

theorem engineHandle_of_other {r : Record} (hreq : r.kind ≠ .req) (hcpl : r.kind ≠ .cpl) (stamp : Tick) (s : State) :
    engineHandle r stamp s = s := by
  cases r
  case req => exact absurd rfl hreq
  case cpl => exact absurd rfl hcpl
  all_goals rfl

theorem fireMark_of_other {r : Record} (hmark : r.kind ≠ .mark) (stamp : Tick) (s : State) : fireMark r stamp s = s := by
  cases r
  case mark => exact absurd rfl hmark
  all_goals rfl

theorem popRecord_obs {s : State} {x : Stamped} {rest : List Stamped} (h : s.obs.queue = x :: rest) :
    (popRecord s).obs = { s.obs with queue := rest } := by
  simp [popRecord, h]

/-- Settles O10: the order of R11 by the marks of due work, the handling of the record by what the engine's work leaves. -/
theorem takeRecordResult : Obligations.TakeRecordResult := by
  intro s
  refine ⟨exec_takeRecord_of_empty, engineWorkFirst_iff s, exec_takeRecord_of_work,
    fun _ _ _ _ => ⟨rfl, rfl, rfl, rfl, rfl, fun _ _ => rfl⟩,
    fun r stamp => ⟨fun hreq hcpl => engineHandle_of_other hreq hcpl stamp s, fun hmark => fireMark_of_other hmark stamp s⟩,
    fun x rest hreset hq hfree => ?_⟩
  have hpop := popRecord_obs hq
  have hw := engineWork_handleRecord x (popRecord s)
  refine ⟨handleRecord x (popRecord s), ?_, rfl, rfl, popRecord_probe s, rfl, ?_, hw.obs.trans hpop, hw.timebase, hw.resetN,
    hw.baud, hw.timeouts, hw.groupMap, hw.holder, hw.sessionCount, ?_, ?_, ?_, fun i => ?_⟩
  · rw [exec_takeRecord_of_queued hq, hfree]
    exact whileReleased_of_released _ hreset
  · rw [← hpop]
    rfl
  · rw [hw.purge]; rfl
  · rw [hw.purge]; rfl
  · rw [hw.purge]; rfl
  · obtain ⟨howner, hdef, hunit, hcut, -⟩ := hw.probes i
    rw [popRecord_probe] at howner hdef hunit hcut
    exact ⟨howner, hdef, hunit, hcut⟩

/-! ### Admission -/

theorem isLatency_iff (m : Measure) : m.isLatency = true ↔ m = .first ∨ m = .full := by
  cases m <;> simp [Measure.isLatency]

theorem matchesRequest_iff (x : Selector) (group : Fin 8) (kind : RequestKind) (tag : Byte) (length : Nat) :
    x.matchesRequest group kind tag length = true ↔
      x.groupSet.getLsbD group = true ∧ x.kindSet.getLsbD kind.code = true ∧ x.tagLo ≤ tag.toNat ∧ tag.toNat ≤ x.tagHi ∧
        x.lengthLo ≤ length ∧ length ≤ x.lengthHi := by
  simp only [Selector.matchesRequest, contains_eq_getLsbD, Bool.and_eq_true, within_iff, and_assoc]

theorem matchSetOf_iff (b : Bank) (group : Fin 8) (kind : RequestKind) (tag : Byte) (length : Nat) (i : ProbeNo) :
    (matchSetOf b group kind tag length).has i = true ↔
      (b.probe i).state = .running ∧ ∃ d, (b.probe i).definition = some d ∧ (d.measure = .first ∨ d.measure = .full) ∧
        d.selector.groupSet.getLsbD group = true ∧ d.selector.kindSet.getLsbD kind.code = true ∧
        d.selector.tagLo ≤ tag.toNat ∧ tag.toNat ≤ d.selector.tagHi ∧
        d.selector.lengthLo ≤ length ∧ length ≤ d.selector.lengthHi := by
  rw [matchSetOf, probesWhere_has, Bool.and_eq_true, beq_iff_eq]
  cases hd : (b.probe i).definition with
  | none => simp
  | some d => simp only [Bool.and_eq_true, isLatency_iff, matchesRequest_iff, Option.some.injEq, exists_eq_left']

theorem expects_eq (kind : TrackedKind) (length : Nat) : kind.expects length = if kind = .npwrite then 0 else length := by
  cases kind <;> rfl

theorem admitFresh_of_room {s : State} (key : Key) (kind : TrackedKind) (length : Nat) (stamp : Tick) {i : Fin 256}
    (hroom : s.trk.table.length < Config.tableEntries) (hfree : lowestFree s.trk.table = some i) :
    admitFresh key kind length stamp s = enterTable (newEntry i key kind length stamp s)
      { s with trk := { s.trk with ring := dropKey key s.trk.ring } } := by
  unfold admitFresh
  dsimp only
  rw [if_pos hroom, hfree]
  rfl

/-- Settles O11: the match set by its definition, the entry by the lowest free index. -/
theorem freshAdmission : Obligations.FreshAdmission := by
  refine ⟨matchSetOf_iff, fun s key kind length stamp habsent hroom => ?_⟩
  obtain ⟨i, hfree⟩ := exists_lowestFree hroom
  obtain ⟨hfresh, hlowest⟩ := lowestFree_eq_some.mp hfree
  refine ⟨newEntry i key kind length stamp s, hfresh, hlowest, rfl, rfl, rfl, expects_eq kind length, rfl, rfl, rfl, rfl,
    rfl, rfl, rfl, rfl, ?_⟩
  rw [handleRequest_of_absent kind length stamp habsent, admitFresh_of_room key kind length stamp hroom hfree]
  rfl

theorem handleRequest_of_pending {s : State} {key : Key} {old : Entry} (kind : TrackedKind) (length : Nat) (stamp : Tick)
    (h : findKey s.trk.table key = some old) :
    handleRequest key kind length stamp s =
      enterTable (newEntry old.index key kind length stamp (closeEntry old .superseded stamp 0 s))
        (closeEntry old .superseded stamp 0 s) := by
  simp only [handleRequest, h]

/-- A supersession leaves the table-full armed flag (R36). -/
theorem close_superseded {k : Tracking} (h : (k.table.map Entry.index).Nodup) (i : Fin 256) :
    k.close i .superseded = { k with
      table := k.table.filter (fun x => x.index != i)
      globals := { k.globals with superseded := satInc k.globals.superseded } } := by
  simp [Tracking.close, Globals.close, removeEntry_eq_filter h]

/-- Settles O12: the closure of the old transaction, then an admission into its index. -/
theorem supersession : Obligations.Supersession := by
  intro s old kind length stamp hlaw hold
  have hhandle := handleRequest_of_pending kind length stamp (findKey_of_mem hlaw.keys hold)
  have htrk : (handleRequest old.key kind length stamp s).trk =
      (s.trk.close old.index .superseded).enter
        (newEntry old.index old.key kind length stamp (closeEntry old .superseded stamp 0 s)) := by rw [hhandle]; rfl
  refine ⟨newEntry old.index old.key kind length stamp (closeEntry old .superseded stamp 0 s), rfl, rfl, rfl, rfl, rfl,
    expects_eq kind length, rfl, rfl, rfl, rfl, rfl, ?due, rfl, ?trk, ?length, ?_, ?_, ?_, ?pool, ?_, ?_⟩
  case due =>
    simp only [newEntry, closeEntry_timebase, closeEntry_obs]
  case trk =>
    rw [htrk, close_superseded hlaw.indices]
    rfl
  case length =>
    rw [htrk]
    exact (length_insertEntry _ _).trans (length_removeEntry hold)
  case pool =>
    rw [hhandle]
    exact sendNotices_pool (n := .removal) nofun stamp old.matchSet s
  · rw [hhandle]; rfl
  · rw [hhandle]; rfl
  · rw [hhandle]; exact closeEntry_obs ..
  · rw [hhandle]; exact closeEntry_harv ..
  · rw [hhandle]; exact closeEntry_timebase ..

/-! ### Completion parts -/

theorem judge_ok_of_not_read {e : Entry} (h : e.kind ≠ .read) (bytes : Nat) (last : Bool) :
    judge e .ok bytes last = if last && bytes == e.expected then .closes .complete else .closes .malformed := by
  unfold judge
  cases hk : e.kind
  case read => exact absurd hk h
  all_goals rfl

theorem judge_ok_of_read {e : Entry} (h : e.kind = .read) (bytes : Nat) (last : Bool) :
    judge e .ok bytes last =
      if bytes == 0 then .closes .malformed
      else if e.received + bytes > e.expected then .closes .malformed
      else if e.received + bytes == e.expected then if last then .closes .complete else .closes .malformed
      else if last then .closes .malformed else .continues := by
  simp only [judge, h]

/-- Settles O14, by the kind of the entry and the sum of the bytes. -/
theorem partJudgement : Obligations.PartJudgement := by
  refine fun e bytes last => ⟨rfl, rfl, fun hk hl hb => ?_, fun hk hbad => ?_, fun hk hb => ?_, fun hk hover => ?_,
    fun hk hb hsum hl => ?_, fun hk hb hsum hl => ?_, fun hk hb hsum hl => ?_, fun hk hb hsum hl => ?_⟩
  · simp [judge_ok_of_not_read hk, hl, hb]
  · rw [judge_ok_of_not_read hk, if_neg]
    rcases hbad with hl | hb
    · simp [hl]
    · simp [hb]
  · simp [judge_ok_of_read hk, hb]
  · simp [judge_ok_of_read hk, hover]
  · simp [judge_ok_of_read hk, hl, hb.ne', hsum]
  · simp [judge_ok_of_read hk, hl, hb.ne', hsum]
  · simp [judge_ok_of_read hk, hl, hb.ne', hsum.ne]
  · simp [judge_ok_of_read hk, hl, hb.ne', hsum.ne, hsum.le]

theorem handlePart_of_closes {s : State} {e : Entry} (hlaw : TableLaw s.trk) (he : e ∈ s.trk.table) {status : Status}
    {bytes : Nat} {last : Bool} {o : Closure} (h : judge e status bytes last = .closes o) (stamp : Tick) :
    handlePart e.key status bytes last stamp s = closeEntry e o stamp (stamp - e.issue) s := by
  simp only [handlePart, findKey_of_mem hlaw.keys he, h]

theorem handlePart_of_continues {s : State} {e : Entry} (hlaw : TableLaw s.trk) (he : e ∈ s.trk.table) {status : Status}
    {bytes : Nat} {last : Bool} (h : judge e status bytes last = .continues) (stamp : Tick) :
    handlePart e.key status bytes last stamp s = continueEntry e bytes stamp s := by
  simp only [handlePart, findKey_of_mem hlaw.keys he, h]

/-- The counters after a closure, one by one (Table 2-4). -/
theorem globals_close_eq (o : Closure) (g : Globals) : g.close o = { g with
    completed := if o = .complete then satInc g.completed else g.completed
    failed := if o = .failed then satInc g.failed else g.failed
    malformed := if o = .malformed then satInc g.malformed else g.malformed
    timedOut := if o = .timedOut then satInc g.timedOut else g.timedOut
    superseded := if o = .superseded then satInc g.superseded else g.superseded
    flushed := if o = .flushed then satInc g.flushed else g.flushed } := by
  cases o <;> rfl

/-- Settles O15: the notices by the pass in ascending number, the Tracking Engine by the outcome. -/
theorem closureEffects : Obligations.ClosureEffects := by
  intro s e o t latency hlaw he
  refine ⟨?_, closeEntry_probe e o t latency s, rfl, rfl, fun set n => ⟨members_ascending set, fun i => mem_members, rfl⟩,
    closeEntry_obs .., sendNotices_purge .., closeEntry_harv .., closeEntry_timebase .., rfl, rfl, rfl, rfl, rfl, rfl,
    fun status bytes last hj => handlePart_of_closes hlaw he hj t⟩
  rw [closeEntry_trk, Tracking.close, globals_close_eq, removeEntry_eq_filter hlaw.indices]
  rfl

theorem leavers_has (e : Entry) (b : Bank) (i : ProbeNo) : (leavers e b).has i = true ↔
    e.parts = 0 ∧ e.matchSet.has i = true ∧ (b.probe i).measures .first = true := by
  unfold leavers
  split
  · rename_i h
    simp [Bank.firstProbes, beq_iff_eq.mp h]
  · rename_i h
    rw [beq_iff_eq] at h
    exact ⟨fun hi => absurd hi (by simp), fun hi => absurd hi.1 h⟩

/-- The table after a part that continues the entry: it keeps its place. -/
theorem replaceEntry_continued (e : Entry) (bytes : Nat) (stamp : Tick) (gone : ProbeSet) (table : List Entry) :
    replaceEntry (e.continued bytes stamp gone) table = table.map (fun x => if x.index = e.index then { e with
      received := e.received + bytes
      parts := e.parts + 1
      state := .receiving
      first := if e.parts = 0 then some stamp else e.first
      matchSet := e.matchSet &&& ~~~gone } else x) := by
  simp only [replaceEntry, Entry.continued, beq_iff_eq]

/-- Settles O16: the FIRST probes leave with a sample at the first part, and the entry moves on in its place. -/
theorem partContinues : Obligations.PartContinues := by
  intro s e status bytes last stamp hlaw he hj
  rw [handlePart_of_continues hlaw he hj stamp]
  refine ⟨leavers e s.bank, leavers_has e s.bank, ?_, sendNotices_probe stamp _ _ s, rfl, rfl, sendNotices_purge ..,
    sendNotices_obs .., sendNotices_harv .., sendNotices_timebase ..⟩
  change { s.trk with table := replaceEntry (e.continued bytes stamp (leavers e s.bank)) s.trk.table } = _
  rw [replaceEntry_continued]

/-! ### Expiry -/

theorem exec_expiry_of_pending {s : State} {e : Entry} {rest : List Entry} (hreset : s.resetN = true)
    (h : s.trk.table = e :: rest) :
    exec .expiry s = .next (if reached s.timebase e.deadline then expireEntry e s else s) := by
  change execExpiry s = _
  simp only [execExpiry, h]
  exact whileReleased_of_released _ hreset

theorem close_timedOut_head {k : Tracking} {e : Entry} {rest : List Entry} (h : k.table = e :: rest) :
    k.close e.index .timedOut = { k with
      table := rest
      globals := { k.globals with timedOut := satInc k.globals.timedOut }
      tableFullArmed := k.tableFullArmed || decide (rest.length ≤ 192) } := by
  rw [Tracking.close, h, removeEntry_head]
  rfl

theorem pushRing_eq (r : RingRecord) (ring : List RingRecord) :
    pushRing r ring = (if ring.length < 16 then ring else ring.drop 1) ++ [r] :=
  (apply_ite (· ++ [r]) (ring.length < 16) ring (ring.drop 1)).symm

/-- Settles O18: the closure of the head of the list, then its key into the ring. -/
theorem expiryResult : Obligations.ExpiryResult := by
  intro s e rest hreset htable
  have hexec := exec_expiry_of_pending hreset htable
  refine ⟨fun hnot => ?_, fun hdue => ?_⟩
  · rw [hexec, hnot]
    rfl
  · rw [hexec, if_pos hdue]
    have hw := engineWork_expireEntry e s
    refine ⟨expireEntry e s, rfl, ?_, fun i => closeEntry_probe e .timedOut e.deadline 0 s i, rfl, hw.purge, hw.obs,
      sendNotices_pool (n := .timeout) nofun _ _ s, sendNotices_harv .., hw.timebase, hw.resetN, hw.baud, hw.pending⟩
    have htrk : (expireEntry e s).trk = { s.trk.close e.index .timedOut with
        ring := pushRing { key := e.key, kind := e.kind, expiry := e.deadline } s.trk.ring } := rfl
    rw [htrk, close_timedOut_head htable, pushRing_eq]

end Sys2Proof.Machine
end

section
/-! What a notice does to its probe and which alerts it raises (R91 to R94, R97); drain cuts and the visits of a sweep
(R30, R98, R102, R103). -/

namespace Sys2Proof.Machine

/-! ### One notice -/

theorem valuesAfter_of_recording {x : Probe} (n : Notice) (h : x.recording = true) :
    x.valuesAfter n = x.values.note x.threshold n := if_pos h

/-- The values after a recorded sample, field by field (R91). -/
theorem addSample_eq (threshold : BitVec 32) (L : Tick) (v : Values) : v.addSample threshold L = { v with
    samples := satInc v.samples
    sum := satAdd v.sum L.toNat
    min := if L.toNat < v.min.toNat then L else v.min
    max := if v.max.toNat < L.toNat then L else v.max
    overCount := if threshold ≠ 0 ∧ threshold.toNat < L.toNat then satInc v.overCount else v.overCount } := by
  simp only [Values.addSample, Bool.and_eq_true, bne_iff_ne, decide_eq_true_eq]

/-- A probe that does not drain keeps its state at a notice. -/
theorem take_state_of_not_draining {x : Probe} (n : Notice) (h : x.state ≠ .draining) : (x.take n).state = x.state :=
  (take_state n x).trans (if_neg fun he => h ((emptiesDrain_iff x).mp he).1)

/-- Settles O20, by whether the probe records. -/
theorem noticeRecording : Obligations.NoticeRecording := by
  intro x n
  refine ⟨rfl, rfl, rfl, rfl, rfl, fun hrun hdrain => ?quiet, ?removal, fun hrec => ?recorded⟩
  case quiet =>
    have hnot : x.recording = false := by
      rw [← Bool.not_eq_true, recording_iff]
      exact fun h => h.elim hrun hdrain
    exact ⟨valuesAfter_of_not_recording n hnot, take_state_of_not_draining n hdrain⟩
  case removal =>
    rw [take_values, Probe.valuesAfter]
    split <;> rfl
  case recorded =>
    have hrec' := (recording_iff x).mpr hrec
    refine ⟨valuesAfter_of_recording .fault hrec', valuesAfter_of_recording .timeout hrec', fun L => ?_⟩
    exact (valuesAfter_of_recording (.sample L) hrec').trans (addSample_eq x.threshold L x.values)

theorem limitHit_iff (n : Notice) (x : Probe) : x.limitHit n = true ↔
    x.alertLimit ≠ 0 ∧ x.alertArmed = true ∧ (x.take n).values.overCount ≠ x.values.overCount ∧
      (x.take n).values.overCount = x.alertLimit := by
  simp only [Probe.limitHit, take_values, Bool.and_eq_true, bne_iff_ne, beq_iff_eq, and_assoc]

theorem notify_mgmt (t : Tick) (i : ProbeNo) (n : Notice) (s : State) :
    (notify t i n s).mgmt = alertNotice t i n (s.probe i) s.mgmt := rfl

/-- The alerts of one notice, by its two conditions. -/
theorem alertNotice_eq (t : Tick) (i : ProbeNo) (n : Notice) (x : Probe) (m : Management) :
    alertNotice t i n x m =
      (let m1 :=
        if x.alertLimit ≠ 0 ∧ x.alertArmed = true ∧ (x.take n).values.overCount ≠ x.values.overCount ∧
            (x.take n).values.overCount = x.alertLimit then
          m.raiseToOwner x.owner (.probeLimit i (x.take n).values.overCount) t
        else m
      if x.state = .draining ∧ x.inFlight ≤ 1 then m1.raiseToOwner x.owner (.drained i .emptied 0) t else m1) := by
  simp only [alertNotice, limitHit_iff, emptiesDrain_iff, ← take_values]

theorem take_alertArmed (n : Notice) (x : Probe) : (x.take n).alertArmed = true ↔ x.alertArmed = true ∧
    ¬ (x.alertLimit ≠ 0 ∧ (x.take n).values.overCount ≠ x.values.overCount ∧
      (x.take n).values.overCount = x.alertLimit) := by
  change (x.alertArmed && !x.limitHit n) = true ↔ _
  rw [Bool.and_eq_true, Bool.not_eq_true', ← Bool.not_eq_true, limitHit_iff]
  refine and_congr_right fun harmed => not_congr ?_
  simp only [harmed, true_and]

/-- Settles O21: the two conditions of a notice, PROBE_LIMIT first, and what the drain's end does to the probe. -/
theorem noticeAlerts : Obligations.NoticeAlerts := by
  intro s t i n
  rw [notify_probe_same, notify_mgmt]
  refine ⟨alertNotice_eq t i n (s.probe i) s.mgmt, fun hstate hlast => ?_, fun hnot => ?_, take_alertArmed n (s.probe i),
    fun j hj => notify_probe_ne t n s hj, rfl, rfl, rfl⟩
  · have hempties := (emptiesDrain_iff (s.probe i)).mpr ⟨hstate, hlast⟩
    exact ⟨(take_state n _).trans (if_pos hempties), (take_drainDeadline n _).trans (if_pos hempties)⟩
  · have hstays : ¬ (s.probe i).emptiesDrain = true := fun he => hnot ((emptiesDrain_iff _).mp he)
    exact ⟨(take_state n _).trans (if_neg hstays), (take_drainDeadline n _).trans (if_neg hstays)⟩

/-! ### Additions to the purge engine -/

theorem add_of_empty {set : ProbeSet} (queued : Nat) (x : Purge) (h : set = 0) : x.add set queued = x :=
  if_pos (beq_iff_eq.mpr h)

theorem add_of_idle {set : ProbeSet} (queued : Nat) {x : Purge} (hset : set ≠ 0) (h : x.current = 0) :
    x.add set queued = { current := set, waiting := x.waiting, position := some 0, visitAhead := queued } := by
  rw [Purge.add, if_neg (by simpa using hset), if_pos (beq_iff_eq.mpr h)]

theorem add_of_busy {set : ProbeSet} (queued : Nat) {x : Purge} (hset : set ≠ 0) (h : x.current ≠ 0) :
    x.add set queued = { x with waiting := x.waiting ||| set } := by
  rw [Purge.add, if_neg (by simpa using hset), if_neg (by simpa using h)]

/-! ### The drain cut -/

theorem cutDue_iff_exists (now : Tick) (x : Probe) :
    x.cutDue now = true ↔ x.state = .draining ∧ ∃ d, x.drainDeadline = some d ∧ reached now d = true := by
  rw [cutDue_iff, Option.any_eq_true]

theorem exec_drainCut_of_high {s : State} (i : ProbeNo) (h : s.resetN = true) :
    exec (.drainCut i) s = .next (if (s.probe i).cutDue s.timebase then cutDrain i s else s) :=
  whileReleased_of_released _ h

theorem single_ne_zero (i : ProbeNo) : (1#16 <<< i.val) ≠ 0 :=
  (ProbeSet.ne_zero_iff _).mpr ⟨i, by rw [ProbeSet.has_single]; exact decide_eq_true rfl⟩

/-- Settles O24: the probe is cut and handed to the purge engine, whether it is idle or not. -/
theorem drainCutResult : Obligations.DrainCutResult := by
  intro s i hreset
  rw [exec_drainCut_of_high i hreset]
  refine ⟨fun d hstate hd hdue => ?_, fun hnot => ?_⟩
  · have hcut : (s.probe i).cutDue s.timebase = true :=
      (cutDue_iff_exists _ _).mpr ⟨hstate, d, hd, hdue⟩
    have hpurge : (cutDrain i s).bank.purge = s.bank.purge.add (1#16 <<< i.val) s.obs.queue.length := rfl
    refine ⟨cutDrain i s, by rw [if_pos hcut], Bank.probe_setProbe_same .., fun j hj => Bank.probe_setProbe_ne _ _ hj,
      fun hidle => ?_, fun hbusy => ?_, rfl⟩
    · rw [hpurge, add_of_idle _ (single_ne_zero i) hidle]
      exact ⟨rfl, rfl, rfl, rfl⟩
    · rw [hpurge, add_of_busy _ (single_ne_zero i) hbusy]
  · rw [if_neg]
    intro hcut
    obtain ⟨hstate, d, hd, hdue⟩ := (cutDue_iff_exists _ _).mp hcut
    rw [hnot d hstate hd] at hdue
    cases hdue

/-! ### The visit of an index below 255 -/

theorem exec_sweepVisit_of_idle {s : State} (h : s.bank.purge.position = none) : exec .sweepVisit s = .next s := by
  change execSweepVisit s = _
  simp only [execSweepVisit, h]

theorem exec_sweepVisit_below {s : State} {k : Fin 256} (hreset : s.resetN = true)
    (hk : s.bank.purge.position = some k) (hne : k ≠ 255) :
    exec .sweepVisit s = .next (advanceSweep k (visitEntry k s)) := by
  change execSweepVisit s = _
  simp only [execSweepVisit, hk, beq_iff_eq, if_neg hne]
  exact whileReleased_of_released _ hreset

/-- The probes that the visit of an index reaches: those of the current set that the entry there names. -/
theorem visitEntry_probe {s : State} (h : EngineLaw s) (k : Fin 256) (i : ProbeNo) :
    (visitEntry k s).probe i =
      if s.bank.purge.current.has i = true ∧ ∃ e ∈ s.trk.table, e.index = k ∧ e.matchSet.has i = true then
        { s.probe i with inFlight := (s.probe i).inFlight - 1 }
      else s.probe i := by
  cases hf : findIndex s.trk.table k with
  | none =>
    rw [visitEntry_of_free hf, if_neg]
    rintro ⟨-, e, he, hindex, -⟩
    exact findIndex_eq_none.mp hf e he hindex
  | some e =>
    obtain ⟨he, hindex⟩ := mem_of_findIndex hf
    rw [visitEntry_probe_of_pending hf]
    simp only [ProbeSet.has_and, Bool.and_eq_true]
    by_cases hi : e.matchSet.has i = true ∧ s.bank.purge.current.has i = true
    · rw [if_pos hi, if_pos ⟨hi.2, e, he, hindex, hi.1⟩, take_removal (h.not_draining_of_current hi.2)]
    · rw [if_neg hi, if_neg]
      rintro ⟨hcurrent, x, hx, hxindex, hxi⟩
      rw [eq_of_nodup_map h.table.indices hx he (hxindex.trans hindex.symm)] at hxi
      exact hi ⟨hxi, hcurrent⟩

/-- Settles O25: the visit by the entry at the index, then the move to the next index. -/
theorem sweepVisitResult : Obligations.SweepVisitResult := by
  intro s h hreset
  refine ⟨exec_sweepVisit_of_idle, fun k hk hne => ?below, fun hlast hwaiting => ?last⟩
  case below =>
    have hw := engineWork_visitEntry k s
    refine ⟨_, exec_sweepVisit_below hreset hk hne, visitEntry_trk h.table.indices k, ?_, ?_, rfl, ?_,
      visitEntry_probe h k, ?_⟩
    · change (visitEntry k s).bank.purge.current = _
      rw [hw.purge]
    · change (visitEntry k s).bank.purge.waiting = _
      rw [hw.purge]
    · change (visitEntry k s).obs.queue.length = _
      rw [hw.obs]
    · have hframe := visitEntry_frame h k
      unfold advanceSweep
      rw [hframe]
  case last =>
    refine ⟨_, exec_sweepVisit_last hreset hlast, ?_⟩
    have hw := engineWork_visitEntry 255 s
    change ((visitEntry 255 s).bank.purge.endSweep (visitEntry 255 s).obs.queue.length).visitAhead = _
    rw [hw.purge, endSweep_of_waiting _ hwaiting, hw.obs]

end Sys2Proof.Machine
end

section
/-! What every management command has in common: the levels of checks in their order, a refusal that changes nothing but
the replies, retries and unknown types (R160 to R162, R164, R167, R176 to R178). -/

namespace Sys2Proof.Machine

/-! ### One level of checks -/

theorem refuseIf_of_fails {fails : Bool} (h : fails = true) (code : ReplyCode) (v : Verdict) :
    refuseIf fails code v = .refusal code [] := if_pos h

theorem refuseIf_of_passes {fails : Bool} (h : fails = false) (code : ReplyCode) (v : Verdict) :
    refuseIf fails code v = v := if_neg (by rw [h]; nofun)

theorem refuseProbe_of_some {failing : Option ProbeNo} {i : ProbeNo} (h : failing = some i) (code : ProbeNo → ReplyCode)
    (v : Verdict) : refuseProbe failing code v = .refusal (code i) [byte i] := by rw [h]; rfl

theorem refuseProbe_of_none {failing : Option ProbeNo} (h : failing = none) (code : ProbeNo → ReplyCode) (v : Verdict) :
    refuseProbe failing code v = v := by rw [h]; rfl

theorem whenHolder_refuses {p : Port} {s : State} (h : s.mgmt.holder ≠ some p) (v : Verdict) :
    whenHolder p s v = .refusal .notHolder [] := refuseIf_of_fails (by simpa using h) _ _

theorem not_ownedBy_iff (p : Port) (x : Probe) : (!x.ownedBy p) = true ↔ x.owner ≠ some p := by
  simp [Probe.ownedBy]

theorem whenOwner_refuses {p : Port} {s : State} {set : ProbeSet} {i : ProbeNo}
    (h : LowestFailing set (fun j => (s.probe j).owner ≠ some p) i) (v : Verdict) :
    whenOwner p s set v = .refusal .notOwner [byte i] :=
  refuseProbe_of_some (lowestIn_of_lowestFailing (fun j => not_ownedBy_iff p (s.probe j)) h) _ v

theorem whenOwner_passes {p : Port} {s : State} {set : ProbeSet}
    (h : NoneFails set (fun j => (s.probe j).owner ≠ some p)) (v : Verdict) : whenOwner p s set v = v :=
  refuseProbe_of_none (lowestIn_of_noneFails (fun j => not_ownedBy_iff p (s.probe j)) h) _ v

/-- No probe of the empty set fails. -/
theorem noneFails_zero (bad : ProbeNo → Prop) : NoneFails 0 bad := fun i hi => by simp at hi

theorem whenOpen_refuses_length (p : Port) (s : State) {ok : Bool} (h : ok = false) (v : Verdict) :
    whenOpen p s ok v = .refusal .badLength [] := refuseIf_of_fails (by rw [h]; rfl) _ _

theorem whenOpen_refuses_session {p : Port} {s : State} {ok : Bool} (h : ok = true) (hc : (s.port p).isOpen = false)
    (v : Verdict) : whenOpen p s ok v = .refusal .notOpen [] :=
  (refuseIf_of_passes (by rw [h]; rfl) _ _).trans (refuseIf_of_fails (by rw [hc]; rfl) _ _)

/-! ### A command that passes levels 1 to 3 -/

/-- The command of an OPEN port that is refused at a later level. -/
theorem dispatch_refused {p : Port} {type : Byte} {c : Command} {s : State} (h : CommandPasses p type c s)
    {run : List Byte → State → Verdict} {ok : Bool} {v : Verdict} {code : ReplyCode} {body : List Byte}
    (hrun : run c.body s = whenOpen p s ok v) (hok : ok = true) (hv : v = .refusal code body) :
    dispatch p type run s = .next (answered p c code body s) := by
  rw [dispatch_of_passes h hrun hok, hv, conclude_refusal]

/-- The command of an OPEN port that is accepted. -/
theorem dispatch_accepted {p : Port} {type : Byte} {c : Command} {s u : State} (h : CommandPasses p type c s)
    {run : List Byte → State → Verdict} {ok : Bool} {v : Verdict} {body : List Byte}
    (hrun : run c.body s = whenOpen p s ok v) (hok : ok = true) (hv : v = .accept body u) :
    dispatch p type run s = .next (answered p c .ok body u) := by
  rw [dispatch_of_passes h hrun hok, hv, conclude_accept]

/-! ### The shared checks of each command -/

/-- The types of the commands executed in either session state (R164). -/
def anySessionTypes : List Byte := [0x01#8, 0x02#8, 0x03#8]

/-- The types of the five commands that require the configuration claim (R167). -/
def holderTypes : List Byte := [0x10#8, 0x11#8, 0x1A#8, 0x1C#8, 0x20#8]

/-- The types of the commands that change a set of probes the port must own (R81, R83). -/
def ownerTypes : List Byte := [0x2B#8, 0x2C#8, 0x2D#8]

/-- The verdict on a command begins with the checks its type shares with others. -/
inductive SharedForm (p : Port) (type : Byte) (body : List Byte) (s : State) : Verdict → Prop
  | anySession (v : Verdict) (ht : type ∈ anySessionTypes) :
    SharedForm p type body s (refuseIf (!lengthAccepted type body) .badLength v)
  | openSession (v : Verdict) (ht : type ∉ anySessionTypes ++ holderTypes ++ ownerTypes) :
    SharedForm p type body s (whenOpen p s (lengthAccepted type body) v)
  | holder (v : Verdict) (ht : type ∈ holderTypes) :
    SharedForm p type body s (whenOpen p s (lengthAccepted type body) (whenHolder p s v))
  | owner (empty : Bool) (v : Verdict) (ht : type ∈ ownerTypes) (hempty : probeSetAt body 0 = 0 → empty = true) :
    SharedForm p type body s (whenOpen p s (lengthAccepted type body)
      (whenOwner p s (probeSetAt body 0) (refuseIf empty .badArgument v)))

theorem exec_sharedForm {i : Instr} {p : Port} {type : Byte} (h : i.dispatched = some (p, type)) :
    ∃ run : List Byte → State → Verdict, (∀ s, exec i s = dispatch p type run s) ∧
      ∀ body s, SharedForm p type body s (run body s) := by
  cases i
  case identify => cases h; exact ⟨_, fun _ => rfl, fun _ _ => .anySession _ (by decide)⟩
  case portStatus => cases h; exact ⟨_, fun _ => rfl, fun _ _ => .anySession _ (by decide)⟩
  case openSession => cases h; exact ⟨_, fun _ => rfl, fun _ _ => .anySession _ (by decide)⟩
  case closeSession => cases h; exact ⟨_, fun _ => rfl, fun _ _ => .openSession _ (by decide)⟩
  case claimConfig => cases h; exact ⟨_, fun _ => rfl, fun _ _ => .openSession _ (by decide)⟩
  case unclaimConfig => cases h; exact ⟨_, fun _ => rfl, fun _ _ => .openSession _ (by decide)⟩
  case intakeEnable => cases h; exact ⟨_, fun _ => rfl, fun _ _ => .holder _ (by decide)⟩
  case intakeDisable => cases h; exact ⟨_, fun _ => rfl, fun _ _ => .holder _ (by decide)⟩
  case readIntake => cases h; exact ⟨_, fun _ => rfl, fun _ _ => .openSession _ (by decide)⟩
  case readGlobals => cases h; exact ⟨_, fun _ => rfl, fun _ _ => .openSession _ (by decide)⟩
  case listPending => cases h; exact ⟨_, fun _ => rfl, fun _ _ => .openSession _ (by decide)⟩
  case clearTracking => cases h; exact ⟨_, fun _ => rfl, fun _ _ => .holder _ (by decide)⟩
  case setTimeouts =>
    cases h
    refine ⟨_, fun _ => rfl, fun body s => ?_⟩
    rw [cmdSetTimeouts, ← lengthAccepted_settings]
    exact .holder _ (by decide)
  case readTimeouts => cases h; exact ⟨_, fun _ => rfl, fun _ _ => .openSession _ (by decide)⟩
  case listExpired => cases h; exact ⟨_, fun _ => rfl, fun _ _ => .openSession _ (by decide)⟩
  case setGroupMap => cases h; exact ⟨_, fun _ => rfl, fun _ _ => .holder _ (by decide)⟩
  case readGroupMap => cases h; exact ⟨_, fun _ => rfl, fun _ _ => .openSession _ (by decide)⟩
  case claimProbes => cases h; exact ⟨_, fun _ => rfl, fun _ _ => .openSession _ (by decide)⟩
  case unclaimProbes => cases h; exact ⟨_, fun _ => rfl, fun _ _ => .openSession _ (by decide)⟩
  case defineProbe =>
    cases h
    refine ⟨_, fun _ => rfl, fun body s => ?_⟩
    rw [cmdDefineProbe, ← lengthAccepted_define]
    exact .openSession _ (by decide)
  case startProbes =>
    cases h
    exact ⟨_, fun _ => rfl, fun _ _ => .owner _ _ (by decide) fun h => by rw [h]; rfl⟩
  case stopProbes =>
    cases h
    exact ⟨_, fun _ => rfl, fun _ _ => .owner _ _ (by decide) fun h => by rw [h]; rfl⟩
  case clearProbes =>
    cases h
    exact ⟨_, fun _ => rfl, fun _ _ => .owner _ _ (by decide) fun h => by rw [h]; rfl⟩
  case probeStatus => cases h; exact ⟨_, fun _ => rfl, fun _ _ => .openSession _ (by decide)⟩
  case poolStatus => cases h; exact ⟨_, fun _ => rfl, fun _ _ => .openSession _ (by decide)⟩
  case harvest => cases h; exact ⟨_, fun _ => rfl, fun _ _ => .openSession _ (by decide)⟩
  case readSnapshot => cases h; exact ⟨_, fun _ => rfl, fun _ _ => .openSession _ (by decide)⟩
  case freeSnapshot => cases h; exact ⟨_, fun _ => rfl, fun _ _ => .openSession _ (by decide)⟩
  case snapshotStatus => cases h; exact ⟨_, fun _ => rfl, fun _ _ => .openSession _ (by decide)⟩
  case setTrigger => cases h; exact ⟨_, fun _ => rfl, fun _ _ => .openSession _ (by decide)⟩
  case clearTrigger => cases h; exact ⟨_, fun _ => rfl, fun _ _ => .openSession _ (by decide)⟩
  case triggerStatus => cases h; exact ⟨_, fun _ => rfl, fun _ _ => .openSession _ (by decide)⟩
  case setAlertMask => cases h; exact ⟨_, fun _ => rfl, fun _ _ => .openSession _ (by decide)⟩
  case ackAlert => cases h; exact ⟨_, fun _ => rfl, fun _ _ => .openSession _ (by decide)⟩
  case alertStatus => cases h; exact ⟨_, fun _ => rfl, fun _ _ => .openSession _ (by decide)⟩
  all_goals cases h

section

variable {p : Port} {type : Byte} {body : List Byte} {s : State} {v : Verdict}

/-- Level 2 refuses whatever the command (R176). -/
theorem SharedForm.badLength (h : SharedForm p type body s v) (hl : lengthAccepted type body = false) :
    v = .refusal .badLength [] := by
  cases h with
  | anySession v _ => exact refuseIf_of_fails (by rw [hl]; rfl) _ _
  | openSession v _ => exact whenOpen_refuses_length p s hl _
  | holder v _ => exact whenOpen_refuses_length p s hl _
  | owner _ v _ _ => exact whenOpen_refuses_length p s hl _

/-- Level 3 refuses all but three commands (R164). -/
theorem SharedForm.notOpen (h : SharedForm p type body s v) (hl : lengthAccepted type body = true)
    (hc : (s.port p).isOpen = false) (ht : type ∉ anySessionTypes) : v = .refusal .notOpen [] := by
  cases h with
  | anySession v ht' => exact absurd ht' ht
  | openSession v _ => exact whenOpen_refuses_session hl hc _
  | holder v _ => exact whenOpen_refuses_session hl hc _
  | owner _ v _ _ => exact whenOpen_refuses_session hl hc _

theorem holderTypes_apart {t : Byte} (h : t ∈ holderTypes) : t ∉ anySessionTypes ∧ t ∉ ownerTypes := by
  revert t
  decide

theorem ownerTypes_apart {t : Byte} (h : t ∈ ownerTypes) : t ∉ anySessionTypes ∧ t ∉ holderTypes := by
  revert t
  decide

/-- Level 4 of the commands that require the claim (R167). -/
theorem SharedForm.notHolder (h : SharedForm p type body s v) (hl : lengthAccepted type body = true)
    (ho : (s.port p).isOpen = true) (ht : type ∈ holderTypes) (hc : s.mgmt.holder ≠ some p) :
    v = .refusal .notHolder [] := by
  obtain ⟨hany, howner⟩ := holderTypes_apart ht
  cases h with
  | anySession v ht' => exact absurd ht' hany
  | openSession v ht' => exact absurd (List.mem_append_left _ (List.mem_append_right _ ht)) ht'
  | holder v _ => rw [whenOpen_pass _ hl ho, whenHolder_refuses hc]
  | owner _ v ht' _ => exact absurd ht' howner

/-- Levels 4 and 5 of the commands that change a set of probes (R81, R83). -/
theorem SharedForm.ownerForm (h : SharedForm p type body s v) (hl : lengthAccepted type body = true)
    (ho : (s.port p).isOpen = true) (ht : type ∈ ownerTypes) :
    ∃ empty w, v = whenOwner p s (probeSetAt body 0) (refuseIf empty .badArgument w) ∧
      (probeSetAt body 0 = 0 → empty = true) := by
  obtain ⟨hany, hholder⟩ := ownerTypes_apart ht
  cases h with
  | anySession v ht' => exact absurd ht' hany
  | openSession v ht' => exact absurd (List.mem_append_right _ ht) ht'
  | holder v ht' => exact absurd ht' hholder
  | owner empty w _ hempty => exact ⟨empty, w, whenOpen_pass _ hl ho, hempty⟩

end

/-- Settles O27, by the checks with which the verdict on each command begins. -/
theorem sharedChecks : Obligations.SharedChecks := by
  intro i p type c s hi hw ht
  obtain ⟨run, hexec, hform⟩ := exec_sharedForm hi
  have hv := hform c.body s
  rw [hexec, dispatch_of_waits hw ht]
  refine ⟨fun hl => ?_, fun hl hc hany => ?_, fun hpass hholder hc => ?_, fun hpass howner => ⟨fun j hj => ?_, fun hzero => ?_⟩⟩
  · rw [hv.badLength hl, conclude_refusal]
  · rw [hv.notOpen hl hc hany, conclude_refusal]
  · rw [hv.notHolder hpass.length hpass.session hholder hc, conclude_refusal]
  · obtain ⟨empty, w, hverdict, -⟩ := hv.ownerForm hpass.length hpass.session howner
    rw [hverdict, whenOwner_refuses hj, conclude_refusal]
  · obtain ⟨empty, w, hverdict, hempty⟩ := hv.ownerForm hpass.length hpass.session howner
    rw [hverdict, refuseIf_of_fails (hempty hzero), hzero, whenOwner_passes (noneFails_zero _), conclude_refusal]

/-- Settles O28: the verdict was a refusal, since an accepted command is answered OK. -/
theorem refusalChangesNothing : Obligations.RefusalChangesNothing := by
  intro i p type c s t r hi hw ht hexec hr hcode
  obtain ⟨run, hrun, -⟩ := exec_dispatched hi
  rw [hrun, dispatch_of_waits hw ht] at hexec
  cases hexec
  cases hv : run c.body s with
  | refusal code body =>
    rw [hv, conclude_refusal, answered_port] at hr
    cases hr
    rw [conclude_refusal]
  | accept body u =>
    rw [hv, conclude_accept, answered_port] at hr
    cases hr
    exact absurd rfl hcode

/-! ### Retries and unknown types -/

theorem exec_commandRetry_of_executing {p : Port} {s : State} {c : Command} (hreset : s.resetN = true)
    (h : (s.port p).executing = some c) :
    exec (.commandRetry p) s = .next (if isRetry (s.port p) c then resendReply p s else s) := by
  change execCommandRetry p s = _
  simp only [execCommandRetry, h]
  exact whileReleased_of_released _ hreset

theorem exec_unknownCommand_of_waits {p : Port} {s : State} {c : Command} (h : CommandWaits p c s) :
    exec (.unknownCommand p) s =
      .next (if !knownType c.type then answered p c .unknownCommand [] s else s) := by
  change execUnknownCommand p s = _
  simp only [execUnknownCommand, h.taken, isRetry_eq_false.mpr h.fresh, Bool.not_false, Bool.true_and]
  exact whileReleased_of_released _ h.released

theorem knownType_iff (t : Byte) : knownType t = true ↔ t ∈ commandTypes := List.contains_iff_mem

/-- Settles O29, by whether the command taken is a retry and whether its type is one of Table 10-5. -/
theorem retryAndUnknown : Obligations.RetryAndUnknown := by
  intro p c s
  refine ⟨fun r hreset htaken hlast hseq htype => ?_, fun hw hunknown => ?_, fun hw => ?_, fun hw hknown => ?_,
    fun i type hi hother => ?_⟩
  · rw [exec_commandRetry_of_executing hreset htaken, if_pos (isRetry_eq_true.mpr ⟨r, hlast, hseq, htype⟩), resendReply,
      hlast]
  · have hnot : knownType c.type = false := by rw [← Bool.not_eq_true, knownType_iff]; exact hunknown
    rw [exec_unknownCommand_of_waits hw, hnot]
    rfl
  · rw [exec_commandRetry_of_executing hw.released hw.taken, isRetry_eq_false.mpr hw.fresh]
    rfl
  · rw [exec_unknownCommand_of_waits hw, (knownType_iff _).mpr hknown]
    rfl
  · obtain ⟨run, hexec, -⟩ := exec_dispatched hi
    rw [hexec, dispatch_otherwise hother]

end Sys2Proof.Machine
end

section
/-! The commands of sessions, of the configuration claim, of the Observation Port and of the Tracking Engine (R13 to R15,
R39 to R47, R58, R66 to R68, R164 to R171). -/

namespace Sys2Proof.Machine

/-! ### Sessions and the configuration claim -/

theorem exec_identify_eq (p : Port) (s : State) : exec (.identify p) s = dispatch p 0x01#8 (cmdIdentify p) s := rfl

theorem exec_portStatus_eq (p : Port) (s : State) : exec (.portStatus p) s = dispatch p 0x02#8 (cmdPortStatus p) s := rfl

theorem exec_openSession_eq (p : Port) (s : State) : exec (.openSession p) s = dispatch p 0x03#8 (cmdOpenSession p) s := rfl

theorem cmdOpenSession_of_closed {p : Port} {s : State} (h : (s.port p).isOpen = false) :
    cmdOpenSession p [] s = .accept (le 2 (s.mgmt.sessionCount + 1).toNat ++ [1]) (sessionOpen p s) :=
  (refuseIf_of_passes rfl _ _).trans (if_neg (by rw [h]; nofun))

theorem cmdOpenSession_of_open {p : Port} {s : State} (h : (s.port p).isOpen = true) :
    cmdOpenSession p [] s = .accept (le 2 (s.port p).sessionNumber.toNat ++ [0]) s :=
  (refuseIf_of_passes rfl _ _).trans (if_pos h)

/-- Settles O30: a body of no bytes passes level 2, and the session decides what OPEN_SESSION does. -/
theorem commandsOfAClosedSession : Obligations.CommandsOfAClosedSession := by
  intro p c s hw hbody
  refine ⟨fun ht => ?_, fun ht => ?_, fun ht hc => ?_, fun ht ho => ?_⟩
  · rw [exec_identify_eq, dispatch_of_waits hw ht, hbody]
    rfl
  · rw [exec_portStatus_eq, dispatch_of_waits hw ht, hbody]
    rfl
  · rw [exec_openSession_eq, dispatch_of_waits hw ht, hbody, cmdOpenSession_of_closed hc]
    rfl
  · rw [exec_openSession_eq, dispatch_of_waits hw ht, hbody, cmdOpenSession_of_open ho]
    rfl

theorem sessionClose_counts (p : Port) (s : State) :
    (sessionClose p s).mgmt.sessionCount = s.mgmt.sessionCount ∧
      (sessionClose p s).mgmt.undeliverable = s.mgmt.undeliverable :=
  ⟨setPort_sessionCount .., setPort_undeliverable ..⟩

/-- Settles O31, by what a session close does to each block. -/
theorem closeSessionResult : Obligations.CloseSessionResult := by
  intro p c s h
  obtain ⟨hcount, hundeliverable⟩ := sessionClose_counts p s
  exact ⟨sessionClose p s, dispatch_accepted h rfl h.length rfl, holdsNothing_sessionClose p s, sessionClose_port p s,
    sessionClose_port_other p s, sessionClose_probe p s, fun k => ⟨sessionClose_slots p s k, sessionClose_triggers p s k⟩,
    rfl, sessionClose_holder p s, hcount, hundeliverable, rfl, rfl, rfl, rfl, rfl, rfl, rfl, rfl⟩

/-- Settles O32, by the holder of the claim. -/
theorem configClaim : Obligations.ConfigClaim := by
  intro p c s
  refine ⟨fun h hfree => ?_, fun h hother => ?_, fun h hown => ?_, fun h hnot => ?_⟩
  · exact dispatch_accepted h rfl h.length (if_neg (by simpa using hfree))
  · exact dispatch_refused h rfl h.length (if_pos (by rw [hother]; exact beq_self_eq_true _))
  · exact dispatch_accepted h rfl h.length (whenHolder_pass _ hown)
  · exact dispatch_refused h rfl h.length (whenHolder_refuses hnot _)

/-! ### The Observation Port -/

/-- Settles O9: both commands pass the check of the claim. -/
theorem intakeCommands : Obligations.IntakeCommands := by
  intro p c s hholder
  exact ⟨fun h => dispatch_accepted h rfl h.length (whenHolder_pass _ hholder),
    fun h => dispatch_accepted h rfl h.length (whenHolder_pass _ hholder)⟩

/-! ### The reports of the Tracking Engine -/

theorem globals_bytes_eq (g : Globals) :
    g.bytes = [g.admitted, g.untracked, g.completed, g.failed, g.malformed, g.timedOut, g.superseded, g.flushed, g.late,
      g.orphan].flatMap (fun n => le 8 n.toNat) := by
  simp only [Globals.bytes, List.flatMap_cons, List.flatMap_nil, List.append_nil, List.append_assoc]

/-- A two-byte field at the front of a body. -/
theorem field_two (lo hi : Byte) (rest : List Byte) : field (lo :: hi :: rest) 0 2 = lo.toNat + 256 * hi.toNat := rfl

theorem listPending_refuses_iff (lo hi n : Byte) :
    ((byteAt [lo, hi, n] 2).toNat == 0 || 16 < (byteAt [lo, hi, n] 2).toNat || 255 < field [lo, hi, n] 0 2) = true ↔
      n.toNat = 0 ∨ 16 < n.toNat ∨ hi ≠ 0 := by
  have hlo := lo.isLt
  have hhi : hi ≠ 0 ↔ hi.toNat ≠ 0 := not_congr BitVec.toNat_inj.symm
  rw [hhi, field_two]
  change (n.toNat == 0 || decide (16 < n.toNat) || decide (255 < lo.toNat + 256 * hi.toNat)) = true ↔ _
  simp only [Bool.or_eq_true, beq_iff_eq, decide_eq_true_eq]
  omega

/-- Settles O33, report by report; LIST_PENDING by its check of count and position. -/
theorem engineReports : Obligations.EngineReports := by
  refine ⟨⟨rfl, rfl, rfl, rfl, rfl⟩, fun p c s => ⟨fun h => ?_, fun h => ?_, fun h => ?_, fun h => ?_, fun h => ?_,
    fun lo hi n h hbody => ?_⟩⟩
  · exact dispatch_accepted h rfl h.length rfl
  · rw [← globals_bytes_eq]
    exact dispatch_accepted h rfl h.length rfl
  · exact dispatch_accepted h rfl h.length rfl
  · exact dispatch_accepted h rfl h.length rfl
  · exact dispatch_accepted h rfl h.length rfl
  · have hcheck := listPending_refuses_iff lo hi n
    have hlength : (c.body.length == 3) = true := h.length
    rw [hbody] at hlength
    refine ⟨fun h1 h16 hhi => ?_, fun hbad => ?_⟩
    · have hposition : field [lo, hi, n] 0 2 = lo.toNat := by
        rw [field_two, hhi]
        rfl
      have hpass := Bool.eq_false_iff.mpr fun hf =>
        (hcheck.mp hf).elim (by omega) fun hf' => hf'.elim (by omega) fun hne => hne hhi
      rw [← hposition]
      exact dispatch_accepted h (by rw [hbody]; rfl) hlength (refuseIf_of_passes hpass _ _)
    · exact dispatch_refused h (by rw [hbody]; rfl) hlength (refuseIf_of_fails (hcheck.mpr hbad) _ _)

/-! ### The tracking clear -/

theorem flushed_eq (x : Probe) : x.flushed =
    if x.state = .draining ∨ x.state = .purging then
      { x with state := .held, inFlight := 0, drainDeadline := none, cutCount := none, cutAhead := none }
    else { x with inFlight := 0 } := by
  simp only [Probe.flushed, Probe.ending, Bool.or_eq_true, beq_iff_eq]
  rfl

/-- The FLUSHED alert of one probe: a drain counts its in-flight count, a purge its cut count (R43). -/
theorem flushedAlert_eq (i : ProbeNo) (x : Probe) (t : Tick) (m : Management) :
    (match x.abandoned with
      | some n => m.raiseToOwner x.owner (.drained i .flushed n) t
      | none => m) =
    match x.state, x.cutCount with
    | .draining, _ => m.raiseToOwner x.owner (.drained i .flushed x.inFlight) t
    | .purging, some n => m.raiseToOwner x.owner (.drained i .flushed n) t
    | _, _ => m := by
  unfold Probe.abandoned
  cases x.state
  case purging => cases x.cutCount <;> rfl
  all_goals rfl

/-- Settles O34: the clear empties what the engine holds, and its alerts are those of the bank before it. -/
theorem clearTrackingResult : Obligations.ClearTrackingResult := by
  intro p c s h hholder
  refine ⟨trackingClear s, dispatch_accepted h rfl h.length (whenHolder_pass _ hholder), rfl, rfl, rfl, fun i => ?_, ?_, rfl,
    rfl, rfl⟩
  · rw [State.probe_eq_bank, trackingClear_probe, flushed_eq]
  · change raiseDrained .flushed s.timebase Probe.abandoned (BitVec.allOnes 16) s.bank s.mgmt = _
    rw [raiseDrained, members_allOnes]
    congr 1
    funext m i
    exact flushedAlert_eq i (s.probe i) s.timebase m

/-! ### Settings and assignments -/

theorem settingsOk_of_valid {l : List (Byte × Nat)} (hvalid : ∀ x ∈ l, x.1.toNat ≤ 2 ∧ 125 ≤ x.2)
    (hnodup : (l.map Prod.fst).Nodup) : settingsOk l = true :=
  (settingsOk_iff l).mpr ⟨fun x hx => ⟨Nat.lt_succ_of_le (hvalid x hx).1, (hvalid x hx).2⟩, hnodup⟩

theorem settingsOk_of_bad {l : List (Byte × Nat)}
    (hbad : (∃ x ∈ l, 2 < x.1.toNat ∨ x.2 < 125) ∨ ¬ (l.map Prod.fst).Nodup) : settingsOk l = false := by
  refine Bool.eq_false_iff.mpr fun hok => ?_
  obtain ⟨hall, hnodup⟩ := (settingsOk_iff l).mp hok
  rcases hbad with ⟨x, hx, hkind | hlow⟩ | hdup
  · exact absurd (hall x hx).1 (Nat.not_lt.mpr hkind)
  · exact absurd hlow (Nat.not_lt.mpr (hall x hx).2)
  · exact hdup hnodup

/-- Each kind named takes its value, the others keep theirs (R46). -/
theorem timeoutsAfter_of (body : List Byte) (t : Timeouts) (hnodup : ((settingsOfBody body).map Prod.fst).Nodup)
    (kind : TrackedKind) :
    (∀ v, (byte kind.code, v) ∈ settingsOfBody body → ((timeoutsAfter body t).of kind).toNat = v) ∧
      ((∀ v, (byte kind.code, v) ∉ settingsOfBody body) → (timeoutsAfter body t).of kind = t.of kind) := by
  obtain ⟨hnamed, hkept⟩ := foldl_put (settingsOfBody body) t kind hnodup
  refine ⟨fun v hv => ?_, hkept⟩
  rw [timeoutsAfter, hnamed v hv, BitVec.toNat_ofNat]
  exact Nat.mod_eq_of_lt (settingsOfBody_lt body _ hv)

theorem assignmentsOk_of_valid {l : List (Byte × Byte)} (hvalid : ∀ x ∈ l, x.1.toNat ≤ 31 ∧ x.2.toNat ≤ 7)
    (hnodup : (l.map Prod.fst).Nodup) : assignmentsOk l = true :=
  (assignmentsOk_iff l).mpr
    ⟨fun x hx => ⟨Nat.lt_succ_of_le (hvalid x hx).1, Nat.lt_succ_of_le (hvalid x hx).2⟩, hnodup⟩

theorem assignmentsOk_of_bad {l : List (Byte × Byte)}
    (hbad : (∃ x ∈ l, 31 < x.1.toNat ∨ 7 < x.2.toNat) ∨ ¬ (l.map Prod.fst).Nodup) : assignmentsOk l = false := by
  refine Bool.eq_false_iff.mpr fun hok => ?_
  obtain ⟨hall, hnodup⟩ := (assignmentsOk_iff l).mp hok
  rcases hbad with ⟨x, hx, hreq | hgroup⟩ | hdup
  · exact absurd (hall x hx).1 (Nat.not_lt.mpr hreq)
  · exact absurd (hall x hx).2 (Nat.not_lt.mpr hgroup)
  · exact hdup hnodup

/-- Each requester named takes its group, the others keep theirs (R67). -/
theorem groupMapAfter_get (body : List Byte) (m : Vector (Fin 8) 32)
    (hvalid : ∀ x ∈ assignmentsOfBody body, x.1.toNat ≤ 31 ∧ x.2.toNat ≤ 7)
    (hnodup : ((assignmentsOfBody body).map Prod.fst).Nodup) (r : Fin 32) :
    (∀ g, (byte r, g) ∈ assignmentsOfBody body → ((groupMapAfter body m)[r]).val = g.toNat) ∧
      ((∀ g, (byte r, g) ∉ assignmentsOfBody body) → (groupMapAfter body m)[r] = m[r]) := by
  obtain ⟨hnamed, hkept⟩ := foldl_putGroup (assignmentsOfBody body) m r
    (fun x hx => Nat.lt_succ_of_le (hvalid x hx).1) hnodup
  refine ⟨fun g hg => ?_, hkept⟩
  rw [groupMapAfter, hnamed g hg]
  exact Nat.mod_eq_of_lt (Nat.lt_succ_of_le (hvalid _ hg).2)

/-- Settles O35, by the argument checks of both bodies. -/
theorem settingCommands : Obligations.SettingCommands := by
  intro p c s hholder
  refine ⟨fun h => ?timeouts, fun h => ?groups⟩
  case timeouts =>
    have hlength : settingsLengthOk c.body = true := (lengthAccepted_settings c.body).symm.trans h.length
    refine ⟨fun hbad => ?_, fun hvalid hnodup => ⟨timeoutsAfter c.body s.trk.timeouts,
      timeoutsAfter_of c.body s.trk.timeouts hnodup, ?_⟩⟩
    · refine dispatch_refused h rfl hlength ((whenHolder_pass _ hholder).trans (refuseIf_of_fails ?_ _ _))
      rw [settingsOk_of_bad hbad]
      rfl
    · refine dispatch_accepted h rfl hlength ((whenHolder_pass _ hholder).trans (refuseIf_of_passes ?_ _ _))
      rw [settingsOk_of_valid hvalid hnodup]
      rfl
  case groups =>
    refine ⟨fun hbad => ?_, fun hvalid hnodup => ⟨groupMapAfter c.body s.trk.groupMap,
      groupMapAfter_get c.body s.trk.groupMap hvalid hnodup, ?_⟩⟩
    · refine dispatch_refused h rfl h.length ((whenHolder_pass _ hholder).trans (refuseIf_of_fails ?_ _ _))
      rw [assignmentsOk_of_bad hbad]
      rfl
    · refine dispatch_accepted h rfl h.length ((whenHolder_pass _ hholder).trans (refuseIf_of_passes ?_ _ _))
      rw [assignmentsOk_of_valid hvalid hnodup]
      rfl

end Sys2Proof.Machine
end

section
/-! The ownership and the states of probes: the commands that claim, start, stop and clear them, and their reports (R79,
R80, R86 to R90, R102, R112, R118). -/

namespace Sys2Proof.Machine

/-! ### Lists made from a set or a vector -/

theorem flatMap_members_congr {β : Type} {set : ProbeSet} {f g : ProbeNo → List β}
    (h : ∀ i, set.has i = true → f i = g i) : (members set).flatMap f = (members set).flatMap g :=
  congrArg List.flatten (List.map_congr_left fun i hi => h i (mem_members.mp hi))

theorem toList_eq_map_finRange {α : Type} {n : Nat} (v : Vector α n) :
    v.toList = (List.finRange n).map (fun k => v[k]) := by
  refine List.ext_getElem (by simp) fun k h1 h2 => ?_
  simp

/-! ### Ownership -/

theorem ownedBy_iff (p : Port) (x : Probe) : x.ownedBy p = true ↔ x.owner = some p := beq_iff_eq

theorem own_probe (set : ProbeSet) (owner : Option Port) (b : Bank) (i : ProbeNo) :
    (b.own set owner).probe i = if set.has i then { b.probe i with owner := owner } else b.probe i :=
  Bank.probe_mapProbes ..

theorem ownedBy_has (b : Bank) (p : Port) (i : ProbeNo) : (b.ownedBy p).has i = true ↔ (b.probe i).owner = some p := by
  rw [Bank.ownedBy, probesWhere_has, ownedBy_iff]

theorem ownedBy_own_same (b : Bank) (set : ProbeSet) (p : Port) (i : ProbeNo) :
    ((b.own set (some p)).ownedBy p).has i = true ↔ set.has i = true ∨ (b.probe i).owner = some p := by
  rw [ownedBy_has, own_probe]
  split <;> rename_i h <;> simp [h]

theorem ownedBy_own_none (b : Bank) (set : ProbeSet) (p : Port) (i : ProbeNo) :
    ((b.own set none).ownedBy p).has i = true ↔ set.has i = false ∧ (b.probe i).owner = some p := by
  rw [ownedBy_has, own_probe]
  split <;> rename_i h <;> simp [h]

/-- Settles O36, by the owners of the probes of the set. -/
theorem probeOwnership : Obligations.ProbeOwnership := by
  rintro p c s _ rfl
  refine ⟨fun h => ⟨fun i hi => ?_, fun hzero => ?_, fun hne hnone => ?_⟩,
    fun h => ⟨fun i hi => ?_, fun hzero => ?_, fun hne hnone => ?_⟩⟩
  · exact dispatch_refused h rfl h.length
      (refuseProbe_of_some (lowestIn_of_lowestFailing (fun j => ownedBy_iff p.other (s.probe j)) hi) _ _)
  · refine dispatch_refused h rfl h.length ((refuseProbe_of_none ?_ _ _).trans (refuseIf_of_fails ?_ _ _))
    · rw [hzero]
      exact lowestIn_zero _
    · rw [hzero]
      rfl
  · refine ⟨s.bank.own (probeSetAt c.body 0) (some p), (s.bank.own (probeSetAt c.body 0) (some p)).ownedBy p, ?_,
      ownedBy_own_same s.bank _ p, own_probe _ _ s.bank, rfl⟩
    refine dispatch_accepted h rfl h.length ((refuseProbe_of_none ?_ _ _).trans (refuseIf_of_passes ?_ _ _))
    · exact lowestIn_of_noneFails (fun j => ownedBy_iff p.other (s.probe j)) hnone
    · simpa using hne
  · exact dispatch_refused h rfl h.length (whenOwner_refuses hi _)
  · refine dispatch_refused h rfl h.length ((whenOwner_passes ?_ _).trans (refuseIf_of_fails ?_ _ _))
    · rw [hzero]
      exact noneFails_zero _
    · rw [hzero]
      rfl
  · refine ⟨s.bank.own (probeSetAt c.body 0) none, (s.bank.own (probeSetAt c.body 0) none).ownedBy p, ?_,
      ownedBy_own_none s.bank _ p, own_probe _ _ s.bank, rfl⟩
    exact dispatch_accepted h rfl h.length
      ((whenOwner_passes hnone _).trans (refuseIf_of_passes (by simpa using hne) _ _))

/-! ### The states a command is accepted in -/

theorem whenStates_refuses {set : ProbeSet} {ok : ProbeState → Bool} {s : State} {i : ProbeNo} {bad : ProbeNo → Prop}
    (hbad : ∀ j, ok (s.probe j).state = false ↔ bad j) (h : LowestFailing set bad i) (v : Verdict) :
    whenStates set ok s v = .refusal (s.probe i).state.refusal [byte i] :=
  refuseProbe_of_some (lowestIn_of_lowestFailing (fun j => (Bool.not_eq_true' _).to_iff.trans (hbad j)) h) _ v

theorem whenStates_passes {set : ProbeSet} {ok : ProbeState → Bool} {s : State} {bad : ProbeNo → Prop}
    (hbad : ∀ j, ok (s.probe j).state = false ↔ bad j) (h : NoneFails set bad) (v : Verdict) :
    whenStates set ok s v = v :=
  refuseProbe_of_none (lowestIn_of_noneFails (fun j => (Bool.not_eq_true' _).to_iff.trans (hbad j)) h) _ v

theorem startable_eq_false (x : ProbeState) : x.startable = false ↔ x ≠ .armed ∧ x ≠ .held := by
  cases x <;> simp [ProbeState.startable]

theorem atRest_eq_false (x : ProbeState) : x.atRest = false ↔ x = .running ∨ x = .draining ∨ x = .purging := by
  cases x <;> simp [ProbeState.atRest]

theorem refusal_eq (x : ProbeState) :
    x.refusal = if x = .draining ∨ x = .purging then .inProgress else .badState := by
  cases x <;> rfl

/-! ### Starting -/

theorem numbersAndStates_start (set : ProbeSet) (b : Bank) :
    numbersAndStates set (b.start set) = (members set).flatMap (fun i : ProbeNo => [byte i, 2]) :=
  flatMap_members_congr fun i hi => by rw [Bank.start_probe, if_pos hi]; rfl

/-- Settles O39, by the states of the probes of the set. -/
theorem startProbesResult : Obligations.StartProbesResult := by
  rintro p c s _ rfl h hne howned
  have hset : (probeSetAt c.body 0 == 0) = false := by simpa using hne
  have hbad := fun j => startable_eq_false (s.probe j).state
  refine ⟨fun i hi => ?_, fun hstates => ⟨s.bank.start (probeSetAt c.body 0), ?_, Bank.start_probe _ s.bank, rfl⟩⟩
  · rw [← refusal_eq]
    exact dispatch_refused h rfl h.length ((whenOwner_passes howned _).trans
      ((refuseIf_of_passes hset _ _).trans (whenStates_refuses hbad hi _)))
  · rw [← numbersAndStates_start _ s.bank]
    exact dispatch_accepted h rfl h.length ((whenOwner_passes howned _).trans
      ((refuseIf_of_passes hset _ _).trans (whenStates_passes hbad hstates _)))

/-! ### Stopping -/

theorem stopNow_eq (x : Probe) : x.stopNow =
    if x.inFlight = 0 then { x with state := .held } else { x with state := .purging, cutCount := none } := by
  simp only [Probe.stopNow, beq_iff_eq]

theorem stopDraining_eq (now : Tick) (x : Probe) : x.stopDraining now =
    if x.inFlight = 0 then { x with state := .held }
    else { x with
      state := .draining
      drainDeadline := if x.drainLimit = 0 then none else some (now + x.drainLimit.setWidth 48)
      cutAhead := none } := by
  simp only [Probe.stopDraining, beq_iff_eq]

theorem busy_has (b : Bank) (set : ProbeSet) (i : ProbeNo) :
    (b.busy set).has i = true ↔ set.has i = true ∧ (b.probe i).inFlight ≠ 0 := by
  rw [Bank.busy, probesWhere_has, Bool.and_eq_true, bne_iff_ne]

/-- The report of a probe that an immediate stop stopped: its drain deadline is what it was. -/
theorem stopReport_now {b : Bank} {set : ProbeSet} {i : ProbeNo} (hi : set.has i = true) (now : Tick) (queued : Nat) :
    stopReport (b.stop 0 set now queued) i =
      [byte i, if (b.probe i).inFlight = 0 then 5 else 4] ++ le 2 (b.probe i).inFlight ++
        optTime (b.probe i).drainDeadline := by
  rw [stopReport, Bank.stop_now_probe, if_pos hi, stopNow_eq]
  split <;> rfl

/-- The report of a probe that a draining stop stopped: its drain deadline is the new one. -/
theorem stopReport_drain {b : Bank} {set : ProbeSet} {i : ProbeNo} (hi : set.has i = true) (now : Tick) (queued : Nat) :
    stopReport (b.stop 1 set now queued) i =
      [byte i, if (b.probe i).inFlight = 0 then 5 else 3] ++ le 2 (b.probe i).inFlight ++
        optTime ((b.stop 1 set now queued).probe i).drainDeadline := by
  rw [stopReport, Bank.stop_drain_probe, if_pos hi, stopDraining_eq]
  split <;> rfl

/-- The verdict on an accepted STOP_PROBES. -/
theorem exec_stopProbes_of_running {p : Port} {c : Command} {s : State} (h : CommandPasses p 0x2C#8 c s)
    (hne : probeSetAt c.body 0 ≠ 0) (howned : NoneFails (probeSetAt c.body 0) (fun j => (s.probe j).owner ≠ some p))
    {mode : Nat} (hmode : (byteAt c.body 2).toNat = mode) (hle : mode ≤ 1)
    (hrun : NoneFails (probeSetAt c.body 0) (fun j => (s.probe j).state ≠ .running)) :
    exec (.stopProbes p) s = .next (answered p c .ok
      ((members (probeSetAt c.body 0)).flatMap
        (stopReport (s.bank.stop mode (probeSetAt c.body 0) s.timebase s.obs.queue.length)))
      { s with bank := s.bank.stop mode (probeSetAt c.body 0) s.timebase s.obs.queue.length }) := by
  subst hmode
  refine dispatch_accepted h rfl h.length ((whenOwner_passes howned _).trans
    ((refuseIf_of_passes ?_ _ _).trans (refuseProbe_of_none ?_ _ _)))
  · simp only [Bool.or_eq_false_iff, beq_eq_false_iff_ne, decide_eq_false_iff_not, Nat.not_lt]
    exact ⟨hne, hle⟩
  · exact lowestIn_of_noneFails (fun j => bne_iff_ne) hrun

/-- Settles O40, by the mode. -/
theorem stopProbesResult : Obligations.StopProbesResult := by
  rintro p c s _ rfl h hne howned
  refine ⟨fun hmode => ?_, fun hmode i hi => ?_, fun hrun => ⟨fun hmode => ?_, fun hmode => ?_⟩⟩
  · refine dispatch_refused h rfl h.length ((whenOwner_passes howned _).trans (refuseIf_of_fails ?_ _ _))
    simp only [Bool.or_eq_true, decide_eq_true_eq]
    exact .inr hmode
  · refine dispatch_refused h rfl h.length ((whenOwner_passes howned _).trans
      ((refuseIf_of_passes ?_ _ _).trans (refuseProbe_of_some (lowestIn_of_lowestFailing (fun j => bne_iff_ne) hi) _ _)))
    simp only [Bool.or_eq_false_iff, beq_eq_false_iff_ne, decide_eq_false_iff_not, Nat.not_lt]
    exact ⟨hne, hmode⟩
  · have hexec := exec_stopProbes_of_running h hne howned (by rw [hmode]; rfl) (Nat.zero_le 1) hrun
    have hpurge : (s.bank.stop 0 (probeSetAt c.body 0) s.timebase s.obs.queue.length).purge =
        s.bank.purge.add (s.bank.busy (probeSetAt c.body 0)) s.obs.queue.length := rfl
    refine ⟨s.bank.stop 0 (probeSetAt c.body 0) s.timebase s.obs.queue.length, s.bank.busy (probeSetAt c.body 0), ?_,
      busy_has s.bank _, fun i => ?_, fun hzero => ?_, fun hbusy hidle => ?_, fun hbusy hsweep => ?_⟩
    · rw [hexec, flatMap_members_congr fun i hi => stopReport_now hi s.timebase s.obs.queue.length]
      rfl
    · rw [Bank.stop_now_probe, stopNow_eq]
      rfl
    · rw [hpurge, add_of_empty _ _ hzero]
    · rw [hpurge, add_of_idle _ hbusy hidle]
      exact ⟨rfl, rfl, rfl, rfl⟩
    · rw [hpurge, add_of_busy _ hbusy hsweep]
  · have hexec := exec_stopProbes_of_running h hne howned (by rw [hmode]; rfl) (Nat.le_refl 1) hrun
    refine ⟨s.bank.stop 1 (probeSetAt c.body 0) s.timebase s.obs.queue.length, ?_, fun i => ?_, rfl⟩
    · rw [hexec, flatMap_members_congr fun i hi => stopReport_drain hi s.timebase s.obs.queue.length]
      rfl
    · rw [Bank.stop_drain_probe, stopDraining_eq]
      rfl

/-! ### Clearing -/

theorem numbersAndStates_clear (set : ProbeSet) (s : State) :
    numbersAndStates set (clearProbes set s).bank = (members set).flatMap (fun i : ProbeNo => [byte i, 0]) :=
  flatMap_members_congr fun i hi => by
    rw [← State.probe_eq_bank, clearProbes_probe, if_pos hi]
    rfl

/-- Settles O41, by the states of the probes of the set and the units they hold. -/
theorem clearProbesResult : Obligations.ClearProbesResult := by
  rintro p c s _ rfl h hne howned
  have hset : (probeSetAt c.body 0 == 0) = false := by simpa using hne
  have hbad := fun j => atRest_eq_false (s.probe j).state
  refine ⟨fun i hi => ?_, fun hstates => ⟨(clearProbes (probeSetAt c.body 0) s).bank,
    (clearProbes (probeSetAt c.body 0) s).pool, ?_, clearProbes_probe _ s, rfl, fun k => ⟨fun hheld => ?_, fun hfree => ?_⟩⟩⟩
  · have hcode : (if (s.probe i).state = .running then ReplyCode.badState else .inProgress) = (s.probe i).state.refusal := by
      rcases hi.2.1 with hstate | hstate | hstate <;> rw [hstate] <;> rfl
    rw [hcode]
    exact dispatch_refused h rfl h.length ((whenOwner_passes howned _).trans
      ((refuseIf_of_passes hset _ _).trans (whenStates_refuses hbad hi _)))
  · rw [← numbersAndStates_clear _ s]
    exact dispatch_accepted h rfl h.length ((whenOwner_passes howned _).trans
      ((refuseIf_of_passes hset _ _).trans (whenStates_passes hbad hstates _)))
  · exact (returnUnits_get ..).trans (if_pos ((any_members_unit ..).mpr hheld))
  · refine (returnUnits_get ..).trans (if_neg fun hany => ?_)
    obtain ⟨i, hi, hunit⟩ := (any_members_unit ..).mp hany
    exact hfree i hi hunit

/-! ### Reports -/

theorem freeUnits_eq (pool : Vector (Option HistUnit) 8) :
    freeUnits pool = (List.finRange 8).countP (fun k => pool[k].isNone) := by
  rw [freeUnits, toList_eq_map_finRange, List.countP_map]
  rfl

theorem unitReports_eq (pool : Vector (Option HistUnit) 8) :
    pool.toList.flatMap unitReport = (List.finRange 8).flatMap (fun k => unitReport pool[k]) := by
  rw [toList_eq_map_finRange, List.flatMap_map]

/-- Settles O42: both report what the probes and the pool hold. -/
theorem probeReports : Obligations.ProbeReports := by
  intro p c s
  refine ⟨fun h => ⟨fun hzero => ?_, fun hne => ?_⟩, fun h => ?_⟩
  · exact dispatch_refused h rfl h.length (refuseIf_of_fails (by rw [hzero]; rfl) _ _)
  · exact dispatch_accepted h rfl h.length (refuseIf_of_passes (by simpa using hne) _ _)
  · rw [← freeUnits_eq]
    refine (dispatch_accepted h rfl h.length rfl).trans ?_
    rw [unitReports_eq]
    rfl

end Sys2Proof.Machine
end

section
/-! DEFINE_PROBE: what its body says, the refusals of levels 4 to 7, and the definition with or without a unit (R70, R71,
R84, R85, R110 to R112, R175, R178). -/

namespace Sys2Proof.Machine

/-! ### The body -/

theorem field_four_lt (body : List Byte) (offset : Nat) : field body offset 4 < 4294967296 := by
  unfold field
  generalize body.drop offset = l
  match l with
  | [] => simp [leNat]
  | [a] => have := a.isLt; simp [leNat]; omega
  | [a, b] => have := a.isLt; have := b.isLt; simp [leNat]; omega
  | [a, b, c] => have := a.isLt; have := b.isLt; have := c.isLt; simp [leNat]; omega
  | a :: b :: c :: d :: _ => have := a.isLt; have := b.isLt; have := c.isLt; have := d.isLt; simp [leNat]; omega

theorem toNat_field_four (body : List Byte) (offset : Nat) :
    (BitVec.ofNat 32 (field body offset 4)).toNat = field body offset 4 := by
  rw [BitVec.toNat_ofNat, Nat.mod_eq_of_lt (field_four_lt body offset)]

theorem byte_toNat (b : Byte) : byte b.toNat = b := BitVec.eq_of_toNat_eq (Nat.mod_eq_of_lt b.isLt)

/-- The condition of the definition check, with what it yields (R70, R71, R84, R110). -/
theorem checkedDefinition_eq_some (body : List Byte) (d : Definition) (request : Option (HistMode × BitVec 32)) :
    checkedDefinition body = some (d, request) ↔
      ∃ m, measureOfCodes (byteAt body 1).toNat (byteAt body 2).toNat = some m ∧
        (selectorOfBody body).valid = true ∧ (selectorOfBody body).fits m = true ∧ definitionOfBody m body = d ∧
        (byteAt body 32 = 0 ∧ none = request ∨
          byteAt body 32 ≠ 0 ∧ m.isLatency = true ∧ ∃ h, histRequestOfBody body = some h ∧ some h = request) := by
  unfold checkedDefinition
  cases measureOfCodes (byteAt body 1).toNat (byteAt body 2).toNat with
  | none => simp
  | some m =>
    have hselector : (definitionOfBody m body).selector = selectorOfBody body := rfl
    by_cases hvalid : (selectorOfBody body).valid = true ∧ (selectorOfBody body).fits m = true
    · by_cases hrequest : byteAt body 32 = 0#8
      · simp [hselector, hvalid, requestsUnit, hrequest]
      · cases m.isLatency <;> cases histRequestOfBody body <;>
          simp [hselector, hvalid, requestsUnit, hrequest, and_left_comm]
    · simp only [hselector, Bool.and_eq_true, if_neg hvalid]
      refine ⟨nofun, ?_⟩
      rintro ⟨m', ⟨⟩, hv, hf, -⟩
      exact absurd ⟨hv, hf⟩ hvalid

theorem checkedDefinition_isSome (body : List Byte) : (checkedDefinition body).isSome = true ↔
    ∃ m, measureOfCodes (byteAt body 1).toNat (byteAt body 2).toNat = some m ∧
      (selectorOfBody body).valid = true ∧ (selectorOfBody body).fits m = true ∧
      (byteAt body 32 ≠ 0 → m.isLatency = true ∧ (histRequestOfBody body).isSome = true) := by
  rw [Option.isSome_iff_exists]
  constructor
  · rintro ⟨⟨d, request⟩, h⟩
    obtain ⟨m, hm, hvalid, hfits, -, ⟨hnone, -⟩ | ⟨-, hlatency, r, hr, -⟩⟩ := (checkedDefinition_eq_some ..).mp h
    · exact ⟨m, hm, hvalid, hfits, fun hne => absurd hnone hne⟩
    · exact ⟨m, hm, hvalid, hfits, fun _ => ⟨hlatency, by rw [hr]; rfl⟩⟩
  · rintro ⟨m, hm, hvalid, hfits, hrequest⟩
    by_cases hnone : byteAt body 32 = 0
    · exact ⟨_, (checkedDefinition_eq_some ..).mpr ⟨m, hm, hvalid, hfits, rfl, .inl ⟨hnone, rfl⟩⟩⟩
    · obtain ⟨hlatency, hsome⟩ := hrequest hnone
      obtain ⟨r, hr⟩ := Option.isSome_iff_exists.mp hsome
      exact ⟨_, (checkedDefinition_eq_some ..).mpr ⟨m, hm, hvalid, hfits, rfl, .inr ⟨hnone, hlatency, r, hr, rfl⟩⟩⟩

theorem toNat_ne_zero_iff (b : Byte) : b.toNat ≠ 0 ↔ b ≠ 0 := by
  rw [Ne, Ne, ← BitVec.toNat_inj (x := b)]
  rfl

theorem measure_range (b : Byte) (n : Nat) : (b.toNat = 0 → n ≤ 5) ↔ (b = 0 → n ≤ 5) := by
  rw [← BitVec.toNat_inj]
  rfl

/-- The checks of the selector of a body, field by field; a mask of all eight groups has no upper bound (R70). -/
theorem selectorOfBody_valid (body : List Byte) : (selectorOfBody body).valid = true ↔
    byteAt body 3 ≠ 0 ∧ (byteAt body 4 ≠ 0 ∧ (byteAt body 4).toNat < 32) ∧
    (byteAt body 5 ≠ 0 ∧ (byteAt body 5).toNat < 8) ∧ (byteAt body 6 ≠ 0 ∧ (byteAt body 6).toNat < 16) ∧
    (byteAt body 7 ≠ 0 ∧ (byteAt body 7).toNat < 8) ∧
    (field body 8 2 ≤ field body 10 2 ∧ field body 10 2 ≤ 255) ∧
    (field body 12 2 ≤ field body 14 2 ∧ field body 14 2 ≤ 4096) ∧ field body 16 2 ≤ field body 18 2 := by
  have hgroup : (byteAt body 3).toNat < 2 ^ 8 := (byteAt body 3).isLt
  have hlabel : field body 18 2 ≤ 65535 := Nat.le_of_lt_succ (field_two_lt body 18)
  simp only [valid_iff, maskOk_iff, rangeOk_iff, selectorOfBody, hgroup, hlabel, and_true, and_assoc]
  norm_num

theorem checkedDefinition_isSome_iff_fields (body : List Byte) : (checkedDefinition body).isSome = true ↔
    (byteAt body 1).toNat ≤ 2 ∧ (byteAt body 1 = 0 → (byteAt body 2).toNat ≤ 5) ∧
    byteAt body 3 ≠ 0 ∧
    byteAt body 4 ≠ 0 ∧ (byteAt body 4).toNat < 32 ∧ (byteAt body 1 ≠ 0 → (byteAt body 4).toNat < 8) ∧
    byteAt body 5 ≠ 0 ∧ (byteAt body 5).toNat < 8 ∧ byteAt body 6 ≠ 0 ∧ (byteAt body 6).toNat < 16 ∧
    byteAt body 7 ≠ 0 ∧ (byteAt body 7).toNat < 8 ∧
    field body 8 2 ≤ field body 10 2 ∧ field body 10 2 ≤ 255 ∧
    field body 12 2 ≤ field body 14 2 ∧ field body 14 2 ≤ 4096 ∧ field body 16 2 ≤ field body 18 2 ∧
    (byteAt body 32 ≠ 0 → byteAt body 1 ≠ 0 ∧ (byteAt body 33).toNat ≤ 1 ∧ 1 ≤ field body 34 4 ∧
      field body 34 4 ≤ 2 ^ 24) := by
  rw [checkedDefinition_isSome]
  constructor
  · rintro ⟨m, hm, hvalid, hfits, hrequest⟩
    obtain ⟨hcode, hevent⟩ := (measureOfCodes_isSome _ _).mp (Option.isSome_of_eq_some hm)
    rw [fits_iff, isLatency_of_measureOfCodes hm, toNat_ne_zero_iff] at hfits
    rw [isLatency_of_measureOfCodes hm, toNat_ne_zero_iff, histRequestOfBody_isSome] at hrequest
    obtain ⟨h3, ⟨h4, h4'⟩, ⟨h5, h5'⟩, ⟨h6, h6'⟩, ⟨h7, h7'⟩, ⟨ht, ht'⟩, ⟨hl, hl'⟩, hb⟩ := (selectorOfBody_valid body).mp hvalid
    exact ⟨hcode, (measure_range _ _).mp hevent, h3, h4, h4', hfits, h5, h5', h6, h6', h7, h7', ht, ht', hl, hl', hb,
      hrequest⟩
  · rintro ⟨hcode, hevent, h3, h4, h4', hfits, h5, h5', h6, h6', h7, h7', ht, ht', hl, hl', hb, hrequest⟩
    obtain ⟨m, hm⟩ := Option.isSome_iff_exists.mp
      ((measureOfCodes_isSome _ _).mpr ⟨hcode, (measure_range _ _).mpr hevent⟩)
    refine ⟨m, hm, (selectorOfBody_valid body).mpr
      ⟨h3, ⟨h4, h4'⟩, ⟨h5, h5'⟩, ⟨h6, h6'⟩, ⟨h7, h7'⟩, ⟨ht, ht'⟩, ⟨hl, hl'⟩, hb⟩, ?_, ?_⟩
    · rw [fits_iff, isLatency_of_measureOfCodes hm, toNat_ne_zero_iff]
      exact hfits
    · rw [isLatency_of_measureOfCodes hm, toNat_ne_zero_iff, histRequestOfBody_isSome]
      exact hrequest

/-- The measure a body names, by its code (R84). -/
theorem measureOfCodes_cases {a e : Byte} {m : Measure} (h : measureOfCodes a.toNat e.toNat = some m) :
    a = 0 ∧ (∃ event, m = .count event ∧
        [RecordKind.req, .cpl, .stall, .retry, .linkerr, .mark][e.toNat]? = some event) ∨
      a = 1 ∧ m = .first ∨ a = 2 ∧ m = .full := by
  have hevents : ∀ n : Nat, recordKindOfCode n = [RecordKind.req, .cpl, .stall, .retry, .linkerr, .mark][n]? := by
    intro n
    match n with
    | 0 | 1 | 2 | 3 | 4 | 5 => rfl
    | n + 6 => rfl
  obtain ⟨hcode, -⟩ := (measureOfCodes_isSome _ _).mp (Option.isSome_of_eq_some h)
  have ha : a = byte a.toNat := (byte_toNat a).symm
  generalize a.toNat = n at h hcode ha
  subst ha
  match n with
  | 0 =>
    obtain ⟨event, hevent, rfl⟩ := Option.map_eq_some_iff.mp h
    exact .inl ⟨rfl, event, rfl, (hevents _).symm.trans hevent⟩
  | 1 => exact .inr (.inl ⟨rfl, (Option.some.inj h).symm⟩)
  | 2 => exact .inr (.inr ⟨rfl, (Option.some.inj h).symm⟩)

/-- The histogram request a body makes (R110). -/
theorem histRequestOfBody_cases {body : List Byte} {h : HistMode × BitVec 32} (hr : histRequestOfBody body = some h) :
    h.2.toNat = field body 34 4 ∧ (byteAt body 33 = 0 ∧ h.1 = .log ∨ byteAt body 33 = 1 ∧ h.1 = .linear) := by
  obtain ⟨hmode, -⟩ := (histRequestOfBody_isSome body).mp (Option.isSome_of_eq_some hr)
  have hb : byteAt body 33 = byte (byteAt body 33).toNat := (byte_toNat _).symm
  unfold histRequestOfBody at hr
  generalize (byteAt body 33).toNat = n at hr hmode hb
  rw [hb]
  match n with
  | 0 =>
    obtain ⟨-, heq⟩ := Option.ite_none_right_eq_some.mp hr
    cases heq
    exact ⟨toNat_field_four body 34, .inl ⟨rfl, rfl⟩⟩
  | 1 =>
    obtain ⟨-, heq⟩ := Option.ite_none_right_eq_some.mp hr
    cases heq
    exact ⟨toNat_field_four body 34, .inr ⟨rfl, rfl⟩⟩

/-! ### The verdict on a probe number of 0 to 15 -/

section
variable {p : Port} {body : List Byte} {s : State} {i : ProbeNo}

theorem byte_probe (hi : (byteAt body 0).toNat = i.val) : byteAt body 0 = byte i := by
  rw [← hi, byte_toNat]

theorem cmdDefineProbe_of_noProbe (h : 15 < (byteAt body 0).toNat) :
    cmdDefineProbe p body s = whenOpen p s (defineLengthOk body) (.refusal .badArgument [byteAt body 0]) := by
  rw [cmdDefineProbe, dif_neg (by omega)]

end

/-- The checks and effect of DEFINE_PROBE for a probe number of 0 to 15. -/
def defineVerdict (p : Port) (i : ProbeNo) (body : List Byte) (s : State) : Verdict :=
  if (s.probe i).ownedBy p then
    match checkedDefinition body with
    | none => .refusal .badArgument [byte i]
    | some (d, request) =>
      if (s.probe i).state.atRest then allocate i d request s else .refusal (s.probe i).state.refusal [byte i]
  else .refusal .notOwner [byte i]

section
variable {p : Port} {body : List Byte} {s : State} {i : ProbeNo}

theorem cmdDefineProbe_of_probe (hi : (byteAt body 0).toNat = i.val) :
    cmdDefineProbe p body s = whenOpen p s (defineLengthOk body) (defineVerdict p i body s) := by
  have hlt : (byteAt body 0).toNat < 16 := hi ▸ i.isLt
  have hfin : i = ⟨(byteAt body 0).toNat, hlt⟩ := Fin.ext hi.symm
  rw [cmdDefineProbe, dif_pos hlt, defineVerdict, ← byte_probe hi]
  simp only [← hfin] <;> rfl

theorem defineVerdict_of_foreign (hown : (s.probe i).owner ≠ some p) :
    defineVerdict p i body s = .refusal .notOwner [byte i] :=
  if_neg (mt (ownedBy_iff p _).mp hown)

theorem defineVerdict_of_unchecked (hown : (s.probe i).owner = some p) (hbody : checkedDefinition body = none) :
    defineVerdict p i body s = .refusal .badArgument [byte i] := by
  rw [defineVerdict, if_pos ((ownedBy_iff p _).mpr hown), hbody]

theorem defineVerdict_of_checked (hown : (s.probe i).owner = some p) {d : Definition}
    {request : Option (HistMode × BitVec 32)} (hbody : checkedDefinition body = some (d, request)) :
    defineVerdict p i body s =
      if (s.probe i).state.atRest then allocate i d request s else .refusal (s.probe i).state.refusal [byte i] := by
  rw [defineVerdict, if_pos ((ownedBy_iff p _).mpr hown), hbody]

theorem defineVerdict_of_moving (hown : (s.probe i).owner = some p) (hbody : (checkedDefinition body).isSome = true)
    (hstate : (s.probe i).state.atRest = false) :
    defineVerdict p i body s = .refusal (s.probe i).state.refusal [byte i] := by
  obtain ⟨⟨d, request⟩, hbody⟩ := Option.isSome_iff_exists.mp hbody
  rw [defineVerdict_of_checked hown hbody, hstate]
  rfl

theorem defineVerdict_of_rest (hown : (s.probe i).owner = some p) {d : Definition}
    {request : Option (HistMode × BitVec 32)} (hbody : checkedDefinition body = some (d, request))
    (hstate : (s.probe i).state = .unbound ∨ (s.probe i).state = .armed ∨ (s.probe i).state = .held) :
    defineVerdict p i body s = allocate i d request s := by
  rw [defineVerdict_of_checked hown hbody, if_pos ((atRest_iff _).mpr hstate)]

end

/-! ### The refusals and the result -/

theorem defineLengthOk_of_passes {p : Port} {c : Command} {s : State} (h : CommandPasses p 0x2A#8 c s) :
    defineLengthOk c.body = true :=
  (lengthAccepted_define _).symm.trans h.length

/-- Settles O37, by the level at which the command fails. -/
theorem defineProbeRefusals : Obligations.DefineProbeRefusals := by
  refine ⟨checkedDefinition_isSome_iff_fields, fun p c s h => ⟨fun hnumber => ?_, fun i hi => ?_⟩⟩
  · exact dispatch_refused h (cmdDefineProbe_of_noProbe hnumber) (defineLengthOk_of_passes h) rfl
  have hrefused : ∀ {code}, defineVerdict p i c.body s = .refusal code [byte i] →
      exec (.defineProbe p) s = .next (answered p c code [byte i] s) :=
    dispatch_refused h (cmdDefineProbe_of_probe hi) (defineLengthOk_of_passes h)
  refine ⟨fun hown => hrefused (defineVerdict_of_foreign hown),
    fun hown hbody => hrefused (defineVerdict_of_unchecked hown hbody),
    fun hown hbody => ⟨fun hstate => ?_, fun hstate => ?_⟩, fun d r hown hbody hstate hunit hfull => hrefused ?_⟩
  · have hverdict := defineVerdict_of_moving hown hbody ((atRest_eq_false _).mpr (.inl hstate))
    rw [refusal_eq, if_neg (by simp [hstate])] at hverdict
    exact hrefused hverdict
  · have hverdict := defineVerdict_of_moving hown hbody ((atRest_eq_false _).mpr (.inr hstate))
    rw [refusal_eq, if_pos hstate] at hverdict
    exact hrefused hverdict
  · have hnone : lowestNone (returnUnit (s.probe i) s.pool) = none :=
      lowestNone_eq_none.mpr fun k => by
        rw [returnUnit_get, hunit]
        exact hfull k
    rw [defineVerdict_of_rest hown hbody hstate, allocate, hnone]

theorem checkedDefinition_fields {body : List Byte} {d : Definition} {request : Option (HistMode × BitVec 32)}
    (h : checkedDefinition body = some (d, request)) :
    (byteAt body 1 = 0 ∧ (∃ event, d.measure = .count event ∧
        [RecordKind.req, .cpl, .stall, .retry, .linkerr, .mark][(byteAt body 2).toNat]? = some event) ∨
      byteAt body 1 = 1 ∧ d.measure = .first ∨ byteAt body 1 = 2 ∧ d.measure = .full) ∧
    d.selector = selectorOfBody body ∧
    d.threshold.toNat = field body 20 4 ∧ d.alertLimit.toNat = field body 24 4 ∧
    d.drainLimit.toNat = field body 28 4 ∧
    (byteAt body 32 = 0 → request = none) ∧
    (byteAt body 32 ≠ 0 → ∃ h, request = some h ∧ h.2.toNat = field body 34 4 ∧
      (byteAt body 33 = 0 ∧ h.1 = .log ∨ byteAt body 33 = 1 ∧ h.1 = .linear)) := by
  obtain ⟨m, hm, -, -, rfl, hrequest⟩ := (checkedDefinition_eq_some ..).mp h
  refine ⟨measureOfCodes_cases hm, rfl, toNat_field_four body 20, toNat_field_four body 24, toNat_field_four body 28, ?_⟩
  obtain ⟨hzero, rfl⟩ | ⟨hne, -, r, hr, rfl⟩ := hrequest
  · exact ⟨fun _ => rfl, fun hne => absurd hzero hne⟩
  · exact ⟨fun hzero => absurd hzero hne, fun _ => ⟨r, rfl, histRequestOfBody_cases hr⟩⟩

/-- The unit an accepted DEFINE_PROBE attaches (R85, R111). -/
theorem lowestNone_returnUnit {x : Probe} {pool : Vector (Option HistUnit) 8} {k : Fin 8}
    (hk : pool[k] = none ∨ x.unit = some k) (hlow : ∀ j : Fin 8, j < k → pool[j] ≠ none ∧ x.unit ≠ some j) :
    lowestNone (returnUnit x pool) = some k := by
  refine lowestNone_eq_some.mpr ⟨?_, fun j hj => ?_⟩
  · rw [returnUnit_get]
    split
    · rfl
    · exact hk.resolve_right ‹_›
  · rw [returnUnit_get, if_neg (hlow j hj).2]
    exact (hlow j hj).1

theorem defineProbe_bank_same (i : ProbeNo) (d : Definition) (unit : Option (Fin 8))
    (pool : Vector (Option HistUnit) 8) (s : State) :
    (defineProbe i d unit pool s).bank.probe i = (s.probe i).defined d unit :=
  (defineProbe_probe i i d unit pool s).trans (if_pos rfl)

theorem defineProbe_bank_other {i j : ProbeNo} (hne : j ≠ i) (d : Definition) (unit : Option (Fin 8))
    (pool : Vector (Option HistUnit) 8) (s : State) : (defineProbe i d unit pool s).bank.probe j = s.probe j :=
  (defineProbe_probe i j d unit pool s).trans (if_neg hne.symm)

/-- Settles O38: the fields of the body, and the unit the request takes. -/
theorem defineProbeResult : Obligations.DefineProbeResult := by
  refine ⟨fun _ _ _ => checkedDefinition_fields, fun p c s i d request h hi hown hbody hstate =>
    ⟨fun hnone => ?_, fun r k hsome hk hlow => ?_⟩⟩
  · subst hnone
    refine ⟨(defineProbe i d none (returnUnit (s.probe i) s.pool) s).bank, returnUnit (s.probe i) s.pool, ?_,
      defineProbe_bank_same .., fun j hne => defineProbe_bank_other hne .., rfl, returnUnit_get _ _⟩
    exact dispatch_accepted h (cmdDefineProbe_of_probe hi) (defineLengthOk_of_passes h)
      (defineVerdict_of_rest hown hbody hstate)
  · subst hsome
    have hunit := lowestNone_returnUnit hk hlow
    have hallocate : allocate i d (some r) s = .accept [byte i, byte ProbeState.armed.code, byte k]
        (defineProbe i d (some k) ((returnUnit (s.probe i) s.pool).set k (some (attachedUnit i r))) s) := by
      rw [allocate, hunit]
    refine ⟨(defineProbe i d (some k) ((returnUnit (s.probe i) s.pool).set k (some (attachedUnit i r))) s).bank,
      (returnUnit (s.probe i) s.pool).set k (some (attachedUnit i r)), ?_,
      defineProbe_bank_same .., fun j hne => defineProbe_bank_other hne .., rfl, ?_, fun j hj => ?_⟩
    · exact dispatch_accepted h (cmdDefineProbe_of_probe hi) (defineLengthOk_of_passes h)
        ((defineVerdict_of_rest hown hbody hstate).trans hallocate)
    · rw [vector_set_get, if_pos rfl]
      rfl
    · rw [vector_set_get, if_neg (Ne.symm hj), returnUnit_get]

end Sys2Proof.Machine
end

section
/-! Harvests: the capture and the zeroing, by HARVEST and by the triggers of a MARK (R122 to R128, R136, R137). -/

namespace Sys2Proof.Machine

/-! ### Capture and zeroing -/

theorem zeroProbes_probe (set : ProbeSet) (s : State) (i : ProbeNo) :
    (zeroProbes set s).probe i = if set.has i then (s.probe i).zeroed else s.probe i :=
  Bank.probe_mapProbes ..

theorem zeroProbes_pool (set : ProbeSet) (s : State) (n : Fin 8) :
    (zeroProbes set s).pool[n] =
      if ∃ i, set.has i = true ∧ (s.probe i).unit = some n then s.pool[n].map HistUnit.clear else s.pool[n] := by
  refine (mapFin_get ..).trans ?_
  simp only [any_members_unit]
  rfl

theorem has_ite_zero (b : Prop) [Decidable b] (set : ProbeSet) (i : ProbeNo) :
    (if b then set else 0).has i = true ↔ b ∧ set.has i = true := by
  split <;> rename_i h <;> simp [h]

theorem boundProbes_has (set : ProbeSet) (b : Bank) (i : ProbeNo) :
    (boundProbes set b).has i = true ↔ set.has i = true ∧ (b.probe i).state ≠ .unbound := by
  rw [boundProbes, ProbeSet.has_and, Bool.and_eq_true, probesWhere_has, bne_iff_ne]

/-! ### HARVEST -/

theorem noneFails_ite {b : Bool} {set : ProbeSet} {bad : ProbeNo → Prop} (h : b = true → NoneFails set bad) :
    NoneFails (if b then set else 0) bad := by
  cases b with
  | false => exact noneFails_zero bad
  | true => exact h rfl

/-- Settles O43, by the level at which the command fails and, accepted, by the rules of capture and zeroing. -/
theorem harvestResult : Obligations.HarvestResult := by
  rintro p c s _ _ rfl rfl h
  have hflag : (byteAt c.body 2 == 1) = true ↔ byteAt c.body 2 = 1 := beq_iff_eq
  refine ⟨fun i hone hi => ?_, fun hown hargs => ?_, fun hown hne hle => ?_⟩
  · refine dispatch_refused h rfl h.length ?_
    rw [if_pos (hflag.mpr hone)]
    exact whenOwner_refuses hi _
  · refine dispatch_refused h rfl h.length ((whenOwner_passes (noneFails_ite fun hb => hown (hflag.mp hb)) _).trans
      (refuseIf_of_fails ?_ _ _))
    simpa [flagUndefined] using hargs
  have howner := noneFails_ite fun hb => hown (hflag.mp hb)
  have hargs : (probeSetAt c.body 0 == 0 || flagUndefined (byteAt c.body 2)) = false := by
    simpa [flagUndefined] using And.intro hne hle
  refine ⟨fun i hi => ?_, fun hbound hfull => ?_, fun hbound k hk hlow => ?_⟩
  · exact dispatch_refused h rfl h.length ((whenOwner_passes howner _).trans ((refuseIf_of_passes hargs _ _).trans
      (refuseProbe_of_some (lowestIn_of_lowestFailing (fun _ => beq_iff_eq) hi) _ _)))
  · refine dispatch_refused h rfl h.length ((whenOwner_passes howner _).trans ((refuseIf_of_passes hargs _ _).trans
      ((refuseProbe_of_none (lowestIn_of_noneFails (fun _ => beq_iff_eq) hbound) _ _).trans ?_)))
    rw [lowestNone_eq_none.mpr hfull]
  · refine ⟨makeHarvest k p .command (probeSetAt c.body 0)
      (if byteAt c.body 2 == 1 then probeSetAt c.body 0 else 0) s, ?_, ?_, fun i => ?_, fun n => ?_, rfl, rfl, rfl, rfl, rfl⟩
    · refine dispatch_accepted h rfl h.length ((whenOwner_passes howner _).trans ((refuseIf_of_passes hargs _ _).trans
        ((refuseProbe_of_none (lowestIn_of_noneFails (fun _ => beq_iff_eq) hbound) _ _).trans ?_)))
      rw [lowestNone_eq_some.mpr ⟨hk, hlow⟩]
      rfl
    · simp only [← hflag]
      rfl
    · refine (zeroProbes_probe ..).trans ?_
      simp only [has_ite_zero, hflag]
      rfl
    · refine (zeroProbes_pool ..).trans ?_
      simp only [has_ite_zero, hflag, and_assoc, exists_and_left]
      rfl

/-! ### Triggers -/

theorem serveTrigger_of_empty {s : State} {n : Fin 4} (h : s.harv.triggers[n] = none) (label : BitVec 16) (stamp : Tick) :
    serveTrigger label stamp s n = s := by rw [serveTrigger, h]

theorem serveTrigger_of_set {s : State} {n : Fin 4} {x : Trigger} (h : s.harv.triggers[n] = some x) (label : BitVec 16)
    (stamp : Tick) : serveTrigger label stamp s n = if x.label = label then fireTrigger n x label stamp s else s := by
  rw [serveTrigger, h]
  simp only [beq_iff_eq]

theorem served_eq (x : Trigger) : x.served = if x.mode = .once then none else some x := by
  unfold Trigger.served
  split <;> rename_i hmode <;> rw [hmode] <;> rfl

theorem fireTrigger_missed {s : State} (hfull : ∀ k : Fin 4, s.harv.slots[k] ≠ none) (n : Fin 4) (x : Trigger)
    (label : BitVec 16) (stamp : Tick) :
    fireTrigger n x label stamp s =
      { s with
        mgmt := s.mgmt.raiseToOwner (some x.owner) (.triggerMissed n label) stamp
        harv := { s.harv with triggers := s.harv.triggers.set n x.served } } := by
  rw [fireTrigger, lowestNone_eq_none.mpr hfull]
  rfl

/-- The probes a trigger's harvest zeroes: of those captured, the ones its port owns, when it has the zero flag (R136). -/
def zeroedBy (x : Trigger) (b : Bank) : ProbeSet :=
  if x.zero then boundProbes x.probes b &&& b.ownedBy x.owner else 0

theorem zeroedBy_has (x : Trigger) (b : Bank) (i : ProbeNo) : (zeroedBy x b).has i = true ↔
    x.zero = true ∧ (boundProbes x.probes b).has i = true ∧ (b.probe i).owner = some x.owner := by
  rw [zeroedBy, has_ite_zero, ProbeSet.has_and, Bool.and_eq_true, ownedBy_has]

theorem fireTrigger_harvested {s : State} {k : Fin 4} (hk : s.harv.slots[k] = none)
    (hlow : ∀ j : Fin 4, j < k → s.harv.slots[j] ≠ none) (n : Fin 4) (x : Trigger) (label : BitVec 16) (stamp : Tick) :
    fireTrigger n x label stamp s = ({ makeHarvest k x.owner (.trigger n label stamp) (boundProbes x.probes s.bank)
        (zeroedBy x s.bank) s with
      mgmt := s.mgmt.raiseToOwner (some x.owner) (.harvested k n (s.harv.number + 1)) stamp }).setTrigger n
        { x with fired := satInc x.fired }.served := by
  rw [fireTrigger, lowestNone_eq_some.mpr ⟨hk, hlow⟩]
  rfl

/-- Settles O46, by the trigger's label and the lowest FREE slot. -/
theorem triggerService : Obligations.TriggerService := by
  refine fun label stamp s => ⟨rfl, fun n => ⟨fun hempty => serveTrigger_of_empty hempty label stamp, fun x hx =>
    ⟨fun hne => ?_, fun hlabel hfull => ?_, fun hlabel k hk hlow => ?_⟩⟩⟩
  · rw [serveTrigger_of_set hx, if_neg hne]
  · rw [serveTrigger_of_set hx, if_pos hlabel, fireTrigger_missed hfull, served_eq]
  · rw [serveTrigger_of_set hx, if_pos hlabel, fireTrigger_harvested hk hlow]
    refine ⟨boundProbes x.probes s.bank, zeroedBy x s.bank,
      captureSlot x.owner (.trigger n label stamp) (boundProbes x.probes s.bank) (zeroedBy x s.bank) s,
      boundProbes_has _ s.bank, zeroedBy_has x s.bank, rfl, rfl, rfl, rfl, rfl, rfl, rfl, rfl, rfl, rfl, rfl, ?_, rfl,
      zeroProbes_probe _ _, zeroProbes_pool _ _, rfl, rfl, rfl⟩
    rw [served_eq]
    rfl

end Sys2Proof.Machine
end

section
/-! The commands of the snapshot slots and of the triggers (R129 to R131, R133 to R135, Table 10-8). -/

namespace Sys2Proof.Machine

/-! ### Numbers of slots and triggers -/

theorem slotNo_eq_none {b : Byte} (h : 3 < b.toNat) : slotNo b = none := dif_neg (by omega)

theorem slotNo_eq_some {b : Byte} {k : Fin 4} (h : b.toNat = k.val) : slotNo b = some k :=
  (dif_pos (show b.toNat < 4 by omega)).trans (congrArg some (Fin.ext h))

theorem slotNo_of_eq_some {b : Byte} {k : Fin 4} (h : slotNo b = some k) : b.toNat = k.val := by
  obtain ⟨_, heq⟩ := Option.dite_none_right_eq_some.mp h
  exact congrArg Fin.val (Option.some.inj heq)

theorem byte_of_toNat_eq {b : Byte} {n : Nat} (h : b.toNat = n) : byte n = b := by rw [← h, byte_toNat]

/-! ### The verdicts of the slot commands -/

section
variable {p : Port} {body : List Byte} {s : State} {k : Fin 4} {x : Slot}

theorem cmdReadSnapshot_of_noSlot (hb : slotNo (byteAt body 0) = none) :
    cmdReadSnapshot p body s = whenOpen p s (body.length == 2) (.refusal .badArgument []) := by
  rw [cmdReadSnapshot, hb]

theorem cmdReadSnapshot_of_free (hb : slotNo (byteAt body 0) = some k) (hk : s.harv.slots[k] = none) :
    cmdReadSnapshot p body s = whenOpen p s (body.length == 2)
      (refuseIf (16 < (byteAt body 1).toNat) .badArgument (.refusal .badState [])) := by
  rw [cmdReadSnapshot, hb]
  simp only [hk]

theorem cmdReadSnapshot_of_filled (hb : slotNo (byteAt body 0) = some k) (hk : s.harv.slots[k] = some x) :
    cmdReadSnapshot p body s = whenOpen p s (body.length == 2) (refuseIf (x.owner != p) .notOwner
      (refuseIf (16 < (byteAt body 1).toNat || x.pageCount ≤ (byteAt body 1).toNat) .badArgument
        (.accept (snapshotReply k (byteAt body 1).toNat x) s))) := by
  rw [cmdReadSnapshot, hb]
  simp only [hk]

theorem cmdFreeSnapshot_of_noSlot (hb : slotNo (byteAt body 0) = none) :
    cmdFreeSnapshot p body s = whenOpen p s (body.length == 1) (.refusal .badArgument []) := by
  rw [cmdFreeSnapshot, hb]

theorem cmdFreeSnapshot_of_free (hb : slotNo (byteAt body 0) = some k) (hk : s.harv.slots[k] = none) :
    cmdFreeSnapshot p body s = whenOpen p s (body.length == 1) (.refusal .badState []) := by
  rw [cmdFreeSnapshot, hb]
  simp only [hk]

theorem cmdFreeSnapshot_of_filled (hb : slotNo (byteAt body 0) = some k) (hk : s.harv.slots[k] = some x) :
    cmdFreeSnapshot p body s = whenOpen p s (body.length == 1) (refuseIf (x.owner != p) .notOwner
      (.accept [byte k, byte (freeSlots (freeSlot k s).harv.slots)] (freeSlot k s))) := by
  rw [cmdFreeSnapshot, hb]
  simp only [hk]

end

/-! ### Pages and reports -/

theorem headerPage_eq (x : Slot) : x.page 0 =
    le 2 x.number.toNat ++ x.origin.bytes ++
      le 6 x.header.captureTime.toNat ++ le 2 x.header.captured.toNat ++ le 2 x.header.zeroed.toNat ++
      le 2 x.header.occupancy ++
      [x.header.globals.admitted, x.header.globals.untracked, x.header.globals.completed,
        x.header.globals.failed, x.header.globals.malformed, x.header.globals.timedOut,
        x.header.globals.superseded, x.header.globals.flushed, x.header.globals.late,
        x.header.globals.orphan].flatMap (fun n => le 8 n.toNat) ++
      le 4 x.header.lossCount.toNat ++ le 4 x.header.rejectedCount.toNat := by
  rw [Slot.page, Slot.headerPage, globals_bytes_eq]

theorem page_of_pages {x : Slot} {page : ProbePage} {n : Nat} (hn : 1 ≤ n) (h : x.pages[n - 1]? = some page) :
    x.page n = page.bytes := by
  obtain ⟨m, rfl⟩ := Nat.exists_eq_add_of_le' hn
  rw [Nat.add_sub_cancel] at h
  rw [Slot.page, h]

theorem freeSlots_eq (slots : Vector (Option Slot) 4) :
    freeSlots slots = (List.finRange 4).countP (fun j => slots[j].isNone) := by
  rw [freeSlots, toList_eq_map_finRange, List.countP_map]
  rfl

theorem reports_eq {α β : Type} {n : Nat} (v : Vector α n) (f : α → List β) :
    v.toList.flatMap f = (List.finRange n).flatMap (fun k => f v[k]) := by
  rw [toList_eq_map_finRange, List.flatMap_map]

theorem owner_bne_of_ne {q p : Port} (h : q ≠ p) : (q != p) = true := bne_iff_ne.mpr h

theorem owner_bne_of_eq {q p : Port} (h : q = p) : (q != p) = false := by rw [h, bne_self_eq_false]

/-- READ_SNAPSHOT, by the slot the body names (R129). -/
theorem readSnapshot_result {p : Port} {c : Command} {s : State} (h : CommandPasses p 0x39#8 c s) {a b : Byte}
    (hbody : c.body = [a, b]) :
    (3 < a.toNat → exec (.readSnapshot p) s = .next (answered p c .badArgument [] s)) ∧
    ∀ k : Fin 4, a.toNat = k.val →
      (s.harv.slots[k] = none →
        exec (.readSnapshot p) s = .next (answered p c (if 16 < b.toNat then .badArgument else .badState) [] s)) ∧
      (∀ x, s.harv.slots[k] = some x → x.owner ≠ p →
        exec (.readSnapshot p) s = .next (answered p c .notOwner [] s)) ∧
      (∀ x, s.harv.slots[k] = some x → x.owner = p → (16 < b.toNat ∨ 1 + x.pages.length ≤ b.toNat) →
        exec (.readSnapshot p) s = .next (answered p c .badArgument [] s)) ∧
      (∀ x, s.harv.slots[k] = some x → x.owner = p → b.toNat ≤ 16 → b.toNat < 1 + x.pages.length →
        exec (.readSnapshot p) s = .next (answered p c .ok
          ([a, b, byte (1 + x.pages.length)] ++ le 2 x.number.toNat ++ x.page b.toNat) s)) := by
  have ha : byteAt c.body 0 = a := by rw [hbody]; rfl
  have hb : byteAt c.body 1 = b := by rw [hbody]; rfl
  rw [← ha, ← hb]
  refine ⟨fun hno => ?_, fun k hk => ⟨fun hfree => ?_, fun x hx hown => ?_, fun x hx hown hpage => ?_,
    fun x hx hown h16 hpage => ?_⟩⟩
  · exact dispatch_refused h (cmdReadSnapshot_of_noSlot (slotNo_eq_none hno)) h.length rfl
  · refine dispatch_refused h (cmdReadSnapshot_of_free (slotNo_eq_some hk) hfree) h.length ?_
    by_cases h16 : 16 < (byteAt c.body 1).toNat
    · rw [if_pos h16]
      exact refuseIf_of_fails (decide_eq_true h16) _ _
    · rw [if_neg h16]
      exact refuseIf_of_passes (decide_eq_false h16) _ _
  · exact dispatch_refused h (cmdReadSnapshot_of_filled (slotNo_eq_some hk) hx) h.length
      (refuseIf_of_fails (owner_bne_of_ne hown) _ _)
  · refine dispatch_refused h (cmdReadSnapshot_of_filled (slotNo_eq_some hk) hx) h.length
      ((refuseIf_of_passes (owner_bne_of_eq hown) _ _).trans (refuseIf_of_fails ?_ _ _))
    simp only [Bool.or_eq_true, decide_eq_true_eq]
    exact hpage
  · have hreply : snapshotReply k (byteAt c.body 1).toNat x =
        [byteAt c.body 0, byteAt c.body 1, byte (1 + x.pages.length)] ++ le 2 x.number.toNat ++
          x.page (byteAt c.body 1).toNat := by
      rw [snapshotReply, byte_of_toNat_eq hk, byte_toNat]
      rfl
    rw [← hreply]
    refine dispatch_accepted h (cmdReadSnapshot_of_filled (slotNo_eq_some hk) hx) h.length
      ((refuseIf_of_passes (owner_bne_of_eq hown) _ _).trans (refuseIf_of_passes ?_ _ _))
    simp only [Bool.or_eq_false_iff, decide_eq_false_iff_not, Nat.not_lt, Nat.not_le]
    exact ⟨h16, hpage⟩

/-- Settles O44, by the slot the body names and the layouts of the pages. -/
theorem snapshotCommands : Obligations.SnapshotCommands := by
  refine ⟨⟨rfl, rfl, rfl⟩, fun p c s => ⟨fun h a b hbody => ?_, fun h a hbody => ?_, fun h => ?_⟩⟩
  · obtain ⟨hno, hslot⟩ := readSnapshot_result h hbody
    refine ⟨hno, fun k hk => ?_⟩
    obtain ⟨hfree, hforeign, hargs, hread⟩ := hslot k hk
    refine ⟨hfree, hforeign, hargs, fun x hx hown hzero => ?_, fun x page hx hown h1 h16 hpage => ?_⟩
    · subst hzero
      rw [hread x hx hown (by decide) (by simp), show (0 : Byte).toNat = 0 from rfl, headerPage_eq]
      cases x.origin <;> rfl
    · obtain ⟨hlen, -⟩ := List.getElem?_eq_some_iff.mp hpage
      rw [hread x hx hown h16 (by omega), page_of_pages h1 hpage, ProbePage.bytes]
      obtain ⟨probe, state, owner, measure, inFlight, values, hist⟩ := page
      refine congrArg (fun l => Host.Outcome.next (answered p c .ok (_ ++ l) s)) (congrArg₂ HAppend.hAppend ?_ ?_)
      · rcases measure with _ | _ | _ | _ <;> rfl
      · rcases hist with _ | ⟨unit, _ | _, parameter, bins⟩ <;> rfl
  · have ha : byteAt c.body 0 = a := by rw [hbody]; rfl
    rw [← ha]
    refine ⟨fun hno => ?_, fun k hk => ⟨fun hfree => ?_, fun x hx hown => ?_, fun x hx hown => ?_⟩⟩
    · exact dispatch_refused h (cmdFreeSnapshot_of_noSlot (slotNo_eq_none hno)) h.length rfl
    · exact dispatch_refused h (cmdFreeSnapshot_of_free (slotNo_eq_some hk) hfree) h.length rfl
    · exact dispatch_refused h (cmdFreeSnapshot_of_filled (slotNo_eq_some hk) hx) h.length
        (refuseIf_of_fails (owner_bne_of_ne hown) _ _)
    · rw [← byte_of_toNat_eq hk, ← freeSlots_eq]
      exact dispatch_accepted h (cmdFreeSnapshot_of_filled (slotNo_eq_some hk) hx) h.length
        (refuseIf_of_passes (owner_bne_of_eq hown) _ _)
  · refine (dispatch_accepted h rfl h.length rfl).trans ?_
    rw [reports_eq]
    refine congrArg (fun l => Host.Outcome.next (answered p c .ok (_ ++ l) s)) (List.flatMap_congr fun k _ => ?_)
    rcases s.harv.slots[k] with _ | ⟨owner, _ | _, number, header, pages⟩ <;> rfl

/-! ### The verdicts of the trigger commands -/

section
variable {p : Port} {body : List Byte} {s : State} {n : Fin 4} {x : Trigger}

theorem namedElsewhere_eq_true (p : Port) (b : Byte) (s : State) : namedElsewhere p b s = true ↔
    ∃ (n : Fin 4) (x : Trigger), b.toNat = n.val ∧ s.harv.triggers[n] = some x ∧ x.owner ≠ p := by
  constructor
  · intro h
    unfold namedElsewhere at h
    split at h
    · rename_i n hn
      split at h
      · rename_i x hx
        exact ⟨n, x, slotNo_of_eq_some hn, hx, bne_iff_ne.mp h⟩
      · cases h
    · cases h
  · rintro ⟨n, x, hn, hx, hown⟩
    rw [namedElsewhere, slotNo_eq_some hn]
    simp only [hx]
    exact bne_iff_ne.mpr hown

theorem triggerModeOfCode_eq_none {b : Byte} (h : 1 < b.toNat) : triggerModeOfCode b.toNat = none := by
  obtain ⟨m, hm⟩ := Nat.exists_eq_add_of_le' h
  rw [hm]
  rfl

theorem triggerModeOfCode_eq_some {b : Byte} (h : b.toNat ≤ 1) :
    triggerModeOfCode b.toNat = some (if b = 1 then .repeating else .once) := by
  rcases Nat.le_one_iff_eq_zero_or_eq_one.mp h with hzero | hone
  · rw [hzero, ← byte_of_toNat_eq hzero]
    rfl
  · rw [hone, ← byte_of_toNat_eq hone]
    rfl

theorem setTriggerVerdict_refuses (hargs : 3 < (byteAt body 0).toNat ∨ probeSetAt body 3 = 0 ∨
    1 < (byteAt body 5).toNat ∨ 1 < (byteAt body 6).toNat) : setTriggerVerdict p body s = .refusal .badArgument [] := by
  unfold setTriggerVerdict
  split
  · rename_i n mode hn hmode
    have hnumber : ¬ 3 < (byteAt body 0).toNat := fun hlt => by simp [slotNo_eq_none hlt] at hn
    have hcode : ¬ 1 < (byteAt body 6).toNat := fun hlt => by simp [triggerModeOfCode_eq_none hlt] at hmode
    refine refuseIf_of_fails ?_ _ _
    simpa [flagUndefined, hnumber, hcode] using hargs
  · rfl
  · rfl
  · rfl

theorem setTriggerVerdict_accepts (hn : (byteAt body 0).toNat = n.val) (hset : probeSetAt body 3 ≠ 0)
    (hzero : (byteAt body 5).toNat ≤ 1) (hmode : (byteAt body 6).toNat ≤ 1) :
    setTriggerVerdict p body s = .accept (body ++ le 4 0)
      (s.setTrigger n (some (triggerOfBody p (if byteAt body 6 = 1 then .repeating else .once) body))) := by
  rw [setTriggerVerdict, slotNo_eq_some hn, triggerModeOfCode_eq_some hmode]
  exact refuseIf_of_passes (by simpa [flagUndefined] using And.intro hset hzero) _ _

theorem cmdClearTrigger_of_noTrigger (hb : slotNo (byteAt body 0) = none) :
    cmdClearTrigger p body s = whenOpen p s (body.length == 1) (.refusal .badArgument []) := by
  rw [cmdClearTrigger, hb]

theorem cmdClearTrigger_of_empty (hb : slotNo (byteAt body 0) = some n) (hn : s.harv.triggers[n] = none) :
    cmdClearTrigger p body s = whenOpen p s (body.length == 1) (.refusal .badState []) := by
  rw [cmdClearTrigger, hb]
  simp only [hn]

theorem cmdClearTrigger_of_set (hb : slotNo (byteAt body 0) = some n) (hn : s.harv.triggers[n] = some x) :
    cmdClearTrigger p body s = whenOpen p s (body.length == 1) (refuseIf (x.owner != p) .notOwner
      (.accept (byte n :: le 4 x.fired.toNat) (s.setTrigger n none))) := by
  rw [cmdClearTrigger, hb]
  simp only [hn]

end

/-- The two bytes of a number of a body, the low one first. -/
theorem ofNat_low_high (lo hi : Byte) : BitVec.ofNat 16 (lo.toNat + 256 * hi.toNat) = hi ++ lo := by
  apply BitVec.eq_of_toNat_eq
  have hlo := lo.isLt
  have hhi := hi.isLt
  rw [BitVec.toNat_append, ← Nat.shiftLeft_add_eq_or_of_lt hlo, BitVec.toNat_ofNat, Nat.shiftLeft_eq]
  omega

/-- Settles O45, by the trigger the body names. -/
theorem triggerCommands : Obligations.TriggerCommands := by
  refine fun p c s => ⟨fun h a l0 l1 p0 p1 z m set hbody hset => ?_, fun h a hbody => ?_, fun h => ?_⟩
  · have hset : probeSetAt c.body 3 = set := by
      rw [hbody, hset]
      exact ofNat_low_high p0 p1
    have ha : byteAt c.body 0 = a := by rw [hbody]; rfl
    have hz : byteAt c.body 5 = z := by rw [hbody]; rfl
    have hm : byteAt c.body 6 = m := by rw [hbody]; rfl
    have htrigger (mode : TriggerMode) : triggerOfBody p mode c.body =
        { owner := p, label := l1 ++ l0, probes := set, zero := z == 1, mode := mode, fired := 0 } := by
      rw [triggerOfBody, hset, hz, hbody]
      exact congrArg (fun l => Trigger.mk p l set (z == 1) mode 0) (ofNat_low_high l0 l1)
    have hnamed := namedElsewhere_eq_true p (byteAt c.body 0) s
    rw [← hset, ← ha, ← hz, ← hm]
    refine ⟨fun n x hn hx hown => ?_, fun hnone => ?_⟩
    · exact dispatch_refused h rfl h.length (refuseIf_of_fails (hnamed.mpr ⟨n, x, hn, hx, hown⟩) _ _)
    have hpass : namedElsewhere p (byteAt c.body 0) s = false :=
      Bool.eq_false_iff.mpr fun hf => by
        obtain ⟨n, x, hn, hx, hown⟩ := hnamed.mp hf
        exact hown (hnone n x hn hx)
    refine ⟨fun i hi => ?_, fun howned => ⟨fun hargs => ?_, fun n hn hne hzero hmode => ?_⟩⟩
    · exact dispatch_refused h rfl h.length ((refuseIf_of_passes hpass _ _).trans (whenOwner_refuses hi _))
    · exact dispatch_refused h rfl h.length ((refuseIf_of_passes hpass _ _).trans ((whenOwner_passes howned _).trans
        (setTriggerVerdict_refuses hargs)))
    · refine (dispatch_accepted h rfl h.length ((refuseIf_of_passes hpass _ _).trans ((whenOwner_passes howned _).trans
        (setTriggerVerdict_accepts hn hne hzero hmode)))).trans ?_
      rw [htrigger, hset, ha, hz, hm, hbody]
      rfl
  · have ha : byteAt c.body 0 = a := by rw [hbody]; rfl
    rw [← ha]
    refine ⟨fun hno => ?_, fun n hn => ⟨fun hempty => ?_, fun x hx hown => ?_, fun x hx hown => ?_⟩⟩
    · exact dispatch_refused h (cmdClearTrigger_of_noTrigger (slotNo_eq_none hno)) h.length rfl
    · exact dispatch_refused h (cmdClearTrigger_of_empty (slotNo_eq_some hn) hempty) h.length rfl
    · exact dispatch_refused h (cmdClearTrigger_of_set (slotNo_eq_some hn) hx) h.length
        (refuseIf_of_fails (owner_bne_of_ne hown) _ _)
    · rw [← byte_of_toNat_eq hn]
      exact dispatch_accepted h (cmdClearTrigger_of_set (slotNo_eq_some hn) hx) h.length
        (refuseIf_of_passes (owner_bne_of_eq hown) _ _)
  · refine (dispatch_accepted h rfl h.length rfl).trans ?_
    rw [reports_eq]
    refine congrArg (fun l => Host.Outcome.next (answered p c .ok l s)) (List.flatMap_congr fun k _ => ?_)
    rcases s.harv.triggers[k] with _ | ⟨owner, label, probes, zero, _ | _, fired⟩ <;> rfl

end Sys2Proof.Machine
end

section
/-! The commands of the Alert Unit: mask, status and acknowledgement (R9, R144, R147 to R150). -/

namespace Sys2Proof.Machine

/-! ### The alert mask -/

theorem byte_of_nibbles (b : Byte) : ∃ high low : Fin 16, byte (16 * high.val + low.val) = b :=
  ⟨⟨b.toNat / 16, by omega⟩, ⟨b.toNat % 16, by omega⟩, byte_of_toNat_eq (Nat.div_add_mod b.toNat 16).symm⟩

/-- The masks of R144, by the two halves of the byte. -/
theorem maskByteOk_iff (b : Byte) : maskByteOk b = true ↔ b.toNat % 16 = 0 ∧ b.toNat < 64 := by
  have hall : ∀ high low : Fin 16, maskByteOk (byte (16 * high.val + low.val)) = true ↔
      (byte (16 * high.val + low.val)).toNat % 16 = 0 ∧ (byte (16 * high.val + low.val)).toNat < 64 := by decide
  obtain ⟨high, low, rfl⟩ := byte_of_nibbles b
  exact hall high low

theorem byte_maskOfByte {b : Byte} (h : maskByteOk b = true) : (maskOfByte b).byte = b := by
  have hall : ∀ high low : Fin 16, maskByteOk (byte (16 * high.val + low.val)) = true →
      (maskOfByte (byte (16 * high.val + low.val))).byte = byte (16 * high.val + low.val) := by decide
  obtain ⟨high, low, rfl⟩ := byte_of_nibbles b
  exact hall high low h

theorem alertMask_byte_eq (m : AlertMask) :
    m.byte = byte ((if m.tableFull then 16 else 0) + (if m.intakeLoss then 32 else 0)) := by
  obtain ⟨full, loss⟩ := m
  cases full <;> cases loss <;> rfl

/-! ### The head of an alert queue -/

theorem isIntakeLoss_iff (al : Alert) : al.isIntakeLoss = true ↔ ∃ n, al.condition = .intakeLoss n := by
  unfold Alert.isIntakeLoss
  cases al.condition <;> simp

theorem headAfter_eq (rest : List Alert) : headAfter rest =
    if rest = [] then { sent := false, due := false, timer := none }
    else { sent := false, due := true, timer := none } := by
  cases rest <;> rfl

/-- A port whose head alert left its queue (R147 to R149). -/
theorem dropAlert_of_cons {x : PortState} {al : Alert} {others : List Alert} (h : x.alerts = al :: others) :
    x.dropAlert = { x with
      alerts := others
      head := if others = [] then { sent := false, due := false, timer := none }
        else { sent := false, due := true, timer := none }
      sending := x.sending.map completing } := by
  rw [PortState.dropAlert, orphaned_eq_completing, h, List.drop_one, List.tail_cons, headAfter_eq]

section
variable {p : Port} {body : List Byte} {s : State}

theorem cmdAckAlert_of_empty (h : (s.port p).alerts = []) :
    cmdAckAlert p body s = whenOpen p s (body.length == 2) (.refusal .badArgument []) := by
  rw [cmdAckAlert]
  simp only [h]

theorem cmdAckAlert_of_cons {al : Alert} {others : List Alert} (h : (s.port p).alerts = al :: others) :
    cmdAckAlert p body s = whenOpen p s (body.length == 2)
      (refuseIf (al.number.toNat != field body 0 2 || !(s.port p).head.sent) .badArgument
        (.accept (le 2 (field body 0 2) ++ [byte others.length]) (acknowledge p al s))) := by
  rw [cmdAckAlert]
  simp only [h]

end

theorem setAlertMask_result {p : Port} {c : Command} {s : State} (h : CommandPasses p 0x40#8 c s) {b : Byte}
    (hbody : c.body = [b]) :
    (b.toNat % 16 = 0 → b.toNat < 64 →
      exec (.setAlertMask p) s = .next (answered p c .ok [b]
        (s.setPort p { s.port p with mask := { tableFull := b.getLsbD 4, intakeLoss := b.getLsbD 5 } }))) ∧
    ((b.toNat % 16 ≠ 0 ∨ 64 ≤ b.toNat) →
      exec (.setAlertMask p) s = .next (answered p c .badArgument [] s)) := by
  have hb : byteAt c.body 0 = b := by rw [hbody]; rfl
  refine ⟨fun hlow hlt => ?_, fun hbad => ?_⟩
  · have hok : maskByteOk b = true := (maskByteOk_iff b).mpr ⟨hlow, hlt⟩
    refine (dispatch_accepted h rfl h.length (refuseIf_of_passes (by rw [hb, hok]; rfl) _ _)).trans ?_
    rw [hb, byte_maskOfByte hok]
    rfl
  · have hok : maskByteOk b = false := Bool.eq_false_iff.mpr fun hok => by
      obtain ⟨hlow, hlt⟩ := (maskByteOk_iff b).mp hok
      omega
    exact dispatch_refused h rfl h.length (refuseIf_of_fails (by rw [hb, hok]; rfl) _ _)

/-- Settles O48: the mask's kinds, the report of the head alert, and the head's removal. -/
theorem alertCommands : Obligations.AlertCommands := by
  refine fun p c s => ⟨fun h b => setAlertMask_result h, fun h => ?_, fun h => ⟨fun hempty => ?_, fun al others hcons =>
    ⟨fun hbad => ?_, fun hnumber hsent => ?_⟩⟩⟩
  · refine (dispatch_accepted h rfl h.length rfl).trans ?_
    rw [alertReport, alertMask_byte_eq, headReport]
    cases (s.port p).alerts <;> rfl
  · exact dispatch_refused h (cmdAckAlert_of_empty hempty) h.length rfl
  · refine dispatch_refused h (cmdAckAlert_of_cons hcons) h.length (refuseIf_of_fails ?_ _ _)
    simpa using hbad
  · refine ⟨s.obs.lossArmed || al.isIntakeLoss, ?_, ?_⟩
    · rw [hnumber, ← dropAlert_of_cons hcons]
      refine dispatch_accepted h (cmdAckAlert_of_cons hcons) h.length (refuseIf_of_passes ?_ _ _)
      simp [hnumber, hsent]
    · rw [Bool.or_eq_true, isIntakeLoss_iff]

end Sys2Proof.Machine
end

section
/-! The transmitters and the resend timer of the head alert (R147, R148, R160, R161, Tables 10-9 and 10-10). -/

namespace Sys2Proof.Machine

section
variable {p : Port} {s : State}

theorem exec_transmitStart_of_idle (h : s.resetN = true) (hidle : (s.port p).sending = none) :
    exec (.transmitStart p) s = .next (s.setPort p (s.port p).beginFrame) := by
  refine (whileReleased_of_released _ h).trans ?_
  rw [hidle]
  rfl

theorem exec_transmitStart_of_sending (h : s.resetN = true) (hbusy : (s.port p).sending.isSome = true) :
    exec (.transmitStart p) s = .next s := by
  refine (whileReleased_of_released _ h).trans ?_
  rw [if_neg (by rw [Option.isNone_iff_eq_none]; exact Option.isSome_iff_ne_none.mp hbusy)]

theorem exec_transmitEnd_of_sending (h : s.resetN = true) {f : Transmission} (hf : (s.port p).sending = some f) :
    exec (.transmitEnd p) s = .next (s.setPort p ((s.port p).endFrame s.timebase f.what)) := by
  change execTransmitEnd p s = _
  rw [execTransmitEnd, hf]
  exact whileReleased_of_released _ h

theorem exec_transmitEnd_of_idle (hidle : (s.port p).sending = none) : exec (.transmitEnd p) s = .next s := by
  change execTransmitEnd p s = _
  rw [execTransmitEnd, hidle]

end

section
variable {x : PortState}

theorem beginFrame_of_notice {r : Reply} (h : x.notice = some r) :
    x.beginFrame = { x with notice := none, sending := some { what := .notice, bytes := r.frame } } := by
  rw [PortState.beginFrame]
  simp only [h]

theorem beginFrame_of_reply {r : Reply} (hn : x.notice = none) (h : x.reply = some r) :
    x.beginFrame = { x with sending := some { what := .reply, bytes := r.frame } } := by
  rw [PortState.beginFrame]
  simp only [hn, h]

theorem beginFrame_of_alert {al : Alert} {others : List Alert} (hn : x.notice = none) (hr : x.reply = none)
    (h : x.alerts = al :: others) (hdue : x.head.due = true) :
    x.beginFrame =
      { x with head := { x.head with due := false }, sending := some { what := .alert true, bytes := al.frame } } := by
  rw [PortState.beginFrame, PortState.beginAlert]
  simp only [hn, hr, h, hdue, if_true]

theorem endFrame_of_unheld (now : Tick) {w : Sending} (h : w = .notice ∨ w = .alert false) :
    x.endFrame now w = { x with sending := none } := by
  rcases h with rfl | rfl <;> rfl

theorem endFrame_reply_of_idle (now : Tick) {c : Command} {rest : List Command} (he : x.executing = none)
    (hc : x.commands = c :: rest) :
    x.endFrame now .reply = { x with sending := none, reply := none, executing := some c, commands := rest } :=
  takeNext_of_idle (x := { x with sending := none, reply := none }) he rfl hc

theorem endFrame_reply_of_busy (now : Tick) (h : x.executing ≠ none ∨ x.commands = []) :
    x.endFrame now .reply = { x with sending := none, reply := none } :=
  takeNext_of_busy (x := { x with sending := none, reply := none })
    (h.imp Option.isSome_iff_ne_none.mpr .inr)

theorem resendDue_of_timer {now from_ : Tick} (h : x.head.timer = some from_) :
    x.resendDue now = reached now (from_ + 31250000#48) := by
  rw [PortState.resendDue, h]
  rfl

end

/-- Settles O49, by what the transmitter has to send and what it sends. -/
theorem transmitterSteps : Obligations.TransmitterSteps := by
  refine fun p s h => ⟨fun r hidle hnotice => ?_, fun r hidle hnotice hreply => ?_,
    fun al others hidle hnotice hreply halerts hdue => ?_, exec_transmitStart_of_sending h, exec_transmitEnd_of_idle,
    fun f hf => ⟨fun hwhat => ?_, fun hwhat => ⟨fun c rest he hc => ?_, fun hbusy => ?_⟩, fun hwhat => ?_⟩,
    fun from_ htimer => ⟨fun hdue => ?_, fun hdue => ?_⟩⟩
  · rw [exec_transmitStart_of_idle h hidle, beginFrame_of_notice hnotice]
    rfl
  · rw [exec_transmitStart_of_idle h hidle, beginFrame_of_reply hnotice hreply]
    rfl
  · rw [exec_transmitStart_of_idle h hidle, beginFrame_of_alert hnotice hreply halerts hdue]
    obtain ⟨number, time, condition, lost⟩ := al
    rcases condition with _ | ⟨i, _ | _ | _, n⟩ | _ | _ | _ | _ <;> rfl
  · rw [exec_transmitEnd_of_sending h hf, endFrame_of_unheld _ hwhat]
  · rw [exec_transmitEnd_of_sending h hf, hwhat, endFrame_reply_of_idle _ he hc]
  · rw [exec_transmitEnd_of_sending h hf, hwhat, endFrame_reply_of_busy _ hbusy]
  · rw [exec_transmitEnd_of_sending h hf, hwhat]
    rfl
  · refine (whileReleased_of_released _ h).trans ?_
    rw [resendDue_of_timer htimer, if_pos hdue]
  · refine (whileReleased_of_released _ h).trans ?_
    rw [resendDue_of_timer htimer, if_neg (by rw [hdue]; nofun)]

end Sys2Proof.Machine
end

section
/-! The receive lines: characters, frames, discards and gaps (R154 to R159; logs 7, 10 to 13, 21). -/

namespace Sys2Proof.Machine

/-! ### The receiver that listens -/

theorem whenListening_of_high {p : Port} {s : State} (h : s.resetN = true) (hlow : (s.port p).low = none)
    (f : PortState → PortState) : whenListening p s f = .next (s.setPort p (f (s.port p))) := by
  refine (whileReleased_of_released _ h).trans ?_
  rw [hlow]
  rfl

theorem whenListening_of_low {p : Port} {s : State} (h : s.resetN = true) {l : LowPeriod}
    (hlow : (s.port p).low = some l) (f : PortState → PortState) : whenListening p s f = .next s := by
  refine (whileReleased_of_released _ h).trans ?_
  rw [hlow]
  rfl

/-! ### The gap of a partial frame -/

theorem late_of_last {f : Framer} {last : Tick} (h : f.last = some last) (now : Tick) :
    f.late now = decide (625000 < elapsed last now) := by
  rw [Framer.late, Framer.idleFor, h]
  rfl

theorem gapOver_of_last {f : Framer} {last : Tick} (h : f.last = some last) (now : Tick) :
    f.gapOver now = decide (625000 ≤ elapsed last now) := by
  rw [Framer.gapOver, Framer.idleFor, h]
  rfl

theorem late_of_fresh {f : Framer} {last now : Tick} (h : f.last = some last) (hfresh : elapsed last now ≤ 625000) :
    f.late now = false := by
  rw [late_of_last h]
  exact decide_eq_false (Nat.not_lt.mpr hfresh)

section
variable {x : PortState}

theorem expireGap_of_hunt (h : x.framer = .hunt) (now : Tick) : x.expireGap now = x :=
  if_neg (by rw [h]; nofun)

theorem expireGap_of_fresh {last now : Tick} (h : x.framer.last = some last) (hfresh : elapsed last now ≤ 625000) :
    x.expireGap now = x :=
  if_neg (by rw [late_of_fresh h hfresh]; nofun)

theorem expireGap_of_late {last now : Tick} (h : x.framer.last = some last) (hlate : 625000 < elapsed last now) :
    x.expireGap now = x.discard :=
  if_pos (by rw [late_of_last h]; exact decide_eq_true hlate)

/-! ### A character, by the framer's state -/

theorem leNat_two (low high : Byte) : leNat [low, high] = low.toNat + 256 * high.toNat := rfl

theorem lengthOutOfRange_iff (n : Nat) : lengthOutOfRange n = true ↔ n < 2 ∨ 1026 < n := by
  rw [lengthOutOfRange, Bool.or_eq_true, decide_eq_true_iff, decide_eq_true_iff]

theorem crcMatches_iff (content : List Byte) (low high : Byte) : crcMatches content low high = true ↔
    low.toNat + 256 * high.toNat = (crc16 (le 2 content.length ++ content)).toNat := beq_iff_eq

theorem crcMatches_eq_false {content : List Byte} {low high : Byte}
    (h : low.toNat + 256 * high.toNat ≠ (crc16 (le 2 content.length ++ content)).toNat) :
    crcMatches content low high = false :=
  Bool.eq_false_iff.mpr (mt (crcMatches_iff content low high).mp h)

theorem takeChar_hunt (h : x.framer = .hunt) (now : Tick) (b : Byte) :
    x.takeChar now b = if b = 0xC3#8 then { x with framer := .length none now } else x := by
  rw [PortState.takeChar, h]
  simp only [beq_iff_eq]
  rfl

theorem takeChar_length_low {last : Tick} (h : x.framer = .length none last) (now : Tick) (b : Byte) :
    x.takeChar now b = { x with framer := .length (some b) now } := by
  rw [PortState.takeChar, h]

theorem takeChar_length_high {low : Byte} {last : Tick} (h : x.framer = .length (some low) last) (now : Tick)
    (b : Byte) : x.takeChar now b =
      if low.toNat + 256 * b.toNat < 2 ∨ 1026 < low.toNat + 256 * b.toNat then x.discard
      else { x with framer := .content (low.toNat + 256 * b.toNat) [] now } := by
  rw [PortState.takeChar, h]
  simp only [lengthOutOfRange_iff, leNat_two]

theorem takeChar_content {length : Nat} {got : List Byte} {last : Tick} (h : x.framer = .content length got last)
    (now : Tick) (b : Byte) : x.takeChar now b = { x with framer := Framer.grow length (got ++ [b]) now } := by
  rw [PortState.takeChar, h]

theorem grow_eq (length : Nat) (got : List Byte) (b : Byte) (now : Tick) : Framer.grow length (got ++ [b]) now =
    if got.length + 1 = length then .check (got ++ [b]) none now else .content length (got ++ [b]) now := by
  rw [Framer.grow, List.length_append]
  simp only [beq_iff_eq]
  rfl

theorem takeChar_check_low {content : List Byte} {last : Tick} (h : x.framer = .check content none last) (now : Tick)
    (b : Byte) : x.takeChar now b = { x with framer := .check content (some b) now } := by
  rw [PortState.takeChar, h]

theorem takeChar_check_high {content : List Byte} {low : Byte} {last : Tick}
    (h : x.framer = .check content (some low) last) (now : Tick) (b : Byte) :
    x.takeChar now b = if crcMatches content low b then x.receive content else x.discard := by
  rw [PortState.takeChar, h]

end

/-! ### CHARACTER_RECEIVED -/

section
variable {p : Port} {s : State}

theorem exec_characterReceived_of_high (h : s.resetN = true) (hlow : (s.port p).low = none) (b : Byte) :
    exec (.characterReceived p b) s =
      .next (s.setPort p (((s.port p).expireGap s.timebase).takeChar s.timebase b)) := by
  change execCharacterReceived p b s = _
  rw [execCharacterReceived, whenListening_of_high h hlow]

theorem exec_characterReceived_of_fresh (h : s.resetN = true) (hlow : (s.port p).low = none) {last : Tick}
    (hlast : (s.port p).framer.last = some last) (hfresh : elapsed last s.timebase ≤ 625000) (b : Byte) :
    exec (.characterReceived p b) s = .next (s.setPort p ((s.port p).takeChar s.timebase b)) := by
  rw [exec_characterReceived_of_high h hlow, expireGap_of_fresh hlast hfresh]

end

/-- Settles O50, by the framer's state. -/
theorem characterResult : Obligations.CharacterResult := by
  refine fun p b s h hlow => ⟨fun hhunt => ?_, fun last hlast hlate => ?_, fun last hfresh =>
    ⟨fun hf => ?_, fun low hf => ?_, fun length got hf => ?_, fun content hf => ?_, fun content low hf hcrc => ?_⟩⟩
  · rw [exec_characterReceived_of_high h hlow, expireGap_of_hunt hhunt, takeChar_hunt hhunt]
    split
    · rfl
    · rw [State.setPort_port]
  · rw [exec_characterReceived_of_high h hlow, expireGap_of_late hlast hlate, takeChar_hunt (x := (s.port p).discard) rfl]
    split <;> rfl
  · rw [exec_characterReceived_of_fresh h hlow (by rw [hf]; rfl) hfresh, takeChar_length_low hf]
  · rw [exec_characterReceived_of_fresh h hlow (by rw [hf]; rfl) hfresh, takeChar_length_high hf]
    rfl
  · rw [exec_characterReceived_of_fresh h hlow (by rw [hf]; rfl) hfresh, takeChar_content hf, grow_eq]
  · rw [exec_characterReceived_of_fresh h hlow (by rw [hf]; rfl) hfresh, takeChar_check_low hf]
  · rw [exec_characterReceived_of_fresh h hlow (by rw [hf]; rfl) hfresh, takeChar_check_high hf, crcMatches_eq_false hcrc]
    rfl

/-! ### FRAME_RECEIVED -/

theorem completes_of_match {x : PortState} {content : List Byte} {low high : Byte} {last now : Tick}
    (hf : x.framer = .check content (some low) last) (hcrc : crcMatches content low high = true)
    (hfresh : elapsed last now ≤ 625000) : x.completes now high = some content := by
  have hlate : (Framer.check content (some low) last).late now = false := late_of_fresh rfl hfresh
  rw [PortState.completes, hf]
  simp only [hcrc, hlate]
  rfl

theorem exec_frameReceived_of_match {p : Port} {s : State} (h : s.resetN = true) (hlow : (s.port p).low = none)
    {content : List Byte} {low high : Byte} {last : Tick} (hf : (s.port p).framer = .check content (some low) last)
    (hcrc : crcMatches content low high = true) (hfresh : elapsed last s.timebase ≤ 625000) :
    exec (.frameReceived p high) s = .next (s.setPort p ((s.port p).receive content)) := by
  change execFrameReceived p high s = _
  rw [execFrameReceived, whenListening_of_high h hlow, completes_of_match hf hcrc hfresh]

/-- Settles O51, by the room in the command queue and the dispatcher's idleness. -/
theorem frameReceivedResult : Obligations.FrameReceivedResult := by
  intro p high low type seq body last s h hlow hf hfresh hsum
  have hcrc : crcMatches (type :: seq :: body) low high = true := (crcMatches_iff _ _ _).mpr hsum
  rw [exec_frameReceived_of_match h hlow hf hcrc hfresh]
  refine ⟨?_, fun hroom hbusy => ?_, fun head rest hroom he hr hq => ?_, fun hfull => ?_⟩
  · rw [exec_characterReceived_of_fresh h hlow (by rw [hf]; rfl) hfresh, takeChar_check_high hf, if_pos hcrc]
  · rw [receive_of_busy rfl hroom (hbusy.imp Option.isSome_iff_ne_none.mpr Option.isSome_iff_ne_none.mpr)]
  · rw [receive_of_idle rfl hroom he hr hq]
  · rw [receive_of_full rfl hfull]

/-! ### FRAME_DISCARD and FRAME_GAP_TIMEOUT -/

theorem failsLength_of_length {x : PortState} {low high : Byte} {last now : Tick}
    (hf : x.framer = .length (some low) last) (hfresh : elapsed last now ≤ 625000)
    (hlength : low.toNat + 256 * high.toNat < 2 ∨ 1026 < low.toNat + 256 * high.toNat) :
    x.failsLength now high = true := by
  have hlate : (Framer.length (some low) last).late now = false := late_of_fresh rfl hfresh
  rw [PortState.failsLength, hf]
  simp only [hlate, (lengthOutOfRange_iff _).mpr hlength, leNat_two]
  rfl

theorem failsCrc_of_check {x : PortState} {content : List Byte} {low high : Byte} {last now : Tick}
    (hf : x.framer = .check content (some low) last) (hfresh : elapsed last now ≤ 625000)
    (hcrc : low.toNat + 256 * high.toNat ≠ (crc16 (le 2 content.length ++ content)).toNat) :
    x.failsCrc now high = true := by
  have hlate : (Framer.check content (some low) last).late now = false := late_of_fresh rfl hfresh
  rw [PortState.failsCrc, hf]
  simp only [hlate, crcMatches_eq_false hcrc]
  rfl

/-- What FRAME_DISCARD makes of a port, by its cause. -/
def discardBy (now : Tick) (x : PortState) : DiscardCause → PortState
  | .framingError since => x.framingError since
  | .lengthOutOfRange high => if x.failsLength now high then x.discard else x
  | .badCrc high => if x.failsCrc now high then x.discard else x

theorem exec_frameDiscard_of_high {p : Port} {s : State} (h : s.resetN = true) (hlow : (s.port p).low = none)
    (cause : DiscardCause) :
    exec (.frameDiscard p cause) s = .next (s.setPort p (discardBy s.timebase (s.port p) cause)) := by
  change execFrameDiscard p cause s = _
  rw [execFrameDiscard, whenListening_of_high h hlow]
  cases cause <;> rfl

theorem exec_frameGapTimeout_of_pending {p : Port} {s : State} (h : s.resetN = true)
    (hgap : (s.port p).framer.gapOver s.timebase = false) : exec (.frameGapTimeout p) s = .next s := by
  refine (whileReleased_of_released _ h).trans ?_
  rw [hgap]
  rfl

/-- Settles O52, by the cause of the discard. -/
theorem frameDiscards : Obligations.FrameDiscards := by
  refine fun p high low since last s h => ⟨fun hlow hframe => ?_, fun hlow hhunt => ?_, fun hlow hfresh hf hlength => ?_,
    fun content hlow hfresh hf hcrc => ?_, fun hlast hgap => ?_, fun hlast hgap => ?_, fun hhunt => ?_⟩
  · rw [exec_frameDiscard_of_high h hlow, discardBy, PortState.framingError, if_neg (by rwa [beq_iff_eq])]
    rfl
  · rw [exec_frameDiscard_of_high h hlow, discardBy, PortState.framingError, if_pos (by rwa [beq_iff_eq])]
  · rw [exec_frameDiscard_of_high h hlow, discardBy, failsLength_of_length hf hfresh hlength]
    rfl
  · rw [exec_frameDiscard_of_high h hlow, discardBy, failsCrc_of_check hf hfresh hcrc]
    rfl
  · refine (whileReleased_of_released _ h).trans ?_
    rw [gapOver_of_last hlast, if_pos (decide_eq_true hgap)]
    rfl
  · refine exec_frameGapTimeout_of_pending h ?_
    rw [gapOver_of_last hlast]
    exact decide_eq_false (Nat.not_le.mpr hgap)
  · refine exec_frameGapTimeout_of_pending h ?_
    rw [hhunt]
    rfl

end Sys2Proof.Machine
end

section
/-! A frame taken character by character (R155 to R157, R160, Table 10-3; logs 7 and 10). -/

namespace Sys2Proof.Machine

/-! ### Numbers in bytes -/

theorem le_length (n v : Nat) : (le n v).length = n := by
  induction n generalizing v with
  | zero => rfl
  | succ n ih => rw [le, List.length_cons, ih]

/-- A number below 2^16 and its two bytes. -/
theorem le_two_eq {v : Nat} {low high : Byte} (h : le 2 v = [low, high]) (hv : v < 65536) :
    low.toNat + 256 * high.toNat = v := by
  cases h
  rw [BitVec.toNat_ofNat, BitVec.toNat_ofNat]
  omega

/-! ### The characters of a frame -/

/-- A character with the Timebase value it comes at, as a framer takes it (R155, R156). -/
def takeArrival (x : PortState) (arrival : Byte × Tick) : PortState :=
  (x.expireGap arrival.2).takeChar arrival.2 arrival.1

/-- Two characters with no more than 625,000 ticks between them. -/
def Adjacent (first second : Byte × Tick) : Prop := elapsed first.2 second.2 ≤ 625000

section
variable {x : PortState} {arrival next : Byte × Tick}

theorem takeArrival_start (h : x.framer = .hunt) (hstart : arrival.1 = 0xC3#8) :
    takeArrival x arrival = { x with framer := .length none arrival.2 } := by
  rw [takeArrival, expireGap_of_hunt h, takeChar_hunt h, if_pos hstart]

theorem takeArrival_length_low (hnext : Adjacent arrival next) :
    takeArrival { x with framer := .length none arrival.2 } next =
      { x with framer := .length (some next.1) next.2 } := by
  rw [takeArrival, expireGap_of_fresh (x := { x with framer := .length none arrival.2 }) rfl hnext,
    takeChar_length_low (x := { x with framer := .length none arrival.2 }) rfl]

theorem takeArrival_length_high (hnext : Adjacent arrival next) {low : Byte} {length : Nat}
    (hsum : low.toNat + 256 * next.1.toNat = length) (hmin : 2 ≤ length) (hmax : length ≤ 1026) :
    takeArrival { x with framer := .length (some low) arrival.2 } next =
      { x with framer := .content length [] next.2 } := by
  rw [takeArrival, expireGap_of_fresh (x := { x with framer := .length (some low) arrival.2 }) rfl hnext,
    takeChar_length_high (x := { x with framer := .length (some low) arrival.2 }) rfl, hsum, if_neg (by omega)]

theorem takeArrival_content (hnext : Adjacent arrival next) {length : Nat} {got : List Byte} :
    takeArrival { x with framer := .content length got arrival.2 } next =
      { x with framer := Framer.grow length (got ++ [next.1]) next.2 } := by
  rw [takeArrival, expireGap_of_fresh (x := { x with framer := .content length got arrival.2 }) rfl hnext,
    takeChar_content (x := { x with framer := .content length got arrival.2 }) rfl]

theorem takeArrival_check_low (hnext : Adjacent arrival next) {content : List Byte} :
    takeArrival { x with framer := .check content none arrival.2 } next =
      { x with framer := .check content (some next.1) next.2 } := by
  rw [takeArrival, expireGap_of_fresh (x := { x with framer := .check content none arrival.2 }) rfl hnext,
    takeChar_check_low (x := { x with framer := .check content none arrival.2 }) rfl]

theorem takeArrival_check_high (hnext : Adjacent arrival next) {content : List Byte} {low : Byte}
    (hcrc : crcMatches content low next.1 = true) :
    takeArrival { x with framer := .check content (some low) arrival.2 } next =
      ({ x with framer := .check content (some low) arrival.2 } : PortState).receive content := by
  rw [takeArrival, expireGap_of_fresh (x := { x with framer := .check content (some low) arrival.2 }) rfl hnext,
    takeChar_check_high (x := { x with framer := .check content (some low) arrival.2 }) rfl, if_pos hcrc]

end

theorem grow_of_full {length : Nat} {got : List Byte} (h : got.length = length) (now : Tick) :
    Framer.grow length got now = .check got none now :=
  if_pos (beq_iff_eq.mpr h)

theorem grow_of_short {length : Nat} {got : List Byte} (h : got.length ≠ length) (now : Tick) :
    Framer.grow length got now = .content length got now :=
  if_neg (by rwa [beq_iff_eq])

/-- The rest of a frame's content and its first CRC byte, from any point inside the content: by induction on what is
still to come. -/
theorem foldl_takeArrival_content (x : PortState) (length : Nat) (low : Byte × Tick) (rest : List (Byte × Tick)) :
    ∀ (last : Byte × Tick) (got : List Byte), got.length + rest.length = length →
      (last :: (rest ++ [low])).IsChain Adjacent →
      (rest ++ [low]).foldl takeArrival { x with framer := Framer.grow length got last.2 } =
        { x with framer := .check (got ++ rest.map Prod.fst) (some low.1) low.2 } := by
  induction rest with
  | nil =>
    intro last got hlength hchain
    rw [grow_of_full hlength]
    simpa using takeArrival_check_low (List.isChain_cons_cons.mp hchain).1
  | cons next rest ih =>
    intro last got hlength hchain
    obtain ⟨hnext, hrest⟩ := List.isChain_cons_cons.mp hchain
    rw [List.length_cons] at hlength
    rw [grow_of_short (by omega), List.cons_append, List.foldl_cons, takeArrival_content hnext,
      ih next (got ++ [next.1]) (by simp; omega) hrest]
    simp

/-- The arrivals of a frame, part by part (Table 10-3). -/
theorem arrivals_of_frame {arrivals : List (Byte × Tick)} {content : List Byte}
    (h : arrivals.map Prod.fst = frameOf content) :
    ∃ start low high crcLow crcHigh rest, arrivals = start :: low :: high :: (rest ++ [crcLow, crcHigh]) ∧
      start.1 = 0xC3#8 ∧ le 2 content.length = [low.1, high.1] ∧ rest.map Prod.fst = content ∧
      le 2 (crc16 (lengthAndContent content)).toNat = [crcLow.1, crcHigh.1] := by
  obtain ⟨start, tail, rfl, hstart, htail⟩ := List.map_eq_cons_iff.mp h
  obtain ⟨front, crc, rfl, hfront, hcrc⟩ := List.map_eq_append_iff.mp htail
  obtain ⟨lengthBytes, rest, rfl, hlength, hrest⟩ := List.map_eq_append_iff.mp hfront
  have hlength2 := congrArg List.length hlength
  have hcrc2 := congrArg List.length hcrc
  rw [List.length_map, le_length] at hlength2 hcrc2
  obtain ⟨low, high, rfl⟩ := List.length_eq_two.mp hlength2
  obtain ⟨crcLow, crcHigh, rfl⟩ := List.length_eq_two.mp hcrc2
  exact ⟨start, low, high, crcLow, crcHigh, rest, rfl, hstart, hlength.symm, hrest, hcrc.symm⟩

/-- A whole frame is received with its last character. -/
theorem foldl_takeArrival_frame {x : PortState} {arrivals : List (Byte × Tick)} {content : List Byte}
    (hhunt : x.framer = .hunt) (hmin : 2 ≤ content.length) (hmax : content.length ≤ 1026)
    (h : arrivals.map Prod.fst = frameOf content) (hchain : arrivals.IsChain Adjacent) :
    ∃ f, arrivals.foldl takeArrival x = ({ x with framer := f } : PortState).receive content := by
  obtain ⟨start, low, high, crcLow, crcHigh, rest, rfl, hstart, hlength, hrest, hcrc⟩ := arrivals_of_frame h
  obtain ⟨hlow, hchain⟩ := List.isChain_cons_cons.mp hchain
  obtain ⟨hhigh, hchain⟩ := List.isChain_cons_cons.mp hchain
  have hsplit : high :: (rest ++ [crcLow, crcHigh]) = (high :: (rest ++ [crcLow])) ++ [crcHigh] := by simp
  rw [hsplit] at hchain
  obtain ⟨hcontent, -, hlast⟩ := List.isChain_append.mp hchain
  have hcrcHigh : Adjacent crcLow crcHigh := hlast crcLow (by rw [← List.cons_append, List.getLast?_concat]; rfl) crcHigh rfl
  have hgrow : (.content content.length [] high.2 : Framer) = Framer.grow content.length [] high.2 :=
    (grow_of_short (by simp; omega) high.2).symm
  have hmatch : crcMatches content crcLow.1 crcHigh.1 = true :=
    (crcMatches_iff ..).mpr (le_two_eq hcrc (BitVec.isLt _))
  refine ⟨.check content (some crcLow.1) crcLow.2, ?_⟩
  have happ : rest ++ [crcLow, crcHigh] = (rest ++ [crcLow]) ++ [crcHigh] := by simp
  have hcount : rest.length = content.length := by rw [← hrest, List.length_map]
  rw [List.foldl_cons, List.foldl_cons, List.foldl_cons, takeArrival_start hhunt hstart, takeArrival_length_low hlow,
    takeArrival_length_high hhigh (le_two_eq hlength (by omega)) hmin hmax, hgrow, happ, List.foldl_append,
    foldl_takeArrival_content x content.length crcLow rest high [] (by simpa using hcount) hcontent, hrest,
    List.nil_append, List.foldl_cons, takeArrival_check_high hcrcHigh hmatch, List.foldl_nil]

/-- The CRC of the nine characters, register value by register value (R157). -/
theorem crc16_nine_characters :
    crc16 [0x31#8, 0x32#8, 0x33#8, 0x34#8, 0x35#8, 0x36#8, 0x37#8, 0x38#8, 0x39#8] = 0x29B1#16 := by
  have h1 : crcByte 0xFFFF#16 0x31#8 = 51074#16 := by decide
  have h2 : crcByte 51074#16 0x32#8 = 15802#16 := by decide
  have h3 : crcByte 15802#16 0x33#8 = 23502#16 := by decide
  have h4 : crcByte 23502#16 0x34#8 = 21321#16 := by decide
  have h5 : crcByte 21321#16 0x35#8 = 17760#16 := by decide
  have h6 : crcByte 17760#16 0x36#8 = 12020#16 := by decide
  have h7 : crcByte 12020#16 0x37#8 = 30488#16 := by decide
  have h8 : crcByte 30488#16 0x38#8 = 41259#16 := by decide
  have h9 : crcByte 41259#16 0x39#8 = 0x29B1#16 := by decide
  rw [crc16, List.foldl_cons, h1, List.foldl_cons, h2, List.foldl_cons, h3, List.foldl_cons, h4, List.foldl_cons, h5,
    List.foldl_cons, h6, List.foldl_cons, h7, List.foldl_cons, h8, List.foldl_cons, h9, List.foldl_nil]

/-- Settles O53: a frame's characters, received with the last, hand over the command. -/
theorem frameRoundTrip : Obligations.FrameRoundTrip := by
  refine ⟨crc16_nine_characters, fun p b s h hlow => exec_characterReceived_of_high h hlow b,
    fun x arrivals c hhunt hroom hbody hframe hchain => ?_⟩
  obtain ⟨f, hfold⟩ := foldl_takeArrival_frame hhunt (by simp) (by simp only [List.length_cons]; omega) hframe hchain
  refine ⟨fun hbusy => hfold.trans ?_, fun head rest he hr hq => hfold.trans ?_⟩
  · rw [receive_of_busy (x := { x with framer := f }) rfl hroom
      (hbusy.imp Option.isSome_iff_ne_none.mpr Option.isSome_iff_ne_none.mpr), ← hhunt]
  · rw [receive_of_idle (x := { x with framer := f }) rfl hroom he hr hq, ← hhunt]

end Sys2Proof.Machine
end

section
/-! The port reset of a break and the end of a low period (R82, R139, R154, R163; logs 4, 12, 21, 25). -/

namespace Sys2Proof.Machine

/-! ### The session close of a port reset -/

/-- A frame that does not hold the head alert is left as it is. -/
theorem map_completing_of_unheld {sending : Option Transmission}
    (h : ∀ f, sending = some f → f.what ≠ .alert true) : sending.map completing = sending := by
  cases sending with
  | none => rfl
  | some f => rw [Option.map_some, completing, if_neg (h f rfl)]

theorem filter_of_foreign {α : Type} {x : Option α} {owner : α → Port} {p : Port}
    (h : ∀ a, x = some a → owner a ≠ p) : x.filter (fun a => owner a != p) = x := by
  cases x with
  | none => rfl
  | some a => rw [Option.filter_some, if_pos (bne_iff_ne.mpr (h a rfl))]

/-- The port's own part of a session close, also when the session is CLOSED already: a CLOSED port holds nothing
(R163, R164). -/
theorem closeIfOpen_port {s : State} (h : SessionLaw s) (p : Port) : (closeIfOpen p s).port p = { s.port p with
    isOpen := false
    alerts := []
    head := HeadAlert.none
    lostCount := 0
    mask := AlertMask.empty
    sending := (s.port p).sending.map completing } := by
  unfold closeIfOpen
  split
  · exact sessionClose_port p s
  · rename_i hopen
    have hclosed : (s.port p).isOpen = false := Bool.eq_false_iff.mpr hopen
    obtain ⟨-, -, -, -, halerts, hlost, hmask⟩ := h.closed p hclosed
    rw [map_completing_of_unheld ((h.alerts p).noFrame halerts), ← (h.alerts p).noHead halerts, ← hclosed, ← halerts,
      ← hlost, ← hmask]

theorem closeIfOpen_port_other (p : Port) (s : State) : (closeIfOpen p s).port p.other = s.port p.other := by
  unfold closeIfOpen
  split
  · exact sessionClose_port_other p s
  · rfl

/-- What a session close takes from a port, also when the session is CLOSED already (R82, R139, R163, R166). -/
theorem closeIfOpen_holdings {s : State} (h : SessionLaw s) (p : Port) :
    (∀ i, (closeIfOpen p s).probe i =
      { s.probe i with owner := if (s.probe i).owner = some p then none else (s.probe i).owner }) ∧
    (∀ k : Fin 4, (closeIfOpen p s).harv.slots[k] = s.harv.slots[k].filter (fun x => x.owner != p) ∧
      (closeIfOpen p s).harv.triggers[k] = s.harv.triggers[k].filter (fun x => x.owner != p)) ∧
    (closeIfOpen p s).mgmt.holder = (if s.mgmt.holder = some p then none else s.mgmt.holder) := by
  unfold closeIfOpen
  split
  · exact ⟨sessionClose_probe p s, fun k => ⟨sessionClose_slots p s k, sessionClose_triggers p s k⟩,
      sessionClose_holder p s⟩
  · rename_i hopen
    obtain ⟨hprobes, hslots, htriggers, hclaim, -⟩ := h.closed p (Bool.eq_false_iff.mpr hopen)
    refine ⟨fun i => by rw [if_neg (hprobes i)], fun k => ⟨(filter_of_foreign (hslots k)).symm,
      (filter_of_foreign (htriggers k)).symm⟩, (if_neg hclaim).symm⟩

/-- What no session close reaches. -/
theorem closeIfOpen_rest (p : Port) (s : State) :
    (closeIfOpen p s).harv.number = s.harv.number ∧ (closeIfOpen p s).mgmt.sessionCount = s.mgmt.sessionCount ∧
      (closeIfOpen p s).mgmt.undeliverable = s.mgmt.undeliverable ∧
      (closeIfOpen p s).bank.purge = s.bank.purge ∧ (closeIfOpen p s).trk = s.trk ∧
      (closeIfOpen p s).obs = s.obs ∧ (closeIfOpen p s).pool = s.pool ∧
      (closeIfOpen p s).timebase = s.timebase ∧ (closeIfOpen p s).baud = s.baud := by
  unfold closeIfOpen
  split
  · exact ⟨rfl, by cases p <;> rfl, by cases p <;> rfl, rfl, rfl, rfl, rfl, rfl, rfl⟩
  · exact ⟨rfl, rfl, rfl, rfl, rfl, rfl, rfl, rfl, rfl⟩

/-! ### The port reset -/

/-- A reply being sent is still one after the session close. -/
theorem any_completing_reply (sending : Option Transmission) :
    (sending.map completing).any (fun f => f.what == .reply) = true ↔ ∃ f, sending = some f ∧ f.what = .reply := by
  cases sending with
  | none => simp
  | some f =>
    simp only [Option.map_some, Option.any_some, beq_iff_eq, completing, Option.some.injEq, exists_eq_left']
    split <;> simp_all

theorem resetPort_port {s : State} (h : SessionLaw s) (p : Port) (l : LowPeriod) : (resetPort p l s).port p =
    { PortState.reset with
      low := some { l with resetTaken := true }
      sending := (s.port p).sending.map completing
      reply := if (∃ f, (s.port p).sending = some f ∧ f.what = .reply) then (s.port p).reply else none } := by
  rw [resetPort, State.port_setPort, closeIfOpen_port h, PortState.portReset]
  simp only [any_completing_reply]
  rfl

theorem resetPort_port_other (p : Port) (l : LowPeriod) (s : State) :
    (resetPort p l s).port p.other = s.port p.other :=
  (State.port_setPort_other ..).trans (closeIfOpen_port_other p s)

theorem holdsNothing_resetPort {s : State} (h : SessionLaw s) (p : Port) (l : LowPeriod) :
    HoldsNothing p (resetPort p l s) := by
  refine ClosedHoldNothing.resetPort h.closed p l p ?_
  rw [resetPort_port h]
  rfl

theorem resetDue_iff (l : LowPeriod) (now : Tick) :
    l.resetDue now = true ↔ l.resetTaken = false ∧ 125000 ≤ elapsed l.since now := by
  rw [LowPeriod.resetDue, Bool.and_eq_true, Bool.not_eq_true', decide_eq_true_iff]
  rfl

theorem resetDue_eq_false {l : LowPeriod} {now : Tick} (h : l.resetTaken = true ∨ elapsed l.since now < 125000) :
    l.resetDue now = false :=
  Bool.eq_false_iff.mpr fun hdue => by
    obtain ⟨htaken, hlong⟩ := (resetDue_iff l now).mp hdue
    exact h.elim (fun h => by rw [h] at htaken; cases htaken) (fun h => absurd hlong (Nat.not_le.mpr h))

section
variable {p : Port} {s : State} {l : LowPeriod}

theorem exec_characterReceived_of_low (h : s.resetN = true) (hl : (s.port p).low = some l) (b : Byte) :
    exec (.characterReceived p b) s = .next s := by
  change execCharacterReceived p b s = _
  rw [execCharacterReceived, whenListening_of_low h hl]

theorem exec_portReset_of_low (h : s.resetN = true) (hl : (s.port p).low = some l) :
    exec (.portReset p) s = .next (if l.resetDue s.timebase then resetPort p l s else s) := by
  change execPortReset p s = _
  rw [execPortReset, hl]
  exact whileReleased_of_released _ h

theorem exec_breakEnd_of_low (h : s.resetN = true) (hl : (s.port p).low = some l) :
    exec (.breakEnd p) s = .next (returnHigh p (if l.resetDue s.timebase then resetPort p l s else s)) := by
  change execBreakEnd p s = _
  rw [execBreakEnd, hl]
  exact whileReleased_of_released _ h

theorem exec_of_no_low (hnone : (s.port p).low = none) :
    exec (.portReset p) s = .next s ∧ exec (.breakEnd p) s = .next s := by
  change execPortReset p s = _ ∧ execBreakEnd p s = _
  rw [execPortReset, execBreakEnd, hnone]
  exact ⟨rfl, rfl⟩

end

/-- Settles O54: the port reset is a session close and the reset of the port's own part. -/
theorem portResetAndBreakEnd : Obligations.PortResetAndBreakEnd := by
  refine ⟨fun p s hnone => exec_of_no_low hnone, fun p l s h hl => ⟨fun b => ?_, fun hnot => ?_, fun hlaw htaken hlong => ?_⟩⟩
  · exact exec_characterReceived_of_low h hl b
  · have hdue := resetDue_eq_false hnot
    rw [exec_portReset_of_low h hl, exec_breakEnd_of_low h hl, hdue]
    exact ⟨rfl, rfl⟩
  · have hdue := (resetDue_iff l s.timebase).mpr ⟨htaken, hlong⟩
    obtain ⟨hprobes, hslots, hholder⟩ := closeIfOpen_holdings hlaw p
    obtain ⟨hnumber, hcount, hundeliverable, hrest⟩ := closeIfOpen_rest p s
    refine ⟨resetPort p l s, ?_, ?_, holdsNothing_resetPort hlaw p l, resetPort_port_other p l s, resetPort_port hlaw p l,
      hprobes, hslots, (setPort_holder ..).trans hholder, hnumber, (setPort_sessionCount ..).trans hcount,
      (setPort_undeliverable ..).trans hundeliverable, hrest⟩
    · rw [exec_portReset_of_low h hl, if_pos hdue]
    · rw [exec_breakEnd_of_low h hl, if_pos hdue]
      rfl

end Sys2Proof.Machine
end
